-- ==== Sys2Proof/Word.lean ====
section
/-!
DEFINITION. The word types of the BN6 (R6, R15, R17): 64-bit scalars, bytes, 16,384-bit vector registers, 2,048-bit masks.
-/

namespace Sys2Proof

/-- A scalar register or a CSR (R15, R25). -/
abbrev Word := BitVec 64

/-- The smallest addressable unit of memory. -/
abbrev Byte := BitVec 8

/-- A vector register of one hart slot: 2,048 bytes (R17). -/
abbrev VReg := BitVec 16384

/-- A mask register of one hart slot: one bit for each 8-bit element (R19). -/
abbrev KReg := BitVec 2048

end Sys2Proof
end

