-- ==== Sys2Proof/Config.lean ====
section
/-!
DEFINITION. What an implementation fixes and what the manual leaves open. Every constant here has no body: nothing in Lean
can evaluate it, so a statement about it holds whatever it is. Those that take a number are applied to the counter that
`State.clock` holds, and so give a fresh value at each use (log entries 2 and 6).
-/

namespace Sys2Proof.Config

/-- Cycles by which a core's CYCLE has moved on when it is read at this index (R26). -/
opaque freeCycles : Nat → Nat

/-- Cycles of a strip from the index at which it opened to the index of now: a strip record's CYCLES, LONGSTRIP's EVAL
(R203, R356). -/
opaque stripCycles : Nat → Nat → Nat

/-- The AQBUSY and MEMBUSY fields of a strip record (R356). -/
opaque freeBusy : Nat → BitVec 32

/-- The memory slices that are harvested on a die, of which at most two count (R3). -/
opaque harvested : BitVec 1 → List Nat

/-- How many steps an inbound copy filled at this index stays in its store before it is evicted (R220). -/
opaque copyLife : Nat → Nat

/-- The first-stage image in boot flash: the header bytes and the body as Primer reads them (R372); none when the flash
cannot be read. -/
opaque bootImage : Option (List (BitVec 8))

/-- What vector register `i` of a slot holds when a hart starts there at this index: no rule says (R17, R273). -/
opaque startVector : Nat → BitVec 11 → Fin 32 → VReg

/-- Whether an uncorrectable error occurs while Primer clears package memory at the power-on of this index (R372). -/
opaque clearFails : Nat → Bool

/-- GMETA of a context image, from the address and the owner of the Grout tile, when its hart owns one: the manual does not print
the places of its fields (Table trap.8). -/
opaque groutMeta : Option (Nat × BitVec 11) → BitVec 128

/-- The 16 bytes of a promotion log entry, from its 2 KiB granule, the sectors of it that the set holds, and the level and core of the
release: the manual does not print the places of its fields (R284). -/
opaque promoEntry : Nat → BitVec 64 → Nat → BitVec 10 → BitVec 128

/-- SHA-512 of a list of bytes (R372). -/
opaque sha512 : List (BitVec 8) → BitVec 512

/-- Whether an ECDSA P-521 signature (the second argument) by a public key (the first) verifies over a digest (R372). -/
opaque ecdsaVerify : List (BitVec 8) → List (BitVec 8) → BitVec 512 → Bool

/-- A signature by the device identity key over a message (R373). -/
opaque deviceSign : List (BitVec 8) → List (BitVec 8)

/-- The certificate chain of slot 0 (R373). -/
opaque certChain : List (BitVec 8)

/-- The key hash fused in the part (R372). -/
opaque fusedKeyHash : BitVec 512

/-- The security version fused in the part (R372). -/
opaque fusedSvn : Nat

/-- The VERSION and CAPABILITIES fields of the responder that the manual does not print (R373). -/
opaque spdmCaps : List (BitVec 8)

/-- Whether the host completes a device read of a location with an error status, at a clock index (R368). -/
opaque hostReadError : Nat → Nat → Bool

end Sys2Proof.Config
end

