-- ==== Sys2Proof/Syntax.lean ====
section
/-!
DEFINITION. The instructions and events of the Ouvette instruction set as one inductive: one constructor for each row of
the opcode table, in its order. Scalar operands are the fields of R59 to R65, element operands the fields of R66, and the
operands of an event say which of the pending pieces of work it acts on.
-/

namespace Sys2Proof

/-- The fields [53:0] of an element instruction (R66); the opcode [63:54] is the constructor's. -/
structure EWord where
  /-- [53:49] -/
  vd : BitVec 5
  /-- [48:44] -/
  va : BitVec 5
  /-- [43:39] -/
  vb : BitVec 5
  /-- [38:34] -/
  vc : BitVec 5
  /-- [33:31], the mask register -/
  mask : BitVec 3
  /-- [30], the mask invert bit -/
  inv : BitVec 1
  /-- [29:26], the stall count -/
  stall : BitVec 4
  /-- [25:23], the element type -/
  ty : BitVec 3
  /-- [22:20], the rounding mode or variant -/
  rnd : BitVec 3
  /-- [19:16], the function bits -/
  func : BitVec 4
  /-- [15:0], immediate or scalar -/
  imm : BitVec 16
  deriving DecidableEq, Repr

/-- An address in the package's own arrays, as a core reaches it (R348, R349). -/
structure ArrayAddress where
  core : BitVec 10
  pa : BitVec 52
  deriving DecidableEq, Repr

/-- What an uncorrectable error strikes (R348, R349): data at an address, what a hart holds, or an inbound copy of the sector there; and
the hart whose access met it, if one did. -/
structure ErrorSite where
  place : ArrayAddress
  access : Option (BitVec 11)
  holder : Option (BitVec 11)
  copy : Bool
  deriving DecidableEq, Repr

/-- What a die-to-die link error met (R371, R349): the address of the data, and the hart whose access it was, if one's. -/
structure LinkSite where
  pa : BitVec 52
  access : Option (BitVec 11)
  deriving DecidableEq, Repr

/-- Where a host reads (R364): through a port, in BAR0 or else in BAR2, at an offset. -/
structure HostAddress where
  port : BitVec 1
  bar0 : Bool
  off : BitVec 40
  deriving DecidableEq, Repr

/-- One constructor for each row of the opcode table. -/
inductive Instr where
  /-- ADD (R92): Writes the wrapped sum of two scalar registers to rd. -/
  | add (rd : BitVec 5) (ra : BitVec 5) (rb : BitVec 5)
  /-- SUB (R92): Writes the wrapped difference of two scalar registers to rd. -/
  | sub (rd : BitVec 5) (ra : BitVec 5) (rb : BitVec 5)
  /-- MUL (R92): Writes bits 63:0 of the product of two scalar registers to rd. -/
  | mul (rd : BitVec 5) (ra : BitVec 5) (rb : BitVec 5)
  /-- MULH (R92): Writes bits 127:64 of the signed product to rd. -/
  | mulh (rd : BitVec 5) (ra : BitVec 5) (rb : BitVec 5)
  /-- MULHN (R92): Writes bits 127:64 of the unsigned product to rd. -/
  | mulhn (rd : BitVec 5) (ra : BitVec 5) (rb : BitVec 5)
  /-- DIV (R93): Writes the signed quotient truncated toward zero, never trapping on a zero divisor. -/
  | div (rd : BitVec 5) (ra : BitVec 5) (rb : BitVec 5)
  /-- DIVN (R93): Writes the unsigned quotient, giving all ones for a zero divisor. -/
  | divn (rd : BitVec 5) (ra : BitVec 5) (rb : BitVec 5)
  /-- REM (R93): Writes the signed remainder with the sign of the dividend. -/
  | rem (rd : BitVec 5) (ra : BitVec 5) (rb : BitVec 5)
  /-- REMN (R93): Writes the unsigned remainder, giving the dividend for a zero divisor. -/
  | remn (rd : BitVec 5) (ra : BitVec 5) (rb : BitVec 5)
  /-- AND (R92): Writes the bitwise AND of two scalar registers. -/
  | and (rd : BitVec 5) (ra : BitVec 5) (rb : BitVec 5)
  /-- OR (R92): Writes the bitwise OR of two scalar registers. -/
  | or (rd : BitVec 5) (ra : BitVec 5) (rb : BitVec 5)
  /-- XOR (R92): Writes the bitwise XOR of two scalar registers. -/
  | xor (rd : BitVec 5) (ra : BitVec 5) (rb : BitVec 5)
  /-- ANDN (R92): Writes a AND NOT b. -/
  | andn (rd : BitVec 5) (ra : BitVec 5) (rb : BitVec 5)
  /-- SLL (R92): Shifts a left by the low six bits of b. -/
  | sll (rd : BitVec 5) (ra : BitVec 5) (rb : BitVec 5)
  /-- SRL (R92): Shifts a right logically by the low six bits of b. -/
  | srl (rd : BitVec 5) (ra : BitVec 5) (rb : BitVec 5)
  /-- SRA (R92): Shifts a right arithmetically by the low six bits of b. -/
  | sra (rd : BitVec 5) (ra : BitVec 5) (rb : BitVec 5)
  /-- MIN (R92): Writes the signed minimum of two registers. -/
  | min (rd : BitVec 5) (ra : BitVec 5) (rb : BitVec 5)
  /-- MAX (R92): Writes the signed maximum of two registers. -/
  | max (rd : BitVec 5) (ra : BitVec 5) (rb : BitVec 5)
  /-- MINN (R92): Writes the unsigned minimum of two registers. -/
  | minn (rd : BitVec 5) (ra : BitVec 5) (rb : BitVec 5)
  /-- MAXN (R92): Writes the unsigned maximum of two registers. -/
  | maxn (rd : BitVec 5) (ra : BitVec 5) (rb : BitVec 5)
  /-- CLZ (R95): Counts leading zero bits of a register. -/
  | clz (rd : BitVec 5) (ra : BitVec 5)
  /-- CTZ (R95): Counts trailing zero bits of a register. -/
  | ctz (rd : BitVec 5) (ra : BitVec 5)
  /-- POPC (R95): Counts the one bits of a register. -/
  | popc (rd : BitVec 5) (ra : BitVec 5)
  /-- SEXT (R95): Sign-extends the low byte, half, word or doubleword of a register. -/
  | sext (rd : BitVec 5) (ra : BitVec 5) (sz : BitVec 2)
  /-- ZEXT (R95): Zero-extends the low byte, half, word or doubleword of a register. -/
  | zext (rd : BitVec 5) (ra : BitVec 5) (sz : BitVec 2)
  /-- BSWAP (R95): Reverses the bytes of the low part of a register, zero-extended. -/
  | bswap (rd : BitVec 5) (ra : BitVec 5) (sz : BitVec 2)
  /-- CMP (R96): Sets a condition bit by comparing two scalar registers under a chosen condition. -/
  | cmp (rd : BitVec 3) (ra : BitVec 5) (rb : BitVec 5) (k : BitVec 3)
  /-- CAND (R97): ANDs two condition bits. -/
  | cand (rd : BitVec 3) (ra : BitVec 3) (rb : BitVec 3)
  /-- COR (R97): ORs two condition bits. -/
  | cor (rd : BitVec 3) (ra : BitVec 3) (rb : BitVec 3)
  /-- CXOR (R97): XORs two condition bits. -/
  | cxor (rd : BitVec 3) (ra : BitVec 3) (rb : BitVec 3)
  /-- CNOT (R97): Inverts a condition bit. -/
  | cnot (rd : BitVec 3) (ra : BitVec 3)
  /-- CSEL (R97): Selects one of two scalar registers by a condition bit. -/
  | csel (rd : BitVec 5) (ra : BitVec 5) (rb : BitVec 5) (c : BitVec 3)
  /-- ADDI (R94): Adds a sign-extended 15-bit immediate to a register. -/
  | addi (rd : BitVec 5) (ra : BitVec 5) (imm : BitVec 15)
  /-- ANDI (R94): ANDs a register with a zero-extended immediate. -/
  | andi (rd : BitVec 5) (ra : BitVec 5) (imm : BitVec 15)
  /-- ORI (R94): ORs a register with a zero-extended immediate. -/
  | ori (rd : BitVec 5) (ra : BitVec 5) (imm : BitVec 15)
  /-- XORI (R94): XORs a register with a zero-extended immediate. -/
  | xori (rd : BitVec 5) (ra : BitVec 5) (imm : BitVec 15)
  /-- SLLI (R94): Shifts a register left by an immediate amount. -/
  | slli (rd : BitVec 5) (ra : BitVec 5) (s : BitVec 6)
  /-- SRLI (R94): Shifts a register right logically by an immediate amount. -/
  | srli (rd : BitVec 5) (ra : BitVec 5) (s : BitVec 6)
  /-- SRAI (R94): Shifts a register right arithmetically by an immediate amount. -/
  | srai (rd : BitVec 5) (ra : BitVec 5) (s : BitVec 6)
  /-- LUI (R94): Writes a sign-extended 20-bit immediate shifted left by 12. -/
  | lui (rd : BitVec 5) (imm : BitVec 20)
  /-- ADDPC (R94): Writes PC plus a shifted 20-bit immediate. -/
  | addpc (rd : BitVec 5) (imm : BitVec 20)
  /-- CMPI_EQ (R96): Sets a condition bit when a register equals a sign-extended immediate. -/
  | cmpiEq (rd : BitVec 3) (ra : BitVec 5) (imm : BitVec 15)
  /-- CMPI_NE (R96): Sets a condition bit when a register differs from an immediate. -/
  | cmpiNe (rd : BitVec 3) (ra : BitVec 5) (imm : BitVec 15)
  /-- CMPI_LT (R96): Sets a condition bit on a signed less-than against an immediate. -/
  | cmpiLt (rd : BitVec 3) (ra : BitVec 5) (imm : BitVec 15)
  /-- CMPI_GE (R96): Sets a condition bit on a signed greater-or-equal against an immediate. -/
  | cmpiGe (rd : BitVec 3) (ra : BitVec 5) (imm : BitVec 15)
  /-- CMPI_LTN (R96): Sets a condition bit on an unsigned less-than against a sign-extended immediate. -/
  | cmpiLtn (rd : BitVec 3) (ra : BitVec 5) (imm : BitVec 15)
  /-- CMPI_GEN (R96): Sets a condition bit on an unsigned greater-or-equal against a sign-extended immediate. -/
  | cmpiGen (rd : BitVec 3) (ra : BitVec 5) (imm : BitVec 15)
  /-- BT (R98): Branches PC-relative when the named condition bit is 1. -/
  | bt (c : BitVec 3) (off : BitVec 21)
  /-- BF (R98): Branches PC-relative when the named condition bit is 0. -/
  | bf (c : BitVec 3) (off : BitVec 21)
  /-- J (R98): Jumps PC-relative unconditionally. -/
  | j (off : BitVec 25)
  /-- JAL (R98): Jumps PC-relative and writes PC + 4 to s31. -/
  | jal (off : BitVec 25)
  /-- JALR (R99): Jumps to a register plus offset, trapping MISALIGN on an unaligned target, and writes PC + 4 to rd. -/
  | jalr (rd : BitVec 5) (ra : BitVec 5) (imm : BitVec 15)
  /-- LD (R102): Loads a sized value, forwarding from the strip store buffer or reading Visible, and may fault and abort the strip. -/
  | ld (rd : BitVec 5) (ra : BitVec 5) (v : BitVec 3) (off : BitVec 12)
  /-- LD_P (R103): Probe load that reports an un-turned read through c1 instead of trapping UNTURNED. -/
  | ldP (rd : BitVec 5) (ra : BitVec 5) (v : BitVec 3) (off : BitVec 12)
  /-- ST (R104): Buffers a sized store in the strip store buffer against the store budget. -/
  | st (rd : BitVec 5) (ra : BitVec 5) (v : BitVec 2) (off : BitVec 12)
  /-- LDX (R102): Loads from the sum of two registers. -/
  | ldx (rd : BitVec 5) (ra : BitVec 5) (rb : BitVec 5) (s : BitVec 3)
  /-- LDX_P (R103): Probe load from the sum of two registers. -/
  | ldxP (rd : BitVec 5) (ra : BitVec 5) (rb : BitVec 5) (s : BitVec 3)
  /-- STX (R104): Buffers a store to the sum of two registers. -/
  | stx (rd : BitVec 5) (ra : BitVec 5) (rb : BitVec 5) (s : BitVec 2)
  /-- LDF (R111): Splits the strip and waits at the home until the tagged word is full, then reads it. -/
  | ldf (rd : BitVec 5) (ra : BitVec 5)
  /-- LDFE (R111): Splits the strip, waits for full, reads the word and sets it empty. -/
  | ldfe (rd : BitVec 5) (ra : BitVec 5)
  /-- STF (R110): Splits the strip, turns the hart's writes to LN, then stores the word at its home and sets it full. -/
  | stf (rd : BitVec 5) (ra : BitVec 5) (lv : BitVec 3)
  /-- STE (R109): Splits the strip and sets a tagged word empty at its home. -/
  | ste (ra : BitVec 5)
  /-- FETAG (R109): Splits the strip and reads the full/empty tag of a word without waiting. -/
  | fetag (rd : BitVec 5) (ra : BitVec 5)
  /-- AMO (R113): Splits the strip, optionally releases, applies an atomic operation at the home and returns the old value. -/
  | amo (rd : BitVec 5) (ra : BitVec 5) (rb : BitVec 5) (wd : BitVec 1) (lv : BitVec 3) (rel : BitVec 1) (acq : BitVec 1) (op : BitVec 4)
  /-- CAS (R114): Splits the strip and compares and swaps a word at its home. -/
  | cas (rd : BitVec 5) (ra : BitVec 5) (rb : BitVec 5) (wd : BitVec 1) (lv : BitVec 3) (rel : BitVec 1) (acq : BitVec 1)
  /-- TAKENUM (R117): Splits the strip and admits a token to counting network n, stalling while the network is closed. -/
  | takenum (rd : BitVec 5) (n : BitVec 4)
  /-- SCALAR_HINT (R72): Executes as nop whatever its other bits hold. -/
  | scalarHint (h : BitVec 3) (x : BitVec 25)
  /-- ILLEGAL (R71): An unassigned or malformed scalar word traps ILLEGAL at every level. -/
  | illegal (w : BitVec 32)
  /-- SETVL (R174): Waits for the strip's blocks, commits it, takes the lane grant and opens the next strip with the granted VL. -/
  | setvl (rd : BitVec 5) (ra : BitVec 5)
  /-- SETTYPE (R175): Writes VTYPE and returns the resulting VLMAX. -/
  | settype (rd : BitVec 5) (ra : BitVec 5)
  /-- SLIP (R175): Sets SLIPD.DEPTH, bounding LQ run-ahead. -/
  | slip (n : BitVec 3)
  /-- VSYNC (R175): Waits until every earlier block has completed in all queues. -/
  | vsync
  /-- VTEST (R177): Waits for the mask's writer and sets a condition bit from its bits below VL. -/
  | vtest (rd : BitVec 3) (ra : BitVec 3) (c : BitVec 2)
  /-- VGET (R177): Reads OSMAX, OSSUM or OSCALE into a scalar register. -/
  | vget (rd : BitVec 5) (wd : BitVec 2)
  /-- GANG (R178): Waits until g harts arrive and joins them into one gang. -/
  | gang (g : BitVec 2)
  /-- UNGANG (R178): Ends the leader's gang and returns every member to width 1. -/
  | ungang
  /-- VFETCH (R176): Fetches and predecodes an element block, snapshots its operands and runs it over VL for its repeats. -/
  | vfetch (rd : BitVec 5) (ra : BitVec 5) (imm : BitVec 15)
  /-- SBIND (R180): Reads a stream record and binds it to a vector register. -/
  | sbind (rd : BitVec 5) (ra : BitVec 5)
  /-- SDROP (R180): Removes the stream binding of a vector register. -/
  | sdrop (ra : BitVec 5)
  /-- SPOS (R180): Reads the slice position of a stream binding. -/
  | spos (rd : BitVec 5) (ra : BitVec 5)
  /-- SPOS_W (R180): Sets the slice position of a stream binding. -/
  | sposW (ra : BitVec 5) (rb : BitVec 5)
  /-- MMA (R182): Splits the strip and issues a scaled matrix multiply-accumulate into a tile on TLMX. -/
  | mma (rd : BitVec 5) (ra : BitVec 5) (t : BitVec 1)
  /-- MSLIDE (R182): Issues a sliding one-dimensional filter product into a tile. -/
  | mslide (rd : BitVec 5) (ra : BitVec 5) (t : BitVec 1)
  /-- MZERO (R183): Issues a command that zeroes an accumulator tile. -/
  | mzero (rd : BitVec 5) (t : BitVec 1)
  /-- MFILL (R183): Issues a command that loads FP32 values into a tile. -/
  | mfill (rd : BitVec 5) (ra : BitVec 5) (t : BitVec 1)
  /-- MDRAIN (R183): Issues a command that narrows a tile RTZ to memory and turns it to L. -/
  | mdrain (rd : BitVec 5) (ra : BitVec 5) (lv : BitVec 3) (t : BitVec 1)
  /-- MCONST (R183): Issues a supervisor matrix command against a hardware constant operand. -/
  | mconst (rd : BitVec 5) (ra : BitVec 5) (k : BitVec 2) (t : BitVec 1)
  /-- DMOV (R185): Issues a strided copy on the copy engine on TLDM. -/
  | dmov (rd : BitVec 5) (ra : BitVec 5) (lv : BitVec 3)
  /-- DMOV_MX (R186): Issues a copy with a follow-on matrix product, reserving TLDM and TLMX tickets. -/
  | dmovMx (rd : BitVec 5) (ra : BitVec 5) (lv : BitVec 3)
  /-- DCONV (R185): Issues a converting copy on the copy engine. -/
  | dconv (rd : BitVec 5) (ra : BitVec 5) (lv : BitVec 3)
  /-- TURN (R190): Splits the strip and synchronously turns every sector of a range to level L, interruptibly. -/
  | turn (ra : BitVec 5) (rb : BitVec 5) (lv : BitVec 3)
  /-- TURN_A (R190): Hands a range turn to the Trowel unit and returns a TLTN ticket. -/
  | turnA (rd : BitVec 5) (ra : BitVec 5) (rb : BitVec 5) (lv : BitVec 3)
  /-- TURN_ALL (R190): Synchronously turns the hart's whole write set to level L. -/
  | turnAll (lv : BitVec 3)
  /-- TURN_A_ALL (R190): Hands a whole-write-set turn to the Trowel unit with a TLTN ticket. -/
  | turnAAll (rd : BitVec 5) (lv : BitVec 3)
  /-- TSTATE (R191): Reads the turn state of a sector at its home. -/
  | tstate (rd : BitVec 5) (ra : BitVec 5)
  /-- TWAIT (R189): Parks until a timeline counter reaches a ticket, delivering held engine reports, and acts as an acquire. -/
  | twait (ra : BitVec 5) (t : BitVec 2)
  /-- TREAD (R189): Reads a timeline counter without waiting. -/
  | tread (rd : BitVec 5) (t : BitVec 2)
  /-- KVTRUNC (R325): Truncates a session's cache to a position and revokes later samples. -/
  | kvtrunc (rd : BitVec 5) (ra : BitVec 5) (rb : BitVec 5)
  /-- STEPBUILD (R322): Has the session sequencer apply frames, choose tokens under a budget and write a step manifest. -/
  | stepbuild (rd : BitVec 5) (ra : BitVec 5) (rb : BitVec 5)
  /-- CURSET (R192): Reads a session cursor G, P or F. -/
  | curset (rd : BitVec 5) (ra : BitVec 5) (c : BitVec 2)
  /-- CURSET_W (R192): Writes a session cursor, keeping F <= P <= G. -/
  | cursetW (ra : BitVec 5) (rb : BitVec 5) (c : BitVec 2)
  /-- FRAMEQ (R192): Reads a session's I/O page pointer. -/
  | frameq (rd : BitVec 5) (ra : BitVec 5)
  /-- FRAMEQ_W (R192): Writes a session's I/O page pointer, effective at the next build. -/
  | frameqW (ra : BitVec 5) (rb : BitVec 5)
  /-- TSPAWN (R279): Turns a TCB to L3 and registers it with the task system. -/
  | tspawn (ra : BitVec 5)
  /-- TDONE (R193): Waits for outstanding commands, turns the write set, decrements successors, writes the completion record and ends the hart. -/
  | tdone (lv : BitVec 3)
  /-- TARM (R193): Re-arms a DONE TCB with its initial counter. -/
  | tarm (ra : BitVec 5)
  /-- TARM_R (R285): Queues a FAULTED task again as READY. -/
  | tarmR (ra : BitVec 5)
  /-- TYIELD (R193): Switches the core to the other slot when it is READY. -/
  | tyield
  /-- TCANCEL (R193): Cancels a TCB that is not RUNNING or DONE. -/
  | tcancel (ra : BitVec 5)
  /-- TCANCEL_C (R193): Cancels a TCB and all its successors transitively. -/
  | tcancelC (ra : BitVec 5)
  /-- EVREAD (R193): Takes the oldest event record of the core's queue, or zeros when empty. -/
  | evread (rd : BitVec 5)
  /-- EVWAIT (R193): Takes the oldest event record, parking while the queue is empty. -/
  | evwait (rd : BitVec 5)
  /-- LQUERY (R193): Reports the core's lane grant, free lane sets and next grant. -/
  | lquery (rd : BitVec 5)
  /-- TRAP (R194): Splits the strip and takes SYSCALL with code n. -/
  | trap (n : BitVec 6)
  /-- BRK (R194): Splits the strip and takes BREAK with code n. -/
  | brk (n : BitVec 6)
  /-- ERET (R194): Returns from a trap to EPC and EIX at the previous privilege level. -/
  | eret
  /-- CTXSAVE (R196): Saves the other slot's hart to its save area as a context image and frees the slot. -/
  | ctxsave (ra : BitVec 5)
  /-- CTXLOAD (R309): Loads a context image into a FREE slot, making it READY. -/
  | ctxload (ra : BitVec 5) (rb : BitVec 5)
  /-- CNSAVE (R335): Writes a closed counting network's 256-byte image. -/
  | cnsave (ra : BitVec 5) (m : BitVec 4)
  /-- CNLOAD (R335): Loads an image into a closed counting network and clears TORN. -/
  | cnload (ra : BitVec 5) (m : BitVec 4)
  /-- CNCLOSE (R335): Stops admission to a counting network and returns when it has drained. -/
  | cnclose (m : BitVec 4)
  /-- CNOPEN (R335): Admits tokens to a counting network again unless it is TORN. -/
  | cnopen (m : BitVec 4)
  /-- RSTOP (R198): Stops or releases a descendant region and its descendants. -/
  | rstop (ra : BitVec 5) (rb : BitVec 5)
  /-- CSRR (R195): Reads a CSR. -/
  | csrr (rd : BitVec 5) (c : BitVec 12)
  /-- CSRW (R195): Writes a CSR and returns its old value. -/
  | csrw (rd : BitVec 5) (ra : BitVec 5) (c : BitVec 12)
  /-- CSRS (R195): Sets bits of a CSR and returns its old value. -/
  | csrs (rd : BitVec 5) (ra : BitVec 5) (c : BitVec 12)
  /-- CSRC (R195): Clears bits of a CSR and returns its old value. -/
  | csrc (rd : BitVec 5) (ra : BitVec 5) (c : BitVec 12)
  /-- VADD (R125): Adds active integer elements, wrapping or saturating. -/
  | vadd (e : EWord)
  /-- VSUB (R125): Subtracts active integer elements. -/
  | vsub (e : EWord)
  /-- VADC (R126): Adds with carry-in from a mask and writes carry-outs to a mask for every element below VL. -/
  | vadc (e : EWord)
  /-- VSBC (R126): Subtracts with borrow from a mask and writes carry-outs for every element below VL. -/
  | vsbc (e : EWord)
  /-- VMUL (R125): Multiplies active integer elements. -/
  | vmul (e : EWord)
  /-- VMULH (R125): Writes the high half of integer element products. -/
  | vmulh (e : EWord)
  /-- VMAC (R125): Multiplies and accumulates integer elements with one final wrap or saturation. -/
  | vmac (e : EWord)
  /-- VAND (R125): ANDs integer elements. -/
  | vand (e : EWord)
  /-- VOR (R125): ORs integer elements. -/
  | vor (e : EWord)
  /-- VXOR (R125): XORs integer elements. -/
  | vxor (e : EWord)
  /-- VANDN (R125): Computes a AND NOT b on integer elements. -/
  | vandn (e : EWord)
  /-- VSLL (R125): Shifts integer elements left. -/
  | vsll (e : EWord)
  /-- VSRL (R125): Shifts integer elements right logically. -/
  | vsrl (e : EWord)
  /-- VSRA (R125): Shifts integer elements right arithmetically. -/
  | vsra (e : EWord)
  /-- VMIN (R125): Takes the signed minimum of elements. -/
  | vmin (e : EWord)
  /-- VMAX (R125): Takes the signed maximum of elements. -/
  | vmax (e : EWord)
  /-- VMINN (R125): Takes the unsigned minimum of elements. -/
  | vminn (e : EWord)
  /-- VMAXN (R125): Takes the unsigned maximum of elements. -/
  | vmaxn (e : EWord)
  /-- VABS (R125): Takes the absolute value of integer elements. -/
  | vabs (e : EWord)
  /-- VNEG (R125): Negates integer elements. -/
  | vneg (e : EWord)
  /-- VCMP (R127): Compares elements and writes the results into a mask. -/
  | vcmp (e : EWord)
  /-- VCLASS (R128): Writes the floating class code of each element. -/
  | vclass (e : EWord)
  /-- VFADD (R129): Adds floating elements with one rounding. -/
  | vfadd (e : EWord)
  /-- VFSUB (R129): Subtracts floating elements with one rounding. -/
  | vfsub (e : EWord)
  /-- VFMUL (R129): Multiplies floating elements with one rounding. -/
  | vfmul (e : EWord)
  /-- VFMA (R130): Fused multiply-add of floating elements in one of four sign forms. -/
  | vfma (e : EWord)
  /-- VFDIV (R129): Divides floating elements, correctly rounded. -/
  | vfdiv (e : EWord)
  /-- VFSQRT (R129): Takes the correctly rounded square root of floating elements. -/
  | vfsqrt (e : EWord)
  /-- VFMIN (R131): Takes the floating minimum with the NaN rules. -/
  | vfmin (e : EWord)
  /-- VFMAX (R131): Takes the floating maximum with the NaN rules. -/
  | vfmax (e : EWord)
  /-- VFEXP2 (R132): Computes 2^x in FP32 by the fixed table and polynomial algorithm. -/
  | vfexp2 (e : EWord)
  /-- VFABS (R129): Takes the absolute value of floating elements. -/
  | vfabs (e : EWord)
  /-- VFNEG (R129): Negates floating elements. -/
  | vfneg (e : EWord)
  /-- VCVT (R133): Converts elements between any two element types. -/
  | vcvt (e : EWord)
  /-- KAND (R134): ANDs two masks. -/
  | kand (e : EWord)
  /-- KOR (R134): ORs two masks. -/
  | kor (e : EWord)
  /-- KXOR (R134): XORs two masks. -/
  | kxor (e : EWord)
  /-- KANDN (R134): Computes A AND NOT B of masks. -/
  | kandn (e : EWord)
  /-- KNOT (R134): Inverts a mask. -/
  | knot (e : EWord)
  /-- KMOV (R134): Copies a mask. -/
  | kmov (e : EWord)
  /-- KSHUP (R135): Shifts a mask up one element, optionally inserting c1 at bit 0. -/
  | kshup (e : EWord)
  /-- KSHDN (R135): Shifts a mask down one element. -/
  | kshdn (e : EWord)
  /-- KSET (R136): Sets mask bits below n. -/
  | kset (e : EWord)
  /-- KPOPC (R137): Writes the count of active set mask bits to a scalar register. -/
  | kpopc (e : EWord)
  /-- KFIRST (R137): Writes the lowest active set mask bit index to a scalar register. -/
  | kfirst (e : EWord)
  /-- KLAST (R137): Writes the highest active set mask bit index to a scalar register. -/
  | klast (e : EWord)
  /-- VREDSUM (R138): Sums active elements by the fixed tree plus a seed into element 0. -/
  | vredsum (e : EWord)
  /-- VREDMAX (R138): Reduces active elements and a seed to their maximum. -/
  | vredmax (e : EWord)
  /-- VREDMIN (R138): Reduces active elements and a seed to their minimum. -/
  | vredmin (e : EWord)
  /-- VMERGE (R139): Selects per element between a register and operand B by the mask. -/
  | vmerge (e : EWord)
  /-- VOSM (R140): Folds a slice of scores into the online soft-maximum state and writes weights. -/
  | vosm (e : EWord)
  /-- VFNORM (R141): Divides active elements by OSSUM. -/
  | vfnorm (e : EWord)
  /-- VLD (R148): Loads contiguous elements after probing every active element. -/
  | vld (e : EWord)
  /-- VLDS (R148): Loads strided elements. -/
  | vlds (e : EWord)
  /-- VLDX (R148): Gathers elements by an index register. -/
  | vldx (e : EWord)
  /-- VST (R149): Buffers contiguous element stores against the store budget. -/
  | vst (e : EWord)
  /-- VSTS (R149): Buffers strided element stores. -/
  | vsts (e : EWord)
  /-- VSTX (R149): Buffers scattered element stores, the higher index winning. -/
  | vstx (e : EWord)
  /-- VAMO (R152): Splits the strip and applies atomic operations at the homes of active elements. -/
  | vamo (e : EWord)
  /-- VWAIT (R155): Splits the strip and parks until every active element's word meets its comparison or the timeout passes. -/
  | vwait (e : EWord)
  /-- VXLATE (R160): Translates token positions through a block table into pool addresses, optionally trimming VL at the first miss. -/
  | vxlate (e : EWord)
  /-- KVPUT (R163): Splits the strip and writes one token's K row, scale and V column through Grout. -/
  | kvput (e : EWord)
  /-- KVFLUSH (R165): Splits the strip and writes back any accumulated Grout rows. -/
  | kvflush (e : EWord)
  /-- VBCAST (R167): Broadcasts operand B into active elements. -/
  | vbcast (e : EWord)
  /-- VIOTA (R167): Writes start plus i times step into active elements. -/
  | viota (e : EWord)
  /-- VSLIDEUP (R167): Slides elements up by n. -/
  | vslideup (e : EWord)
  /-- VSLIDEDN (R167): Slides elements down by n, filling with zeros. -/
  | vslidedn (e : EWord)
  /-- VPERM (R167): Permutes elements by an index register. -/
  | vperm (e : EWord)
  /-- VCOMPRESS (R167): Packs active elements to the low end of vd. -/
  | vcompress (e : EWord)
  /-- VEXPAND (R167): Spreads consecutive source elements into active positions. -/
  | vexpand (e : EWord)
  /-- VEXTRACT (R168): Writes element n of a register to a scalar register. -/
  | vextract (e : EWord)
  /-- VNOP (R170): Occupies the AQ for its stall count and does nothing. -/
  | vnop (e : EWord)
  /-- STOP (R170): Closes an element block. -/
  | stop (e : EWord)
  /-- ELEMENT_HINT (R72): An element hint word executes as vnop with its stall count ignored. -/
  | elementHint (op : BitVec 4) (bits : BitVec 54)
  /-- STREAM_READ (R181): An LQ entry reads the next slice of a bound stream for its reading instruction. -/
  | streamRead (r : BitVec 5)
  /-- STORE_ARRIVAL (R217): A committed store arrives at its home, which stores the data and marks the sector pending with POS and OWNER. -/
  | storeArrival (k : Nat)
  /-- OBS_RECORD_WRITE (R354): The observation unit writes a queued record or gap marker into the sample buffer, turns it to L5 and advances WPTR. -/
  | obsRecordWrite (core : BitVec 10)
  /-- SAMPLE_TICK (R357): Every 2^(PERIOD+10) cycles a sample record is queued. -/
  | sampleTick (hart : BitVec 11)
  /-- STRIP_LIMIT_EXPIRY (R203): A strip's cycle count passes STRIPCTL.LIMIT and the strip is marked for LONGSTRIP. -/
  | stripLimitExpiry (hart : BitVec 11)
  /-- VWAIT_SATISFIED (R155): Every active element of a parked vwait is satisfied, so it sets c1 and releases the hart. -/
  | vwaitSatisfied (hart : BitVec 11)
  /-- VWAIT_TIMEOUT (R155): The vwait timeout expires, clearing c1 and marking unsatisfied elements. -/
  | vwaitTimeout (hart : BitVec 11)
  /-- TOKEN_EXIT (R333): A token leaves the counting network on a wire, takes its counter's value and writes the hart's rd. -/
  | tokenExit (net : BitVec 4) (k : Nat) (hops : Nat)
  /-- ENGINE_COMMAND_COMPLETE (R187): A matrix, copy or asynchronous turn command completes, turns its writes, delivers flags and advances its timeline. -/
  | engineCommandComplete (k : Nat)
  /-- DMOV_MX_FOLLOW_ON (R186): When the copy's last byte lands, the copy engine hands the follow-on product to the array. -/
  | dmovMxFollowOn (k : Nat)
  /-- TASK_DISPATCH (R282): The head of a die's ready pool is started on the lowest FREE slot that meets its conditions. -/
  | taskDispatch (die : BitVec 1)
  /-- WORK_QUEUE_TAKE (R271): A work queue reads the start record at HEAD and validates it. -/
  | workQueueTake (q : BitVec 12)
  /-- HART_START (R273): A held start record is started once slot, lanes, budgets and event queue allow. -/
  | hartStart (k : Nat)
  /-- EVENT_RECORD_WRITE (R287): A held event record is written and turned once its queue or ring has room. -/
  | eventRecordWrite (k : Nat)
  /-- PREEMPTION_REQUEST (R303): A pre-emption request withdraws a wait or lets the strip finish at its close. -/
  | preemptionRequest (hart : BitVec 11)
  /-- PREEMPT_WAIT_EXPIRY (R303): PREEMPTWAIT cycles pass with the strip open, so the strip aborts and the hart leaves the core. -/
  | preemptWaitExpiry (hart : BitVec 11)
  /-- EVICT_SESSION (R341): A swap request copies a session's resident blocks to flash slots as SDB streams. -/
  | evictSession
  /-- EVICT_PAGE (R341): A swap request copies one 4 KiB page to a flash slot. -/
  | evictPage
  /-- FETCH_SESSION (R345): A swap request starts the resume of an ONFLASH session. -/
  | fetchSession
  /-- NVME_COMPLETION (R370): The engine finds a completed NVMe command, retrying once on error. -/
  | nvmeCompletion (k : Nat) (ok : Bool)
  /-- SWAP_RELEASE (R341): The engine marks a copied entry on flash and appends its PBN to the return ring when room exists. -/
  | swapRelease
  /-- SWAP_FETCH_START (R344): The engine marks an entry in flight, takes a PBN from the supply ring and reads its slot. -/
  | swapFetchStart (k : Nat)
  /-- SWAP_FETCH_COMPLETE (R344): The engine writes decoded data, turns it to L3, sets the entry resident and wakes parked harts. -/
  | swapFetchComplete (k : Nat)
  /-- SKIM_SCRUB (R348): The background scrubber reads and checks protected arrays and corrects correctable errors. -/
  | skimScrub (place : ArrayAddress) (correctable : Bool)
  /-- UNCORRECTABLE_ERROR (R349): An uncorrectable error ends the owning region and poisons the data. -/
  | uncorrectableError (site : ErrorSite)
  /-- FRAMEDB (R318): A frame doorbell turns earlier host writes to L3 and writes FTAIL, starting a resume for an ONFLASH session. -/
  | framedb (port : BitVec 1) (req : BitVec 16) (v : BitVec 64)
  /-- WQTAIL (R269): A work queue tail write is checked and acts as a doorbell publishing the new records. -/
  | wqtail (port : BitVec 1) (req : BitVec 16) (q : BitVec 12) (v : BitVec 64)
  /-- WQ_CONFIG_WRITE (R268): A write to WQBASE or WQCTL takes effect only while the queue is empty. -/
  | wqConfigWrite (q : BitVec 12) (ctl : Bool) (v : BitVec 64)
  /-- SYNCDB (R367): A doorbell write that publishes nothing but orders earlier posted writes. -/
  | syncdb (port : BitVec 1) (req : BitVec 16) (v : BitVec 64)
  /-- SYNCDB_READ (R367): A read of SYNCDB returns 0 once every doorbell of the same requester has completed. -/
  | syncdbRead (port : BitVec 1) (req : BitVec 16)
  /-- SEM_READ (R366): A read of a free semaphore takes it for the reading port. -/
  | semRead (port : BitVec 1) (i : BitVec 4)
  /-- SEM_WRITE (R366): A write of 0 by the owning port frees a semaphore. -/
  | semWrite (port : BitVec 1) (i : BitVec 4) (v : BitVec 64)
  /-- WARM (R365): A write of CTRL.WARM resets the compute state of the package while keeping memory. -/
  | warm (v : BitVec 64)
  /-- REGIONTAB (R364): The first write after power-on sets the region table base, later writes being ignored. -/
  | regiontab (v : BitVec 64)
  /-- SESSTAB (R364): The first write after power-on sets the session table base. -/
  | sesstab (v : BitVec 64)
  /-- SWAPCB (R364): A write sets the swap control block address and enables or stops the swap engine. -/
  | swapcb (v : BitVec 64)
  /-- CRCTL_WRITE (R366): A write of a completion ring control register, enabling delivery of held records. -/
  | crctlWrite (r : BitVec 12) (v : BitVec 64)
  /-- CRHEAD_WRITE (R366): The host advances a completion ring head, freeing room for held records. -/
  | crheadWrite (r : BitVec 12) (v : BitVec 64)
  /-- CRTAIL_READ (R366): A read of CRTAIL returns only after every record below it has been written to host memory. -/
  | crtailRead (r : BitVec 12)
  /-- HOST_REGISTER_WRITE (R364): A write to a BAR0 register that has no behaviour of its own. -/
  | hostRegisterWrite (off : BitVec 20) (v : BitVec 64)
  /-- HOST_POSTED_WRITE (R367): A host posted write through BAR2 arrives pending at its home. -/
  | hostPostedWrite (port : BitVec 1) (req : BitVec 16) (off : BitVec 40) (bytes : List (BitVec 8))
  /-- HOST_MEMORY_READ (R368): A host read through BAR2 returns data or completes with Completer Abort for a sector not turned to L5. -/
  | hostMemoryRead (place : HostAddress) (len : BitVec 12)
  /-- GET_VERSION (R373): SPDM request answered with the supported version. -/
  | getVersion (port : BitVec 1)
  /-- GET_CAPABILITIES (R373): SPDM request answered with the responder's capabilities. -/
  | getCapabilities (port : BitVec 1)
  /-- NEGOTIATE_ALGORITHMS (R373): SPDM negotiation that accepts only ECDSA P-521 with SHA-512. -/
  | negotiateAlgorithms (port : BitVec 1) (asym : BitVec 32) (hash : BitVec 32)
  /-- GET_DIGESTS (R373): SPDM request answered with certificate chain digests. -/
  | getDigests (port : BitVec 1)
  /-- GET_CERTIFICATE (R373): SPDM request answered with the slot 0 certificate chain. -/
  | getCertificate (port : BitVec 1) (slot : BitVec 4) (off : BitVec 16) (len : BitVec 16)
  /-- CHALLENGE (R373): SPDM challenge answered with a signature by the device identity key. -/
  | challenge (port : BitVec 1) (slot : BitVec 4) (nonce : BitVec 256)
  /-- GET_MEASUREMENTS (R373): SPDM request answered with the MEAS registers as measurement blocks. -/
  | getMeasurements (port : BitVec 1) (index : BitVec 8) (sign : Bool) (nonce : BitVec 256)
  /-- POWER_ON (R365): Power-on resets the package, clears memory and starts Primer. -/
  | powerOn
  /-- HOST_LINK_DOWN (R366): A host port link goes down and its semaphores are freed. -/
  | hostLinkDown (port : BitVec 1)
  /-- LINK_FAULT (R371): A Span link fails, its LINKST bit clears and traffic reroutes. -/
  | linkFault (link : BitVec 5) (lost : Option (BitVec 4 × Nat))
  /-- DIE_LINK_ERROR (R371): A die-to-die link error is corrected by retry and counted, or handled as uncorrectable. -/
  | dieLinkError (site : LinkSite) (correctable : Bool)
  /-- REMOTE_ACCESS_TIMEOUT (R371): A remote access with no path for 1 ms traps PROT. -/
  | remoteAccessTimeout (hart : BitVec 11)
  /-- POWER_CAP (R374): Averaged power over 10 ms moves both clocks down or up in sixteenth steps. -/
  | powerCap (raise : Bool)
  /-- THERMAL_STOP (R374): A junction temperature of 115 °C stops the package and drops both host links. -/
  | thermalStop
  /-- HOST_LINK_UP (R369): A host port's PCIe link trains and comes up again, at full or lower width and rate, so the port carries traffic once more. -/
  | hostLinkUp (port : BitVec 1)
  /-- SPAN_LINK_UP (R371): A Span link comes up, its LINKST bit is set and traffic may route over it. -/
  | spanLinkUp (link : BitVec 5)
  deriving DecidableEq, Repr

end Sys2Proof
end

