-- ==== Sys2Proof/WellFormed.lean ====
section
/-!
DEFINITION. Which instructions are assigned encodings: the checks of R60 to R65 on scalar operands (unassigned variants,
turn levels, operand groups that run past s31) and those of R66 to R70, R120, R142 on element words (fields that must be
zero, unassigned types, widths, levels). Events have no encoding and are well formed whenever their operands are in range.
-/

namespace Sys2Proof

/-- A turn level field holds 0 to 5; 6 and 7 are unassigned (R65). -/
def levelOk (l : BitVec 3) : Bool := l.toNat ≤ 5

/-- A group of `n` registers from `a` does not run past s31 (R60). -/
def groupOk (a : BitVec 5) (n : Nat) : Bool := a.toNat + n ≤ 32

/-- The atomic variants (Table encoding.4): the level is zero without `.rel`. -/
def relOk (l : BitVec 3) (r : BitVec 1) : Bool := levelOk l && (r == 1 || l == 0)

namespace EWord

/-- Bits [19:18], the operand source (R68). -/
def opsel (e : EWord) : BitVec 2 := e.func.extractLsb' 2 2
/-- Bits [17:16] of the function field. -/
def f10 (e : EWord) : BitVec 2 := e.func.extractLsb' 0 2
/-- Bits [4:0], a scalar register. -/
def sreg (e : EWord) : BitVec 5 := e.imm.extractLsb' 0 5
/-- Bits [9:5], the stride register of `vlds` and `vsts`. -/
def sreg2 (e : EWord) : BitVec 5 := e.imm.extractLsb' 5 5
/-- A field that names a mask register has bits [4:3] zero (R60, R120). -/
def kOk (x : BitVec 5) : Bool := x.toNat < 8

/-- The second operand B of an opcode that has one (R68). -/
def bOk (e : EWord) : Bool :=
  match e.opsel.toNat with
  | 0 => e.imm == 0
  | 1 => e.vb == 0
  | 2 => e.vb == 0 && (e.imm.toNat < 32)
  | _ => false

/-- An opcode without B: OPSEL is 00 and nothing stands in [15:0] (R68, R70). -/
def noB (e : EWord) : Bool := e.opsel == 0 && e.imm == 0

/-- The mask, invert and every operand field of `kvflush`, `vnop` and `stop` are zero (R161, R170). -/
def bare (e : EWord) : Bool :=
  e.vd == 0 && e.va == 0 && e.vb == 0 && e.vc == 0 && e.mask == 0 && e.inv == 0 && e.ty == 0 &&
    e.rnd == 0 && e.func == 0 && e.imm == 0

/-- Two-operand integer forms; `sat` says whether [20] is allowed (R124). -/
def intOk (sat : Bool) (e : EWord) : Bool :=
  e.bOk && e.vc == 0 && e.f10 == 0 && (e.rnd == 0 || (sat && e.rnd == 1))
/-- `vmac`, whose addend stands in vc. -/
def macOk (e : EWord) : Bool := e.bOk && e.f10 == 0 && (e.rnd == 0 || e.rnd == 1)
/-- `vadc` and `vsbc`: vc names the carry-out mask. -/
def carryOk (e : EWord) : Bool := e.bOk && kOk e.vc && e.f10 == 0 && e.rnd == 0
/-- `vabs` and `vneg`. -/
def int1Ok (e : EWord) : Bool :=
  e.noB && e.vb == 0 && e.vc == 0 && e.f10 == 0 && (e.rnd == 0 || e.rnd == 1)
/-- Class F types are 000 to 100 (R67). -/
def fTy (e : EWord) : Bool := e.ty.toNat ≤ 4
/-- Class W widths are 000 to 011 (R67). -/
def wTy (e : EWord) : Bool := e.ty.toNat ≤ 3
/-- Rounding codes 000 to 100 (R41). -/
def rmOk (e : EWord) : Bool := e.rnd.toNat ≤ 4
/-- `vcmp` (R127): class bit [16], [17] zero, 111 unassigned, unordered in class F only. -/
def cmpOk (e : EWord) : Bool :=
  kOk e.vd && e.bOk && e.vc == 0 &&
    (if e.f10 == 0 then e.rnd.toNat ≤ 5 else e.f10 == 1 && e.fTy && e.rnd.toNat ≤ 6)
/-- `vclass` (R128). -/
def classOk (e : EWord) : Bool := e.fTy && e.noB && e.vb == 0 && e.vc == 0 && e.f10 == 0 && e.rnd == 0
/-- Two-operand floating forms (R129). -/
def fltOk (e : EWord) : Bool := e.fTy && e.bOk && e.vc == 0 && e.f10 == 0 && e.rmOk
/-- `vfma` (R130): [17:16] select the form and vc names the addend. -/
def fmaOk (e : EWord) : Bool := e.fTy && e.bOk && e.rmOk
/-- One-operand floating forms (R129). -/
def flt1Ok (e : EWord) : Bool := e.fTy && e.noB && e.vb == 0 && e.vc == 0 && e.f10 == 0 && e.rmOk
/-- `vfexp2` takes `.f32` only (Table arith.1). -/
def exp2Ok (e : EWord) : Bool := e.flt1Ok && e.ty == 0
/-- `vcvt` (R133). -/
def cvtOk (e : EWord) : Bool :=
  e.ty == 0 && e.func == 0 && e.rmOk && e.vb == 0 && e.vc == 0 &&
    (e.imm.extractLsb' 8 8 == 0) && (e.imm.extractLsb' 4 4).toNat ≤ 12 && (e.imm.extractLsb' 0 4).toNat ≤ 12
/-- Mask forms with two operands (R134). -/
def mask2Ok (e : EWord) : Bool :=
  e.ty == 0 && kOk e.vd && kOk e.va && kOk e.vb && e.vc == 0 && e.func == 0 && e.imm == 0 && e.rnd == 0
/-- Mask forms with one operand; `c` allows [20] (R134, R135). -/
def mask1Ok (c : Bool) (e : EWord) : Bool :=
  e.ty == 0 && kOk e.vd && kOk e.va && e.vb == 0 && e.vc == 0 && e.func == 0 && e.imm == 0 &&
    (e.rnd == 0 || (c && e.rnd == 1))
/-- `kset` (R136): OPSEL 00 is unassigned. -/
def ksetOk (e : EWord) : Bool :=
  e.ty == 0 && kOk e.vd && e.va == 0 && e.vc == 0 && e.rnd == 0 && e.f10 == 0 && e.bOk && !(e.opsel == 0)
/-- `kpopc`, `kfirst` and `klast` (R137): vd is a scalar register. -/
def kcountOk (e : EWord) : Bool :=
  e.ty == 0 && kOk e.va && e.vb == 0 && e.vc == 0 && e.func == 0 && e.imm == 0 && e.rnd == 0
/-- Reductions (R138): a rounding field in class F only. -/
def redOk (e : EWord) : Bool :=
  e.bOk && e.vc == 0 && (if e.f10 == 0 then e.rnd == 0 else e.f10 == 1 && e.fTy && e.rmOk)
/-- `vmerge` (R139). -/
def mergeOk (e : EWord) : Bool := e.wTy && e.bOk && e.vc == 0 && e.f10 == 0 && e.rnd == 0
/-- `vosm` and `vfnorm`: `.f32` only, rounding fixed (R140 to R142, R42). -/
def softOk (e : EWord) : Bool := e.ty == 0 && e.noB && e.vb == 0 && e.vc == 0 && e.f10 == 0 && e.rnd == 0
/-- Loads and stores (R148, R149): `idx` allows vb, `str` allows [9:5]. -/
def memOk (idx str : Bool) (e : EWord) : Bool :=
  e.wTy && e.va == 0 && (idx || e.vb == 0) && e.vc == 0 && e.rnd == 0 && e.func == 0 &&
    (if str then e.imm.toNat < 1024 else e.imm.toNat < 32)
/-- `vamo` (R151). -/
def vamoOk (e : EWord) : Bool :=
  (e.ty == 2 || e.ty == 3) && e.vc == 0 && e.rnd.toNat < 4 && e.func.toNat ≤ 8 &&
    (e.imm.extractLsb' 13 3 == 0) && (e.imm.extractLsb' 5 5 == 0) &&
    relOk (e.imm.extractLsb' 10 3) (e.rnd.extractLsb' 1 1)
/-- `vwait` (R154). -/
def vwaitOk (e : EWord) : Bool :=
  (e.ty == 2 || e.ty == 3) && e.vb == 0 && kOk e.vc && e.rnd == 0 && e.opsel == 0 && e.imm.toNat < 32
/-- `vxlate` (R157): four scalars. -/
def vxlateOk (e : EWord) : Bool :=
  e.ty == 3 && e.vb == 0 && kOk e.vc && (e.rnd == 0 || e.rnd == 1) && e.func == 0 && e.imm.toNat < 32 &&
    groupOk e.sreg 4
/-- `kvput` (R161): seven scalars. -/
def kvputOk (e : EWord) : Bool :=
  (e.ty == 0 || e.ty == 1) && e.vd == 0 && e.vc == 0 && e.rnd == 0 && e.func == 0 && e.imm.toNat < 32 &&
    groupOk e.sreg 7
/-- `vbcast` (R167). -/
def bcastOk (e : EWord) : Bool := e.wTy && e.va == 0 && e.bOk && e.vc == 0 && e.f10 == 0 && e.rnd == 0
/-- `viota` (R167): the step stands in [43:34]. -/
def iotaOk (e : EWord) : Bool := e.wTy && e.va == 0 && e.func == 0 && e.rnd == 0
/-- `vperm` (R167). -/
def permOk (e : EWord) : Bool := e.wTy && e.noB && e.vc == 0 && e.f10 == 0 && e.rnd == 0
/-- `vcompress` and `vexpand` (R167). -/
def packOk (e : EWord) : Bool := e.permOk && e.vb == 0

end EWord

/-- BAR0 offsets whose writes are events of their own (Table host.1): CTRL, the semaphores, REGIONTAB, SESSTAB, SWAPCB, the doorbells,
WQBASE, WQCTL, WQTAIL, CRCTL and CRHEAD. -/
def hasOwnRow (o : Nat) : Bool :=
  o == 0x008 || (decide (0x100 ≤ o) && decide (o < 0x180)) || o == 0x200 || o == 0x208 || o == 0x210 || o == 0x300 || o == 0x308 ||
    (decide (0x10000 ≤ o) && decide (o < 0x50000) && decide (o % 64 < 24)) ||
    (decide (0x80000 ≤ o) && decide (o < 0xA0000) && (o % 32 == 8 || o % 32 == 24))

/-- The word of this instruction is an assigned encoding (R60 to R73, R120, R142). -/
def Instr.wf : Instr → Bool
  | .add _ _ _ => true
  | .sub _ _ _ => true
  | .mul _ _ _ => true
  | .mulh _ _ _ => true
  | .mulhn _ _ _ => true
  | .div _ _ _ => true
  | .divn _ _ _ => true
  | .rem _ _ _ => true
  | .remn _ _ _ => true
  | .and _ _ _ => true
  | .or _ _ _ => true
  | .xor _ _ _ => true
  | .andn _ _ _ => true
  | .sll _ _ _ => true
  | .srl _ _ _ => true
  | .sra _ _ _ => true
  | .min _ _ _ => true
  | .max _ _ _ => true
  | .minn _ _ _ => true
  | .maxn _ _ _ => true
  | .clz _ _ => true
  | .ctz _ _ => true
  | .popc _ _ => true
  | .sext _ _ _ => true
  | .zext _ _ _ => true
  | .bswap _ _ _ => true
  | .cmp _ _ _ k => k.toNat ≤ 5
  | .cand _ _ _ => true
  | .cor _ _ _ => true
  | .cxor _ _ _ => true
  | .cnot _ _ => true
  | .csel _ _ _ _ => true
  | .addi _ _ _ => true
  | .andi _ _ _ => true
  | .ori _ _ _ => true
  | .xori _ _ _ => true
  | .slli _ _ _ => true
  | .srli _ _ _ => true
  | .srai _ _ _ => true
  | .lui _ _ => true
  | .addpc _ _ => true
  | .cmpiEq _ _ _ => true
  | .cmpiNe _ _ _ => true
  | .cmpiLt _ _ _ => true
  | .cmpiGe _ _ _ => true
  | .cmpiLtn _ _ _ => true
  | .cmpiGen _ _ _ => true
  | .bt _ _ => true
  | .bf _ _ => true
  | .j _ => true
  | .jal _ => true
  | .jalr _ _ _ => true
  | .ld _ _ v _ => !(v == 7)
  | .ldP _ _ v _ => !(v == 7)
  | .st _ _ _ _ => true
  | .ldx _ _ _ s => !(s == 7)
  | .ldxP _ _ _ s => !(s == 7)
  | .stx _ _ _ _ => true
  | .ldf _ _ => true
  | .ldfe _ _ => true
  | .stf _ _ lv => levelOk lv
  | .ste _ => true
  | .fetag _ _ => true
  | .amo _ _ _ _ lv rel _ op => decide (op.toNat ≤ 8) && relOk lv rel
  | .cas _ _ _ _ lv rel _ => relOk lv rel
  | .takenum _ _ => true
  | .scalarHint _ _ => true
  | .illegal _ => false
  | .setvl _ _ => true
  | .settype _ _ => true
  | .slip _ => true
  | .vsync => true
  | .vtest _ _ c => !(c == 3)
  | .vget _ wd => !(wd == 3)
  | .gang g => g == 1 || g == 2
  | .ungang => true
  | .vfetch _ _ _ => true
  | .sbind _ _ => true
  | .sdrop _ => true
  | .spos _ _ => true
  | .sposW _ _ => true
  | .mma _ ra _ => groupOk ra 7
  | .mslide _ ra _ => groupOk ra 7
  | .mzero _ _ => true
  | .mfill _ ra _ => groupOk ra 3
  | .mdrain _ ra lv _ => groupOk ra 3 && levelOk lv
  | .mconst _ ra k _ => groupOk ra 5 && !(k == 3)
  | .dmov _ ra lv => groupOk ra 4 && levelOk lv
  | .dmovMx _ ra lv => groupOk ra 11 && levelOk lv
  | .dconv _ ra lv => groupOk ra 5 && levelOk lv
  | .turn _ _ lv => levelOk lv
  | .turnA _ _ _ lv => levelOk lv
  | .turnAll lv => levelOk lv
  | .turnAAll _ lv => levelOk lv
  | .tstate _ _ => true
  | .twait _ _ => true
  | .tread _ _ => true
  | .kvtrunc _ _ _ => true
  | .stepbuild _ _ _ => true
  | .curset _ _ c => !(c == 3)
  | .cursetW _ _ c => !(c == 3)
  | .frameq _ _ => true
  | .frameqW _ _ => true
  | .tspawn _ => true
  | .tdone lv => levelOk lv
  | .tarm _ => true
  | .tarmR _ => true
  | .tyield => true
  | .tcancel _ => true
  | .tcancelC _ => true
  | .evread rd => groupOk rd 2
  | .evwait rd => groupOk rd 2
  | .lquery _ => true
  | .trap _ => true
  | .brk _ => true
  | .eret => true
  | .ctxsave _ => true
  | .ctxload _ _ => true
  | .cnsave _ _ => true
  | .cnload _ _ => true
  | .cnclose _ => true
  | .cnopen _ => true
  | .rstop _ _ => true
  | .csrr _ _ => true
  | .csrw _ _ _ => true
  | .csrs _ _ _ => true
  | .csrc _ _ _ => true
  | .vadd e => EWord.intOk true e
  | .vsub e => EWord.intOk true e
  | .vadc e => e.carryOk
  | .vsbc e => e.carryOk
  | .vmul e => EWord.intOk true e
  | .vmulh e => EWord.intOk false e
  | .vmac e => e.macOk
  | .vand e => EWord.intOk false e
  | .vor e => EWord.intOk false e
  | .vxor e => EWord.intOk false e
  | .vandn e => EWord.intOk false e
  | .vsll e => EWord.intOk true e
  | .vsrl e => EWord.intOk false e
  | .vsra e => EWord.intOk false e
  | .vmin e => EWord.intOk false e
  | .vmax e => EWord.intOk false e
  | .vminn e => EWord.intOk false e
  | .vmaxn e => EWord.intOk false e
  | .vabs e => e.int1Ok
  | .vneg e => e.int1Ok
  | .vcmp e => e.cmpOk
  | .vclass e => e.classOk
  | .vfadd e => e.fltOk
  | .vfsub e => e.fltOk
  | .vfmul e => e.fltOk
  | .vfma e => e.fmaOk
  | .vfdiv e => e.fltOk
  | .vfsqrt e => e.flt1Ok
  | .vfmin e => e.fltOk
  | .vfmax e => e.fltOk
  | .vfexp2 e => e.exp2Ok
  | .vfabs e => e.flt1Ok
  | .vfneg e => e.flt1Ok
  | .vcvt e => e.cvtOk
  | .kand e => e.mask2Ok
  | .kor e => e.mask2Ok
  | .kxor e => e.mask2Ok
  | .kandn e => e.mask2Ok
  | .knot e => EWord.mask1Ok false e
  | .kmov e => EWord.mask1Ok false e
  | .kshup e => EWord.mask1Ok true e
  | .kshdn e => EWord.mask1Ok false e
  | .kset e => e.ksetOk
  | .kpopc e => e.kcountOk
  | .kfirst e => e.kcountOk
  | .klast e => e.kcountOk
  | .vredsum e => e.redOk
  | .vredmax e => e.redOk
  | .vredmin e => e.redOk
  | .vmerge e => e.mergeOk
  | .vosm e => e.softOk
  | .vfnorm e => e.softOk
  | .vld e => EWord.memOk false false e
  | .vlds e => EWord.memOk false true e
  | .vldx e => EWord.memOk true false e
  | .vst e => EWord.memOk false false e
  | .vsts e => EWord.memOk false true e
  | .vstx e => EWord.memOk true false e
  | .vamo e => e.vamoOk
  | .vwait e => e.vwaitOk
  | .vxlate e => e.vxlateOk
  | .kvput e => e.kvputOk
  | .kvflush e => e.bare
  | .vbcast e => e.bcastOk
  | .viota e => e.iotaOk
  | .vslideup e => e.mergeOk
  | .vslidedn e => e.mergeOk
  | .vperm e => e.permOk
  | .vcompress e => e.packOk
  | .vexpand e => e.packOk
  | .vextract e => e.mergeOk
  | .vnop e => e.bare
  | .stop e => e.bare && e.stall == 0
  | .elementHint op _ => decide (op.toNat ≤ 11)
  | .streamRead _ => true
  | .storeArrival _ => true
  | .obsRecordWrite _ => true
  | .sampleTick _ => true
  | .stripLimitExpiry _ => true
  | .vwaitSatisfied _ => true
  | .vwaitTimeout _ => true
  | .tokenExit _ _ _ => true
  | .engineCommandComplete _ => true
  | .dmovMxFollowOn _ => true
  | .taskDispatch _ => true
  | .workQueueTake _ => true
  | .hartStart _ => true
  | .eventRecordWrite _ => true
  | .preemptionRequest _ => true
  | .preemptWaitExpiry _ => true
  | .evictSession => true
  | .evictPage => true
  | .fetchSession => true
  | .nvmeCompletion _ _ => true
  | .swapRelease => true
  | .swapFetchStart _ => true
  | .swapFetchComplete _ => true
  | .skimScrub _ _ => true
  | .uncorrectableError _ => true
  | .framedb _ _ _ => true
  | .wqtail _ _ _ _ => true
  | .wqConfigWrite _ _ _ => true
  | .syncdb _ _ _ => true
  | .syncdbRead _ _ => true
  | .semRead _ _ => true
  | .semWrite _ _ _ => true
  | .warm _ => true
  | .regiontab _ => true
  | .sesstab _ => true
  | .swapcb _ => true
  | .crctlWrite _ _ => true
  | .crheadWrite _ _ => true
  | .crtailRead _ => true
  | .hostRegisterWrite off _ => !(hasOwnRow off.toNat)
  | .hostPostedWrite _ _ _ _ => true
  | .hostMemoryRead _ _ => true
  | .getVersion _ => true
  | .getCapabilities _ => true
  | .negotiateAlgorithms _ _ _ => true
  | .getDigests _ => true
  | .getCertificate _ _ _ _ => true
  | .challenge _ _ _ => true
  | .getMeasurements _ _ _ _ => true
  | .powerOn => true
  | .hostLinkDown _ => true
  | .linkFault link _ => decide (link.toNat < 19)
  | .dieLinkError _ _ => true
  | .remoteAccessTimeout _ => true
  | .powerCap _ => true
  | .thermalStop => true
  | .hostLinkUp _ => true
  | .spanLinkUp link => decide (link.toNat < 18)

end Sys2Proof
end

