-- ==== Sys2Proof/Decode.lean ====
section
/-!
DEFINITION. Decoding and encoding (R58 to R73, Tables encoding.1 to encoding.7). A word is of one format or the other only by
where it is fetched from, so there are two decoders; each is total and rejects by name. The encoder follows the same tables.
-/

namespace Sys2Proof

/-- Why a word is not an instruction (R71, R73). -/
inductive Reject where
  /-- the major opcode, or the element opcode, is unassigned -/
  | unassignedOpcode
  /-- the function value is unassigned, or a bit that must be zero is not -/
  | unassignedFunction
  /-- a variant, level, width or operand group is unassigned -/
  | badOperand
  /-- fewer bytes than the format has -/
  | tooShort
  deriving DecidableEq, Repr

/-- The number in bits [lo + len - 1 : lo] of a word. -/
def fld {n : Nat} (w : BitVec n) (lo len : Nat) : Nat := w.toNat / 2^lo % 2^len

/-- Bits [lo + len - 1 : lo] of a word. -/
def bits {n : Nat} (w : BitVec n) (lo len : Nat) : BitVec len := BitVec.ofNat len (fld w lo len)

/-- Major 0x01: ADD, SUB, MUL, MULH, MULHN, DIV, DIVN, REM, REMN, AND, OR, XOR, ANDN, SLL, SRL, SRA, MIN, MAX, MINN, MAXN. -/
def dec01 (w : BitVec 32) : Option Instr :=
  if fld w 0 10 == 0x0 then some (.add (bits w 20 5) (bits w 15 5) (bits w 10 5))
  else if fld w 0 10 == 0x1 then some (.sub (bits w 20 5) (bits w 15 5) (bits w 10 5))
  else if fld w 0 10 == 0x2 then some (.mul (bits w 20 5) (bits w 15 5) (bits w 10 5))
  else if fld w 0 10 == 0x3 then some (.mulh (bits w 20 5) (bits w 15 5) (bits w 10 5))
  else if fld w 0 10 == 0x4 then some (.mulhn (bits w 20 5) (bits w 15 5) (bits w 10 5))
  else if fld w 0 10 == 0x5 then some (.div (bits w 20 5) (bits w 15 5) (bits w 10 5))
  else if fld w 0 10 == 0x6 then some (.divn (bits w 20 5) (bits w 15 5) (bits w 10 5))
  else if fld w 0 10 == 0x7 then some (.rem (bits w 20 5) (bits w 15 5) (bits w 10 5))
  else if fld w 0 10 == 0x8 then some (.remn (bits w 20 5) (bits w 15 5) (bits w 10 5))
  else if fld w 0 10 == 0x9 then some (.and (bits w 20 5) (bits w 15 5) (bits w 10 5))
  else if fld w 0 10 == 0xA then some (.or (bits w 20 5) (bits w 15 5) (bits w 10 5))
  else if fld w 0 10 == 0xB then some (.xor (bits w 20 5) (bits w 15 5) (bits w 10 5))
  else if fld w 0 10 == 0xC then some (.andn (bits w 20 5) (bits w 15 5) (bits w 10 5))
  else if fld w 0 10 == 0xD then some (.sll (bits w 20 5) (bits w 15 5) (bits w 10 5))
  else if fld w 0 10 == 0xE then some (.srl (bits w 20 5) (bits w 15 5) (bits w 10 5))
  else if fld w 0 10 == 0xF then some (.sra (bits w 20 5) (bits w 15 5) (bits w 10 5))
  else if fld w 0 10 == 0x10 then some (.min (bits w 20 5) (bits w 15 5) (bits w 10 5))
  else if fld w 0 10 == 0x11 then some (.max (bits w 20 5) (bits w 15 5) (bits w 10 5))
  else if fld w 0 10 == 0x12 then some (.minn (bits w 20 5) (bits w 15 5) (bits w 10 5))
  else if fld w 0 10 == 0x13 then some (.maxn (bits w 20 5) (bits w 15 5) (bits w 10 5))
  else none

/-- Major 0x02: CLZ, CTZ, POPC, SEXT, ZEXT, BSWAP. -/
def dec02 (w : BitVec 32) : Option Instr :=
  if fld w 0 15 == 0x0 then some (.clz (bits w 20 5) (bits w 15 5))
  else if fld w 0 15 == 0x1 then some (.ctz (bits w 20 5) (bits w 15 5))
  else if fld w 0 15 == 0x2 then some (.popc (bits w 20 5) (bits w 15 5))
  else if fld w 0 3 == 0x3 && fld w 5 10 == 0x0 then some (.sext (bits w 20 5) (bits w 15 5) (bits w 3 2))
  else if fld w 0 3 == 0x4 && fld w 5 10 == 0x0 then some (.zext (bits w 20 5) (bits w 15 5) (bits w 3 2))
  else if fld w 0 3 == 0x5 && fld w 5 10 == 0x0 then some (.bswap (bits w 20 5) (bits w 15 5) (bits w 3 2))
  else none

/-- Major 0x03: CMP, CAND, COR, CXOR, CNOT, CSEL. -/
def dec03 (w : BitVec 32) : Option Instr :=
  if fld w 0 3 == 0x0 && fld w 6 4 == 0x0 && fld w 23 2 == 0x0 then some (.cmp (bits w 20 3) (bits w 15 5) (bits w 10 5) (bits w 3 3))
  else if fld w 0 10 == 0x1 && fld w 13 2 == 0x0 && fld w 18 2 == 0x0 && fld w 23 2 == 0x0 then some (.cand (bits w 20 3) (bits w 15 3) (bits w 10 3))
  else if fld w 0 10 == 0x2 && fld w 13 2 == 0x0 && fld w 18 2 == 0x0 && fld w 23 2 == 0x0 then some (.cor (bits w 20 3) (bits w 15 3) (bits w 10 3))
  else if fld w 0 10 == 0x3 && fld w 13 2 == 0x0 && fld w 18 2 == 0x0 && fld w 23 2 == 0x0 then some (.cxor (bits w 20 3) (bits w 15 3) (bits w 10 3))
  else if fld w 0 15 == 0x4 && fld w 18 2 == 0x0 && fld w 23 2 == 0x0 then some (.cnot (bits w 20 3) (bits w 15 3))
  else if fld w 0 6 == 0x5 && fld w 9 1 == 0x0 then some (.csel (bits w 20 5) (bits w 15 5) (bits w 10 5) (bits w 6 3))
  else none

/-- Major 0x0C: SLLI. -/
def dec0C (w : BitVec 32) : Option Instr :=
  if fld w 6 9 == 0x0 then some (.slli (bits w 20 5) (bits w 15 5) (bits w 0 6))
  else none

/-- Major 0x0D: SRLI. -/
def dec0D (w : BitVec 32) : Option Instr :=
  if fld w 6 9 == 0x0 then some (.srli (bits w 20 5) (bits w 15 5) (bits w 0 6))
  else none

/-- Major 0x0E: SRAI. -/
def dec0E (w : BitVec 32) : Option Instr :=
  if fld w 6 9 == 0x0 then some (.srai (bits w 20 5) (bits w 15 5) (bits w 0 6))
  else none

/-- Major 0x11: CMPI_EQ. -/
def dec11 (w : BitVec 32) : Option Instr :=
  if fld w 23 2 == 0x0 then some (.cmpiEq (bits w 20 3) (bits w 15 5) (bits w 0 15))
  else none

/-- Major 0x12: CMPI_NE. -/
def dec12 (w : BitVec 32) : Option Instr :=
  if fld w 23 2 == 0x0 then some (.cmpiNe (bits w 20 3) (bits w 15 5) (bits w 0 15))
  else none

/-- Major 0x13: CMPI_LT. -/
def dec13 (w : BitVec 32) : Option Instr :=
  if fld w 23 2 == 0x0 then some (.cmpiLt (bits w 20 3) (bits w 15 5) (bits w 0 15))
  else none

/-- Major 0x14: CMPI_GE. -/
def dec14 (w : BitVec 32) : Option Instr :=
  if fld w 23 2 == 0x0 then some (.cmpiGe (bits w 20 3) (bits w 15 5) (bits w 0 15))
  else none

/-- Major 0x15: CMPI_LTN. -/
def dec15 (w : BitVec 32) : Option Instr :=
  if fld w 23 2 == 0x0 then some (.cmpiLtn (bits w 20 3) (bits w 15 5) (bits w 0 15))
  else none

/-- Major 0x16: CMPI_GEN. -/
def dec16 (w : BitVec 32) : Option Instr :=
  if fld w 23 2 == 0x0 then some (.cmpiGen (bits w 20 3) (bits w 15 5) (bits w 0 15))
  else none

/-- Major 0x18: BT, BF. -/
def dec18 (w : BitVec 32) : Option Instr :=
  if fld w 21 1 == 0x1 then some (.bt (bits w 22 3) (bits w 0 21))
  else if fld w 21 1 == 0x0 then some (.bf (bits w 22 3) (bits w 0 21))
  else none

/-- Major 0x22: ST. -/
def dec22 (w : BitVec 32) : Option Instr :=
  if fld w 14 1 == 0x0 then some (.st (bits w 20 5) (bits w 15 5) (bits w 12 2) (bits w 0 12))
  else none

/-- Major 0x23: LDX, LDX_P. -/
def dec23 (w : BitVec 32) : Option Instr :=
  if fld w 3 7 == 0x0 then some (.ldx (bits w 20 5) (bits w 15 5) (bits w 10 5) (bits w 0 3))
  else if fld w 3 7 == 0x1 then some (.ldxP (bits w 20 5) (bits w 15 5) (bits w 10 5) (bits w 0 3))
  else none

/-- Major 0x24: STX. -/
def dec24 (w : BitVec 32) : Option Instr :=
  if fld w 2 8 == 0x0 then some (.stx (bits w 20 5) (bits w 15 5) (bits w 10 5) (bits w 0 2))
  else none

/-- Major 0x28: LDF, LDFE, STF, STE, FETAG. -/
def dec28 (w : BitVec 32) : Option Instr :=
  if fld w 0 15 == 0x0 then some (.ldf (bits w 20 5) (bits w 15 5))
  else if fld w 0 15 == 0x1 then some (.ldfe (bits w 20 5) (bits w 15 5))
  else if fld w 0 3 == 0x2 && fld w 6 9 == 0x0 then some (.stf (bits w 20 5) (bits w 15 5) (bits w 3 3))
  else if fld w 0 15 == 0x3 && fld w 20 5 == 0x0 then some (.ste (bits w 15 5))
  else if fld w 0 15 == 0x4 then some (.fetag (bits w 20 5) (bits w 15 5))
  else none

/-- Major 0x2A: CAS. -/
def dec2A (w : BitVec 32) : Option Instr :=
  if fld w 0 4 == 0x0 then some (.cas (bits w 20 5) (bits w 15 5) (bits w 10 5) (bits w 9 1) (bits w 6 3) (bits w 5 1) (bits w 4 1))
  else none

/-- Major 0x2B: TAKENUM. -/
def dec2B (w : BitVec 32) : Option Instr :=
  if fld w 4 16 == 0x0 then some (.takenum (bits w 20 5) (bits w 0 4))
  else none

/-- Major 0x30: SETVL, SETTYPE, SLIP, VSYNC, VTEST, VGET, GANG, UNGANG. -/
def dec30 (w : BitVec 32) : Option Instr :=
  if fld w 0 15 == 0x0 then some (.setvl (bits w 20 5) (bits w 15 5))
  else if fld w 0 15 == 0x1 then some (.settype (bits w 20 5) (bits w 15 5))
  else if fld w 0 4 == 0x2 && fld w 7 18 == 0x0 then some (.slip (bits w 4 3))
  else if fld w 0 25 == 0x3 then some (.vsync)
  else if fld w 0 4 == 0x4 && fld w 6 9 == 0x0 && fld w 18 2 == 0x0 && fld w 23 2 == 0x0 then some (.vtest (bits w 20 3) (bits w 15 3) (bits w 4 2))
  else if fld w 0 4 == 0x5 && fld w 6 14 == 0x0 then some (.vget (bits w 20 5) (bits w 4 2))
  else if fld w 0 4 == 0x6 && fld w 6 19 == 0x0 then some (.gang (bits w 4 2))
  else if fld w 0 25 == 0x7 then some (.ungang)
  else none

/-- Major 0x32: SBIND, SDROP, SPOS, SPOS_W. -/
def dec32 (w : BitVec 32) : Option Instr :=
  if fld w 0 15 == 0x0 then some (.sbind (bits w 20 5) (bits w 15 5))
  else if fld w 0 15 == 0x1 && fld w 20 5 == 0x0 then some (.sdrop (bits w 15 5))
  else if fld w 0 15 == 0x2 then some (.spos (bits w 20 5) (bits w 15 5))
  else if fld w 0 10 == 0x12 && fld w 20 5 == 0x0 then some (.sposW (bits w 15 5) (bits w 10 5))
  else none

/-- Major 0x33: MMA, MSLIDE, MZERO, MFILL, MDRAIN, MCONST. -/
def dec33 (w : BitVec 32) : Option Instr :=
  if fld w 0 4 == 0x0 && fld w 5 10 == 0x0 then some (.mma (bits w 20 5) (bits w 15 5) (bits w 4 1))
  else if fld w 0 4 == 0x1 && fld w 5 10 == 0x0 then some (.mslide (bits w 20 5) (bits w 15 5) (bits w 4 1))
  else if fld w 0 4 == 0x2 && fld w 5 15 == 0x0 then some (.mzero (bits w 20 5) (bits w 4 1))
  else if fld w 0 4 == 0x3 && fld w 5 10 == 0x0 then some (.mfill (bits w 20 5) (bits w 15 5) (bits w 4 1))
  else if fld w 0 4 == 0x4 && fld w 8 7 == 0x0 then some (.mdrain (bits w 20 5) (bits w 15 5) (bits w 5 3) (bits w 4 1))
  else if fld w 0 4 == 0x5 && fld w 7 8 == 0x0 then some (.mconst (bits w 20 5) (bits w 15 5) (bits w 5 2) (bits w 4 1))
  else none

/-- Major 0x34: DMOV, DMOV_MX, DCONV. -/
def dec34 (w : BitVec 32) : Option Instr :=
  if fld w 0 5 == 0x0 && fld w 8 7 == 0x0 then some (.dmov (bits w 20 5) (bits w 15 5) (bits w 5 3))
  else if fld w 0 5 == 0x10 && fld w 8 7 == 0x0 then some (.dmovMx (bits w 20 5) (bits w 15 5) (bits w 5 3))
  else if fld w 0 5 == 0x1 && fld w 8 7 == 0x0 then some (.dconv (bits w 20 5) (bits w 15 5) (bits w 5 3))
  else none

/-- Major 0x35: TURN, TURN_A, TURN_ALL, TURN_A_ALL, TSTATE, TWAIT, TREAD. -/
def dec35 (w : BitVec 32) : Option Instr :=
  if fld w 0 6 == 0x0 && fld w 9 1 == 0x0 && fld w 20 5 == 0x0 then some (.turn (bits w 15 5) (bits w 10 5) (bits w 6 3))
  else if fld w 0 6 == 0x10 && fld w 9 1 == 0x0 then some (.turnA (bits w 20 5) (bits w 15 5) (bits w 10 5) (bits w 6 3))
  else if fld w 0 6 == 0x20 && fld w 9 16 == 0x0 then some (.turnAll (bits w 6 3))
  else if fld w 0 6 == 0x30 && fld w 9 11 == 0x0 then some (.turnAAll (bits w 20 5) (bits w 6 3))
  else if fld w 0 15 == 0x1 then some (.tstate (bits w 20 5) (bits w 15 5))
  else if fld w 0 4 == 0x2 && fld w 6 9 == 0x0 && fld w 20 5 == 0x0 then some (.twait (bits w 15 5) (bits w 4 2))
  else if fld w 0 4 == 0x3 && fld w 6 14 == 0x0 then some (.tread (bits w 20 5) (bits w 4 2))
  else none

/-- Major 0x36: KVTRUNC, STEPBUILD, CURSET, CURSET_W, FRAMEQ, FRAMEQ_W. -/
def dec36 (w : BitVec 32) : Option Instr :=
  if fld w 0 10 == 0x0 then some (.kvtrunc (bits w 20 5) (bits w 15 5) (bits w 10 5))
  else if fld w 0 10 == 0x1 then some (.stepbuild (bits w 20 5) (bits w 15 5) (bits w 10 5))
  else if fld w 0 4 == 0x2 && fld w 6 9 == 0x0 then some (.curset (bits w 20 5) (bits w 15 5) (bits w 4 2))
  else if fld w 0 4 == 0x2 && fld w 6 4 == 0x1 && fld w 20 5 == 0x0 then some (.cursetW (bits w 15 5) (bits w 10 5) (bits w 4 2))
  else if fld w 0 15 == 0x3 then some (.frameq (bits w 20 5) (bits w 15 5))
  else if fld w 0 10 == 0x13 && fld w 20 5 == 0x0 then some (.frameqW (bits w 15 5) (bits w 10 5))
  else none

/-- Major 0x37: TSPAWN, TDONE, TARM, TARM_R, TYIELD, TCANCEL, TCANCEL_C, EVREAD, EVWAIT, LQUERY. -/
def dec37 (w : BitVec 32) : Option Instr :=
  if fld w 0 15 == 0x0 && fld w 20 5 == 0x0 then some (.tspawn (bits w 15 5))
  else if fld w 0 4 == 0x1 && fld w 7 18 == 0x0 then some (.tdone (bits w 4 3))
  else if fld w 0 15 == 0x2 && fld w 20 5 == 0x0 then some (.tarm (bits w 15 5))
  else if fld w 0 15 == 0x12 && fld w 20 5 == 0x0 then some (.tarmR (bits w 15 5))
  else if fld w 0 25 == 0x3 then some (.tyield)
  else if fld w 0 15 == 0x4 && fld w 20 5 == 0x0 then some (.tcancel (bits w 15 5))
  else if fld w 0 15 == 0x14 && fld w 20 5 == 0x0 then some (.tcancelC (bits w 15 5))
  else if fld w 0 20 == 0x5 then some (.evread (bits w 20 5))
  else if fld w 0 20 == 0x6 then some (.evwait (bits w 20 5))
  else if fld w 0 20 == 0x7 then some (.lquery (bits w 20 5))
  else none

/-- Major 0x38: TRAP, BRK, ERET, CTXSAVE, CTXLOAD, CNSAVE, CNLOAD, CNCLOSE, CNOPEN, RSTOP. -/
def dec38 (w : BitVec 32) : Option Instr :=
  if fld w 0 4 == 0x0 && fld w 10 15 == 0x0 then some (.trap (bits w 4 6))
  else if fld w 0 4 == 0x1 && fld w 10 15 == 0x0 then some (.brk (bits w 4 6))
  else if fld w 0 25 == 0x2 then some (.eret)
  else if fld w 0 15 == 0x3 && fld w 20 5 == 0x0 then some (.ctxsave (bits w 15 5))
  else if fld w 0 10 == 0x4 && fld w 20 5 == 0x0 then some (.ctxload (bits w 15 5) (bits w 10 5))
  else if fld w 0 4 == 0x5 && fld w 8 7 == 0x0 && fld w 20 5 == 0x0 then some (.cnsave (bits w 15 5) (bits w 4 4))
  else if fld w 0 4 == 0x6 && fld w 8 7 == 0x0 && fld w 20 5 == 0x0 then some (.cnload (bits w 15 5) (bits w 4 4))
  else if fld w 0 4 == 0x7 && fld w 8 17 == 0x0 then some (.cnclose (bits w 4 4))
  else if fld w 0 4 == 0x8 && fld w 8 17 == 0x0 then some (.cnopen (bits w 4 4))
  else if fld w 0 10 == 0x9 && fld w 20 5 == 0x0 then some (.rstop (bits w 15 5) (bits w 10 5))
  else none

/-- Major 0x39: CSRR, CSRW, CSRS, CSRC. -/
def dec39 (w : BitVec 32) : Option Instr :=
  if fld w 12 8 == 0x0 then some (.csrr (bits w 20 5) (bits w 0 12))
  else if fld w 12 3 == 0x1 then some (.csrw (bits w 20 5) (bits w 15 5) (bits w 0 12))
  else if fld w 12 3 == 0x2 then some (.csrs (bits w 20 5) (bits w 15 5) (bits w 0 12))
  else if fld w 12 3 == 0x3 then some (.csrc (bits w 20 5) (bits w 15 5) (bits w 0 12))
  else none

/-- The instruction the major opcode and function name, before the operand checks (Tables encoding.2 to encoding.5). -/
def rawScalar (w : BitVec 32) : Option Instr :=
  match fld w 25 7 with
  | 0x01 => dec01 w
  | 0x02 => dec02 w
  | 0x03 => dec03 w
  | 0x08 => some (.addi (bits w 20 5) (bits w 15 5) (bits w 0 15))
  | 0x09 => some (.andi (bits w 20 5) (bits w 15 5) (bits w 0 15))
  | 0x0A => some (.ori (bits w 20 5) (bits w 15 5) (bits w 0 15))
  | 0x0B => some (.xori (bits w 20 5) (bits w 15 5) (bits w 0 15))
  | 0x0C => dec0C w
  | 0x0D => dec0D w
  | 0x0E => dec0E w
  | 0x0F => some (.lui (bits w 20 5) (bits w 0 20))
  | 0x10 => some (.addpc (bits w 20 5) (bits w 0 20))
  | 0x11 => dec11 w
  | 0x12 => dec12 w
  | 0x13 => dec13 w
  | 0x14 => dec14 w
  | 0x15 => dec15 w
  | 0x16 => dec16 w
  | 0x18 => dec18 w
  | 0x19 => some (.j (bits w 0 25))
  | 0x1A => some (.jal (bits w 0 25))
  | 0x1B => some (.jalr (bits w 20 5) (bits w 15 5) (bits w 0 15))
  | 0x20 => some (.ld (bits w 20 5) (bits w 15 5) (bits w 12 3) (bits w 0 12))
  | 0x21 => some (.ldP (bits w 20 5) (bits w 15 5) (bits w 12 3) (bits w 0 12))
  | 0x22 => dec22 w
  | 0x23 => dec23 w
  | 0x24 => dec24 w
  | 0x28 => dec28 w
  | 0x29 => some (.amo (bits w 20 5) (bits w 15 5) (bits w 10 5) (bits w 9 1) (bits w 6 3) (bits w 5 1) (bits w 4 1) (bits w 0 4))
  | 0x2A => dec2A w
  | 0x2B => dec2B w
  | 0x30 => dec30 w
  | 0x31 => some (.vfetch (bits w 20 5) (bits w 15 5) (bits w 0 15))
  | 0x32 => dec32 w
  | 0x33 => dec33 w
  | 0x34 => dec34 w
  | 0x35 => dec35 w
  | 0x36 => dec36 w
  | 0x37 => dec37 w
  | 0x38 => dec38 w
  | 0x39 => dec39 w
  | 0x78 => some (.scalarHint 0 (bits w 0 25))
  | 0x79 => some (.scalarHint 1 (bits w 0 25))
  | 0x7A => some (.scalarHint 2 (bits w 0 25))
  | 0x7B => some (.scalarHint 3 (bits w 0 25))
  | 0x7C => some (.scalarHint 4 (bits w 0 25))
  | 0x7D => some (.scalarHint 5 (bits w 0 25))
  | 0x7E => some (.scalarHint 6 (bits w 0 25))
  | 0x7F => some (.scalarHint 7 (bits w 0 25))
  | _ => none

/-- Some encoding of the major opcode is assigned (Table encoding.2). -/
def majorAssigned (m : Nat) : Bool :=
  (1 ≤ m && m ≤ 3) || (8 ≤ m && m ≤ 0x16) || (0x18 ≤ m && m ≤ 0x1B) || (0x20 ≤ m && m ≤ 0x24) ||
    (0x28 ≤ m && m ≤ 0x2B) || (0x30 ≤ m && m ≤ 0x39) || 0x78 ≤ m

/-- Accept an instruction that keeps the operand rules. -/
def accept (i : Instr) : Except Reject Instr := if i.wf then .ok i else .error .badOperand

/-- The scalar instruction of a word (R59 to R65, R71, R72). -/
def decodeScalar (w : BitVec 32) : Except Reject Instr :=
  match rawScalar w with
  | some i => accept i
  | none => .error (if majorAssigned (fld w 25 7) then .unassignedFunction else .unassignedOpcode)

/-- The fields of an element word (R66). -/
def ewordOf (w : BitVec 64) : EWord :=
  { vd := bits w 49 5, va := bits w 44 5, vb := bits w 39 5, vc := bits w 34 5, mask := bits w 31 3,
    inv := bits w 30 1, stall := bits w 26 4, ty := bits w 23 3, rnd := bits w 20 3, func := bits w 16 4,
    imm := bits w 0 16 }

/-- The constructor an element opcode names (Table encoding.7). -/
def rawElement (w : BitVec 64) : Option Instr :=
  let e := ewordOf w
  match fld w 54 10 with
  | 0x010 => some (.vadd e)
  | 0x011 => some (.vsub e)
  | 0x012 => some (.vadc e)
  | 0x013 => some (.vsbc e)
  | 0x014 => some (.vmul e)
  | 0x015 => some (.vmulh e)
  | 0x016 => some (.vmac e)
  | 0x017 => some (.vand e)
  | 0x018 => some (.vor e)
  | 0x019 => some (.vxor e)
  | 0x01A => some (.vandn e)
  | 0x01B => some (.vsll e)
  | 0x01C => some (.vsrl e)
  | 0x01D => some (.vsra e)
  | 0x01E => some (.vmin e)
  | 0x01F => some (.vmax e)
  | 0x020 => some (.vminn e)
  | 0x021 => some (.vmaxn e)
  | 0x022 => some (.vabs e)
  | 0x023 => some (.vneg e)
  | 0x028 => some (.vcmp e)
  | 0x029 => some (.vclass e)
  | 0x030 => some (.vfadd e)
  | 0x031 => some (.vfsub e)
  | 0x032 => some (.vfmul e)
  | 0x033 => some (.vfma e)
  | 0x034 => some (.vfdiv e)
  | 0x035 => some (.vfsqrt e)
  | 0x036 => some (.vfmin e)
  | 0x037 => some (.vfmax e)
  | 0x038 => some (.vfexp2 e)
  | 0x039 => some (.vfabs e)
  | 0x03A => some (.vfneg e)
  | 0x040 => some (.vcvt e)
  | 0x048 => some (.kand e)
  | 0x049 => some (.kor e)
  | 0x04A => some (.kxor e)
  | 0x04B => some (.kandn e)
  | 0x04C => some (.knot e)
  | 0x04D => some (.kmov e)
  | 0x04E => some (.kshup e)
  | 0x04F => some (.kshdn e)
  | 0x050 => some (.kset e)
  | 0x051 => some (.kpopc e)
  | 0x052 => some (.kfirst e)
  | 0x053 => some (.klast e)
  | 0x058 => some (.vredsum e)
  | 0x059 => some (.vredmax e)
  | 0x05A => some (.vredmin e)
  | 0x060 => some (.vmerge e)
  | 0x068 => some (.vosm e)
  | 0x069 => some (.vfnorm e)
  | 0x100 => some (.vld e)
  | 0x101 => some (.vlds e)
  | 0x102 => some (.vldx e)
  | 0x108 => some (.vst e)
  | 0x109 => some (.vsts e)
  | 0x10A => some (.vstx e)
  | 0x110 => some (.vamo e)
  | 0x111 => some (.vwait e)
  | 0x118 => some (.vxlate e)
  | 0x120 => some (.kvput e)
  | 0x121 => some (.kvflush e)
  | 0x128 => some (.vbcast e)
  | 0x129 => some (.viota e)
  | 0x12A => some (.vslideup e)
  | 0x12B => some (.vslidedn e)
  | 0x12C => some (.vperm e)
  | 0x12D => some (.vcompress e)
  | 0x12E => some (.vexpand e)
  | 0x12F => some (.vextract e)
  | 0x3FE => some (.vnop e)
  | 0x3FF => some (.stop e)
  | 0x3F0 => some (.elementHint 0 (bits w 0 54))
  | 0x3F1 => some (.elementHint 1 (bits w 0 54))
  | 0x3F2 => some (.elementHint 2 (bits w 0 54))
  | 0x3F3 => some (.elementHint 3 (bits w 0 54))
  | 0x3F4 => some (.elementHint 4 (bits w 0 54))
  | 0x3F5 => some (.elementHint 5 (bits w 0 54))
  | 0x3F6 => some (.elementHint 6 (bits w 0 54))
  | 0x3F7 => some (.elementHint 7 (bits w 0 54))
  | 0x3F8 => some (.elementHint 8 (bits w 0 54))
  | 0x3F9 => some (.elementHint 9 (bits w 0 54))
  | 0x3FA => some (.elementHint 10 (bits w 0 54))
  | 0x3FB => some (.elementHint 11 (bits w 0 54))
  | _ => none

/-- The element instruction of a word (R66 to R70, R72, R73). -/
def decodeElement (w : BitVec 64) : Except Reject Instr :=
  match rawElement w with
  | some i => accept i
  | none => .error .unassignedOpcode

/-- The number in the first `n` bytes of a list, little-endian (R58). -/
def leNat : List (BitVec 8) → Nat
  | [] => 0
  | b :: bs => b.toNat + 256 * leNat bs

/-- The `n` bytes of a number, the lowest first (R58). -/
def leBytes : Nat → Nat → List (BitVec 8)
  | 0, _ => []
  | n + 1, x => BitVec.ofNat 8 (x % 256) :: leBytes n (x / 256)

/-- A scalar instruction from its four bytes in memory order (R58). -/
def decodeScalarBytes (bs : List (BitVec 8)) : Except Reject Instr :=
  if bs.length < 4 then .error .tooShort else decodeScalar (BitVec.ofNat 32 (leNat (bs.take 4)))

/-- An element instruction from its eight bytes in memory order (R58). -/
def decodeElementBytes (bs : List (BitVec 8)) : Except Reject Instr :=
  if bs.length < 8 then .error .tooShort else decodeElement (BitVec.ofNat 64 (leNat (bs.take 8)))

/-- What the decoder reads from a table word: 32 bits or fewer are a scalar instruction, more an element instruction. -/
def decodeTableWord (nbits w : Nat) : Option Instr :=
  (if nbits ≤ 32 then decodeScalarBytes (leBytes 4 w) else decodeElementBytes (leBytes 8 w)).toOption

/-- Bits [53:0] of an element word (R66). -/
def EWord.bits (e : EWord) : Nat :=
  e.vd.toNat * 2^49 + e.va.toNat * 2^44 + e.vb.toNat * 2^39 + e.vc.toNat * 2^34 + e.mask.toNat * 2^31 +
    e.inv.toNat * 2^30 + e.stall.toNat * 2^26 + e.ty.toNat * 2^23 + e.rnd.toNat * 2^20 + e.func.toNat * 2^16 +
    e.imm.toNat

/-- A row's constant bits and its operands, each at the bit its field begins at. -/
def place (base : Nat) : List (Nat × Nat) → Nat
  | [] => base
  | (v, lo) :: fs => v * 2^lo + place base fs

/-- The number of a scalar instruction's word: the row's constant bits and each operand at its place (R59). -/
def scalarNumber : Instr → Option Nat
  | .add rd ra rb => some (place 0x02000000 [(rd.toNat, 20), (ra.toNat, 15), (rb.toNat, 10)])
  | .sub rd ra rb => some (place 0x02000001 [(rd.toNat, 20), (ra.toNat, 15), (rb.toNat, 10)])
  | .mul rd ra rb => some (place 0x02000002 [(rd.toNat, 20), (ra.toNat, 15), (rb.toNat, 10)])
  | .mulh rd ra rb => some (place 0x02000003 [(rd.toNat, 20), (ra.toNat, 15), (rb.toNat, 10)])
  | .mulhn rd ra rb => some (place 0x02000004 [(rd.toNat, 20), (ra.toNat, 15), (rb.toNat, 10)])
  | .div rd ra rb => some (place 0x02000005 [(rd.toNat, 20), (ra.toNat, 15), (rb.toNat, 10)])
  | .divn rd ra rb => some (place 0x02000006 [(rd.toNat, 20), (ra.toNat, 15), (rb.toNat, 10)])
  | .rem rd ra rb => some (place 0x02000007 [(rd.toNat, 20), (ra.toNat, 15), (rb.toNat, 10)])
  | .remn rd ra rb => some (place 0x02000008 [(rd.toNat, 20), (ra.toNat, 15), (rb.toNat, 10)])
  | .and rd ra rb => some (place 0x02000009 [(rd.toNat, 20), (ra.toNat, 15), (rb.toNat, 10)])
  | .or rd ra rb => some (place 0x0200000A [(rd.toNat, 20), (ra.toNat, 15), (rb.toNat, 10)])
  | .xor rd ra rb => some (place 0x0200000B [(rd.toNat, 20), (ra.toNat, 15), (rb.toNat, 10)])
  | .andn rd ra rb => some (place 0x0200000C [(rd.toNat, 20), (ra.toNat, 15), (rb.toNat, 10)])
  | .sll rd ra rb => some (place 0x0200000D [(rd.toNat, 20), (ra.toNat, 15), (rb.toNat, 10)])
  | .srl rd ra rb => some (place 0x0200000E [(rd.toNat, 20), (ra.toNat, 15), (rb.toNat, 10)])
  | .sra rd ra rb => some (place 0x0200000F [(rd.toNat, 20), (ra.toNat, 15), (rb.toNat, 10)])
  | .min rd ra rb => some (place 0x02000010 [(rd.toNat, 20), (ra.toNat, 15), (rb.toNat, 10)])
  | .max rd ra rb => some (place 0x02000011 [(rd.toNat, 20), (ra.toNat, 15), (rb.toNat, 10)])
  | .minn rd ra rb => some (place 0x02000012 [(rd.toNat, 20), (ra.toNat, 15), (rb.toNat, 10)])
  | .maxn rd ra rb => some (place 0x02000013 [(rd.toNat, 20), (ra.toNat, 15), (rb.toNat, 10)])
  | .clz rd ra => some (place 0x04000000 [(rd.toNat, 20), (ra.toNat, 15)])
  | .ctz rd ra => some (place 0x04000001 [(rd.toNat, 20), (ra.toNat, 15)])
  | .popc rd ra => some (place 0x04000002 [(rd.toNat, 20), (ra.toNat, 15)])
  | .sext rd ra sz => some (place 0x04000003 [(rd.toNat, 20), (ra.toNat, 15), (sz.toNat, 3)])
  | .zext rd ra sz => some (place 0x04000004 [(rd.toNat, 20), (ra.toNat, 15), (sz.toNat, 3)])
  | .bswap rd ra sz => some (place 0x04000005 [(rd.toNat, 20), (ra.toNat, 15), (sz.toNat, 3)])
  | .cmp rd ra rb k => some (place 0x06000000 [(rd.toNat, 20), (ra.toNat, 15), (rb.toNat, 10), (k.toNat, 3)])
  | .cand rd ra rb => some (place 0x06000001 [(rd.toNat, 20), (ra.toNat, 15), (rb.toNat, 10)])
  | .cor rd ra rb => some (place 0x06000002 [(rd.toNat, 20), (ra.toNat, 15), (rb.toNat, 10)])
  | .cxor rd ra rb => some (place 0x06000003 [(rd.toNat, 20), (ra.toNat, 15), (rb.toNat, 10)])
  | .cnot rd ra => some (place 0x06000004 [(rd.toNat, 20), (ra.toNat, 15)])
  | .csel rd ra rb c => some (place 0x06000005 [(rd.toNat, 20), (ra.toNat, 15), (rb.toNat, 10), (c.toNat, 6)])
  | .addi rd ra imm => some (place 0x10000000 [(rd.toNat, 20), (ra.toNat, 15), (imm.toNat, 0)])
  | .andi rd ra imm => some (place 0x12000000 [(rd.toNat, 20), (ra.toNat, 15), (imm.toNat, 0)])
  | .ori rd ra imm => some (place 0x14000000 [(rd.toNat, 20), (ra.toNat, 15), (imm.toNat, 0)])
  | .xori rd ra imm => some (place 0x16000000 [(rd.toNat, 20), (ra.toNat, 15), (imm.toNat, 0)])
  | .slli rd ra s => some (place 0x18000000 [(rd.toNat, 20), (ra.toNat, 15), (s.toNat, 0)])
  | .srli rd ra s => some (place 0x1A000000 [(rd.toNat, 20), (ra.toNat, 15), (s.toNat, 0)])
  | .srai rd ra s => some (place 0x1C000000 [(rd.toNat, 20), (ra.toNat, 15), (s.toNat, 0)])
  | .lui rd imm => some (place 0x1E000000 [(rd.toNat, 20), (imm.toNat, 0)])
  | .addpc rd imm => some (place 0x20000000 [(rd.toNat, 20), (imm.toNat, 0)])
  | .cmpiEq rd ra imm => some (place 0x22000000 [(rd.toNat, 20), (ra.toNat, 15), (imm.toNat, 0)])
  | .cmpiNe rd ra imm => some (place 0x24000000 [(rd.toNat, 20), (ra.toNat, 15), (imm.toNat, 0)])
  | .cmpiLt rd ra imm => some (place 0x26000000 [(rd.toNat, 20), (ra.toNat, 15), (imm.toNat, 0)])
  | .cmpiGe rd ra imm => some (place 0x28000000 [(rd.toNat, 20), (ra.toNat, 15), (imm.toNat, 0)])
  | .cmpiLtn rd ra imm => some (place 0x2A000000 [(rd.toNat, 20), (ra.toNat, 15), (imm.toNat, 0)])
  | .cmpiGen rd ra imm => some (place 0x2C000000 [(rd.toNat, 20), (ra.toNat, 15), (imm.toNat, 0)])
  | .bt c off => some (place 0x30200000 [(c.toNat, 22), (off.toNat, 0)])
  | .bf c off => some (place 0x30000000 [(c.toNat, 22), (off.toNat, 0)])
  | .j off => some (place 0x32000000 [(off.toNat, 0)])
  | .jal off => some (place 0x34000000 [(off.toNat, 0)])
  | .jalr rd ra imm => some (place 0x36000000 [(rd.toNat, 20), (ra.toNat, 15), (imm.toNat, 0)])
  | .ld rd ra v off => some (place 0x40000000 [(rd.toNat, 20), (ra.toNat, 15), (v.toNat, 12), (off.toNat, 0)])
  | .ldP rd ra v off => some (place 0x42000000 [(rd.toNat, 20), (ra.toNat, 15), (v.toNat, 12), (off.toNat, 0)])
  | .st rd ra v off => some (place 0x44000000 [(rd.toNat, 20), (ra.toNat, 15), (v.toNat, 12), (off.toNat, 0)])
  | .ldx rd ra rb s => some (place 0x46000000 [(rd.toNat, 20), (ra.toNat, 15), (rb.toNat, 10), (s.toNat, 0)])
  | .ldxP rd ra rb s => some (place 0x46000008 [(rd.toNat, 20), (ra.toNat, 15), (rb.toNat, 10), (s.toNat, 0)])
  | .stx rd ra rb s => some (place 0x48000000 [(rd.toNat, 20), (ra.toNat, 15), (rb.toNat, 10), (s.toNat, 0)])
  | .ldf rd ra => some (place 0x50000000 [(rd.toNat, 20), (ra.toNat, 15)])
  | .ldfe rd ra => some (place 0x50000001 [(rd.toNat, 20), (ra.toNat, 15)])
  | .stf rd ra lv => some (place 0x50000002 [(rd.toNat, 20), (ra.toNat, 15), (lv.toNat, 3)])
  | .ste ra => some (place 0x50000003 [(ra.toNat, 15)])
  | .fetag rd ra => some (place 0x50000004 [(rd.toNat, 20), (ra.toNat, 15)])
  | .amo rd ra rb wd lv rel acq op => some (place 0x52000000
      [(rd.toNat, 20), (ra.toNat, 15), (rb.toNat, 10), (wd.toNat, 9), (lv.toNat, 6), (rel.toNat, 5), (acq.toNat, 4), (op.toNat, 0)])
  | .cas rd ra rb wd lv rel acq => some (place 0x54000000
      [(rd.toNat, 20), (ra.toNat, 15), (rb.toNat, 10), (wd.toNat, 9), (lv.toNat, 6), (rel.toNat, 5), (acq.toNat, 4)])
  | .takenum rd n => some (place 0x56000000 [(rd.toNat, 20), (n.toNat, 0)])
  | .scalarHint h x => some (place 0xF0000000 [(h.toNat, 25), (x.toNat, 0)])
  | .setvl rd ra => some (place 0x60000000 [(rd.toNat, 20), (ra.toNat, 15)])
  | .settype rd ra => some (place 0x60000001 [(rd.toNat, 20), (ra.toNat, 15)])
  | .slip n => some (place 0x60000002 [(n.toNat, 4)])
  | .vsync => some (place 0x60000003 [])
  | .vtest rd ra c => some (place 0x60000004 [(rd.toNat, 20), (ra.toNat, 15), (c.toNat, 4)])
  | .vget rd wd => some (place 0x60000005 [(rd.toNat, 20), (wd.toNat, 4)])
  | .gang g => some (place 0x60000006 [(g.toNat, 4)])
  | .ungang => some (place 0x60000007 [])
  | .vfetch rd ra imm => some (place 0x62000000 [(rd.toNat, 20), (ra.toNat, 15), (imm.toNat, 0)])
  | .sbind rd ra => some (place 0x64000000 [(rd.toNat, 20), (ra.toNat, 15)])
  | .sdrop ra => some (place 0x64000001 [(ra.toNat, 15)])
  | .spos rd ra => some (place 0x64000002 [(rd.toNat, 20), (ra.toNat, 15)])
  | .sposW ra rb => some (place 0x64000012 [(ra.toNat, 15), (rb.toNat, 10)])
  | .mma rd ra t => some (place 0x66000000 [(rd.toNat, 20), (ra.toNat, 15), (t.toNat, 4)])
  | .mslide rd ra t => some (place 0x66000001 [(rd.toNat, 20), (ra.toNat, 15), (t.toNat, 4)])
  | .mzero rd t => some (place 0x66000002 [(rd.toNat, 20), (t.toNat, 4)])
  | .mfill rd ra t => some (place 0x66000003 [(rd.toNat, 20), (ra.toNat, 15), (t.toNat, 4)])
  | .mdrain rd ra lv t => some (place 0x66000004 [(rd.toNat, 20), (ra.toNat, 15), (lv.toNat, 5), (t.toNat, 4)])
  | .mconst rd ra k t => some (place 0x66000005 [(rd.toNat, 20), (ra.toNat, 15), (k.toNat, 5), (t.toNat, 4)])
  | .dmov rd ra lv => some (place 0x68000000 [(rd.toNat, 20), (ra.toNat, 15), (lv.toNat, 5)])
  | .dmovMx rd ra lv => some (place 0x68000010 [(rd.toNat, 20), (ra.toNat, 15), (lv.toNat, 5)])
  | .dconv rd ra lv => some (place 0x68000001 [(rd.toNat, 20), (ra.toNat, 15), (lv.toNat, 5)])
  | .turn ra rb lv => some (place 0x6A000000 [(ra.toNat, 15), (rb.toNat, 10), (lv.toNat, 6)])
  | .turnA rd ra rb lv => some (place 0x6A000010 [(rd.toNat, 20), (ra.toNat, 15), (rb.toNat, 10), (lv.toNat, 6)])
  | .turnAll lv => some (place 0x6A000020 [(lv.toNat, 6)])
  | .turnAAll rd lv => some (place 0x6A000030 [(rd.toNat, 20), (lv.toNat, 6)])
  | .tstate rd ra => some (place 0x6A000001 [(rd.toNat, 20), (ra.toNat, 15)])
  | .twait ra t => some (place 0x6A000002 [(ra.toNat, 15), (t.toNat, 4)])
  | .tread rd t => some (place 0x6A000003 [(rd.toNat, 20), (t.toNat, 4)])
  | .kvtrunc rd ra rb => some (place 0x6C000000 [(rd.toNat, 20), (ra.toNat, 15), (rb.toNat, 10)])
  | .stepbuild rd ra rb => some (place 0x6C000001 [(rd.toNat, 20), (ra.toNat, 15), (rb.toNat, 10)])
  | .curset rd ra c => some (place 0x6C000002 [(rd.toNat, 20), (ra.toNat, 15), (c.toNat, 4)])
  | .cursetW ra rb c => some (place 0x6C000042 [(ra.toNat, 15), (rb.toNat, 10), (c.toNat, 4)])
  | .frameq rd ra => some (place 0x6C000003 [(rd.toNat, 20), (ra.toNat, 15)])
  | .frameqW ra rb => some (place 0x6C000013 [(ra.toNat, 15), (rb.toNat, 10)])
  | .tspawn ra => some (place 0x6E000000 [(ra.toNat, 15)])
  | .tdone lv => some (place 0x6E000001 [(lv.toNat, 4)])
  | .tarm ra => some (place 0x6E000002 [(ra.toNat, 15)])
  | .tarmR ra => some (place 0x6E000012 [(ra.toNat, 15)])
  | .tyield => some (place 0x6E000003 [])
  | .tcancel ra => some (place 0x6E000004 [(ra.toNat, 15)])
  | .tcancelC ra => some (place 0x6E000014 [(ra.toNat, 15)])
  | .evread rd => some (place 0x6E000005 [(rd.toNat, 20)])
  | .evwait rd => some (place 0x6E000006 [(rd.toNat, 20)])
  | .lquery rd => some (place 0x6E000007 [(rd.toNat, 20)])
  | .trap n => some (place 0x70000000 [(n.toNat, 4)])
  | .brk n => some (place 0x70000001 [(n.toNat, 4)])
  | .eret => some (place 0x70000002 [])
  | .ctxsave ra => some (place 0x70000003 [(ra.toNat, 15)])
  | .ctxload ra rb => some (place 0x70000004 [(ra.toNat, 15), (rb.toNat, 10)])
  | .cnsave ra m => some (place 0x70000005 [(ra.toNat, 15), (m.toNat, 4)])
  | .cnload ra m => some (place 0x70000006 [(ra.toNat, 15), (m.toNat, 4)])
  | .cnclose m => some (place 0x70000007 [(m.toNat, 4)])
  | .cnopen m => some (place 0x70000008 [(m.toNat, 4)])
  | .rstop ra rb => some (place 0x70000009 [(ra.toNat, 15), (rb.toNat, 10)])
  | .csrr rd c => some (place 0x72000000 [(rd.toNat, 20), (c.toNat, 0)])
  | .csrw rd ra c => some (place 0x72001000 [(rd.toNat, 20), (ra.toNat, 15), (c.toNat, 0)])
  | .csrs rd ra c => some (place 0x72002000 [(rd.toNat, 20), (ra.toNat, 15), (c.toNat, 0)])
  | .csrc rd ra c => some (place 0x72003000 [(rd.toNat, 20), (ra.toNat, 15), (c.toNat, 0)])
  | .illegal w => some w.toNat
  | _ => none

/-- The number of an element instruction's word (R66). -/
def elementNumber : Instr → Option Nat
  | .vadd e => some (0x010 * 2^54 + e.bits)
  | .vsub e => some (0x011 * 2^54 + e.bits)
  | .vadc e => some (0x012 * 2^54 + e.bits)
  | .vsbc e => some (0x013 * 2^54 + e.bits)
  | .vmul e => some (0x014 * 2^54 + e.bits)
  | .vmulh e => some (0x015 * 2^54 + e.bits)
  | .vmac e => some (0x016 * 2^54 + e.bits)
  | .vand e => some (0x017 * 2^54 + e.bits)
  | .vor e => some (0x018 * 2^54 + e.bits)
  | .vxor e => some (0x019 * 2^54 + e.bits)
  | .vandn e => some (0x01A * 2^54 + e.bits)
  | .vsll e => some (0x01B * 2^54 + e.bits)
  | .vsrl e => some (0x01C * 2^54 + e.bits)
  | .vsra e => some (0x01D * 2^54 + e.bits)
  | .vmin e => some (0x01E * 2^54 + e.bits)
  | .vmax e => some (0x01F * 2^54 + e.bits)
  | .vminn e => some (0x020 * 2^54 + e.bits)
  | .vmaxn e => some (0x021 * 2^54 + e.bits)
  | .vabs e => some (0x022 * 2^54 + e.bits)
  | .vneg e => some (0x023 * 2^54 + e.bits)
  | .vcmp e => some (0x028 * 2^54 + e.bits)
  | .vclass e => some (0x029 * 2^54 + e.bits)
  | .vfadd e => some (0x030 * 2^54 + e.bits)
  | .vfsub e => some (0x031 * 2^54 + e.bits)
  | .vfmul e => some (0x032 * 2^54 + e.bits)
  | .vfma e => some (0x033 * 2^54 + e.bits)
  | .vfdiv e => some (0x034 * 2^54 + e.bits)
  | .vfsqrt e => some (0x035 * 2^54 + e.bits)
  | .vfmin e => some (0x036 * 2^54 + e.bits)
  | .vfmax e => some (0x037 * 2^54 + e.bits)
  | .vfexp2 e => some (0x038 * 2^54 + e.bits)
  | .vfabs e => some (0x039 * 2^54 + e.bits)
  | .vfneg e => some (0x03A * 2^54 + e.bits)
  | .vcvt e => some (0x040 * 2^54 + e.bits)
  | .kand e => some (0x048 * 2^54 + e.bits)
  | .kor e => some (0x049 * 2^54 + e.bits)
  | .kxor e => some (0x04A * 2^54 + e.bits)
  | .kandn e => some (0x04B * 2^54 + e.bits)
  | .knot e => some (0x04C * 2^54 + e.bits)
  | .kmov e => some (0x04D * 2^54 + e.bits)
  | .kshup e => some (0x04E * 2^54 + e.bits)
  | .kshdn e => some (0x04F * 2^54 + e.bits)
  | .kset e => some (0x050 * 2^54 + e.bits)
  | .kpopc e => some (0x051 * 2^54 + e.bits)
  | .kfirst e => some (0x052 * 2^54 + e.bits)
  | .klast e => some (0x053 * 2^54 + e.bits)
  | .vredsum e => some (0x058 * 2^54 + e.bits)
  | .vredmax e => some (0x059 * 2^54 + e.bits)
  | .vredmin e => some (0x05A * 2^54 + e.bits)
  | .vmerge e => some (0x060 * 2^54 + e.bits)
  | .vosm e => some (0x068 * 2^54 + e.bits)
  | .vfnorm e => some (0x069 * 2^54 + e.bits)
  | .vld e => some (0x100 * 2^54 + e.bits)
  | .vlds e => some (0x101 * 2^54 + e.bits)
  | .vldx e => some (0x102 * 2^54 + e.bits)
  | .vst e => some (0x108 * 2^54 + e.bits)
  | .vsts e => some (0x109 * 2^54 + e.bits)
  | .vstx e => some (0x10A * 2^54 + e.bits)
  | .vamo e => some (0x110 * 2^54 + e.bits)
  | .vwait e => some (0x111 * 2^54 + e.bits)
  | .vxlate e => some (0x118 * 2^54 + e.bits)
  | .kvput e => some (0x120 * 2^54 + e.bits)
  | .kvflush e => some (0x121 * 2^54 + e.bits)
  | .vbcast e => some (0x128 * 2^54 + e.bits)
  | .viota e => some (0x129 * 2^54 + e.bits)
  | .vslideup e => some (0x12A * 2^54 + e.bits)
  | .vslidedn e => some (0x12B * 2^54 + e.bits)
  | .vperm e => some (0x12C * 2^54 + e.bits)
  | .vcompress e => some (0x12D * 2^54 + e.bits)
  | .vexpand e => some (0x12E * 2^54 + e.bits)
  | .vextract e => some (0x12F * 2^54 + e.bits)
  | .vnop e => some (0x3FE * 2^54 + e.bits)
  | .stop e => some (0x3FF * 2^54 + e.bits)
  | .elementHint op b => some ((0x3F0 + op.toNat) * 2^54 + b.toNat)
  | _ => none

/-- The word of a scalar instruction; zero for an instruction of another format. -/
def encodeScalar (i : Instr) : BitVec 32 := BitVec.ofNat 32 ((scalarNumber i).getD 0)

/-- The word of an element instruction; zero for an instruction of another format. -/
def encodeElement (i : Instr) : BitVec 64 := BitVec.ofNat 64 ((elementNumber i).getD 0)

/-- The words of an instruction: its format's length in bits and the number; nothing for an event. -/
def encode (i : Instr) : Option (Nat × Nat) :=
  match scalarNumber i, elementNumber i with
  | some n, _ => some (32, n)
  | none, some n => some (64, n)
  | none, none => none

end Sys2Proof
end

