-- ==== Sys2Proof/Machine/State.lean ====
section
/-!
DEFINITION. The state of one BN6 package as plain data: the selected hart slot and the others, the cores, memory with its
turn-state entries, the engines' work in flight, the counting networks, the queues, rings, sequencer, swap engine and
registers of the package, and which agent acts next. Names are the manual's.
-/

namespace Sys2Proof.Machine

/-- Why the machine stops. -/
inductive Fault where
  /-- The package stopped at 115 °C (R374). Raised by `step` after THERMAL_STOP and until POWER_ON. Safe: the hardware runs nothing either. -/
  | packageStopped
  deriving DecidableEq, Repr

/-- Why an instruction has no meaning. -/
inductive Refusal where
  /-- Not modelled yet. Raised by the dispatch arm alone. Safe: nothing is claimed of the instruction. -/
  | notModelled (mnemonic : String)
  deriving DecidableEq, Repr

/-- The state of a hart slot (Table state.1). -/
inductive SlotState where
  | free | running | ready | parked | held
  deriving DecidableEq, Repr

/-- A stream binding (R20, R179): the record copied by `sbind`, its address, the position k and the current slice. -/
structure Binding where
  record : BitVec 512
  addr : Word
  pos : Word
  slice : Word
  deriving DecidableEq, Repr

/-- The state a strip abort reverts (Table state.11). -/
structure Regs where
  s : Vector Word 32
  c : BitVec 8
  v : Vector VReg 32
  k : Vector KReg 8
  binds : Vector (Option Binding) 32
  osmax : BitVec 32
  ossum : BitVec 32
  oscale : BitVec 32
  vl : Nat
  vtype : BitVec 7
  slip : BitVec 3
  fflags : BitVec 13
  deriving DecidableEq, Repr

/-- A register or mask that element words read and write. -/
inductive ERef where
  | v (r : BitVec 5)
  | k (r : BitVec 3)
  deriving DecidableEq, Repr

/-- The last writer of a register in the block, when it is an AQ word of fixed latency (R207, R208): the sum of spacings
up to it, its latency, and what the register held before it wrote (over the whole gang). -/
structure Writer where
  ref : ERef
  at_ : Nat
  latency : Nat
  old : Nat
  deriving DecidableEq, Repr

/-- A block fetched by `vfetch` (R76, R176): its predecoded words up to and with the `stop`, the snapshot, and where it is. -/
structure Block where
  /-- the PC of its `vfetch` -/
  pc : Word
  addr : Word
  words : List (BitVec 64)
  word : Nat
  rep : Nat
  reps : Nat
  snapS : Vector Word 32
  snapC1 : Bool
  snapVt : BitVec 7
  /-- sum of the spacings of the AQ words run in this repeat -/
  spacing : Nat
  writers : List Writer
  deriving DecidableEq, Repr

/-- One of the four timelines (R187). -/
inductive Timeline where
  | mx | dm | tn | sw
  deriving DecidableEq, Repr

/-- What a parked or stalled hart waits for. -/
inductive Wait where
  /-- nothing -/
  | none
  /-- the instruction at the PC executes again: a PARKED hart when it is woken (`evwait`, `twait`), a RUNNING one, which
  stands stalled at an entry, at its next turn (a closed network, `gang`, a full queue or log, a ninth matrix issue) -/
  | retry
  /-- the entries its fault record lists become resident (R300): locations of page or block-table entries -/
  | fault (entries : List Nat)
  /-- these block-table entries are no longer on flash or in flight (`kvtrunc`, `stepbuild`; R322, R325) -/
  | blocks (entries : List Nat)
  /-- `ldf` (take = false) or `ldfe` (take = true) on an empty word whose home level for this hart is `lv` (R111) -/
  | word (loc : Nat) (lv : Nat) (take : Bool) (rd : BitVec 5)
  /-- `vwait` (R155): width, condition, destination mask, whether a timeout runs, and for each active element its index,
  location, home level, comparand and latch -/
  | cells (w : Nat) (cond : BitVec 2) (kd : BitVec 3) (limited : Bool) (cells : List (Nat × Nat × Nat × Nat × Bool))
  /-- a token in flight (R333) -/
  | token (net : BitVec 4) (rd : BitVec 5)
  /-- `twait`, until the timeline's counter reaches the ticket (R189); then it executes again -/
  | ticket (tl : Timeline) (n : Word)
  /-- at `gang`, until all harts have arrived (R178) -/
  | gang (width : Nat)
  /-- a member of a formed gang stands at its `gang` (R178) -/
  | member
  /-- a remote access without a path (R371): the address -/
  | remote (va : Word)
  /-- the same in a `ctxsave` that writes unit `u` of a slot's image (R308, R371): the unit's address -/
  | saving (va : Word) (slot : BitVec 11) (u : Nat)
  deriving DecidableEq, Repr

/-- What a hart was started from, for its end (R274, R285). -/
inductive Origin where
  /-- Primer's first stage, or a loaded context image -/
  | none
  | start (queue : BitVec 12) (target : BitVec 32) (user : Word)
  | task (tcb : Nat)
  /-- its `tdone` has done everything but write this record, for which it waits (R287) -/
  | ending (target : BitVec 32) (record : BitVec 128)
  deriving DecidableEq, Repr

/-- A trap owed at the next close at the same position, after one of several due at one close was taken (log entry 9). -/
structure Owed where
  code : BitVec 8
  val : Word
  pc : Word
  deriving DecidableEq, Repr

/-- The cached header of the sample buffer (R353). -/
structure SampleHeader where
  stopat : Word
  waddr : Word
  wlen : BitVec 32
  wmode : BitVec 3
  deriving DecidableEq, Repr

/-- Membership of a gang (R178): width, this hart's index, and the harts in order of their index. -/
structure Gang where
  width : Nat
  member : Nat
  ids : List (BitVec 11)
  /-- made by a start record's gang-width field, so that the members end with their leader (R273, R274) -/
  started : Bool
  deriving DecidableEq, Repr

/-- A load performed early (R231): its bytes, what it delivers, or none where the read was not turned far enough, and the clock index
at which it was performed. -/
structure Early where
  loc : Nat
  n : Nat
  value : Option Nat
  at_ : Nat
  deriving DecidableEq, Repr

/-- An element of a `vamo` in its pass 2 (R152): its index, the hart that makes it, its address, location, home level and operand. -/
structure AmoElt where
  k : Nat
  hart : BitVec 11
  va : Word
  loc : Nat
  level : Nat
  operand : Nat
  deriving DecidableEq, Repr

/-- A `vamo` that stands in its pass 2 (R152): its width and operation, the elements still to act, and the old values so far. -/
structure Amo where
  width : Nat
  op : Nat
  rest : List AmoElt
  olds : List (Nat × Nat)
  deriving DecidableEq, Repr

/-- The build of a step that the session sequencer has begun for a hart (R304, R322): its number; its sessions; those whose frames are
still to be taken, with the FTAIL that a doorbell had written before it began; the block-table entries it has changed so far, and those
that it frees or zeroes in all; and the locations of the manifest's pages, as they were translated before it began (R323). -/
structure Building where
  step : Nat
  ids : List Nat
  left : List (Nat × Nat)
  changed : List Nat
  cuts : List Nat
  pages : List Nat
  deriving DecidableEq, Repr

/-- A hart and everything that belongs to it alone. -/
structure Hart where
  /-- HARTID[10:0]: die, cluster, core, slot (Table state.8) -/
  id : BitVec 11
  st : SlotState
  pc : Word
  /-- the progress index (R13), not the CSR EIX -/
  eix : Word
  r : Regs
  /-- the strip checkpoint (R33): the reverting state, and STRIPPC's progress index and block -/
  ck : Regs
  ckEix : Word
  ckBlk : Option Block
  /-- the block being run -/
  blk : Option Block
  stripOpen : Bool
  /-- the open strip was opened by the `setvl` its STRIPPC names (R199) -/
  byVl : Bool
  /-- the strip has rolled back to that `setvl`, which opens it again under its ordinal (R174, R199) -/
  rerun : Bool
  /-- the strip store buffer (R104): location and byte, rising by location -/
  buf : List (Nat × Byte)
  /-- locations in the buffer to which a later element of the strip has stored through another member of the gang (R149, R217) -/
  stale : List Nat
  /-- loads performed early (R231) -/
  early : List Early
  /-- for a vector register or mask, when the latest of the loads that feed it was performed (R231) -/
  fed : List (ERef × Nat)
  /-- when the latest of the loads of the word being run was performed (R231) -/
  perf : Nat
  /-- blocks in the queues that the scalar core has passed, the oldest first (R204) -/
  queue : List Block
  /-- the `vamo` at its position stands in pass 2 (R152) -/
  amo : Option Amo
  /-- the `stepbuild` at its position has begun (R304, R322) -/
  building : Option Building
  /-- entries that its fault record lists and that are not resident yet (R300) -/
  listed : List Nat
  /-- scalar instructions of the open strip, not yet in INSTRET -/
  instPend : Nat
  instret : Word
  stripn : Word
  strippc : Word
  stripctl : Word
  /-- STOREBUDGET.LIMIT -/
  budget : BitVec 18
  faultrec : Word
  turnprog : Word
  /-- blocks that a `kvtrunc` in progress has freed (R192, R325) -/
  freed : Nat
  /-- TLMX, TLDM, TLTN, TLSW: the timeline counters -/
  tl : Vector Word 4
  /-- the issue counts of the same (R187) -/
  issued : Vector Word 4
  region : BitVec 16
  gang : Option Gang
  vlceil : BitVec 16
  pref : BitVec 4
  min : BitVec 4
  /-- PREF and MIN as the arbiter uses them: a write takes effect at the next strip boundary (R30) -/
  leasePref : BitVec 4
  leaseMin : BitVec 4
  granted : BitVec 4
  cur : BitVec 2
  prev : BitVec 2
  expert : Bool
  epc : Word
  /-- the CSR EIX -/
  eixCsr : Word
  /-- the predecoded copy kept with EPC and EIX (R295) -/
  epcBlk : Option Block
  ecause : BitVec 9
  eval : Word
  trapvec : Word
  savearea : Word
  tracectl : Word
  samplebuf : Word
  header : SampleHeader
  strict : Bool
  replay : BitVec 2
  trace : Bool
  /-- priority: the region's PRIO, or the TCB's for a task (R276) -/
  prio : BitVec 4
  origin : Origin
  /-- sectors holding a write of this hart since its last `turn.all` (R190), rising -/
  writeSet : List Nat
  /-- the virtual address, and the region whose mapping holds, through which it stored to each of these sectors (R190) -/
  wva : List (Nat × Nat × BitVec 16)
  /-- sectors that the instruction at the PC has turned so far (R193, R230, R284) -/
  turned : List Nat
  /-- engine fault reports held, in issue order (R188): issue index, cause and address -/
  reports : List (Nat × BitVec 8 × Word)
  /-- flags raised in the open strip (R28) -/
  raised : BitVec 5
  /-- flags engines delivered while the strip ran (R45) -/
  delivered : BitVec 5
  /-- first watched address accessed in the strip (R361) -/
  watched : Option Word
  /-- where that access stands in the strip's program order, and where the hart does: a block that the scalar core has passed stands
  before what it has gone on to (R204, R361) -/
  watchedAt : Nat
  place : Nat
  /-- the same of a home operation behind the last strip, which no rollback undoes (R361) -/
  ckWatched : Option Word
  /-- the same kept with EPC while a handler runs, for the strip at EPC (R361; DESIGN CHOICE, log entry 95) -/
  epcWatched : Option Word
  /-- `vxlate.ff` trimmed VL in the strip (R160) -/
  trimmed : Bool
  /-- the strip ran past STRIPCTL.LIMIT (R203) -/
  overLimit : Bool
  /-- the clock index at which the strip opened, for its record's cycle count -/
  openedAt : Nat
  /-- a pre-emption request is pending (R303) -/
  preempt : Bool
  wait : Wait
  owed : List Owed
  /-- slices read ahead by STREAM_READ: register, slice value over the gang -/
  slices : List (BitVec 5 × Nat)
  /-- tiles named by a matrix command since the hart started or was loaded (Table trap.8) -/
  tiles : BitVec 2
  deriving DecidableEq, Repr

/-- The Grout state (R22): the tile, its physical and virtual address, the rows accumulated, the owning slot, and the column geometry
(log2 of tokens per block, bytes per value) of the last `kvput`. -/
structure Grout where
  tile : VReg
  pa : Nat
  va : Word
  mask : BitVec 16
  owner : BitVec 11
  /-- the owning hart is still in its slot -/
  live : Bool
  /-- the owning hart's region and STRICT flag, as which the lines leave (R218, R219) -/
  region : BitVec 16
  strict : Bool
  shift : Nat
  wbytes : Nat
  deriving DecidableEq, Repr

/-- A record queued in an observation unit (R354): the hart's buffer and its 256 bits. -/
structure ObsRecord where
  hart : BitVec 11
  buffer : Word
  region : BitVec 16
  record : BitVec 256
  /-- records dropped at the full queue just before this one -/
  lost : Nat
  deriving DecidableEq, Repr

/-- What the two slots of a core share. -/
structure Core where
  /-- accumulator tiles: element (i, j) at 256 i + j; an element not listed is +0 (R21) -/
  acc0 : List (Nat × BitVec 32)
  acc1 : List (Nat × BitVec 32)
  grout : Option Grout
  evq : Word
  evHead : Nat
  evTail : Nat
  cycle : Word
  obs : List ObsRecord
  /-- GAP (R358), and records dropped at the full queue since the last one queued (R354) -/
  gap : Nat
  lost : Nat
  deriving DecidableEq, Repr

/-- Who made a write (R214, R218): POS and OWNER of the arrival (no OWNER for a host write), the STRICT flag it carries,
the hart, the leader of its gang, and for a host write its port and requester. -/
structure Writer2 where
  pos : BitVec 11
  owner : Option (BitVec 16)
  strict : Bool
  hart : Option (BitVec 11)
  lead : Option (BitVec 11)
  host : Option (BitVec 1 × BitVec 16)
  deriving DecidableEq, Repr

/-- A write on the outbound path (R217): it arrives whole. -/
structure Outbound where
  src : Writer2
  bytes : List (Nat × Byte)
  /-- the clock index at which it left its hart -/
  sent : Nat
  deriving DecidableEq, Repr

/-- A poisoned sector (R349), and for each write that has reached it so far, by its hart and when it left it, the bytes reached. A
write of the whole sector clears the poison, however many parts it arrives in (R217). -/
structure Poison where
  sector : Nat
  parts : List (BitVec 11 × Nat × BitVec 32)
  deriving DecidableEq, Repr

/-- Where an inbound copy is held (R213). -/
inductive Place where
  | core (n : BitVec 10)
  | cluster (n : BitVec 8)
  | die (n : BitVec 1)
  deriving DecidableEq, Repr

/-- An inbound copy of a sector: its 32 bytes, when it was filled, whether a STRICT hart's read filled it (R222), and the turns
since then whose scope left its store out: their level and core (R213, R235). -/
structure Copy where
  place : Place
  sector : Nat
  data : BitVec 256
  filled : Nat
  strict : Bool
  bars : List (Nat × BitVec 10)
  /-- the hart whose load, performed early and not delivered yet, has filled it: no read meets it before (R231; log entry 57) -/
  early : Option (BitVec 11)
  /-- the regions for which a translation has been read from this copy (R267, R291) -/
  xlat : List (BitVec 16)
  deriving DecidableEq, Repr

/-- What an engine command does, with its captured operand group (R182 to R186, R190). -/
inductive CmdKind where
  | mma (g : List Word) (tile : BitVec 1)
  | mslide (g : List Word) (tile : BitVec 1)
  | mzero (tile : BitVec 1)
  | mfill (g : List Word) (tile : BitVec 1)
  | mdrain (g : List Word) (tile : BitVec 1) (lv : Nat)
  | mconst (kind : BitVec 2) (g : List Word) (tile : BitVec 1)
  | dmov (g : List Word) (lv : Nat)
  | dconv (g : List Word) (lv : Nat)
  /-- the product that follows a copy (R186); it may start once handed over -/
  | follow (g : List Word) (tile : BitVec 1) (handed : Bool)
  /-- the same where its copy stopped on a report: there is no product, and its ticket completes in its turn (log entry 60) -/
  | dropped (tile : BitVec 1)
  | turn (secs : List Nat) (lv : Nat)
  deriving DecidableEq, Repr

/-- An engine command issued and not completed (R187). -/
structure Cmd where
  hart : BitVec 11
  tl : Timeline
  ticket : Word
  kind : CmdKind
  vtype : BitVec 7
  /-- its place among all issues of the package -/
  seq : Nat
  /-- the issuing hart's region, level and STRICT flag, as which it translates and reads (R188) -/
  region : BitVec 16
  cur : BitVec 2
  strict : Bool
  /-- its hart has ended: nothing holds its report, flags or ticket -/
  orphan : Bool
  /-- its progress (R188): chunks or rows done, the flags they raised, the sectors they read and those they wrote with the virtual address
  of each, and the bytes written -/
  done : Nat
  flags : BitVec 5
  reads : List Nat
  writes : List (Nat × Nat)
  out : List (Nat × Byte)
  /-- the bytes of its copy, which a follow-on reads without a turn (R186) -/
  fwd : List (Nat × Byte)
  deriving DecidableEq, Repr

/-- A token in a counting network (R330): the hart, the wire it is on and the layers it has passed. -/
structure Token where
  hart : BitVec 11
  rd : BitVec 5
  entry : Nat
  wire : Nat
  layer : Nat
  deriving DecidableEq, Repr

/-- A counting network (R331, Table lath.3). -/
structure Net where
  closed : Bool
  torn : Bool
  base : Word
  hwm : Word
  bal : BitVec 80
  cnt : Vector (BitVec 48) 16
  tokens : List Token
  deriving DecidableEq, Repr

/-- A work queue (Table region.2). -/
structure WorkQueue where
  base : Word
  enable : Bool
  log2n : BitVec 4
  root : BitVec 16
  tail : BitVec 16
  head : BitVec 16
  err : Bool
  reason : BitVec 4
  /-- accepted doorbells that published records not yet taken: TAIL before, TAIL after, when it completed (R272) -/
  bells : List (Nat × Nat × Nat)
  deriving DecidableEq, Repr

/-- A validated start record that waits for its conditions (R272): the queue, the 64 bytes, when its doorbell completed. -/
structure HeldStart where
  queue : BitVec 12
  record : BitVec 512
  time : Nat
  deriving DecidableEq, Repr

/-- A host completion ring (Table host.2). -/
structure Ring where
  base : Word
  enable : Bool
  port : BitVec 1
  log2n : BitVec 5
  vector : BitVec 11
  tail : BitVec 32
  head : BitVec 32
  deriving DecidableEq, Repr

/-- What the hardware holds of a region since its last start, dispatch or release (R267, R293): the resolved region-wide
values and the LOCKED range entries (index, 32 bytes). -/
structure RegionCtx where
  id : BitVec 16
  ranges : Word
  ptroot : Word
  prio : BitVec 4
  bharts : BitVec 16
  blanes : BitVec 16
  bmx : BitVec 8
  bswap : BitVec 32
  bmem : BitVec 64
  locked : List (Nat × BitVec 256)
  deriving DecidableEq, Repr

/-- What the hardware holds of a region's control block besides, resolved when it last read the block of the region or of one under it
(R267): PARENT, EVTGT, TASKBASE, LOGBASE and PROMOLOG. -/
structure RegionRefs where
  parent : BitVec 16
  evtgt : BitVec 32
  taskbase : Nat
  logbase : Nat
  promolog : Nat
  deriving DecidableEq, Repr

/-- A task (R279): the fields read at registration, the STATE and COUNT that the task system holds while it is registered, and where
it stands. A TCB that is not registered has them in memory alone. -/
structure Task where
  tcb : Nat
  entry : Word
  arg : Word
  region : BitVec 16
  prio : BitVec 4
  pref : BitVec 4
  min : BitVec 4
  notify : Bool
  mx : Bool
  opws : List Nat
  succs : List (BitVec 32)
  init : BitVec 32
  target : BitVec 32
  reg : Bool
  st : Nat
  count : Nat
  /-- when it became ready, and in which die's pool (R282); none while it is not in a pool -/
  pool : Option (Nat × BitVec 1)
  deriving DecidableEq, Repr

/-- A promotion log entry (R284): the level and core of a predecessor's `tdone`, its sectors, the successors still to start, and the
16-byte places of the log that it takes. -/
structure Promotion where
  region : BitVec 16
  core : BitVec 10
  level : Nat
  secs : List Nat
  succs : List Nat
  log : List Nat
  /-- the sectors turned so far for a successor that is being dispatched (R230): its TCB, the sector, the level -/
  turned : List (Nat × Nat × Nat)
  deriving DecidableEq, Repr

/-- An event record on its way to a target (R286, R287). -/
structure Posted where
  target : BitVec 32
  record : BitVec 128
  region : BitVec 16
  deriving DecidableEq, Repr

/-- A log record for which its log has no room yet (R351): whose log, and the record's fields (Table swap.7). -/
structure Unlogged where
  region : BitVec 16
  hart : BitVec 11
  ty : Nat
  stripn : Word
  v : Nat
  v2 : Nat
  deriving DecidableEq, Repr

/-- A swap request taken from the ring (Table swap.2). -/
structure SwapRequest where
  kind : BitVec 8
  etype : BitVec 8
  region : BitVec 16
  target : BitVec 32
  object : Word
  user : Word
  deriving DecidableEq, Repr

/-- Where the swap request in hand stands (R340, R341, R345): for an eviction the entries copied, with their slots and what they
held, whether it has committed, and the PBN of an entry that has changed already while the return ring has no room for it; a
fetch-session request waits for its session. -/
structure Eviction where
  req : SwapRequest
  copied : List (Nat × Nat × Nat)
  committed : Bool
  pbn : Option Nat := none
  deriving DecidableEq, Repr

/-- Who holds a TLSW ticket: a hart, or the TLSW word of a saved context image, by its location (R306). -/
inductive Holder where
  | hart (id : BitVec 11)
  | image (loc : Nat)
  deriving DecidableEq, Repr

/-- A fetch the swap engine is asked for (R344): the entry's location, whether it is a page-table entry, the slot, the pool
block once started, the posting hart's TLSW ticket, the owning region, the session of a resume and its priority class. -/
structure Fetch where
  entry : Nat
  page : Bool
  origin : Word
  started : Option (Nat × Nat)
  tickets : List (Holder × Word)
  region : BitVec 16
  session : Option Nat
  cls : Nat
  landed : Bool
  deriving DecidableEq, Repr

/-- The NVMe commands of the swap engine (R370): its I/O commands, then its admin commands. -/
inductive NvmeOp where
  | read | write | deallocate
  | identify | createCq | createSq | getLogPage
  deriving DecidableEq, Repr

/-- An admin command goes through the admin queue. -/
def NvmeOp.isAdmin : NvmeOp → Bool
  | .read | .write | .deallocate => false
  | .identify | .createCq | .createSq | .getLogPage => true

/-- An NVMe command of the engine (R370): what it serves, and whether it has been retried. -/
structure Nvme where
  /-- the entry a read or write serves, the slot a deallocate frees, the I/O queue pair that an admin command makes -/
  object : Nat
  op : NvmeOp
  retried : Bool
  deriving DecidableEq, Repr

/-- The format of an NVMe namespace: log2 of its LBA size, metadata bytes, and end-to-end protection (R370). -/
structure Namespace where
  shift : Nat
  metadata : Nat
  protection : Bool
  deriving DecidableEq, Repr

/-- What a host port was last answered. -/
inductive Reply where
  | none
  | value (v : Word)
  | bytes (bs : List Byte)
  /-- Completer Abort (R224) -/
  | completerAbort
  /-- Unsupported Request (R364) -/
  | unsupported
  /-- an SPDM ERROR response (R373) -/
  | spdmError
  /-- the read has not returned yet (R366, R367) -/
  | pending
  deriving DecidableEq, Repr

/-- A responder's state on one port (R373). -/
structure Spdm where
  version : Bool
  caps : Bool
  algs : Bool
  deriving DecidableEq, Repr

/-- The host control registers of Table host.1 that are not queues or rings. -/
structure HostRegs where
  warmBusy : Bool
  fail : BitVec 8
  stage : BitVec 8
  sem : Vector Word 16
  regiontab : Word
  regiontabSet : Bool
  sesstab : Word
  sesstabSet : Bool
  swapcb : Word
  cnsavea : Word
  cecnt : Word
  uecnt : Word
  linkst : BitVec 19
  meas : Vector (BitVec 512) 8
  /-- the digest Primer measured at power-on (R372, failure 0x07) -/
  measured : Option (BitVec 512)
  linkUp : Vector Bool 2
  spdm : Vector Spdm 2
  /-- posted writes of the host that no doorbell covers: port, requester, sector (R367) -/
  uncovered : List (BitVec 1 × BitVec 16 × Nat)
  /-- messages sent: port and vector (R366) -/
  msix : List (BitVec 1 × BitVec 11)
  reply : Reply
  deriving DecidableEq, Repr

/-- Who acts next (log entry 1). -/
inductive Agent where
  /-- the hart in this slot runs one step -/
  | hart (id : BitVec 11)
  /-- one part of the irrevocable instruction at its PC: the close of its strip, or one sector of its `TurnAll` (R230) -/
  | part (id : BitVec 11)
  /-- the hart's scalar core goes on past the block at its PC, whose words stay in the queues (R204) -/
  | ahead (id : BitVec 11)
  /-- the queues of the hart run one word of a block that its scalar core has passed (R204) -/
  | words (id : BitVec 11)
  /-- the hart performs a load of `n` bytes at a location before earlier accesses (R231) -/
  | early (id : BitVec 11) (loc n : Nat)
  /-- Trowel turns one sector of the command at this place (R190, R230) -/
  | sector (k : Nat)
  /-- a doorbell of this port and requester, next in the agenda, turns one sector (R230, R367) -/
  | bell (port : BitVec 1) (req : BitVec 16)
  /-- the dispatcher turns one sector of what it promotes for the task that comes next on a die (R230, R284) -/
  | promo (die : BitVec 1)
  /-- this event happens -/
  | event (i : Instr)
  deriving DecidableEq, Repr

/-- One package. -/
structure State where
  /-- the slot whose turn it is -/
  h : Hart
  /-- the other slots that are not FREE, rising by HARTID[10:0] -/
  others : List (Nat × Hart)
  /-- cores that hold anything, rising by HARTID[10:1] -/
  cores : List (Nat × Core)
  /-- bytes, rising by location; an unlisted location reads as zero -/
  mem : List Host.Cell
  /-- turn-state entries (Table turn.3), rising by sector; an unlisted sector is turned to L5 with POS and OWNER 0 -/
  turn : List (Nat × BitVec 30)
  /-- 8-byte words tagged full (R109), rising -/
  full : List Nat
  /-- poisoned sectors (R349) -/
  poison : List Poison
  /-- bytes of host memory as the host still holds them, where the package has written and no turn to L5 has sent the write on
  (R368); `mem` has what the package reads there -/
  held : List Host.Cell
  copies : List Copy
  flight : List Outbound
  /-- harts waiting on a word, in arrival order: location, hart (R111) -/
  waiters : List (Nat × BitVec 11)
  cmds : List Cmd
  /-- the core that each cluster's array has served last (R184) -/
  arrays : List (Nat × Nat)
  nets : Vector Net 16
  queues : List (Nat × WorkQueue)
  starts : List HeldStart
  rings : List (Nat × Ring)
  posted : List Posted
  regions : List (Nat × RegionCtx)
  /-- the same of their fields that name parents, targets and pools -/
  refs : List (Nat × RegionRefs)
  /-- what `rstop` has done to regions and their descendants, the latest first: stopped, or released (R198) -/
  stoppedRegions : List (BitVec 16 × Bool)
  /-- regions that an uncorrectable error is ending: their harts still leave their cores (R349) -/
  ended : List (BitVec 16)
  /-- records of a replayed log already used: the log's address, index (R352) -/
  replayed : List (Nat × Nat)
  /-- log records that wait for room, the oldest first; the hart that produced one stands stalled (R351) -/
  unlogged : List Unlogged
  tasks : List Task
  promos : List Promotion
  evict : Option Eviction
  fetches : List Fetch
  /-- commands not completed, in the order of their submission -/
  nvme : List Nvme
  /-- I/O queue pairs that the engine has created (R370) -/
  pairs : Nat
  /-- sessions that became RESUMING while the engine was stopped, which it has not looked at yet (R345, R364) -/
  resumes : List Nat
  /-- namespaces whose format the storage device gives; an unlisted one has the LBA size that the control block names, no metadata and
  no protection (R370) -/
  namespaces : List (Nat × Namespace)
  /-- flash bytes by 2^80 · namespace + byte offset in it; unlisted read as zero -/
  flash : List Host.Cell
  /-- pool blocks that fetches in flight are bringing in, by region (R346) -/
  charged : List (BitVec 16 × Nat)
  /-- a saved hart, by the location of its image's TLSW word, for what the image does not hold: its write set, what it was started from,
  its flags of R267 (R190, R267, R274, R307; log entry 12) -/
  saved : List (Nat × Hart)
  /-- units of an image that a `ctxload` in progress has read, by the slot it fills (R13, R309) -/
  loads : List (Nat × List Nat)
  stepno : BitVec 32
  arrivals : BitVec 32
  /-- pages and blocks that have landed (Table swap.8) -/
  landings : Nat
  host : HostRegs
  /-- clock ratio in sixteenths (R374) -/
  ratio : Nat
  /-- the part has two compute dies (R1, R2) -/
  twoDie : Bool
  /-- this package's index and the packages of its domain (R215) -/
  pkg : BitVec 10
  domain : Nat
  stopped : Bool
  /-- index of the next free value -/
  clock : Nat
  agenda : List Agent
  deriving DecidableEq, Repr

/-- The reverting state a hart starts with (R15, R16, R19, R20, R23, Table state.3). -/
def Regs.start : Regs :=
  { s := Vector.replicate 32 0, c := 1, v := Vector.replicate 32 0, k := Vector.replicate 8 0,
    binds := Vector.replicate 32 none, osmax := 0xFF800000, ossum := 0, oscale := 0x3F800000,
    vl := 0, vtype := 8, slip := 0, fflags := 0 }

/-- A FREE slot's hart: every field at the reset column of its register map. -/
def Hart.blank (id : BitVec 11) : Hart :=
  { id := id, st := .free, pc := 0, eix := 0, r := Regs.start, ck := Regs.start, ckEix := 0, ckBlk := none,
    blk := none, stripOpen := true, byVl := false, rerun := false, buf := [], stale := [], early := [], fed := [], perf := 0,
    queue := [], amo := none, building := none, listed := [], instPend := 0, instret := 0, stripn := 0, strippc := 0,
    stripctl := 2000 <<< 40, budget := 131072, faultrec := 0, turnprog := 0, freed := 0, tl := Vector.replicate 4 0,
    issued := Vector.replicate 4 0, region := 0, gang := none, vlceil := 0, pref := 1, min := 1, leasePref := 1, leaseMin := 1, granted := 1,
    cur := 0, prev := 0, expert := false, epc := 0, eixCsr := 0, epcBlk := none, ecause := 0, eval := 0,
    trapvec := 0, savearea := 0, tracectl := 0, samplebuf := 12,
    header := { stopat := 0, waddr := 0, wlen := 0, wmode := 0 }, strict := false, replay := 0, trace := false,
    prio := 0, origin := .none, writeSet := [], wva := [], turned := [], reports := [], raised := 0, delivered := 0,
    watched := none, watchedAt := 0, place := 0, ckWatched := none, epcWatched := none,
    trimmed := false, overLimit := false, openedAt := 0, preempt := false, wait := .none, owed := [],
    slices := [], tiles := 0 }

/-- A core after core reset (R218, R288, R365). -/
def Core.reset : Core :=
  { acc0 := [], acc1 := [], grout := none, evq := 0, evHead := 0, evTail := 0, cycle := 0, obs := [], gap := 0, lost := 0 }

/-- A counting network at power-on: the reset image, closed (R336). -/
def Net.reset : Net :=
  { closed := true, torn := false, base := 0, hwm := 0, bal := 0, cnt := Vector.replicate 16 0, tokens := [] }

/-- A work queue after reset (Table region.2). -/
def WorkQueue.reset : WorkQueue :=
  { base := 0, enable := false, log2n := 4, root := 0, tail := 0, head := 0, err := false, reason := 0, bells := [] }

/-- A completion ring after reset (Table host.2). -/
def Ring.reset : Ring :=
  { base := 0, enable := false, port := 0, log2n := 4, vector := 0, tail := 0, head := 0 }

/-- The host registers after power-on, with Primer at its last step (R364, R372). -/
def HostRegs.reset : HostRegs :=
  { warmBusy := false, fail := 0, stage := 6, sem := Vector.replicate 16 0, regiontab := 0, regiontabSet := false,
    sesstab := 0, sesstabSet := false, swapcb := 0, cnsavea := 0, cecnt := 0, uecnt := 0, linkst := 0x40000,
    meas := Vector.replicate 8 0, measured := none, linkUp := Vector.replicate 2 true,
    spdm := Vector.replicate 2 { version := false, caps := false, algs := false }, uncovered := [], msix := [],
    reply := .none }

/-- The range entry through which the first stage reaches memory: virtual addresses equal physical ones
(log entry 5): BASE 0, LIMIT 2^52 - 1, OFFSET 0, LOCKED TAGGED U X W R V. -/
def bootRange : BitVec 256 := BitVec.ofNat 256 (0xFD * 2^192 + 0xFFFFFFFFFFFFF * 2^64)

/-- What the hardware holds of the system region when the first stage starts (log entry 5). -/
def RegionCtx.boot : RegionCtx :=
  { id := 0, ranges := 0, ptroot := 0, prio := 0, bharts := 0, blanes := 0, bmx := 0, bswap := 0, bmem := 0,
    locked := (List.range 32).map (fun i => (i, if i = 0 then bootRange else 0)) }

/-- The hart Primer starts: core 0 of cluster 0, die 0, slot 0, at hypervisor level (R372, log entry 5). -/
def Hart.boot : Hart :=
  { Hart.blank 0 with st := .running, cur := 2, pref := 8, leasePref := 8, granted := 8 }

/-- The package after power-on, when Primer has started the first stage (R365, R372). -/
def State.reset : State :=
  { h := Hart.boot, others := [], cores := [], mem := [], turn := [], full := [], poison := [], held := [], copies := [],
    flight := [], waiters := [], cmds := [], arrays := [], nets := Vector.replicate 16 Net.reset, queues := [], starts := [],
    rings := [], posted := [], regions := [(0, RegionCtx.boot)], refs := [], stoppedRegions := [], ended := [], replayed := [],
    unlogged := [], tasks := [], promos := [], evict := none, fetches := [], nvme := [], pairs := 0, resumes := [], namespaces := [],
    flash := [], charged := [], saved := [], loads := [], stepno := 0,
    arrivals := 0, landings := 0,
    host := HostRegs.reset, ratio := 16, twoDie := true, pkg := 0, domain := 1, stopped := false, clock := 0,
    agenda := [] }

end Sys2Proof.Machine
end

