-- ==== Sys2Proof/Machine/Bits.lean ====
section
/-!
DEFINITION. Helpers without meaning of their own: sparse maps in one canonical form, sets of numbers, bit fields,
sign extension, byte order and packed elements.
-/

namespace Sys2Proof.Machine

/-! ### Sparse maps: keys strictly rising, no entry equal to the default -/

/-- The value at a key; the default where no entry stands. -/
def sget {α : Type} (d : α) (m : List (Nat × α)) (k : Nat) : α :=
  match m with
  | [] => d
  | (k', v) :: t => if k' = k then v else sget d t k

/-- Set the value at a key; setting the default removes the entry. -/
def sset {α : Type} [DecidableEq α] (d : α) (m : List (Nat × α)) (k : Nat) (v : α) : List (Nat × α) :=
  match m with
  | [] => if v = d then [] else [(k, v)]
  | (k', v') :: t =>
    if k < k' then (if v = d then (k', v') :: t else (k, v) :: (k', v') :: t)
    else if k = k' then (if v = d then t else (k, v) :: t)
    else (k', v') :: sset d t k v

/-- The entry at a key, if one stands. -/
def sfind {α : Type} (m : List (Nat × α)) (k : Nat) : Option α :=
  match m with
  | [] => none
  | (k', v) :: t => if k' = k then some v else sfind t k

/-- Put an entry, whatever its value. -/
def sput {α : Type} (m : List (Nat × α)) (k : Nat) (v : α) : List (Nat × α) :=
  match m with
  | [] => [(k, v)]
  | (k', v') :: t =>
    if k < k' then (k, v) :: (k', v') :: t else if k = k' then (k, v) :: t else (k', v') :: sput t k v

/-- Remove the entry at a key. -/
def serase {α : Type} (m : List (Nat × α)) (k : Nat) : List (Nat × α) :=
  m.filter (fun e => e.1 ≠ k)

/-- Keys rise strictly, each above a bound. -/
def risingFrom {α : Type} (b : Nat) : List (Nat × α) → Bool
  | [] => true
  | (k, _) :: t => decide (b ≤ k) && risingFrom (k + 1) t

/-- The canonical form of a sparse map with a default. -/
def canonical {α : Type} [DecidableEq α] (d : α) (m : List (Nat × α)) : Bool :=
  risingFrom 0 m && m.all (fun e => decide (e.2 ≠ d))

/-- Add a number to a rising list. -/
def ninsert (k : Nat) : List Nat → List Nat
  | [] => [k]
  | x :: t => if k < x then k :: x :: t else if k = x then x :: t else x :: ninsert k t

/-- Remove a number from a list. -/
def nerase (k : Nat) (l : List Nat) : List Nat := l.filter (fun x => x ≠ k)

/-- Replace the entry of a list at an index. -/
def setAt {α : Type} (l : List α) (k : Nat) (x : α) : List α := l.set k x

/-- The distinct members of a list, each at its first appearance. -/
def distinct {α : Type} [DecidableEq α] : List α → List α → List α
  | _, [] => []
  | seen, x :: t => if seen.contains x then distinct seen t else x :: distinct (x :: seen) t

/-! ### Fields -/

/-- Bits [lo + len - 1 : lo] of a number. -/
def nbits (x lo len : Nat) : Nat := x / 2^lo % 2^len

/-- A number with bits [lo + len - 1 : lo] replaced. -/
def nput (x lo len v : Nat) : Nat := x - nbits x lo len * 2^lo + v % 2^len * 2^lo

/-- The low `w` bits read as a two's-complement number. -/
def sInt (w x : Nat) : Int := if x % 2^w < 2^(w - 1) then (x % 2^w : Nat) else (x % 2^w : Nat) - (2^w : Nat)

/-- An integer modulo 2^w, as a bit pattern. -/
def wrapN (w : Nat) (x : Int) : Nat := (x % (2^w : Nat)).toNat

/-- A number as a 64-bit word. -/
def wd (x : Nat) : Word := BitVec.ofNat 64 x

/-- An integer as a 64-bit word, modulo 2^64. -/
def wdI (x : Int) : Word := BitVec.ofInt 64 x

/-- Sign-extend the low `w` bits to 64. -/
def sextW (w : Nat) (x : Nat) : Word := wdI (sInt w x)

/-- The number of a list of bytes, the first lowest. -/
def leOf : List Byte → Nat := leNat

/-- One flag as a number. -/
def bnat (b : Bool) : Nat := if b then 1 else 0

/-! ### Packed elements -/

/-- Element `i` of width `w` in a packed register. -/
def elt (w x i : Nat) : Nat := x / 2^(i * w) % 2^w

/-- The first `n` elements of width `w`. -/
def elts (w n x : Nat) : List Nat := (List.range n).map (elt w x)

/-- A register packed from its elements. -/
def pack (w : Nat) : List Nat → Nat
  | [] => 0
  | e :: es => e % 2^w + 2^w * pack w es

/-- A register whose first elements are given; the rest stays. -/
def overlay (w : Nat) (old : Nat) (es : List Nat) : Nat :=
  pack w es + old / 2^(w * es.length) * 2^(w * es.length)

/-- Bit `i` of a number. -/
def nbit (x i : Nat) : Bool := x / 2^i % 2 == 1

/-- A mask whose first bits are given; the rest stays. -/
def overlayBits (old : Nat) (bs : List Bool) : Nat := overlay 1 old (bs.map bnat)

/-! ### Registers of one hart -/

/-- s0 reads as zero (R15). -/
def Regs.readS (r : Regs) (i : BitVec 5) : Word := if i = 0 then 0 else r.s.get i.toFin

/-- A write to s0 is discarded (R15). -/
def Regs.writeS (r : Regs) (i : BitVec 5) (x : Word) : Regs :=
  if i = 0 then r else { r with s := r.s.set i.toNat x (by simpa using i.isLt) }

/-- c0 reads as true (R16). -/
def Regs.readC (r : Regs) (i : BitVec 3) : Bool := if i = 0 then true else r.c.getLsbD i.toNat

/-- A write to c0 is discarded (R16). -/
def Regs.writeC (r : Regs) (i : BitVec 3) (b : Bool) : Regs :=
  if i = 0 then r
  else { r with c := BitVec.ofNat 8 (nput r.c.toNat i.toNat 1 (bnat b)) }

/-- k0 reads as all ones (R19). -/
def Regs.readK (r : Regs) (i : BitVec 3) : KReg := if i = 0 then BitVec.allOnes 2048 else r.k.get i.toFin

/-- A write to k0 is discarded (R19). -/
def Regs.writeK (r : Regs) (i : BitVec 3) (x : KReg) : Regs :=
  if i = 0 then r else { r with k := r.k.set i.toNat x (by simpa using i.isLt) }

/-- A vector register. -/
def Regs.readV (r : Regs) (i : BitVec 5) : VReg := r.v.get i.toFin

/-- Write a vector register. -/
def Regs.writeV (r : Regs) (i : BitVec 5) (x : VReg) : Regs :=
  { r with v := r.v.set i.toNat x (by simpa using i.isLt) }

/-- The stream binding of a vector register (R20). -/
def Regs.bind (r : Regs) (i : BitVec 5) : Option Binding := r.binds.get i.toFin

/-- Set or remove a stream binding. -/
def Regs.setBind (r : Regs) (i : BitVec 5) (b : Option Binding) : Regs :=
  { r with binds := r.binds.set i.toNat b (by simpa using i.isLt) }

end Sys2Proof.Machine
end

