-- ==== Sys2Proof/Machine/Float.lean ====
section
/-!
DEFINITION. The number formats and their arithmetic (R36 to R57): values are exact (a sign, a number and a power of two), and
enter a format through one rounding. Flags are numbered as FFLAGS[4:0]: NV, DZ, OF, UF, NX.
-/

namespace Sys2Proof.Machine

/-- A rounding mode (R41). -/
inductive Rm where
  | rne | rtz | rdn | rup
  deriving DecidableEq, Repr

/-- A floating format (Table numbers.3). -/
structure Fmt where
  /-- exponent bits -/
  eb : Nat
  /-- fraction bits -/
  mb : Nat
  bias : Nat
  /-- E4M3 has no infinities and one NaN fraction (R37) -/
  finiteOnly : Bool
  deriving DecidableEq, Repr

namespace Fmt
def f32 : Fmt := ⟨8, 23, 127, false⟩
def bf16 : Fmt := ⟨8, 7, 127, false⟩
def f16 : Fmt := ⟨5, 10, 15, false⟩
def e4m3 : Fmt := ⟨4, 3, 7, true⟩
def e5m2 : Fmt := ⟨5, 2, 15, false⟩

/-- Width in bits. -/
def width (f : Fmt) : Nat := f.eb + f.mb + 1
/-- The sign bit. -/
def signBit (f : Fmt) : Nat := 2^(f.eb + f.mb)
/-- The bits of +∞, or one above the largest finite value of E4M3 (R38). -/
def top (f : Fmt) : Nat := if f.finiteOnly then 2^(f.eb + f.mb) - 1 else (2^f.eb - 1) * 2^f.mb
/-- The canonical NaN (R38). -/
def canon (f : Fmt) : Nat := if f.finiteOnly then 2^(f.eb + f.mb) - 1 else (2^f.eb - 1) * 2^f.mb + 2^(f.mb - 1)
/-- The exponent of the least bit of a subnormal. -/
def qmin (f : Fmt) : Int := 1 - (f.bias : Int) - (f.mb : Int)
end Fmt

/-- A value of a floating format, or an exact intermediate. -/
inductive FVal where
  | nan (signalling : Bool)
  | inf (neg : Bool)
  /-- (-1)^neg · m · 2^e -/
  | fin (neg : Bool) (m : Nat) (e : Int)
  deriving DecidableEq, Repr

/-- The value of a bit pattern (R37, R39). -/
def FVal.ofBits (f : Fmt) (x : Nat) : FVal :=
  let neg := nbit x (f.eb + f.mb)
  let ex := nbits x f.mb f.eb
  let fr := nbits x 0 f.mb
  if f.finiteOnly then
    (if ex = 2^f.eb - 1 ∧ fr = 2^f.mb - 1 then .nan false
     else if ex = 0 then .fin neg fr f.qmin else .fin neg (2^f.mb + fr) (f.qmin + (ex : Int) - 1))
  else if ex = 2^f.eb - 1 then
    (if fr = 0 then .inf neg else .nan (!(nbit fr (f.mb - 1))))
  else if ex = 0 then .fin neg fr f.qmin
  else .fin neg (2^f.mb + fr) (f.qmin + (ex : Int) - 1)

/-- Flags, numbered as FFLAGS[4:0] (Table state.6). -/
def flagNV : BitVec 5 := 16
def flagDZ : BitVec 5 := 8
def flagOF : BitVec 5 := 4
def flagUF : BitVec 5 := 2
def flagNX : BitVec 5 := 1

/-- A result's bits and the flags it sets. -/
abbrev Rounded := Nat × BitVec 5

/-- Round up in magnitude: the mode, the sign, the odd bit, the remainder against half, and whether anything was cut. -/
def roundsUp (rm : Rm) (neg odd : Bool) (cmpHalf : Ordering) (cut : Bool) : Bool :=
  match rm with
  | .rne => cmpHalf == .gt || (cmpHalf == .eq && odd)
  | .rtz => false
  | .rdn => neg && cut
  | .rup => !neg && cut

/-- m · 2^e cut to a multiple of 2^q in a mode: the number of quanta and whether it was inexact. `sticky` says that the
exact value lies above m · 2^e by less than the last place. -/
def quantise (rm : Rm) (neg : Bool) (m : Nat) (e q : Int) (sticky : Bool) : Nat × Bool :=
  if q ≤ e then
    let n := m * 2^(e - q).toNat
    (n + bnat (roundsUp rm neg (n % 2 == 1) .lt sticky), sticky)
  else
    let k := (q - e).toNat
    let n := m / 2^k
    let r := m % 2^k
    let half := 2^(k - 1)
    let c : Ordering := if r < half then .lt else if half < r || sticky then .gt else .eq
    let cut := sticky || r != 0
    (n + bnat (roundsUp rm neg (n % 2 == 1) c cut), cut)

/-- What an overflow gives (R40). -/
def overflowBits (f : Fmt) (rm : Rm) (neg : Bool) : Nat :=
  let s := if neg then f.signBit else 0
  if f.finiteOnly then s + (f.top - 1)
  else match rm with
    | .rne => s + f.top
    | .rtz => s + (f.top - 1)
    | .rdn => if neg then s + f.top else s + (f.top - 1)
    | .rup => if neg then s + (f.top - 1) else s + f.top

/-- `RoundTo` on a finite exact value (R35, R40, R43). -/
def roundFin (f : Fmt) (rm : Rm) (neg : Bool) (m : Nat) (e : Int) (sticky : Bool) : Rounded :=
  let s := if neg then f.signBit else 0
  if m = 0 ∧ !sticky then (s, 0)
  else
    let lead : Int := e + (Nat.log2 m : Int)
    let q := max (lead - (f.mb : Int)) f.qmin
    let (n, inexact) := quantise rm neg m e q sticky
    let b := (q - f.qmin).toNat * 2^f.mb + n
    if f.top ≤ b then (overflowBits f rm neg, flagOF ||| flagNX)
    else
      let tiny := decide (lead < f.qmin + (f.mb : Int))
      (s + b, if inexact then (if tiny then flagUF ||| flagNX else flagNX) else 0)

/-- `RoundTo` (R35, R39, R40). An infinity converted to E4M3 gives ±448 with OF and NX. -/
def roundTo (f : Fmt) (rm : Rm) (v : FVal) : Rounded :=
  match v with
  | .nan sig => (f.canon, if sig then flagNV else 0)
  | .inf neg =>
    if f.finiteOnly then (overflowBits f rm neg, flagOF ||| flagNX)
    else ((if neg then f.signBit else 0) + f.top, 0)
  | .fin neg m e => roundFin f rm neg m e false

/-- The value of `RNE32`. -/
def rne32 (v : FVal) : Rounded := roundTo Fmt.f32 .rne v

/-- A value is a signalling NaN. -/
def FVal.sig : FVal → Bool
  | .nan s => s
  | _ => false

/-- A value is a NaN. -/
def FVal.isNan : FVal → Bool
  | .nan _ => true
  | _ => false

/-- A value is zero of either sign. -/
def FVal.isZero : FVal → Bool
  | .fin _ m _ => m == 0
  | _ => false

/-- The sign of a value. -/
def FVal.neg : FVal → Bool
  | .nan _ => false
  | .inf n => n
  | .fin n _ _ => n

/-- The value with its sign changed. -/
def FVal.negate : FVal → FVal
  | .nan s => .nan s
  | .inf n => .inf (!n)
  | .fin n m e => .fin (!n) m e

/-- NV for signalling operands (R39). -/
def nvOf (vs : List FVal) : BitVec 5 := if vs.any FVal.sig then flagNV else 0

/-- An exact signed sum of two finite values over their common exponent. -/
def addFin (rm : Rm) (n1 : Bool) (m1 : Nat) (e1 : Int) (n2 : Bool) (m2 : Nat) (e2 : Int) : FVal :=
  let e := min e1 e2
  let a : Int := (if n1 then -1 else 1) * ((m1 * 2^(e1 - e).toNat : Nat) : Int)
  let b : Int := (if n2 then -1 else 1) * ((m2 * 2^(e2 - e).toNat : Nat) : Int)
  let s := a + b
  if s = 0 then .fin (if n1 = n2 then n1 else rm == .rdn) 0 e
  else .fin (decide (s < 0)) s.natAbs e

/-- The exact sum: its value and the flags of invalid operations (R39, Table arith.6). -/
def fsum (rm : Rm) (a b : FVal) : FVal × BitVec 5 :=
  match a, b with
  | .nan _, _ => (.nan false, nvOf [a, b])
  | _, .nan _ => (.nan false, nvOf [a, b])
  | .inf n1, .inf n2 => if n1 = n2 then (.inf n1, 0) else (.nan false, flagNV)
  | .inf n1, .fin _ _ _ => (.inf n1, 0)
  | .fin _ _ _, .inf n2 => (.inf n2, 0)
  | .fin n1 m1 e1, .fin n2 m2 e2 => (addFin rm n1 m1 e1 n2 m2 e2, 0)

/-- The exact product. -/
def fprod (a b : FVal) : FVal × BitVec 5 :=
  match a, b with
  | .nan _, _ => (.nan false, nvOf [a, b])
  | _, .nan _ => (.nan false, nvOf [a, b])
  | .inf n1, .inf n2 => (.inf (n1 != n2), 0)
  | .inf n1, .fin n2 m2 _ => if m2 = 0 then (.nan false, flagNV) else (.inf (n1 != n2), 0)
  | .fin n1 m1 _, .inf n2 => if m1 = 0 then (.nan false, flagNV) else (.inf (n1 != n2), 0)
  | .fin n1 m1 e1, .fin n2 m2 e2 => (.fin (n1 != n2) (m1 * m2) (e1 + e2), 0)

/-- Round an exact value and join the flags. -/
def finish (f : Fmt) (rm : Rm) (x : FVal × BitVec 5) : Rounded :=
  let r := roundTo f rm x.1
  (r.1, x.2 ||| r.2)

/-- `vfadd` on bit patterns (R129). -/
def fadd (f : Fmt) (rm : Rm) (a b : Nat) : Rounded := finish f rm (fsum rm (.ofBits f a) (.ofBits f b))
/-- `vfsub`. -/
def fsub (f : Fmt) (rm : Rm) (a b : Nat) : Rounded := finish f rm (fsum rm (.ofBits f a) (FVal.ofBits f b).negate)
/-- `vfmul`. -/
def fmul (f : Fmt) (rm : Rm) (a b : Nat) : Rounded := finish f rm (fprod (.ofBits f a) (.ofBits f b))

/-- `vfma` (R130): ±(a · b) ± c with one rounding; bit 0 of the form negates the product, bit 1 the addend. -/
def ffma (f : Fmt) (rm : Rm) (form : BitVec 2) (a b c : Nat) : Rounded :=
  let va := FVal.ofBits f a
  let vb := FVal.ofBits f b
  let vc := FVal.ofBits f c
  let p := fprod va vb
  let pv := if form.getLsbD 0 then p.1.negate else p.1
  let cv := if form.getLsbD 1 then vc.negate else vc
  let s := fsum rm pv cv
  finish f rm (s.1, p.2 ||| s.2)

/-- `vfdiv` (Table arith.6, R40). -/
def fdiv (f : Fmt) (rm : Rm) (a b : Nat) : Rounded :=
  match FVal.ofBits f a, FVal.ofBits f b with
  | .nan s, y => (f.canon, nvOf [.nan s, y])
  | x, .nan s => (f.canon, nvOf [x, .nan s])
  | .inf _, .inf _ => (f.canon, flagNV)
  | .inf n1, .fin n2 _ _ => roundTo f rm (.inf (n1 != n2))
  | .fin n1 _ _, .inf n2 => roundTo f rm (.fin (n1 != n2) 0 0)
  | .fin n1 m1 e1, .fin n2 m2 e2 =>
    if m2 = 0 then
      (if m1 = 0 then (f.canon, flagNV)
       else
         let r := roundTo f rm (.inf (n1 != n2))
         (r.1, r.2 ||| flagDZ))
    else
      let k := 64 + Nat.log2 m2
      let q := m1 * 2^k / m2
      let r := m1 * 2^k % m2
      roundFin f rm (n1 != n2) q (e1 - e2 - (k : Int)) (r != 0)

/-- The integer square root, one bit at a time. -/
def isqrt : Nat → Nat → Nat → Nat
  | 0, _, r => r
  | b + 1, x, r => isqrt b x (if (r + 2^b) * (r + 2^b) ≤ x then r + 2^b else r)

/-- `vfsqrt` (Table arith.6). -/
def fsqrt (f : Fmt) (rm : Rm) (a : Nat) : Rounded :=
  match FVal.ofBits f a with
  | .nan s => (f.canon, nvOf [.nan s])
  | .inf n => if n then (f.canon, flagNV) else roundTo f rm (.inf false)
  | .fin n m e =>
    if m = 0 then roundTo f rm (.fin n 0 0)
    else if n then (f.canon, flagNV)
    else
      let k : Nat := if e % 2 = 0 then 128 else 129
      let x := m * 2^k
      let r := isqrt 90 x 0
      roundFin f rm false r ((e - (k : Int)) / 2) (r * r != x)

/-- -1, 0 or 1 as one finite or infinite value is below, equal to or above another; zeros are equal. -/
def fcompare (a b : FVal) : Int :=
  match a, b with
  | .nan _, _ => 0
  | _, .nan _ => 0
  | .inf n1, .inf n2 => if n1 = n2 then 0 else if n1 then -1 else 1
  | .inf n1, .fin _ _ _ => if n1 then -1 else 1
  | .fin _ _ _, .inf n2 => if n2 then 1 else -1
  | .fin n1 m1 e1, .fin n2 m2 e2 =>
    let e := min e1 e2
    let x : Int := (if n1 then -1 else 1) * ((m1 * 2^(e1 - e).toNat : Nat) : Int)
    let y : Int := (if n2 then -1 else 1) * ((m2 * 2^(e2 - e).toNat : Nat) : Int)
    (x - y).sign

/-- a stands before b in the order of R131, where -0 is below +0. -/
def fless (a b : FVal) : Bool :=
  let c := fcompare a b
  c == -1 || (c == 0 && a.isZero && b.isZero && a.neg && !b.neg)

/-- `vfmin` and `vfmax` (R131). -/
def fminmax (f : Fmt) (isMax : Bool) (a b : Nat) : Rounded :=
  let va := FVal.ofBits f a
  let vb := FVal.ofBits f b
  if va.isNan && vb.isNan then (f.canon, nvOf [va, vb])
  else if va.isNan then (b, nvOf [va])
  else if vb.isNan then (a, nvOf [vb])
  else if isMax then (if fless va vb then b else a, 0) else (if fless vb va then b else a, 0)

/-- `vfabs` and `vfneg` (R129): exact, a NaN becomes canonical. -/
def fsign (f : Fmt) (isAbs : Bool) (a : Nat) : Rounded :=
  let v := FVal.ofBits f a
  if v.isNan then (f.canon, nvOf [v])
  else
    let mag := a % f.signBit
    let s := if isAbs then false else !(nbit a (f.eb + f.mb))
    (mag + (if s then f.signBit else 0), 0)

/-- The result of a compare and its flags (R127): code eq 0, ne 1, lt 2, ge 3, le 4, gt 5, unordered 6. -/
def fcmp (f : Fmt) (cond : Nat) (a b : Nat) : Bool × BitVec 5 :=
  let va := FVal.ofBits f a
  let vb := FVal.ofBits f b
  let un := va.isNan || vb.isNan
  let c := fcompare va vb
  let quiet := cond == 0 || cond == 1 || cond == 6
  let fl := if un then (if quiet then nvOf [va, vb] else flagNV) else 0
  let r := match cond with
    | 0 => !un && c == 0
    | 1 => un || c != 0
    | 2 => !un && c == -1
    | 3 => !un && (c == 0 || c == 1)
    | 4 => !un && (c == 0 || c == -1)
    | 5 => !un && c == 1
    | _ => un
  (r, fl)

/-- The class code of `vclass` (Table arith.5). -/
def fclass (f : Fmt) (a : Nat) : Nat :=
  match FVal.ofBits f a with
  | .nan s => if s then 8 else 9
  | .inf n => if n then 0 else 7
  | .fin n m _ =>
    if m = 0 then (if n then 3 else 4)
    else if m < 2^f.mb then (if n then 2 else 5)
    else (if n then 1 else 6)

/-! ### The exponential (R52, R53) -/

/-- T[j] = RNE32(2^(j/64)). -/
def expTable : List Nat :=
  [0x3F800000, 0x3F8164D2, 0x3F82CD87, 0x3F843A29, 0x3F85AAC3, 0x3F871F62, 0x3F88980F, 0x3F8A14D5,
   0x3F8B95C2, 0x3F8D1ADF, 0x3F8EA43A, 0x3F9031DC, 0x3F91C3D3, 0x3F935A2B, 0x3F94F4F0, 0x3F96942D,
   0x3F9837F0, 0x3F99E046, 0x3F9B8D3A, 0x3F9D3EDA, 0x3F9EF532, 0x3FA0B051, 0x3FA27043, 0x3FA43516,
   0x3FA5FED7, 0x3FA7CD94, 0x3FA9A15B, 0x3FAB7A3A, 0x3FAD583F, 0x3FAF3B79, 0x3FB123F6, 0x3FB311C4,
   0x3FB504F3, 0x3FB6FD92, 0x3FB8FBAF, 0x3FBAFF5B, 0x3FBD08A4, 0x3FBF179A, 0x3FC12C4D, 0x3FC346CD,
   0x3FC5672A, 0x3FC78D75, 0x3FC9B9BE, 0x3FCBEC15, 0x3FCE248C, 0x3FD06334, 0x3FD2A81E, 0x3FD4F35B,
   0x3FD744FD, 0x3FD99D16, 0x3FDBFBB8, 0x3FDE60F5, 0x3FE0CCDF, 0x3FE33F89, 0x3FE5B907, 0x3FE8396A,
   0x3FEAC0C7, 0x3FED4F30, 0x3FEFE4BA, 0x3FF28177, 0x3FF5257D, 0x3FF7D0DF, 0x3FFA83B3, 0x3FFD3E0C]

/-- a1, a2 and a3 of R52. -/
def expA1 : Nat := 0x3F317218
def expA2 : Nat := 0x3E75FDF0
def expA3 : Nat := 0x3D635847

/-- RNE32(c + RNE32(p · r)), for bit patterns c and p and an exact r. -/
def expStep (c p : Nat) (r : FVal) : Nat :=
  let t := (rne32 (fprod (.ofBits Fmt.f32 p) r).1).1
  (rne32 (fsum .rne (.ofBits Fmt.f32 c) (.ofBits Fmt.f32 t)).1).1

/-- `vfexp2` on an FP32 bit pattern. -/
def fexp2 (rm : Rm) (x : Nat) : Rounded :=
  match FVal.ofBits Fmt.f32 x with
  | .nan s => (Fmt.f32.canon, nvOf [.nan s])
  | .inf n => if n then (0, 0) else (Fmt.f32.top, 0)
  | .fin n m e =>
    let v := FVal.fin n m e
    if m = 0 then (0x3F800000, 0)
    else if fcompare v (.fin false 1 7) ≠ -1 then (Fmt.f32.top, flagOF ||| flagNX)
    else if fcompare v (.fin true 150 0) = -1 then (0, flagUF ||| flagNX)
    else
      -- x as a count of 2^-k, k large enough that it is exact
      let k : Nat := (-(min e 0)).toNat
      let num : Int := (if n then -1 else 1) * ((m * 2^(e + (k : Int)).toNat : Nat) : Int)
      let one : Int := ((2^k : Nat) : Int)
      let fl := Int.fdiv num one
      let fr := (num - fl * one).toNat
      let j := 64 * fr / 2^k
      let r := FVal.fin false (64 * fr % 2^k) (-(k : Int) - 6)
      let t3 := (rne32 (fprod (.ofBits Fmt.f32 expA3) r).1).1
      let p := (rne32 (fsum .rne (.ofBits Fmt.f32 expA2) (.ofBits Fmt.f32 t3)).1).1
      let p := expStep expA1 p r
      let p := expStep 0x3F800000 p r
      match (fprod (.ofBits Fmt.f32 ((expTable[j]?).getD 0)) (.ofBits Fmt.f32 p)).1 with
      | .fin s mm ee => roundFin Fmt.f32 rm s mm (ee + fl) false
      | w => roundTo Fmt.f32 rm w

/-! ### Element types (Tables state.5, numbers.2) -/

/-- An element type: integer with a width and signedness, or a floating format. -/
inductive EType where
  | int (w : Nat) (signed : Bool)
  | flt (f : Fmt)
  deriving DecidableEq, Repr

/-- The type of an ETYPE code. -/
def etypeOf (c : Nat) : EType :=
  match c with
  | 0 => .int 8 true
  | 1 => .int 16 true
  | 2 => .int 32 true
  | 3 => .int 64 true
  | 4 => .int 8 false
  | 5 => .int 16 false
  | 6 => .int 32 false
  | 7 => .int 64 false
  | 8 => .flt Fmt.f32
  | 9 => .flt Fmt.bf16
  | 10 => .flt Fmt.f16
  | 11 => .flt Fmt.e4m3
  | _ => .flt Fmt.e5m2

/-- Its width in bits. -/
def EType.width : EType → Nat
  | .int w _ => w
  | .flt f => f.width

/-- A bit pattern read as the integer of a type. -/
def intVal (w : Nat) (signed : Bool) (x : Nat) : Int := if signed then sInt w x else ((x % 2^w : Nat) : Int)

/-- `Sat` (R35). -/
def satN (w : Nat) (signed : Bool) (x : Int) : Nat :=
  let lo : Int := if signed then -((2^(w - 1) : Nat) : Int) else 0
  let hi : Int := if signed then ((2^(w - 1) : Nat) : Int) - 1 else ((2^w : Nat) : Int) - 1
  wrapN w (if x < lo then lo else if hi < x then hi else x)

/-- A float-to-integer conversion (R39). -/
def ftoi (w : Nat) (signed : Bool) (rm : Rm) (v : FVal) : Rounded :=
  match v with
  | .nan _ => (0, flagNV)
  | .inf n => (satN w signed (if n then -((2^70 : Nat) : Int) else ((2^70 : Nat) : Int)), flagNV)
  | .fin n m e =>
    let (q, inexact) := quantise rm n m e 0 false
    let x : Int := if n then -(q : Int) else (q : Int)
    let r := satN w signed x
    if intVal w signed r ≠ x then (r, flagNV) else (r, if inexact then flagNX else 0)

/-- `vcvt` on one element (Table arith.7). -/
def convert (src dst : EType) (rm : Rm) (x : Nat) : Rounded :=
  match src, dst with
  | .int w s, .int w' s' => (satN w' s' (intVal w s x), 0)
  | .int w s, .flt f =>
    let i := intVal w s x
    roundFin f rm (decide (i < 0)) i.natAbs 0 false
  | .flt f, .int w' s' => ftoi w' s' rm (.ofBits f x)
  | .flt f, .flt f' => roundTo f' rm (.ofBits f x)

/-- A BF16 immediate as an element of a format (R68): NaN canonical, no flag. -/
def bf16Imm (f : Fmt) (x : Nat) : Nat := (roundTo f .rne (.ofBits Fmt.bf16 x)).1

/-! ### Self-describing blocks (R54 to R57) -/

/-- The SDB scale constants (Table numbers.10). -/
def sdbQ : List Nat :=
  [0x3F800000, 0x3F8B95C2, 0x3F9837F0, 0x3FA5FED7, 0x3FB504F3, 0x3FC5672A, 0x3FD744FD, 0x3FEAC0C7]

/-- The scale of a block as an exact value (R56). -/
def sdbScale (s : Nat) : FVal :=
  match FVal.ofBits Fmt.f32 ((sdbQ[s % 8]?).getD 0) with
  | .fin n m e => .fin n m (e + ((s / 8 : Nat) : Int) - 16)
  | v => v

/-- One payload value times the scale (R57). -/
def sdbValue (scale : FVal) (v : FVal) : Nat := (rne32 (fprod v scale).1).1

/-- The FP32 values of a 64-byte block (R55, R57); none when its format code or count is bad. -/
def sdbDecode (bs : List Byte) : Option (List Nat) :=
  let byte := fun i => (bs.getD i 0).toNat
  let half := fun i => byte i + 256 * byte (i + 1)
  let sc := sdbScale (byte 1)
  match byte 0 with
  | 1 => some ((List.range 62).map (fun i => sdbValue sc (.ofBits Fmt.e4m3 (byte (2 + i)))))
  | 2 => some ((List.range 62).map (fun i => sdbValue sc (.ofBits Fmt.e5m2 (byte (2 + i)))))
  | 3 => some ((List.range 124).map (fun i =>
      let n := sInt 4 (nbits (byte (2 + i / 2)) (4 * (i % 2)) 4)
      sdbValue sc (.fin (decide (n < 0)) n.natAbs 0)))
  | 5 => some ((List.range 31).map (fun i => sdbValue sc (.ofBits Fmt.f16 (half (2 + 2 * i)))))
  | 6 => if 1 ≤ half 2 ∧ half 2 ≤ 4096 then some (List.replicate (half 2) 0) else none
  | 7 => if 1 ≤ half 2 ∧ half 2 ≤ 4096 then some (List.replicate (half 2) (sdbValue sc (.ofBits Fmt.f16 (half 4)))) else none
  | _ => none

/-! ### Sum order (R48, R49) -/

/-- One level of the tree: place i takes place i + h, when either is present. -/
def treeLevel (comb : Nat → Nat → Rounded) (h : Nat) (t : List (Option Nat)) : List (Option Nat) × BitVec 5 :=
  let r := (List.range h).map (fun i =>
    match (t.getD i none), (t.getD (i + h) none) with
    | some a, some b => let x := comb a b; (some x.1, x.2)
    | none, some b => (some b, (0 : BitVec 5))
    | x, none => (x, 0))
  (r.map Prod.fst, r.foldl (fun f x => f ||| x.2) 0)

/-- The pairwise tree over 2^k places. -/
def treeFold (comb : Nat → Nat → Rounded) : Nat → List (Option Nat) → Option Nat × BitVec 5
  | 0, t => (t.getD 0 none, 0)
  | k + 1, t =>
    let l := treeLevel comb (2^k) t
    let r := treeFold comb k l.1
    (r.1, l.2 ||| r.2)

/-- log2 of the smallest power of two not below n, 0 when n ≤ 1. -/
def log2up (n : Nat) : Nat := if n ≤ 1 then 0 else Nat.log2 (n - 1) + 1

/-- `TreeSum` and its max and min: the present elements combined, ABSENT when there are none. -/
def tree (comb : Nat → Nat → Rounded) (es : List (Option Nat)) : Option Nat × BitVec 5 :=
  treeFold comb (log2up es.length) es

/-! ### Matrix chunks (R50, R51) -/

/-- The exact sum of one chunk's products, with the NaN, infinity and NV rules of R51. -/
def chunkSum (ps : List (FVal × FVal)) : FVal × BitVec 5 :=
  let prods := ps.map (fun p => fprod p.1 p.2)
  let nv := prods.foldl (fun f p => f ||| p.2) (0 : BitVec 5)
  let anyNan := prods.any (fun p => p.1.isNan)
  let pinf := prods.any (fun p => p.1 == .inf false)
  let ninf := prods.any (fun p => p.1 == .inf true)
  if anyNan || (pinf && ninf) then (.nan false, if pinf && ninf then nv ||| flagNV else nv)
  else if pinf then (.inf false, nv)
  else if ninf then (.inf true, nv)
  else (prods.foldl (fun s p => (fsum .rne s p.1).1) (.fin false 0 0), nv)

/-- One chunk into an accumulator: S · sA, · sB, + acc, each RNE32 (R51). -/
def chunkStep (acc sa sb : Nat) (ps : List (FVal × FVal)) : Rounded :=
  let s := chunkSum ps
  let p1 := fprod s.1 (.ofBits Fmt.f32 sa)
  let t1 := rne32 p1.1
  let p2 := fprod (.ofBits Fmt.f32 t1.1) (.ofBits Fmt.f32 sb)
  let t2 := rne32 p2.1
  let p3 := fsum .rne (.ofBits Fmt.f32 acc) (.ofBits Fmt.f32 t2.1)
  let t3 := rne32 p3.1
  (t3.1, s.2 ||| p1.2 ||| t1.2 ||| p2.2 ||| t2.2 ||| p3.2 ||| t3.2)

end Sys2Proof.Machine
end

