-- ==== Sys2Proof/Machine/Memory.lean ====
section
/-!
DEFINITION. Memory: the apertures (R215), turn state (R218), what a read returns (R220), arrivals and races (R217, R219),
home marks (R108), turns (R190), the regions' control blocks (R264 to R266) and event records (R286).
A location is a number: a package or host physical address, or 2^52 + 2^18 · core + offset for a scratchpad byte.
-/

namespace Sys2Proof.Machine

/-! ### Harts and cores -/

/-- HARTID[10:1]: die, cluster and core (Table state.8). -/
def coreOf (id : BitVec 11) : BitVec 10 := id.extractLsb' 1 10
/-- Die and cluster of a core. -/
def clusterOf (c : BitVec 10) : BitVec 8 := c.extractLsb' 2 8
/-- Die of a core. -/
def dieOf (c : BitVec 10) : BitVec 1 := c.extractLsb' 9 1
/-- The slot with the other slot number on the same core. -/
def otherSlot (id : BitVec 11) : BitVec 11 := id ^^^ 1

/-- The hart in a slot; FREE slots hold none. -/
def State.hart? (s : State) (id : BitVec 11) : Option Hart :=
  if s.h.id = id then (if s.h.st = .free then none else some s.h) else sfind s.others id.toNat

/-- Every hart the package holds. -/
def State.harts (s : State) : List Hart :=
  (if s.h.st = .free then [] else [s.h]) ++ s.others.map Prod.snd

/-- Put a hart back into its slot. -/
def State.setHart (s : State) (h : Hart) : State :=
  if s.h.id = h.id then { s with h := h }
  else if h.st = .free then { s with others := serase s.others h.id.toNat }
  else { s with others := sput s.others h.id.toNat h }

/-- Change the hart in a slot, when the slot holds one. -/
def State.modHart (s : State) (id : BitVec 11) (f : Hart → Hart) : State :=
  match s.hart? id with
  | some h => s.setHart (f h)
  | none => s

/-- Change the selected hart. -/
def State.modH (s : State) (f : Hart → Hart) : State := { s with h := f s.h }

/-- Change the selected hart's reverting registers. -/
def State.modR (s : State) (f : Regs → Regs) : State := { s with h := { s.h with r := f s.h.r } }

/-- Make a slot the selected one. -/
def State.select (s : State) (id : BitVec 11) : State :=
  if s.h.id = id then s
  else
    let h := (sfind s.others id.toNat).getD (Hart.blank id)
    let o := serase s.others id.toNat
    { s with h := h, others := if s.h.st = .free then o else sput o s.h.id.toNat s.h }

/-- A core. -/
def State.core (s : State) (c : BitVec 10) : Core := sget Core.reset s.cores c.toNat
/-- Put a core back. -/
def State.setCore (s : State) (c : BitVec 10) (x : Core) : State := { s with cores := sput s.cores c.toNat x }
/-- The selected hart's core. -/
def State.myCore (s : State) : BitVec 10 := coreOf s.h.id

/-! ### Where addresses live (R215, R225, R226) -/

/-- Bytes of package memory that one die homes. -/
def halfBytes : Nat := 320000000000
/-- Package memory capacity (R1). -/
def State.memBytes (s : State) : Nat := if s.twoDie then 2 * halfBytes else halfBytes
/-- Where scratchpad locations begin. -/
def scratchBase : Nat := 2^52
/-- A scratchpad byte's location. -/
def scratchLoc (c : BitVec 10) (off : Nat) : Nat := scratchBase + c.toNat * 2^18 + off
/-- A location is a scratchpad byte. -/
def isScratch (loc : Nat) : Bool := decide (scratchBase ≤ loc)
/-- A location is homed in host memory or I/O. -/
def isHost (loc : Nat) : Bool := decide (2^51 ≤ loc) && decide (loc < 2^52)
/-- A location is package memory of this package. -/
def State.isLocal (s : State) (loc : Nat) : Bool := decide (loc < s.memBytes)
/-- A location is memory of another package. -/
def isRemote (loc : Nat) : Bool := decide (2^50 ≤ loc) && decide (loc < 2^51)

/-- The location and home level of a physical address as core `c` reaches it (Table turn.2); none where nothing is. -/
def State.locate (s : State) (c : BitVec 10) (pa : Nat) : Option (Nat × Nat) :=
  if pa < s.memBytes then some (pa, 3)
  else if 0x2000000000000 ≤ pa ∧ pa ≤ 0x200000003FFFF then some (scratchLoc c (pa - 0x2000000000000), 0)
  else if 0x2000000100000 ≤ pa ∧ pa ≤ 0x20000001FFFFF then
    let a := pa - 0x2000000100000
    let k := a / 128 % 4
    some (scratchLoc (c.extractLsb' 2 8 ++ BitVec.ofNat 2 k) (a / 512 * 128 + a % 128), 1)
  else if 0x4000000000000 ≤ pa ∧ pa < 0x8000000000000 then
    let p := (pa - 0x4000000000000) / 2^40
    let o := (pa - 0x4000000000000) % 2^40
    if s.memBytes ≤ o then none
    else if p = s.pkg.toNat then some (o, 3)
    else if p < s.domain then some (pa, 4)
    else none
  else if 0x8000000000000 ≤ pa ∧ pa < 2^52 then some (pa, 5)
  else none

/-- The physical address that names a location (Table turn.2): a scratchpad byte by its own core's aperture. -/
def physOf (loc : Nat) : Nat := if isScratch loc then 0x2000000000000 + (loc - scratchBase) % 2^18 else loc

/-- The physical address by which a core reaches a location: another core's scratchpad through the cluster window (R225). -/
def physFor (c : BitVec 10) (loc : Nat) : Nat :=
  let o := loc - scratchBase
  if isScratch loc && o / 2^18 != c.toNat then
    0x2000000100000 + (o % 2^18 / 128 * 512 + o / 2^18 % 4 * 128 + o % 128)
  else physOf loc

/-- The die that homes a location of package memory. -/
def homeDie (loc : Nat) : BitVec 1 := if loc < halfBytes then 0 else 1

/-! ### Turn state (R213, R214, R218) -/

/-- The 32-byte sector of a location. -/
def sectorOf (loc : Nat) : Nat := loc / 32
/-- A sector's entry (Table turn.3). -/
def State.entry (s : State) (sec : Nat) : BitVec 30 := sget 5 s.turn sec
/-- STATE: 0 to 5 turned to that level, 6 pending. -/
def entryState (e : BitVec 30) : Nat := nbits e.toNat 0 3
/-- POS. -/
def entryPos (e : BitVec 30) : BitVec 11 := e.extractLsb' 3 11
/-- OWNER. -/
def entryOwner (e : BitVec 30) : BitVec 16 := e.extractLsb' 14 16
/-- An entry from its fields. -/
def mkEntry (st : Nat) (pos : BitVec 11) (owner : BitVec 16) : BitVec 30 :=
  BitVec.ofNat 30 (st % 8 + pos.toNat * 8 + owner.toNat * 2^14)
/-- Set a sector's entry. -/
def State.setEntry (s : State) (sec : Nat) (e : BitVec 30) : State := { s with turn := sset 5 s.turn sec e }

/-- POS of a write by a core of this package. -/
def posCore (c : BitVec 10) : BitVec 11 := (0 : BitVec 1) ++ c
/-- POS of a write by no core (R214). -/
def posUnit : BitVec 11 := 0x600
/-- POS of a write by a core of another package. -/
def posForeign : BitVec 11 := 0x400

/-- Who reads (R214): a core for a hart with its STRICT flag, a unit of this package, or the host and I/O. -/
inductive Reader where
  | core (c : BitVec 10) (strict : Bool)
  | unit
  | io
  deriving DecidableEq, Repr

/-- The level needed between the last writer of a sector and a reader (R214). -/
def neededLevel (loc : Nat) (pos : BitVec 11) (rd : Reader) : Nat :=
  match rd with
  | .io => 5
  | .unit => if isRemote loc then 4 else if pos = posForeign then 4 else 3
  | .core c _ =>
    if isRemote loc then 4
    else if pos = posForeign then 4
    else if pos.getLsbD 10 then 3
    else
      let w : BitVec 10 := pos.extractLsb' 0 10
      if w = c then 0 else if clusterOf w = clusterOf c then 1 else if dieOf w = dieOf c then 2 else 3

/-- A sector is turned far enough for a reader. -/
def State.covered (s : State) (rd : Reader) (loc : Nat) : Bool :=
  let e := s.entry (sectorOf loc)
  entryState e != 6 && decide (neededLevel loc (entryPos e) rd ≤ entryState e)

/-- A sector is poisoned (R349). -/
def State.poisoned (s : State) (sec : Nat) : Bool := s.poison.any (fun p => p.sector == sec)

/-! ### Inbound copies (R213, R220 to R222) -/

/-- A store lies in the scope of a level taken from a core (Table turn.1). -/
def inScope (lv : Nat) (c : BitVec 10) : Place → Bool
  | .core n => n == c || (decide (1 ≤ lv) && clusterOf n == clusterOf c) || (decide (2 ≤ lv) && dieOf n == dieOf c) || decide (3 ≤ lv)
  | .cluster n => (decide (1 ≤ lv) && n == clusterOf c) || (decide (2 ≤ lv) && n.extractLsb' 7 1 == dieOf c) || decide (3 ≤ lv)
  | .die n => (decide (2 ≤ lv) && n == dieOf c) || decide (3 ≤ lv)

/-- A copy is still held: eviction is a free choice (Config). -/
def State.live (s : State) (c : Copy) : Bool := decide (s.clock < c.filled + Config.copyLife c.filled)

/-- A core may use a copy: it lies in the scope of no turn since the fill (R213, R235). -/
def Copy.usable (x : Copy) (c : BitVec 10) : Bool := x.bars.all (fun b => !(inScope b.1 b.2 (.core c)))

/-- The inbound stores on a core's path to a location, the nearest first. -/
def pathOf (c : BitVec 10) : List Place := [.core c, .cluster (clusterOf c), .die (dieOf c)]

/-- The copy a core meets: that of the nearest store (DESIGN CHOICE, log entry 35: where several on the path hold copies of
different age, no rule says which one answers). -/
def State.copyAt (s : State) (c : BitVec 10) (sec : Nat) : Option Copy :=
  (pathOf c).findSome? (fun p => s.copies.find? (fun x => x.sector == sec && x.place == p && s.live x && x.usable c && x.early.isNone))

/-- The byte at the home. -/
def State.homeByte (s : State) (loc : Nat) : Byte := sget 0 s.mem loc

/-- A byte of an inbound copy. -/
def copyByte (c : Copy) (loc : Nat) : Byte := c.data.extractLsb' (8 * (loc % 32)) 8

/-- A port's link is up. -/
def State.portUp (s : State) (port : BitVec 1) : Bool := s.host.linkUp.get port.toFin

/-- A device read of host memory completes with an error status (R368): the port that bit 50 of its address names is down, or the host
answers so. -/
def State.hostFails (s : State) (loc : Nat) : Bool :=
  isHost loc && (!(s.portUp (BitVec.ofNat 1 (loc / 2^50))) || Config.hostReadError s.clock loc)

/-- `Visible(b)` (R220): the byte, or the cause 0x08 UNTURNED, or 0x0A PROT for a poisoned sector (R349) and a device
read that fails (R368). A covered reader gets
the byte of a copy on its path, which equals the home's unless the turn's scope left that reader out: R235 calls such a reader
not covered, so while its old copy stays it goes on reading it (DEDUCED, log entry 54). -/
def State.visible (s : State) (rd : Reader) (loc : Nat) : Except (BitVec 8) Byte :=
  if s.poisoned (sectorOf loc) then .error 0x0A
  else
    let home : Except (BitVec 8) Byte :=
      if s.hostFails loc then .error 0x0A else if s.covered rd loc then .ok (s.homeByte loc) else .error 0x08
    match rd with
    | .core c false =>
      if isScratch loc then home
      else match s.copyAt c (sectorOf loc) with
        | some x => .ok (copyByte x loc)
        | none => home
    | _ => home

/-- The 32 bytes of a sector at its home. -/
def State.sectorData (s : State) (sec : Nat) : BitVec 256 :=
  BitVec.ofNat 256 (leOf ((List.range 32).map (fun i => s.homeByte (32 * sec + i))))

/-- The level needed between the last writer of a sector and every core that shares a store (R221). -/
def placeNeed (loc : Nat) (pos : BitVec 11) : Place → Nat
  | .core n => neededLevel loc pos (.core n false)
  | .cluster n =>
    if isRemote loc then 4
    else if pos = posForeign then 4
    else if pos.getLsbD 10 then 3
    else if clusterOf (pos.extractLsb' 0 10) = n then 1
    else if dieOf (pos.extractLsb' 0 10) = n.extractLsb' 7 1 then 2 else 3
  | .die n =>
    if isRemote loc then 4
    else if pos = posForeign then 4
    else if pos.getLsbD 10 then 3
    else if dieOf (pos.extractLsb' 0 10) = n then 2 else 3

/-- The places a covered read may fill (R213, R221, R222): those whose every core is covered, so that no copy is newer than what
its readers could read at the home. Lines of host memory are kept as those of any home off the die (DESIGN CHOICE, log entry 82: R213
names the lines of the other die and of other packages). -/
def State.fillPlaces (s : State) (c : BitVec 10) (strict : Bool) (loc : Nat) : List Place :=
  let e := s.entry (sectorOf loc)
  if isScratch loc then []
  else if strict then (if entryPos e = posCore c then [.core c] else [])
  else ([Place.core c, .cluster (clusterOf c)] ++ (if s.isLocal loc && homeDie loc == dieOf c then [] else [Place.die (dieOf c)])).filter
    (fun p => decide (placeNeed loc (entryPos e) p ≤ entryState e))

/-- Keep copies of the sector a read has touched: the stores nearer than the copy it met take that copy, else all take the home's
bytes (R221). Those of a hart's load performed early stand beside the others until it is delivered. -/
def State.fillAs (s : State) (early : Option (BitVec 11)) (rd : Reader) (loc : Nat) : State :=
  match rd with
  | .core c st =>
    if s.covered rd loc then
      let sec := sectorOf loc
      let met := if st then none else s.copyAt c sec
      let ps := s.fillPlaces c st loc
      let ps := match met with
        | some x => ps.takeWhile (fun p => p != x.place)
        | none => ps
      let data := (met.map Copy.data).getD (s.sectorData sec)
      let bars := (met.map Copy.bars).getD []
      let keep := s.copies.filter (fun x => early.isSome || !(x.sector == sec && ps.contains x.place))
      let xlat := fun (p : Place) => ((s.copies.find? (fun x => x.sector == sec && x.place == p)).map Copy.xlat).getD []
      { s with copies := keep ++ ps.map (fun p =>
          { place := p, sector := sec, data := data, filled := s.clock, strict := st, bars := bars, early := early,
            xlat := xlat p }) }
    else s
  | _ => s

/-- Keep copies of the sector that a read performed at its place has touched. -/
def State.fill (s : State) (rd : Reader) (loc : Nat) : State := s.fillAs none rd loc

/-- A load that a hart performed early, at an index of the clock, is delivered: the copies it filled are met from now on, but for those of
stores that hold a copy filled since (R221, R231). -/
def State.showCopies (s : State) (id : BitVec 11) (at_ : Nat) : State :=
  let mine := fun (x : Copy) => x.early == some id && x.filled == at_
  let later := fun (x : Copy) => s.copies.any (fun y => y.early.isNone && y.place == x.place && y.sector == x.sector)
  { s with copies := (s.copies.filter (fun x => !(mine x && later x))).map (fun x => if mine x then { x with early := none } else x) }

/-- Invalidate inbound copies of a sector throughout a level's scope; those outside it stay, out of use for the cores inside
(R190, R213). -/
def State.invalidate (s : State) (lv : Nat) (c : BitVec 10) (sec : Nat) : State :=
  let kept := s.copies.filter (fun x => !(x.sector == sec && inScope lv c x.place))
  { s with copies := kept.map (fun x => if x.sector == sec then { x with bars := (lv, c) :: x.bars } else x) }

/-! ### Bytes at the home -/

/-- Write one byte at its home. -/
def State.putByte (s : State) (loc : Nat) (b : Byte) : State := { s with mem := sset 0 s.mem loc b }

/-- Bytes of a sector that a write reaches. -/
def reached (bs : List (Nat × Byte)) (sec : Nat) : BitVec 32 :=
  bs.foldl (fun m b => if sectorOf b.1 = sec then m ||| BitVec.ofNat 32 (2^(b.1 % 32)) else m) 0

/-- Write bytes at their homes; a write of a whole sector clears its poison (R349). -/
def State.putBytes (s : State) (bs : List (Nat × Byte)) : State :=
  { bs.foldl (fun s b => s.putByte b.1 b.2) s with poison := s.poison.filter (fun p => reached bs p.sector ≠ BitVec.allOnes 32) }

/-- The bytes of a number at consecutive locations. -/
def spread (loc n x : Nat) : List (Nat × Byte) :=
  (List.range n).map (fun i => (loc + i, BitVec.ofNat 8 (x / 256^i % 256)))

/-- The number in `n` bytes at their home. -/
def State.homeNat (s : State) (loc n : Nat) : Nat := leOf ((List.range n).map (fun i => s.homeByte (loc + i)))

/-- The sectors that bytes lie in, each once. -/
def sectorsOf (bs : List (Nat × Byte)) : List Nat := distinct [] (bs.map (fun b => sectorOf b.1))

/-- Before a write of the package to host memory: the host holds what it held (R368). -/
def State.holdHost (s : State) (bs : List (Nat × Byte)) : State :=
  bs.foldl (fun s b => if isHost b.1 && (sfind s.held b.1).isNone then { s with held := sput s.held b.1 (s.homeByte b.1) } else s) s

/-- A turn of a sector to L5 sends its writes on to the host (R368). -/
def State.sendHost (s : State) (lv sec : Nat) : State :=
  if lv = 5 ∧ isHost (32 * sec) then { s with held := s.held.filter (fun c => sectorOf c.1 ≠ sec) } else s

/-- A byte as the host holds it. -/
def State.hostByte (s : State) (loc : Nat) : Byte := (sfind s.held loc).getD (s.homeByte loc)

/-- A home action by a unit for a region (R314, R218): the bytes are written, copies invalidated and the sectors left
turned to a level. -/
def State.unitWrite (s : State) (lv : Nat) (owner : BitVec 16) (loc n x : Nat) : State :=
  let bs := spread loc n x
  (sectorsOf bs).foldl (fun s sec => ((s.invalidate 3 0 sec).setEntry sec (mkEntry lv posUnit owner)).sendHost lv sec)
    ((s.holdHost bs).putBytes bs)

/-- Unit home action turned to L3. -/
def State.unitPut (s : State) (owner : BitVec 16) (loc n x : Nat) : State := s.unitWrite 3 owner loc n x

/-- POS of a core of this package, as the home of a location records it (Table turn.3). -/
def posAt (c : BitVec 10) (loc : Nat) : BitVec 11 := if isRemote loc then posForeign else posCore c

/-- The mark a home operation leaves (R108): copies within the home level's scope go, the sector is turned to it. -/
def State.homeMark (s : State) (c : BitVec 10) (region : BitVec 16) (lv sec : Nat) : State :=
  (s.invalidate lv c sec).setEntry sec (mkEntry lv (posAt c (32 * sec)) region)

/-- The check a home makes before it acts (R108): UNTURNED for a sector pending or turned below the home level. -/
def State.homeReady (s : State) (lv sec : Nat) : Bool :=
  let st := entryState (s.entry sec)
  st != 6 && decide (lv ≤ st)

/-! ### Regions (R264 to R266) and events (R286, R287) -/

/-- A field of a region control block at its home. -/
def State.rcb (s : State) (r : BitVec 16) (off n : Nat) : Nat :=
  s.homeNat (s.host.regiontab.toNat + 128 * r.toNat + off) n

/-- PARENT in a region's control block; region 0 is its own parent. -/
def State.rcbParent (s : State) (r : BitVec 16) : BitVec 16 := if r = 0 then 0 else BitVec.ofNat 16 (s.rcb r 2 2)

/-- A region and its ancestors up to region 0 by a parent function, the nearest first; none when the links do not reach it (R264). -/
def chainBy (parent : BitVec 16 → Option (BitVec 16)) : Nat → BitVec 16 → Option (List (BitVec 16))
  | 0, r => if r = 0 then some [0] else none
  | k + 1, r => if r = 0 then some [0] else ((parent r).bind (chainBy parent k)).map (r :: ·)

/-- A region and its ancestors as their control blocks stand in memory; none when 64 links do not reach region 0 (R264). -/
def State.chain (s : State) (r : BitVec 16) : Option (List (BitVec 16)) := chainBy (fun x => some (s.rcbParent x)) 64 r

/-- Every sector of these bytes reads for a unit of this package as turned far enough and not poisoned (R214, R269). -/
def State.unitReadable (s : State) (loc n : Nat) : Bool :=
  (List.range ((loc + n - 1) / 32 - loc / 32 + 1)).all (fun i =>
    let sec := loc / 32 + i
    !(s.poisoned sec) && s.covered .unit (32 * sec))

/-- A region's control block can be read. -/
def State.rcbReadable (s : State) (r : BitVec 16) : Bool := s.unitReadable (s.host.regiontab.toNat + 128 * r.toNat) 128

/-- A region's control block and those of its ancestors can be read, and the chain reaches region 0 (R264, R267). -/
def State.regionValid (s : State) (r : BitVec 16) : Bool :=
  match s.chain r with
  | none => false
  | some l => l.all s.rcbReadable

/-- The region whose value of an overridable field holds (R266). -/
def State.provider (s : State) (r : BitVec 16) (ovr : Nat) : BitVec 16 :=
  (((s.chain r).getD []).find? (fun x => x == 0 || nbit (s.rcb x 6 2) ovr)).getD 0

/-- A resolved field (R266). -/
def State.resolved (s : State) (r : BitVec 16) (ovr off n : Nat) : Nat := s.rcb (s.provider r ovr) off n

/-- What a region's control block gives besides what `RegionCtx` holds, resolved (R265, R266). -/
def State.readRefs (s : State) (r : BitVec 16) : RegionRefs :=
  { parent := s.rcbParent r, evtgt := BitVec.ofNat 32 (s.resolved r 7 48 4), taskbase := s.resolved r 9 80 8,
    logbase := s.resolved r 10 88 8, promolog := s.resolved r 10 96 8 }

/-- What stands for the control block of a region that the hardware has not read and cannot read now: no target (log entry 64). -/
def RegionRefs.unread : RegionRefs := { parent := 0, evtgt := 1, taskbase := 0, logbase := 0, promolog := 0 }

/-- What the hardware goes by of a region: what it held since it last read the block, or one under it; a region that it has not read
is read now, if it is turned far enough (R267). -/
def State.refsOf (s : State) (r : BitVec 16) : RegionRefs :=
  match sfind s.refs r.toNat with
  | some f => f
  | none => if s.regionValid r then s.readRefs r else RegionRefs.unread

/-- The parent of a region, as the hardware goes by it; none of one whose block it cannot read. -/
def State.parentOf (s : State) (r : BitVec 16) : Option (BitVec 16) :=
  match sfind s.refs r.toNat with
  | some f => some f.parent
  | none => if s.rcbReadable r then some (s.rcbParent r) else none

/-- The ancestors of a region with itself, empty when its RCB is invalid (R264). -/
def State.ancestors (s : State) (r : BitVec 16) : List (BitVec 16) := (chainBy s.parentOf 64 r).getD []

/-- A region is another or a descendant of it. -/
def State.under (s : State) (r anc : BitVec 16) : Bool := (s.ancestors r).contains anc

/-- The parent of a region; region 0 is its own. -/
def State.parent (s : State) (r : BitVec 16) : BitVec 16 := (s.refsOf r).parent

/-- The target of a region's own events. -/
def State.evtgt (s : State) (r : BitVec 16) : BitVec 32 := (s.refsOf r).evtgt

/-- An event target without a non-zero reserved bit (R286). -/
def targetOk (t : BitVec 32) : Bool :=
  if t.getLsbD 31 then nbits t.toNat 12 19 == 0 else nbits t.toNat 11 20 == 0 && !(t.getLsbD 0)

/-- An event record (Table region.7). -/
def mkEvent (ty st : Nat) (region : BitVec 16) (info : Nat) (value : Nat) : BitVec 128 :=
  BitVec.ofNat 128 (ty % 256 + st % 256 * 2^8 + region.toNat * 2^16 + info % 2^32 * 2^32 + value % 2^64 * 2^64)

/-- Send an event record to a target; it waits in its producer until it is written (R287). -/
def State.post (s : State) (t : BitVec 32) (region : BitVec 16) (e : BitVec 128) : State :=
  if targetOk t then { s with posted := s.posted ++ [{ target := t, record := e, region := region }] } else s

/-- The unit that produces a record, told by its type and what it concerns (Table region.8; DEDUCED, log entry 63): the queue for a
rejected start, the die of a TCB or of a racing sector, the saved slot, the core of an observed hart, else one unit for the package. -/
def producer (e : BitVec 128) : Nat × Nat :=
  let ty := nbits e.toNat 0 8
  let info := nbits e.toNat 32 32
  let value := nbits e.toNat 64 64
  match ty with
  | 0x01 => (if nbits e.toNat 8 8 = 2 then 0x01 else 0x11, nbits info 0 12)
  | 0x02 | 0x03 | 0x04 => (ty, (homeDie value).toNat)
  | 0x06 => (ty, nbits info 0 11)
  | 0x08 => (ty, nbits info 0 11 / 2)
  | _ => (ty, 0)

/-- A producer still holds a record that has not been written: it goes on only then (R287). -/
def State.holdsRecord (s : State) (p : Nat × Nat) : Bool := s.posted.any (fun q => producer q.record == p)

/-- Send an event to a region's parent's EVTGT. -/
def State.postParent (s : State) (r : BitVec 16) (e : BitVec 128) : State := s.post (s.evtgt (s.parent r)) r e

/-! ### The outbound path (R217, R219) -/

/-- The arrival of a write at a sector is a race of a STRICT region (R219). -/
def State.races (s : State) (w : Writer2) (sec : Nat) : Bool :=
  w.strict && entryState (s.entry sec) == 6 && decide (entryPos (s.entry sec) ≠ w.pos)

/-- The home of a write on its way still holds the record of an earlier race, and the write would be another: it waits (R287). -/
def State.heldUp (s : State) (o : Outbound) : Bool :=
  (sectorsOf o.bytes).any (fun sec => s.races o.src sec && s.holdsRecord (0x04, (homeDie (physOf (32 * sec))).toNat))

/-- A write arrives at its home: pending mark, POS and OWNER, the end of a STRICT core's copy whose sector POS names it no more
(R222), and the race event of a STRICT region. -/
def State.arriveSector (s : State) (w : Writer2) (sec : Nat) : State :=
  let e := s.entry sec
  let owner := w.owner.getD (entryOwner e)
  let race := s.races w sec
  let s := s.setEntry sec (mkEntry 6 w.pos owner)
  let s := { s with copies := s.copies.filter (fun x => !(x.sector == sec && x.strict &&
    (match x.place with
     | .core n => w.pos != posCore n
     | _ => true))) }
  if race then
    s.post (s.evtgt owner) owner
      (mkEvent 0x04 0 owner ((entryPos e).toNat + w.pos.toNat * 2^11) (physOf (32 * sec)))
  else s

/-- A part of a hart's write has reached a poisoned sector: the parts of one write count together, whatever arrives between them (R349). -/
def Poison.meet (p : Poison) (o : Outbound) : Poison :=
  match o.src.hart with
  | none => p
  | some h =>
    let m := reached o.bytes p.sector
    let own := fun (x : BitVec 11 × Nat × BitVec 32) => x.1 == h && x.2.1 == o.sent
    if m = 0 then p
    else { p with parts := (h, o.sent, m ||| ((p.parts.find? own).map (fun x => x.2.2)).getD 0) :: p.parts.filter (fun x => !(own x)) }

/-- One write has reached all 32 bytes. -/
def Poison.covered (p : Poison) : Bool := p.parts.any (fun x => x.2.2 == BitVec.allOnes 32)

/-- One item of the outbound path arrives. -/
def State.arrive (s : State) (o : Outbound) : State :=
  let s := (s.holdHost o.bytes).putBytes o.bytes
  let s := { s with poison := (s.poison.map (fun p => p.meet o)).filter (fun p => !p.covered) }
  (sectorsOf o.bytes).foldl (fun s sec => s.arriveSector o.src sec) s

/-- Every write in flight that a test selects arrives, oldest first. -/
def State.arriveIf (s : State) (p : Outbound → Bool) : State :=
  let go := s.flight.filter p
  go.foldl State.arrive { s with flight := s.flight.filter (fun o => !(p o)) }

/-- Every write of a hart arrives: nothing irrevocable is performed before (R231). -/
def State.arriveHart (s : State) (id : BitVec 11) : State := s.arriveIf (fun o => o.src.hart == some id)

/-- The hart that leads a hart's gang; itself without one. -/
def Hart.leader (h : Hart) : BitVec 11 :=
  match h.gang with
  | some g => (g.ids.head?).getD h.id
  | none => h.id

/-- How a hart's writes are marked (R214, R218, R219). -/
def Hart.writer (h : Hart) : Writer2 :=
  { pos := posCore (coreOf h.id), owner := some h.region, strict := h.strict, hart := some h.id, lead := some h.leader, host := none }

/-- A write made by no core, for a region. -/
def unitWriter (r : BitVec 16) : Writer2 :=
  { pos := posUnit, owner := some r, strict := false, hart := none, lead := none, host := none }

/-- A hart's POS is foreign at another package's home. -/
def Hart.writerAt (h : Hart) (loc : Nat) : Writer2 :=
  if isRemote loc then { h.writer with pos := posForeign } else h.writer

/-- Writes leave outbound, each item with the writer its home gives it. -/
def State.outbound (s : State) (src : Nat → Writer2) (items : List (List (Nat × Byte))) : State :=
  { s with flight := s.flight ++ (items.filter (fun i => !i.isEmpty)).map (fun i =>
      { src := src ((i.head?.map Prod.fst).getD 0), bytes := i, sent := s.clock }) }

/-- Count the sectors of these writes into a hart's write set (R190). -/
def Hart.wrote (h : Hart) (items : List (List (Nat × Byte))) : Hart :=
  { h with writeSet := (distinct [] (items.flatten.map (fun b => sectorOf b.1))).foldl (fun l x => ninsert x l) h.writeSet }

/-- Send a hart's bytes outbound, and count their sectors into its write set (R190). -/
def State.send (s : State) (id : BitVec 11) (items : List (List (Nat × Byte))) : State :=
  match s.hart? id with
  | none => s
  | some h => (s.setHart (h.wrote items)).outbound h.writerAt items

/-- The lines of a Grout tile leave as writes of the hart that owns it, in its region and with its STRICT flag, also when that hart
has ended (R164, R218, R219). -/
def State.sendTile (s : State) (g : Grout) (items : List (List (Nat × Byte))) : State :=
  let src : Nat → Writer2 := fun loc =>
    { pos := if isRemote loc then posForeign else posCore (coreOf g.owner), owner := some g.region, strict := g.strict,
      hart := if g.live then some g.owner else none, lead := if g.live then (s.hart? g.owner).map Hart.leader else none, host := none }
  (if g.live then s.modHart g.owner (fun h => h.wrote items) else s).outbound src items

/-! ### Turns (R190, R219) -/

/-- Turn one sector to a level from a core, whoever wrote it: copies in the scope go, and a sector that is pending, or
turned to a lower level, is marked turned to this one; a higher level stays (log entry 10). -/
def State.turnSector (s : State) (lv : Nat) (c : BitVec 10) (sec : Nat) : State :=
  let e := s.entry sec
  let s := (s.invalidate lv c sec).sendHost lv sec
  if entryState e == 6 || decide (entryState e < lv) then s.setEntry sec (mkEntry lv (entryPos e) (entryOwner e)) else s

end Sys2Proof.Machine
end

