-- ==== Sys2Proof/Machine/Ops.lean ====
section
/-!
DEFINITION. The operations every meaning shares: translation (R290 to R293), reads and writes of a hart, strips (R199 to R203,
R33), taking a trap (R295) and the return from one (R194), parking (R299), acting for another hart, pre-emption and switching (R301 to
R305), and the end of a hart (R274, R285).
-/

namespace Sys2Proof.Machine

/-- What every meaning answers. -/
abbrev Res := Host.Outcome State Fault Refusal

/-! ### Cause codes (Table trap.4) -/

def causeIllegal : BitVec 8 := 0x01
def causeIllegalElement : BitVec 8 := 0x02
def causePriv : BitVec 8 := 0x03
def causeMisalign : BitVec 8 := 0x04
def causeUnturned : BitVec 8 := 0x08
def causePage : BitVec 8 := 0x09
def causeProt : BitVec 8 := 0x0A
def causeKvmiss : BitVec 8 := 0x0B
def causeKvunmapped : BitVec 8 := 0x0C
def causeStallchk : BitVec 8 := 0x10
def causeStripovf : BitVec 8 := 0x11
def causeLongstrip : BitVec 8 := 0x12
def causeArith : BitVec 8 := 0x14
def causeSyscall : BitVec 8 := 0x18
def causeBreak : BitVec 8 := 0x19
def causeUe : BitVec 8 := 0x30
def causeWatch : BitVec 8 := 0x31

/-- Not a cause of the table: the access has no path to its package yet (R371), and the hart waits. -/
def waitNoPath : BitVec 8 := 0xFF

/-- An entry a fault record lists (Table trap.5): the 64-bit entry, the location of the page-table or block-table entry, and
whether it is a page. -/
structure Missing where
  entry : Word
  loc : Nat
  page : Bool
  deriving DecidableEq, Repr

/-- A trap to take: code, EVAL, and what is missing for PAGE and KVMISS. -/
structure Trap where
  code : BitVec 8
  val : Word
  missing : List Missing
  deriving DecidableEq, Repr

/-- A trap without missing entries. -/
def trapOf (code : BitVec 8) (val : Word) : Trap := { code := code, val := val, missing := [] }

/-! ### Translation (R290 to R293) -/

/-- Kinds of access, by the permissions they need (R292). -/
inductive Access where
  | read | write | atomic | fetch | blockFetch | feRead | feWrite | feBoth | any
  deriving DecidableEq, Repr

/-- The permission bits TAGGED U X W R at bits 6 to 2 of an entry's flag byte allow an access at a level. -/
def permitted (flags : Nat) (acc : Access) (level : BitVec 2) : Bool :=
  let r := nbit flags 2
  let w := nbit flags 3
  let x := nbit flags 4
  let u := nbit flags 5
  let t := nbit flags 6
  (acc == .any || u || !(level == 0)) &&
  match acc with
  | .read => r
  | .write => w
  | .atomic => r && w
  | .fetch => x
  | .blockFetch => r || x
  | .feRead => r && t
  | .feWrite => w && t
  | .feBoth => r && w && t
  | .any => true

/-- A translated address: its location, home level and physical address. -/
structure Xlat where
  loc : Nat
  level : Nat
  pa : Nat
  deriving DecidableEq, Repr

/-- No Span link is up (R371). -/
def State.linksDown (s : State) : Bool := nbits s.host.linkst.toNat 0 18 == 0

/-- A failed translation: the cause and, for PAGE, the missing page; for the PROT of a device read of an entry in host memory that fails,
that entry (R368). -/
abbrev XFail := BitVec 8 × List Missing

/-- A hart as a reader (R214). -/
def Hart.reader (h : Hart) : Reader := .core (coreOf h.id) h.strict

/-- `n` bytes at a physical address, as a hart's core reads them; another package's without a path wait (R371). -/
def State.readPhys (s : State) (h : Hart) (pa n : Nat) : Except (BitVec 8) Nat :=
  match s.locate (coreOf h.id) pa with
  | none => .error causeProt
  | some (loc, _) =>
    if isRemote loc && s.linksDown then .error waitNoPath
    else (List.range n).foldr (fun i acc =>
      match s.visible h.reader (loc + i), acc with
      | .ok b, .ok x => .ok (b.toNat + 256 * x)
      | .error c, _ => .error c
      | _, .error c => .error c) (.ok 0)

/-- A failure of the read of an entry at a physical address (R293, R368). -/
def entryFail (pa : Nat) (c : BitVec 8) : XFail :=
  (c, if c = causeProt ∧ isHost pa then [{ entry := wd pa, loc := pa, page := true }] else [])

/-- What the hardware holds of a region. -/
def State.region (s : State) (r : BitVec 16) : RegionCtx :=
  (sfind s.regions r.toNat).getD { RegionCtx.boot with id := r, locked := [] }

/-- A range entry matches an address (R290). -/
def rangeMatches (e : BitVec 256) (a : Nat) : Bool :=
  let x := e.toNat
  let base := nbits x 0 64
  let limit := nbits x 64 64
  nbit x 192 && !(nbit x 193) && nbits x 200 56 == 0 && nbits x 0 12 == 0 && nbits x 64 12 == 0xFFF &&
    nbits x 128 12 == 0 && decide (base ≤ a) && decide (a ≤ limit)

/-- The lowest-numbered matching range entry from `32 - fuel` on. LOCKED entries are the held ones; the others are read. -/
def State.findRange (s : State) (h : Hart) (ctx : RegionCtx) (a : Nat) : Nat → Except XFail (Option (BitVec 256))
  | 0 => .ok none
  | fuel + 1 =>
    let i := 31 - fuel
    match sfind ctx.locked i with
    | some e => if rangeMatches e a then .ok (some e) else s.findRange h ctx a fuel
    | none =>
      match s.readPhys h (ctx.ranges.toNat + 32 * i) 32 with
        | .error c => .error (entryFail (ctx.ranges.toNat + 32 * i) c)
        | .ok x =>
          if !(nbit x 199) && rangeMatches (BitVec.ofNat 256 x) a then .ok (some (BitVec.ofNat 256 x))
          else s.findRange h ctx a fuel

/-- A page-table entry has a non-zero reserved field, or SWST while present (Table trap.3). -/
def pteBad (p : Nat) : Bool :=
  nbits p 52 8 != 0 || nbits p 9 3 != 0 || nbit p 1 || (nbit p 0 && nbits p 60 4 != 0)

/-- The index of an address at a level (Table trap.2). -/
def pteIndex (a lvl : Nat) : Nat := if lvl = 3 then nbits a 39 18 else nbits a (12 + 9 * lvl) 9

/-- The walk (R292) from level `lvl`: the physical address, the leaf's flags and
the page's size, or the failure. -/
def State.walk (s : State) (h : Hart) (a : Nat) : Nat → Nat → Except XFail (Nat × Nat × Nat)
  | 0, _ => .error (causeProt, [])
  | k + 1, t =>
    let at_ := t + 8 * pteIndex a k
    match s.readPhys h at_ 8 with
    | .error c => .error (entryFail at_ c)
    | .ok p =>
      if pteBad p then .error (causeProt, [])
      else if !(nbit p 0) then
        (if nbits p 60 4 = 8 ∨ nbits p 60 4 = 9 then
          .error (causePage, [{ entry := wd (a / 4096 * 4096),
                                loc := ((s.locate (coreOf h.id) at_).map Prod.fst).getD 0, page := true }])
         else .error (causeProt, []))
      else if k = 0 ∨ ((k = 1 ∨ k = 2) ∧ nbit p 7) then
        let size := if k = 2 then 2^30 else if k = 1 then 2^21 else if nbit p 8 then 2^16 else 2^12
        let pa := nbits p 12 40 * 4096
        if pa % size ≠ 0 then .error (causeProt, []) else .ok (pa + a % size, p, size)
      else s.walk h a k (nbits p 12 40 * 4096)

/-- What maps a virtual address (R290): the physical address, the flags, and the last address of the range entry or page. -/
def State.mapping (s : State) (h : Hart) (a : Nat) : Except XFail (Nat × Nat × Nat) :=
  if 2^57 ≤ a then .error (causeProt, [])
  else
    let ctx := s.region h.region
    match s.findRange h ctx a 32 with
    | .error f => .error f
    | .ok (some e) => .ok ((a + nbits e.toNat 128 64) % 2^52, nbits e.toNat 192 8, nbits e.toNat 64 64)
    | .ok none =>
      match s.walk h a 4 ctx.ptroot.toNat with
      | .error f => .error f
      | .ok (pa, flags, size) => .ok (pa, flags, a / size * size + size - 1)

/-- Translation of a virtual address for a kind of access (R290, R292). -/
def State.translate (s : State) (h : Hart) (va : Word) (acc : Access) : Except XFail Xlat :=
  match s.mapping h va.toNat with
  | .error f => .error f
  | .ok (pa, flags, _) =>
    if !(permitted flags acc h.cur) then .error (causeProt, [])
    else match s.locate (coreOf h.id) pa with
      | none => .error (causeProt, [])
      | some (loc, lv) =>
        if isRemote loc && s.linksDown then .error (waitNoPath, []) else .ok { loc := loc, level := lv, pa := pa }

/-- The location that a virtual address has a mapping to, for a turn (R190): permissions play no part, and a missing path to its package
does not either. Where the walk itself lacks a path the address cannot be translated (PRESUMED, log entry 98: R371 speaks of accesses,
and `turn` raises no PROT). -/
def State.mappedLoc (s : State) (h : Hart) (va : Word) : Except XFail Nat :=
  match s.mapping h va.toNat with
  | .error f => .error f
  | .ok (pa, _, _) => match s.locate (coreOf h.id) pa with
    | none => .error (causeProt, [])
    | some (loc, _) => .ok loc

/-- Locations of the range entries that a translation reads in memory, from number `32 - fuel` on. -/
def State.rangeLocs (s : State) (h : Hart) (ctx : RegionCtx) (a : Nat) : Nat → List Nat
  | 0 => []
  | fuel + 1 =>
    let i := 31 - fuel
    match sfind ctx.locked i with
    | some e => if rangeMatches e a then [] else s.rangeLocs h ctx a fuel
    | none =>
      match s.locate (coreOf h.id) (ctx.ranges.toNat + 32 * i), s.readPhys h (ctx.ranges.toNat + 32 * i) 32 with
      | some (loc, _), .ok x =>
        if !(nbit x 199) && rangeMatches (BitVec.ofNat 256 x) a then [loc] else loc :: s.rangeLocs h ctx a fuel
      | _, _ => []

/-- Locations of the page-table entries that a walk reads. -/
def State.walkLocs (s : State) (h : Hart) (a : Nat) : Nat → Nat → List Nat
  | 0, _ => []
  | k + 1, t =>
    let at_ := t + 8 * pteIndex a k
    match s.locate (coreOf h.id) at_, s.readPhys h at_ 8 with
    | some (loc, _), .ok p =>
      if pteBad p || !(nbit p 0) || k == 0 || ((k == 1 || k == 2) && nbit p 7) then [loc]
      else loc :: s.walkLocs h a k (nbits p 12 40 * 4096)
    | _, _ => []

/-- The copies on a hart's path that hold entries at these locations bear its region from now on. -/
def State.tagXlat (s : State) (h : Hart) (locs : List Nat) : State :=
  let secs := locs.map sectorOf
  let path := pathOf (coreOf h.id)
  { s with copies := s.copies.map (fun x =>
      if secs.contains x.sector && path.contains x.place && !(x.xlat.contains h.region) then { x with xlat := h.region :: x.xlat } else x) }

/-- The core keeps what a translation has read: its cached translations and unlocked range entries are inbound copies (R293), which bear
the region for which they were read (R267). -/
def State.keepXlat (s : State) (h : Hart) (va : Nat) : State :=
  let ctx := s.region h.region
  let locs := s.rangeLocs h ctx va 32 ++
    (match s.findRange h ctx va 32 with
     | .ok none => s.walkLocs h va 4 ctx.ptroot.toNat
     | _ => [])
  (locs.foldl (fun s l => s.fill h.reader l) s).tagXlat h locs

/-- A failed translation as a trap of the access at `va`: EVAL is that address, or that of an entry whose device read failed (R368). -/
def xtrap (va : Word) (f : XFail) : Trap :=
  if f.1 = causeProt then trapOf f.1 ((f.2.head?.map Missing.entry).getD va) else { code := f.1, val := va, missing := f.2 }

/-! ### A hart's reads and writes -/

/-- The trap of a read that fails behind its translation: EVAL is the address, or for a failed device read the physical one (R368). -/
def readTrap (c : BitVec 8) (va : Word) (x : Xlat) : Trap := trapOf c (if isHost x.loc && c == causeProt then wd x.pa else va)

/-- The byte that the strip holds for a location: of the stores of a gang's members the latest (R102, R146). -/
def State.bufByte (s : State) (h : Hart) (loc : Nat) : Option Byte :=
  match h.gang with
  | none => sfind h.buf loc
  | some g => (g.ids.filterMap s.hart?).findSome? (fun m => if m.stale.contains loc then none else sfind m.buf loc)

/-- A hart as its instruction fetch reads: the strip store buffer takes no part (R76). -/
def Hart.unbuffered (h : Hart) : Hart := { h with buf := [], gang := none }

/-- The bytes a load delivers: forwarded from the strip store buffer, else `Visible` (R102, R146). -/
def State.loadBytes (s : State) (h : Hart) (loc n : Nat) : Except (BitVec 8) Nat :=
  (List.range n).foldr (fun i acc =>
    match s.bufByte h (loc + i), acc with
    | some b, .ok x => .ok (b.toNat + 256 * x)
    | none, .ok x =>
      match s.visible h.reader (loc + i) with
      | .ok b => .ok (b.toNat + 256 * x)
      | .error c => .error c
    | _, .error c => .error c) (.ok 0)

/-- A write in flight is of a hart, or of the gang it is in. -/
def State.isOwn (s : State) (id : BitVec 11) (o : Outbound) : Bool :=
  o.src.hart == some id || (o.src.lead.isSome && o.src.lead == (s.hart? id).map Hart.leader)

/-- The hart's own writes in flight to these bytes, its gang's included, arrive first: one hart's accesses to a byte are in order
(R217, R231). -/
def State.settle (s : State) (id : BitVec 11) (loc n : Nat) : State :=
  s.arriveIf (fun o => s.isOwn id o && o.bytes.any (fun b => decide (loc ≤ b.1) && decide (b.1 < loc + n)))

/-- Loads performed early that meet no byte of a range. -/
def Hart.keptEarly (h : Hart) (loc n : Nat) : List Early :=
  h.early.filter (fun e => !(decide (e.loc < loc + n) && decide (loc < e.loc + e.n)))

/-- The strip holds some of these bytes. -/
def State.buffers (s : State) (h : Hart) (loc n : Nat) : Bool := (List.range n).any (fun i => (s.bufByte h (loc + i)).isSome)

/-- The load of `n` bytes at a location that was performed early, not before the index `since` at which the latest of the loads that
feed its word was performed (R231). Bytes that the strip holds are forwarded instead (R102). -/
def State.earlyOf (s : State) (h : Hart) (loc n since : Nat) : Option Early :=
  if s.buffers h loc n then none else h.early.find? (fun e => e.loc == loc && e.n == n && decide (since ≤ e.at_))

/-- What a load performed early delivers. -/
def Early.result (e : Early) : Except (BitVec 8) Nat :=
  match e.value with
  | some x => .ok x
  | none => .error causeUnturned

/-- A load of `n` bytes: what it delivered when it was performed early, else what the bytes hold now (R231). -/
def State.loadValue (s : State) (h : Hart) (loc n since : Nat) : Except (BitVec 8) Nat :=
  match s.earlyOf h loc n since with
  | some e => e.result
  | none => s.loadBytes h loc n

/-- The other harts of the selected hart's gang. -/
def Hart.members (h : Hart) : List (BitVec 11) :=
  match h.gang with
  | some g => g.ids.filter (fun i => i ≠ h.id)
  | none => []

/-- No load of the hart or of its gang stays performed early: what follows is performed later (R231). -/
def State.ordered (s : State) : State :=
  s.h.members.foldl (fun s m => s.modHart m (fun x => { x with early := [] })) (s.modH (fun h => { h with early := [] }))

/-- Mark the strip watched when an access in a mode meets the watched bytes, with the first in program order (R361). -/
def State.watch (s : State) (mode : Nat) (va n : Nat) : State :=
  let hd := s.h.header
  let lo := hd.waddr.toNat
  let hit := s.h.trace && hd.wlen ≠ 0 && hd.wmode.getLsbD mode &&
    decide (va < lo + hd.wlen.toNat) && decide (lo < va + n)
  if hit && (s.h.watched.isNone || decide (s.h.place < s.h.watchedAt)) then
    s.modH (fun h => { h with watched := some (wd va), watchedAt := h.place })
  else s

/-- The hart has reached an address: its core keeps what the translation read, and the strip may be watched (R293, R361). -/
def State.accessed (s : State) (mode : Nat) (va n : Nat) : State := (s.keepXlat s.h va).watch mode va n

/-- An access of the hart to these bytes is performed: no later load of them, of any hart of its gang, stays performed early (R231). -/
def State.dropEarly (s : State) (loc n : Nat) : State :=
  s.h.members.foldl (fun s m => s.modHart m (fun x => { x with early := x.keptEarly loc n }))
    (s.modH (fun h => { h with early := h.keptEarly loc n }))

/-- The load of `n` bytes at a location is delivered: what it filled, if it was performed early, is met from now on, and no load of these
bytes stays performed early. -/
def State.delivered (s : State) (loc n : Nat) : State :=
  (match s.earlyOf s.h loc n 0 with
   | some e => s.showCopies s.h.id e.at_
   | none => s).dropEarly loc n

/-- Words of 8 bytes that the buffer holds (R104). -/
def bufWords (buf : List (Nat × Byte)) : List Nat := distinct [] (buf.map (fun b => b.1 / 8))

/-- STOREBUDGET.USED. -/
def Hart.used (h : Hart) : Nat := 8 * (bufWords h.buf).length

/-- Put bytes into the strip store buffer. -/
def bufPut (buf : List (Nat × Byte)) (bs : List (Nat × Byte)) : List (Nat × Byte) :=
  bs.foldl (fun m b => sput m b.1 b.2) buf

/-- A store to a location through a virtual address (R190). -/
def Hart.storedAt (h : Hart) (loc va : Nat) : Hart := { h with wva := sput h.wva (sectorOf loc) (va, h.region) }

/-- Stores to `n` consecutive bytes through a virtual address of a region, sector by sector (R190). -/
def Hart.storedOver (h : Hart) (region : BitVec 16) (loc va n : Nat) : Hart :=
  { h with wva := (List.range ((n + 31) / 32)).foldl (fun l k => sput l (sectorOf loc + k) (va + 32 * k, region)) h.wva }

/-- The locations of a buffer to which another member of the gang has stored last, after stores by these harts in order. -/
def Hart.shadowed (h : Hart) (ws : List (Nat × BitVec 11)) : List Nat :=
  (h.buf.map Prod.fst).filter (fun l => match ws.reverse.find? (fun x => x.1 == l) with
    | some x => x.2 != h.id
    | none => h.stale.contains l)

/-- Stores of a gang's harts have entered their buffers in this order: of the values of one byte only the last leaves at the close
(R104, R149, R217). -/
def State.shadow (s : State) (ws : List (Nat × BitVec 11)) : State :=
  match s.h.gang with
  | none => s
  | some g => g.ids.foldl (fun s m => s.modHart m (fun h => { h with stale := h.shadowed ws })) s

/-- The words among these bytes that the buffer does not hold yet. -/
def newWords (buf : List (Nat × Byte)) (bs : List (Nat × Byte)) : Nat :=
  let have_ := bufWords buf
  ((distinct [] (bs.map (fun b => b.1 / 8))).filter (fun w => !(have_.contains w))).length

/-- STOREBUDGET.LIMIT as it takes effect: an expert field (R9). -/
def Hart.limit (h : Hart) : Nat := if h.expert then h.budget.toNat else 131072

/-! ### Observation: strip records (R354 to R358) -/

/-- Queue a record on the core's observation unit; a record that finds the queue full is dropped and counted. -/
def State.observe (s : State) (h : Hart) (rec : Nat) : State :=
  let c := s.core (coreOf h.id)
  if c.obs.length < 8 then
    s.setCore (coreOf h.id) { c with
      obs := c.obs ++ [{ hart := h.id, buffer := h.samplebuf, region := h.region, record := BitVec.ofNat 256 rec, lost := c.lost }]
      lost := 0 }
  else s.setCore (coreOf h.id) { c with lost := c.lost + 1 }

/-- The header word of a record (Table obs.2). -/
def obsHeader (ty flags : Nat) (id : BitVec 11) : Nat := 0xA1000000 + ty * 2^20 + flags * 2^16 + id.toNat

/-- Cycles of the selected hart's strip from its opening, a free number; more than LIMIT where the limit has passed (R203,
R356; log entry 6). -/
def State.stripCycles (s : State) : Nat :=
  Config.stripCycles s.h.openedAt s.clock + (if s.h.overLimit then nbits s.h.stripctl.toNat 8 32 + 1 else 0)

/-- Write the strip record of the run that ends (R356): flags SPLIT, ABORTED, and TRIMMED and PREEMPTED as the hart stands. -/
def State.stripRecord (s : State) (split aborted preempted : Bool) : State :=
  let h := s.h
  if h.trace && h.tracectl.getLsbD 0 then
    let fl := bnat split + 2 * bnat aborted + 4 * bnat h.trimmed + 8 * bnat preempted
    let cyc := min s.stripCycles 0xFFFFFFFF
    s.observe h (obsHeader 1 fl h.id + h.r.vl % 2^32 * 2^32 + h.strippc.toNat * 2^64 + h.stripn.toNat * 2^128 +
      cyc * 2^192 + (Config.freeBusy s.clock).toNat * 2^224)
  else s

/-! ### Strips (R33, R199 to R203) -/

/-- What leaves a hart's buffer at a commit: every byte to which no other member of its gang has stored later (R149, R217). -/
def Hart.leaving (h : Hart) : List (List (Nat × Byte)) := (h.buf.filter (fun b => !(h.stale.contains b.1))).map (fun b => [b])

/-- A strip commits: the record, the buffered bytes of the hart and its members leave, INSTRET counts (R104, R26). The split
flag stands in the record of the run that the split ends, as R356 and Table strips.1 have it (DEDUCED, log entry 55: R90 words it of
the new strip's record). -/
def State.commit (s : State) (split : Bool) : State :=
  let s := if s.h.stripOpen then s.stripRecord split false s.h.preempt else s
  let items := s.h.leaving
  let ms := s.h.members
  let s := s.modH (fun h => { h with
    buf := [], stale := [], queue := [], instret := h.instret + wd h.instPend, instPend := 0, stripOpen := false })
  let s := s.send s.h.id items
  ms.foldl (fun s m =>
    match s.hart? m with
    | some x => (s.setHart { x with buf := [], stale := [] }).send m x.leaving
    | none => s) s

/-- FFLAGS.TE, an expert field (R28, R9). -/
def Hart.te (h : Hart) : BitVec 5 := if h.expert then h.r.fflags.extractLsb' 8 5 else 0

/-- The traps due at the close of the open strip (R28, R203, R361), the lowest code first. -/
def State.due (s : State) : List (BitVec 8 × Word) :=
  let h := s.h
  let ar := h.raised &&& h.te
  (if h.overLimit then [(causeLongstrip, wd s.stripCycles)] else []) ++
  (if ar ≠ 0 then [(causeArith, ar.setWidth 64)] else []) ++
  (match h.watched with
   | some a => [(causeWatch, a)]
   | none => [])

/-- The progress index of a position inside a block (Table strips.2). -/
def Block.eix (b : Block) : Word := wd (b.rep + b.word * 2^16)

/-- The progress index of the resumable position (R13, R200). -/
def Hart.posEix (h : Hart) : Word :=
  match h.blk with
  | some b => b.eix
  | none => h.eix

/-- The predecoded copy kept with the strip checkpoint, where the hart stands at its `vfetch` (R200). -/
def Hart.keptBlk (h : Hart) : Option Block := h.ckBlk.filter (fun b => b.pc == h.pc)

/-- The predecoded copy that belongs to the resumable position (R200). -/
def Hart.posBlk (h : Hart) : Option Block :=
  match h.blk with
  | some b => some b
  | none => if h.eix = 0 then none else h.keptBlk

/-- The block a hart goes on with when it comes back to this position. -/
def Hart.keepBlk (h : Hart) : Option Block :=
  match h.blk with
  | some b => some b
  | none => h.ckBlk

/-- Open the next strip at the resumable position: STRIPN, STRIPPC and the checkpoint (R199, R33). -/
def State.openRaw (s : State) : State :=
  let s := s.modH (fun h => { h with
    stripn := h.stripn + 1, strippc := h.pc, ck := h.r, ckEix := h.posEix, ckBlk := h.posBlk, ckWatched := h.watched, watchedAt := 0,
    place := 0, turned := [],
    stripOpen := true, byVl := false, rerun := false, trimmed := false, overLimit := false, openedAt := s.clock, leasePref := h.pref,
    leaseMin := h.min })
  s.h.members.foldl (fun s m => s.modHart m (fun x => { x with ck := x.r, leasePref := x.pref, leaseMin := x.min })) s

/-- The next ordinal is the one at which the hart stops (R360). -/
def Hart.stopDue (h : Hart) : Bool := h.trace && h.header.stopat ≠ 0 && h.header.stopat == h.stripn + 1

/-- STOPAT := 0, in the cached header and by a home action in the buffer (R360). -/
def State.clearStop (s : State) : State :=
  let s' := s.modH (fun h => { h with header := { h.header with stopat := 0 } })
  match s.translate s.h (wd (nbits s.h.samplebuf.toNat 12 52 * 4096 + 24)) .any with
  | .ok x => s'.unitWrite 5 s.h.region x.loc 8 0
  | .error _ => s'

/-! ### The end of a hart -/

/-- A region is being ended, or the latest `rstop` that reached it or an ancestor stopped it (R198, R349). -/
def State.regionStopped (s : State) (r : BitVec 16) : Bool :=
  s.ended.any (fun a => s.under r a) ||
  (match s.stoppedRegions.find? (fun a => s.under r a.1) with
   | some a => a.2
   | none => false)

/-- A hart may be switched to (R301, R198). A gang's cores switch to it one by one (R305). -/
def State.mayRun (s : State) (h : Hart) : Bool := h.st == .ready && !(s.regionStopped h.region)

/-- Every core of a hart's gang but its own has switched to it: the gang runs only then (R305). -/
def State.gangBack (s : State) (h : Hart) : Bool := h.members.all (fun m => (s.hart? m).all (fun x => x.st == .running))

/-- Some core of a hart's gang stands switched to it. -/
def State.gangHalfBack (s : State) (h : Hart) : Bool :=
  h.st == .running || h.members.any (fun m => (s.hart? m).any (fun x => x.st == .running))

/-- Set the slot state of the selected hart and of its gang's members together: all their cores leave it together (R305). -/
def State.setSt (s : State) (st : SlotState) : State :=
  let s := s.modH (fun h => { h with st := st })
  s.h.members.foldl (fun s m => s.modHart m (fun x => { x with st := st })) s

/-- The core of a hart runs nothing in its other slot. -/
def State.coreIdle (s : State) (id : BitVec 11) : Bool := (s.hart? (otherSlot id)).all (fun o => o.st != .running)

/-- A core switches to a slot that is READY, where its other slot does not run (R12, R301); of a gang each core does so for itself (R305). -/
def State.switchBack (s : State) (id : BitVec 11) : State :=
  match s.hart? id with
  | some h => if s.mayRun h && s.coreIdle id then s.modHart id (fun h => { h with st := .running }) else s
  | none => s

/-- A core switches to the other slot of a hart when that slot is READY (R12, R301). -/
def State.switchFrom (s : State) (id : BitVec 11) : State := s.switchBack (otherSlot id)

/-- The hart and its gang have left their cores: each core switches to its other slot when that slot is READY (R12, R301, R305). -/
def State.yieldCore (s : State) : State :=
  let next := (s.hart? (otherSlot s.h.id)).filter s.mayRun
  let t := (s.h.id :: s.h.members).foldl State.switchFrom s
  match next with
  | some o => t.select o.id
  | none => t

/-- The strip aborts: the reverting state returns, the buffer and queued work go, the hart stands at STRIPPC (R33, R201). -/
def State.rollback (s : State) (preempted : Bool) : State :=
  let s := s.stripRecord false true preempted
  let s := s.modH (fun h => { h with
    r := { h.ck with fflags := h.ck.fflags ||| h.delivered.setWidth 13 }, buf := [], stale := [], early := [], queue := [],
    instPend := 0, pc := h.strippc,
    eix := h.ckEix, blk := none, slices := [], perf := 0, raised := h.delivered, watched := h.ckWatched, watchedAt := 0,
    place := 0, trimmed := false,
    overLimit := false, openedAt := s.clock, stripOpen := true, rerun := h.byVl })
  s.h.members.foldl (fun s m => s.modHart m (fun x => { x with
    r := { x.ck with fflags := x.ck.fflags ||| x.delivered.setWidth 13 }, buf := [], stale := [], early := [] })) s

/-- The hart leaves the core: READY, at its resumable position (R303). -/
def State.leaveCore (s : State) : State :=
  ((s.modH (fun h => { h with
    preempt := false, eix := h.posEix, ckBlk := h.keepBlk, blk := none, slices := [], perf := 0 })).setSt .ready).yieldCore

/-- A strip holds buffered stores, of any member of the gang, or blocks in the queues (R303). -/
def State.holdsWork (s : State) : Bool :=
  !s.h.buf.isEmpty || s.h.members.any (fun m => match s.hart? m with
    | some x => !x.buf.isEmpty
    | none => false) || !s.h.queue.isEmpty

/-- A pre-emption takes effect at once on the selected hart: its wait is withdrawn, with what it had asked of a home, and a strip
that holds work aborts (R303). -/
def State.withdraw (s : State) : State :=
  let s := { s with waiters := s.waiters.filter (fun w => w.2 ≠ s.h.id) }
  let s := s.modH (fun h => { h with wait := .none, eix := h.posEix, ckBlk := h.keepBlk, blk := none, slices := [], perf := 0 })
  let s := if s.h.stripOpen && s.holdsWork then s.rollback true else s
  if s.h.st = .parked then (s.modH (fun h => { h with preempt := false })).setSt .ready else s.leaveCore

/-- Park the selected hart on a wait and hand the core over (R14, R301). A request that is pending withdraws the wait (R303). -/
def State.parkOn (s : State) (w : Wait) : State :=
  if s.h.preempt then (s.modH (fun h => { h with wait := w })).withdraw
  else ((s.modH (fun h => { h with wait := w })).setSt .parked).yieldCore

/-- A `tdone` that has done everything but write its record (R287). -/
def Hart.isEnding (h : Hart) : Bool := match h.origin with
  | .ending .. => true
  | _ => false

/-- A `tdone` whose `turn.all` has completed, a `vamo` in its pass 2 and a `stepbuild` that has begun are not cut (R304). -/
def Hart.isWhole (h : Hart) : Bool := h.amo.isSome || h.building.isSome || h.isEnding

/-- The selected hart stands RUNNING and stalled where a request withdraws its wait at once: at an entry, or with its strip closed for
want of a path (R303, R371). -/
def Hart.stalledAtEntry (h : Hart) : Bool :=
  match h.wait with
  | .retry | .gang _ | .saving .. => true
  | .remote _ => !h.stripOpen
  | _ => false

/-- The instruction at the PC waits, RUNNING and stalled, and executes again (R118, R178, R184, R371). Where a request that is pending
may cut it there, the wait is withdrawn (R303, R304). -/
def State.stall (s : State) (w : Wait) : State :=
  let s := s.modH (fun h => { h with wait := w })
  if s.h.preempt && s.h.stalledAtEntry && !s.h.isWhole then s.withdraw else s

/-- TRACECTL.INTRUSIVE in effect: an expert field (R9, R363). -/
def Hart.intrusive (h : Hart) : Bool := h.tracectl.getLsbD 16 && h.expert

/-! ### Acting for another hart -/

/-- Do something as the hart in a slot, then give the turn back. -/
def State.onHart (s : State) (id : BitVec 11) (f : State → State) : State :=
  let old := s.h.id
  match s.hart? id with
  | none => s
  | some _ => (f (s.select id)).select old

/-- Do something as each of these harts. -/
def State.onHarts (s : State) (ids : List (BitVec 11)) (f : State → State) : State :=
  ids.foldl (fun s id => s.onHart id f) s

/-! ### Waking and switching (R14, R301) -/

/-- The hart whose priority stands for a hart: its gang's leader (R305). -/
def State.leadOf (s : State) (h : Hart) : Hart := (s.hart? h.leader).getD h

/-- Intrusive profiling of a hart, or of any other of its gang: a gang leaves its cores together, so that one member's INTRUSIVE keeps
the gang's cores from switching (R305, R363). -/
def State.gangProfiled (s : State) (h : Hart) : Bool :=
  h.intrusive || ((h.gang.map Gang.ids).getD []).any (fun m => (s.hart? m).any Hart.intrusive)

/-- The harts of lower priority that run in the other slots of a hart's cores, its gang's included (R301, R302, R305); intrusive
profiling holds the request (R363). -/
def State.outranked (s : State) (h : Hart) : List (BitVec 11) :=
  (h.id :: h.members).filterMap (fun m => match s.hart? (otherSlot m) with
    | some o => if o.st == .running && decide ((s.leadOf o).prio < (s.leadOf h).prio) && !(s.gangProfiled o) then some o.id else none
    | none => none)

/-- A pre-emption request reaches the selected hart (R303): withdraw a wait, stop a long instruction between its parts (R304),
or let the strip come to its close. A gang to which not every core has switched back is not running: the cores that have leave it again
(R305). -/
def State.requestHere (s : State) : State :=
  let s' := s.modH (fun h => { h with preempt := true })
  if !(s.gangBack s.h) then (if s.gangHalfBack s.h then (s.setSt .ready).yieldCore else s)
  else if s.h.isWhole then s'
  else if s.h.wait = .member ∨ s.h.st = .ready ∨ s.h.st = .held then s
  else if s.h.st = .parked ∨ s.h.stalledAtEntry then s'.withdraw
  else if !s.h.stripOpen && s.h.wait == .none then s'.leaveCore
  else s'

/-- A pre-emption request for a hart acts on its gang through the leader (R305). -/
def State.requestPreempt (s : State) (id : BitVec 11) : State :=
  match s.hart? id with
  | none => s
  | some h => s.onHart h.leader State.requestHere

/-- The selected hart has become READY: one of higher priority requests pre-emption of those that run in its place, and idle cores
switch to it and its gang (R301, R305). -/
def State.nowReady (s : State) : State :=
  let s := if s.regionStopped s.h.region then s else (s.outranked s.h).foldl State.requestPreempt s
  (s.h.id :: s.h.members).foldl State.switchBack s

/-- The harts READY in the other slots of some harts' cores request pre-emption, where they may (R301, R363). -/
def State.askCores (s : State) (ids : List (BitVec 11)) : State :=
  s.onHarts (ids.map otherSlot) (fun s => if s.h.st = .ready then s.nowReady else s)

/-- The selected hart, PARKED, becomes READY (R301). -/
def State.wakeHere (s : State) : State :=
  if s.h.st ≠ .parked then s
  else ((s.modH (fun h => { h with wait := .none })).setSt .ready).nowReady

/-- Wake a parked hart. -/
def State.wake (s : State) (id : BitVec 11) : State := s.onHart id State.wakeHere

/-! ### Tasks and events as they are held -/

/-- The task that the task system holds for a registered TCB (R279). -/
def State.heldTask (s : State) (tcb : Nat) : Option Task := s.tasks.find? (fun t => t.tcb == tcb && t.reg)

/-- A TCB's STATE: the task system's while it is registered, else what memory holds (R279). -/
def State.taskSt (s : State) (tcb : Nat) : Nat := ((s.heldTask tcb).map Task.st).getD (s.homeNat (tcb + 19) 1)

/-- A TCB's COUNT, likewise. -/
def State.taskCount (s : State) (tcb : Nat) : Nat := ((s.heldTask tcb).map Task.count).getD (s.homeNat (tcb + 20) 4)

/-- Change what is held of a TCB. -/
def State.modTask (s : State) (tcb : Nat) (f : Task → Task) : State :=
  { s with tasks := s.tasks.map (fun t => if t.tcb = tcb then f t else t) }

/-- Write a field of a TCB as a home action of the task system (R279). -/
def State.tcbPut (s : State) (tcb off n x : Nat) : State :=
  s.unitPut (((s.heldTask tcb).map Task.region).getD (BitVec.ofNat 16 (s.homeNat (tcb + 16) 2))) (tcb + off) n x

/-- A TCB goes to a state; one that is DONE or CANCELLED is registered no more (R279). -/
def State.tcbState (s : State) (tcb code : Nat) : State :=
  (s.tcbPut tcb 19 1 code).modTask tcb (fun t => { t with st := code, reg := t.reg && code != 4 && code != 6 })

/-- Set a TCB's COUNT. -/
def State.tcbCount (s : State) (tcb n : Nat) : State := (s.tcbPut tcb 20 4 n).modTask tcb (fun t => { t with count := n })

/-- The completion record of a hart started from a start record (R274). -/
def startRecord (q : BitVec 12) (region : BitVec 16) (st code : Nat) (user : Word) : BitVec 128 :=
  mkEvent 0x01 st region (q.toNat + code * 2^16) user.toNat

/-- The slot of the selected hart becomes FREE: its gang breaks as `brk` breaks it, and its lease ends (R275). What a member's INTRUSIVE
held for the gang's cores is requested again (R363). -/
def State.freeSlotBy (brk : State → State) (s : State) : State :=
  let h := s.h
  let held := if s.gangProfiled h then h.members else []
  let s := brk s
  let c := s.core (coreOf h.id)
  let s := match c.grout with
    | some g => if g.owner = h.id then s.setCore (coreOf h.id) { c with grout := some { g with live := false } } else s
    | none => s
  { s with
    h := Hart.blank h.id
    waiters := s.waiters.filter (fun w => w.2 ≠ h.id)
    cmds := s.cmds.map (fun (c : Cmd) => if c.hart = h.id then { c with orphan := true } else c)
    fetches := s.fetches.map (fun (f : Fetch) => { f with tickets := f.tickets.filter (fun t => t.1 ≠ Holder.hart h.id) }) }.yieldCore.askCores held

/-- No target: a reserved bit is set (R286). -/
def noTarget : BitVec 32 := 1

/-- The hart has nothing more to do but write a record, or those of its INTRUSIVE, for which it stands RUNNING and stalled (R287, R363);
without one it ends now. -/
def State.endingBy (brk : State → State) (s : State) (t : BitVec 32) (e : BitVec 128) : State :=
  if targetOk t || s.h.intrusive then s.modH (fun h => { h with origin := .ending t e, wait := .retry }) else s.freeSlotBy brk

/-- A trap whose vector is 0 ends the hart, or faults its task (R274, R285). Its record is written before the slot is FREE (R287). -/
def State.endByTrapBy (brk : State → State) (s : State) (code : BitVec 8) : State :=
  let h := s.h
  match h.origin with
  | .none | .ending .. => s.endingBy brk noTarget 0
  | .start q t u => s.endingBy brk t (startRecord q h.region 1 code.toNat u)
  | .task tcb =>
    ((s.tcbPut tcb 108 1 code.toNat).tcbState tcb 5).endingBy brk (s.evtgt (s.parent h.region))
      (mkEvent 0x03 0 h.region code.toNat tcb)

/-! ### Taking a trap (R295) -/

/-- The registers that delivery through the vector writes. -/
def Hart.enter (h : Hart) (code : BitVec 8) (val : Word) (rolled : Bool) : Hart :=
  { h with
    ecause := (if rolled then (1 : BitVec 1) else 0) ++ code
    eval := val
    epc := h.pc
    eixCsr := h.posEix
    epcBlk := h.posBlk
    eix := 0
    blk := none
    slices := []
    perf := 0
    watched := none
    epcWatched := h.watched
    prev := h.cur
    cur := if h.cur = 0 then 1 else h.cur
    pc := wd (nbits h.trapvec.toNat 2 62 * 4) }

/-- A gang runs at one privilege level: its members have their leader's (R178). -/
def State.sameLevel (s : State) : State := s.h.members.foldl (fun t m => t.modHart m (fun x => { x with cur := s.h.cur })) s

/-- Deliver a trap through the supervisor vector, or end the hart where there is none. -/
def State.vectorBy (brk : State → State) (s : State) (code : BitVec 8) (val : Word) (rolled : Bool) : State :=
  if nbits s.h.trapvec.toNat 2 62 = 0 then s.endByTrapBy brk code
  else
    let s := (s.modH (fun h => h.enter code val rolled)).sameLevel
    let s := if s.h.stopDue then s.clearStop.modH (fun h => h.enter causeBreak 64 false) else s
    if s.h.preempt && !rolled then s.openRaw.leaveCore else s.openRaw

/-- Open the next strip at the resumable position, unless the hart stops there (R360) or leaves the core (R303). -/
def State.openNextBy (brk : State → State) (s : State) : State :=
  if s.h.stopDue then s.clearStop.vectorBy brk causeBreak 64 false
  else if s.h.preempt then s.openRaw.leaveCore
  else s.openRaw

/-- One member of a broken gang continues after its `gang` with WIDTH 1 (R178): its strip opens as any other, or it stops
there (R360). One that a start record placed stands at no `gang`, and begins at its ENTRY (DEDUCED, log entry 65). -/
def State.memberOn (s : State) (started : Bool) (m : BitVec 11) : State :=
  match s.hart? m with
  | none => s
  | some _ =>
    let old := s.h.id
    (((s.select m).modH (fun h => { h with
      gang := none, wait := .none, pc := if started then h.pc else h.pc + 4
      instret := if started then h.instret else h.instret + 1
      eix := 0, blk := none, ckBlk := none })).openNextBy id).select old

/-- A gang breaks (R178): every hart returns to WIDTH 1, and each member continues. With `ends`, the leader's hart ends: the
members that a start record placed with it end too (R274). -/
def State.breakGang (s : State) (ends : Bool) : State :=
  match s.h.gang with
  | none => s
  | some g =>
    let ms := s.h.members
    let s := s.modH (fun h => { h with gang := none })
    ms.foldl (fun s m =>
      match s.hart? m with
      | none => s
      | some x => if ends && g.started && x.origin == .none then
          s.setHart { Hart.blank m with st := .free }
        else s.memberOn g.started m) s

/-- The slot of the selected hart becomes FREE (R275). -/
def State.freeSlot (s : State) : State := s.freeSlotBy (fun s => s.breakGang true)

/-- A trap whose vector is 0 ends the hart, or faults its task (R274, R285). -/
def State.endByTrap (s : State) (code : BitVec 8) : State := s.endByTrapBy (fun s => s.breakGang true) code

/-- Deliver a trap through the supervisor vector, or end the hart where there is none (R295). -/
def State.vector (s : State) (code : BitVec 8) (val : Word) (rolled : Bool) : State :=
  s.vectorBy (fun s => s.breakGang true) code val rolled

/-- Open the next strip at the resumable position, unless the hart stops there (R360) or leaves the core (R303). -/
def State.openNext (s : State) : State := s.openNextBy (fun s => s.breakGang true)

/-- The bytes of a fault record (Table trap.5). -/
def faultRecord (t : Trap) (pc eix : Word) : Nat :=
  let es := t.missing.take 28
  t.code.toNat + bnat (decide (28 < t.missing.length)) * 2^8 + es.length * 2^16 + pc.toNat * 2^64 +
    eix.toNat * 2^128 + t.val.toNat * 2^192 +
    (es.foldr (fun e x => e.entry.toNat + 2^64 * x) 0) * 2^256

/-- Ask the swap engine for an entry, with the tickets that wait for it (R188, R299, R300, R344). A fetch of a resume that has not
started takes its place behind all that faults and `vxlate.ff` have posted so far. -/
def State.askFetch (s : State) (tickets : List (Holder × Word)) (region : BitVec 16) (m : Missing) : State :=
  match s.fetches.find? (fun f => f.entry == m.loc) with
  | some f =>
    let g := { f with tickets := f.tickets ++ tickets, cls := min f.cls 1 }
    if f.cls ≤ 1 ∨ f.started.isSome then { s with fetches := s.fetches.map (fun x => if x.entry == m.loc then g else x) }
    else { s with fetches := s.fetches.filter (fun x => x.entry != m.loc) ++ [g] }
  | none =>
    { s with fetches := s.fetches ++ [{ entry := m.loc, page := m.page, origin := m.entry &&& ~~~3, started := none,
                                        tickets := tickets, region := region, session := none, cls := 1,
                                        landed := false }] }

/-- The index of a timeline among the four counters. -/
def Timeline.idx : Timeline → Fin 4
  | .mx => 0
  | .dm => 1
  | .tn => 2
  | .sw => 3

/-- Issue on a timeline: the count rises, and the new count is the ticket (R187). -/
def State.issue (s : State) (t : Timeline) : State × Word :=
  let n := s.h.issued.get t.idx + 1
  (s.modH (fun h => { h with issued := h.issued.set t.idx n }), n)

/-- Post the fetches of a list of missing entries on one TLSW ticket of the selected hart (R344). -/
def State.postFetches (s : State) (ms : List Missing) : State :=
  let (s, t) := s.issue .sw
  ms.foldl (fun s m => s.askFetch [(.hart s.h.id, t)] s.h.region m) s

/-- PAGE and KVMISS: the fault record is written and turned to L3, posted, and the hart parks (R299).
ECAUSE, with the ROLLED bit that R107, R119, R145 and Table lu.7 give a PAGE, EVAL, EPC and the CSR EIX are written as R90, R100 and
R107 have it (DEDUCED, log entry 56: the pseudocode of R295 names no write of them for a cause that parks). -/
def State.parkFault (s : State) (t : Trap) (rolled : Bool) : State :=
  let h := s.h
  let base := nbits h.faultrec.toNat 8 56 * 256
  let es := t.missing.take 28
  let s := match s.locate (coreOf h.id) base with
    | some (loc, 3) =>
      let bs := spread loc 256 (faultRecord t h.pc h.posEix)
      (sectorsOf bs).foldl (fun (s : State) sec => (s.invalidate 3 (coreOf h.id) sec).setEntry sec
        (mkEntry 3 (posCore (coreOf h.id)) h.region)) (s.putBytes bs)
    | _ => s
  let s := s.modH (fun h => { h with
    ecause := (if rolled then (1 : BitVec 1) else 0) ++ t.code, eval := t.val, epc := h.pc, eixCsr := h.posEix, epcBlk := h.posBlk
    listed := es.map Missing.loc, faultrec := h.faultrec ||| 1, eix := h.posEix, ckBlk := h.keepBlk, blk := none, slices := [], perf := 0 })
  (s.postFetches es).parkOn (.fault (es.map Missing.loc))

/-- TAKING A TRAP (R295): PAGE and KVMISS park, every other cause goes to the vector; an access without a path waits. -/
def State.deliver (s : State) (t : Trap) (rolled : Bool) : State :=
  if t.code = waitNoPath then s.stall (.remote t.val)
  else if t.code = causePage ∨ t.code = causeKvmiss then s.parkFault t rolled else s.vector t.code t.val rolled

/-! ### Closing and rolling back (R33, R199, R201) -/

/-- Close the open strip and go on, unless a trap is due at the close (R28, R203, R361); with no strip open, go on. -/
def State.closeThen (s : State) (split : Bool) (k : State → State) : State :=
  if !s.h.stripOpen then k s
  else
    let due := s.due ++ ((s.h.owed.filter (fun o => o.pc == s.h.pc)).map (fun o => (o.code, o.val)))
    let s := (s.commit (split || s.h.overLimit)).modH (fun h => { h with
      raised := 0, delivered := 0, watched := none, ckWatched := none, overLimit := false, owed := h.owed.filter (fun o => o.pc ≠ h.pc) })
    match due with
    | [] => k s
    | (c, v) :: rest =>
      (s.modH (fun h => { h with owed := rest.map (fun r => { code := r.1, val := r.2, pc := h.pc }) })).vector c v false

/-- `SplitStrip()` before an irrevocable action: the strip commits, and every earlier access is performed (R90, R231). -/
def State.splitThen (s : State) (k : State → State) : State :=
  s.closeThen true (fun s => k (s.h.members.foldl State.arriveHart (s.arriveHart s.h.id)))

/-- A trap that aborts the strip (R107): rolled back, then delivered with ROLLED = 1. -/
def State.abortTrap (s : State) (t : Trap) : State :=
  if t.code = waitNoPath then s.stall (.remote t.val)
  else if s.h.stripOpen then (s.rollback false).deliver t true
  else s.deliver t false

/-- A trap before which the strip closes as at a split (R74): delivered with ROLLED = 0. -/
def State.splitTrap (s : State) (t : Trap) : State := s.closeThen true (fun s => s.deliver t false)

/-! ### Going on -/

/-- The instruction is done: the PC goes on and the open strip counts it. -/
def Hart.retire (h : Hart) : Hart := { h with pc := h.pc + 4, eix := 0, instPend := h.instPend + 1 }

/-- A scalar instruction that leaves the strip open has changed the registers (R89). -/
def State.done (s : State) (f : Regs → Regs) : State := s.modH (fun h => { h with r := f h.r }.retire)

/-- An irrevocable instruction completes: it counts at once, and the next strip opens behind it (R90, R172). -/
def State.doneSplit (s : State) (f : Regs → Regs) : State :=
  (s.modH (fun h => { h with r := f h.r, pc := h.pc + 4, eix := 0, instret := h.instret + 1, wait := .none })).openNext

/-- An assigned encoding above the current level traps PRIV, with the word in EVAL (R24, R71, R74, R173). -/
def State.needLevel (s : State) (lv : Nat) (i : Instr) (k : State → State) : State :=
  if s.h.cur.toNat < lv then s.splitTrap (trapOf causePriv ((encodeScalar i).setWidth 64)) else k s

/-- ILLEGAL with the value EVAL holds (R71, R74). -/
def State.illegal (s : State) (val : Word) : State := s.splitTrap (trapOf causeIllegal val)

/-- The sample buffer's header is read: it is translated as the hart's stores are, and kept where it cannot be read
(R353; log entry 18). -/
def State.readHeader (s : State) : State :=
  if !s.h.trace then s
  else
    match s.translate s.h (wd (nbits s.h.samplebuf.toNat 12 52 * 4096)) .write with
    | .error _ => s
    | .ok x =>
      if s.covered .unit x.loc && s.covered .unit (x.loc + 32) then
        let n := s.homeNat x.loc 64
        s.modH (fun h => { h with header :=
          { stopat := wd (nbits n 192 64), waddr := wd (nbits n 256 64), wlen := BitVec.ofNat 32 (nbits n 320 32),
            wmode := BitVec.ofNat 3 (nbits n 352 3) } })
      else s

/-- THE RETURN FROM A TRAP (R194): the strip closes, PRIV, PC and the progress index return, and the next strip opens at
EPC with the predecoded copy that delivery kept; a gang's members follow its level (R178). The sample buffer's header is read again (R353). -/
def State.returnFromTrap (s : State) : State :=
  s.splitThen (fun s =>
    (s.readHeader.modH (fun h => { h with
      cur := h.prev, prev := 0, pc := h.epc, eix := h.eixCsr, ckBlk := h.epcBlk, blk := none, watched := h.epcWatched,
      instret := h.instret + 1 })).sameLevel.openNext)

end Sys2Proof.Machine
end

