-- ==== Sys2Proof/Machine/Shared.lean ====
section
/-!
DEFINITION. Operations that several families share: region stops (R198), record and replay (R351, R352), operations at the home (R108),
turns of a write set (R110, R190) and waking.
-/

namespace Sys2Proof.Machine

/-! ### Region stops (R198) -/

/-- The harts of a region and its descendants. -/
def State.hartsUnder (s : State) (r : BitVec 16) : List Hart := s.harts.filter (fun h => s.under h.region r)

/-- Stop a region and its descendants: every hart of them is pre-empted, and kept from running. -/
def State.stopRegion (s : State) (r : BitVec 16) : State :=
  let ids := (s.hartsUnder r).map Hart.id
  let s := { s with stoppedRegions := (r, true) :: s.stoppedRegions.filter (fun a => !(s.under a.1 r)) }
  ids.foldl State.requestPreempt s

/-! ### Record and replay (R351, R352) -/

/-- The physical address of a region's log. -/
def State.logBase (s : State) (r : BitVec 16) : Nat := (s.refsOf r).logbase
/-- HEAD of a region's log. -/
def State.logHead (s : State) (r : BitVec 16) : Nat := s.homeNat (s.logBase r) 8
/-- TAIL of a region's log. -/
def State.logTail (s : State) (r : BitVec 16) : Nat := s.homeNat (s.logBase r + 8) 8
/-- The number of records a region's log holds. -/
def State.logSize (s : State) (r : BitVec 16) : Nat := 2 ^ s.homeNat (s.logBase r + 16) 1

/-- There is room for `n` more records, of which the log holds no more than its size, and none waits for its own (R351; log entry 11). -/
def State.logRoom (s : State) (r : BitVec 16) (n : Nat) : Bool :=
  decide (s.logTail r + Nat.min n (s.logSize r) ≤ s.logHead r + s.logSize r) &&
    s.unlogged.all (fun i => s.logBase i.region != s.logBase r)

/-- Every log into which these harts record has room for a record of each of them; regions that inherit LOGBASE share one (R266, R351). -/
def State.logsRoom (s : State) (hs : List Hart) : Bool :=
  let rs := (hs.filter (fun h => h.replay = 1)).map Hart.region
  rs.all (fun r => s.logRoom r (rs.filter (fun x => s.logBase x == s.logBase r)).length)

/-- Append a record (Table swap.7), turned to L3 before TAIL moves. -/
def State.logPut (s : State) (r : BitVec 16) (id : BitVec 11) (ty : Nat) (stripn : Word) (v v2 : Nat) : State :=
  let t := s.logTail r
  let at_ := s.logBase r + 64 + 32 * (t % s.logSize r)
  let s := s.unitPut r at_ 32
    (ty + id.toNat * 2^16 + stripn.toNat * 2^64 + v % 2^64 * 2^128 + v2 % 2^64 * 2^192)
  s.unitPut r (s.logBase r + 8) 8 (t + 1)

/-- Append a record, or let it wait for room behind those that wait already (R351). -/
def State.logAdd (s : State) (i : Unlogged) : State :=
  if s.logRoom i.region 1 then s.logPut i.region i.hart i.ty i.stripn i.v i.v2 else { s with unlogged := s.unlogged ++ [i] }

/-- The records that waited and find room are appended, in their order (R351). -/
def State.writeLogs (s : State) : State := s.unlogged.foldl State.logAdd { s with unlogged := [] }

/-- A record of a log: its index and fields. -/
structure LogRec where
  idx : Nat
  ty : Nat
  hart : BitVec 11
  stripn : Word
  v : Nat
  v2 : Nat
  deriving DecidableEq, Repr

/-- The record at an index of a region's log. -/
def State.logRec (s : State) (r : BitVec 16) (i : Nat) : LogRec :=
  let x := s.homeNat (s.logBase r + 64 + 32 * (i % s.logSize r)) 32
  { idx := i, ty := nbits x 0 8, hart := BitVec.ofNat 11 (nbits x 16 11), stripn := wd (nbits x 64 64),
    v := nbits x 128 64, v2 := nbits x 192 64 }

/-- The records of a region's log not yet fed back, in order. -/
def State.logRest (s : State) (r : BitVec 16) : List LogRec :=
  ((List.range (s.logTail r - s.logHead r)).map (fun i => s.logRec r (s.logHead r + i))).filter
    (fun x => !(s.replayed.contains (s.logBase r, x.idx)))

/-- The first record not yet fed back that meets a test. -/
def State.logFind (s : State) (r : BitVec 16) (p : LogRec → Bool) : Option LogRec := (s.logRest r).find? p

/-- A record has been fed back. -/
def State.logUse (s : State) (r : BitVec 16) (x : LogRec) : State := { s with replayed := s.replayed ++ [(s.logBase r, x.idx)] }

/-- An input found no matching record: the region stops and its parent is told, with the index of the record expected (R352). While the
record of an earlier divergence has not been written nothing happens, and the input is tried again (R287). -/
def State.divergeAt (s : State) (r : BitVec 16) (id : BitVec 11) (index : Nat) : State :=
  if s.holdsRecord (0x0A, 0) then s else (s.postParent r (mkEvent 0x0A 0 r id.toNat index)).stopRegion r

/-- A record that does not match, or none: the region stops and its parent is told (R352). VALUE is the index of the record that was
met instead; where the log has none left, TAIL, at which the missing one would stand (DESIGN CHOICE, log entry 83). -/
def State.diverge (s : State) (r : BitVec 16) (id : BitVec 11) (met : Option LogRec) : State :=
  s.divergeAt r id ((met.map LogRec.idx).getD (s.logTail r))

/-- The next record of a type for the selected hart at its strip ordinal. -/
def State.logMine (s : State) (ty : Nat) : Option LogRec :=
  s.logFind s.h.region (fun x => x.ty == ty && x.hart == s.h.id && x.stripn == s.h.stripn)

/-- An input of the selected hart with `n` records: without record or replay it comes about freely; in record mode it waits for
room and is logged; in replay mode the logged values stand in its place, and a record that does not match stops the region (R351,
R352). -/
def State.input (s : State) (ty n : Nat) (ok : LogRec → Bool) (free : State → State) (fed : State → LogRec → State) : State :=
  if s.h.replay = 1 then (if s.logRoom s.h.region n then free s else s.stall .retry)
  else if s.h.replay = 2 then
    match s.logMine ty with
    | some x => if ok x then fed (s.logUse s.h.region x) x else s.diverge s.h.region s.h.id (some x)
    | none => s.diverge s.h.region s.h.id none
  else free s

/-- Log an input of the selected hart when its region records. -/
def State.logged (s : State) (ty v v2 : Nat) : State :=
  if s.h.replay = 1 then s.logAdd { region := s.h.region, hart := s.h.id, ty := ty, stripn := s.h.stripn, v := v, v2 := v2 } else s

/-! ### The words that `vwait` waits on (R155) -/

/-- A cell of a waiting `vwait`: element index, location, home level, comparand, latch. -/
abbrev Cell := Nat × Nat × Nat × Nat × Bool

/-- The comparison of `vwait`, unsigned (R154). -/
def waitCond (cond : Nat) (m b : Nat) : Bool :=
  match cond with
  | 0 => m == b
  | 1 => m != b
  | 2 => decide (b ≤ m)
  | _ => decide (m < b)

/-- A cell is satisfied now, or was (R155). -/
def State.cellNow (s : State) (w cond : Nat) (c : Cell) : Cell :=
  let sat := c.2.2.2.2 || (s.homeReady c.2.2.1 (sectorOf c.2.1) && waitCond cond (s.homeNat c.2.1 (w / 8)) c.2.2.2.1)
  (c.1, c.2.1, c.2.2.1, c.2.2.2.1, sat)

/-- Every home tests the words that harts wait on, whenever they or their sectors have changed (R155). -/
def Hart.latch (s : State) (h : Hart) : Hart :=
  match h.wait with
  | .cells w cond kd lim cs => { h with wait := .cells w cond kd lim (cs.map (s.cellNow w cond.toNat)) }
  | _ => h

/-- The latches of every waiting hart. -/
def State.latch (s : State) : State :=
  { s with h := s.h.latch s, others := s.others.map (fun p => (p.1, p.2.latch s)) }

/-! ### Grout (R22, R164) -/

/-- The column of a byte of the tile. -/
def Grout.column (g : Grout) (o : Nat) : Nat := o / g.wbytes % 2 ^ g.shift

/-- The byte that `WriteBack()` leaves at an offset: an accumulated column's, else zero when column 0 is accumulated, else the
byte at the home. -/
def Grout.backByte (g : Grout) (home : Byte) (o : Nat) : Byte :=
  if g.mask.getLsbD (g.column o) then g.tile.extractLsb' (8 * o) 8
  else if g.mask.getLsbD 0 then 0 else home

/-- The location of the byte at an offset of a tile, as core `c` reaches it (R225). -/
def State.tileLoc (s : State) (c : BitVec 10) (g : Grout) (o : Nat) : Nat := ((s.locate c (g.pa + o)).map Prod.fst).getD 0

/-- `WriteBack()`: the 16 lines leave as writes of the owning hart, and the accumulated mask becomes 0. No load of these bytes that
follows stays performed early (R106). -/
def State.writeBack (s : State) (c : BitVec 10) : State :=
  match (s.core c).grout with
  | none => s
  | some g =>
    if g.mask = 0 then s
    else
      let locs := (List.range 2048).map (s.tileLoc c g)
      let s := s.arriveIf (fun o => g.live && o.src.hart == some g.owner && o.bytes.any (fun b => locs.contains b.1))
      let line := fun (k : Nat) => (List.range 128).map (fun i =>
        let l := s.tileLoc c g (128 * k + i)
        (l, g.backByte (s.homeByte l) (128 * k + i)))
      let s := s.sendTile g ((List.range 16).map line)
      let s := if g.live then (List.range 16).foldl (fun s k =>
          let l := s.tileLoc c g (128 * k)
          s.onHart g.owner (fun s => (s.modH (fun h => h.storedOver g.region l (g.va.toNat + 128 * k) 128)).dropEarly l 128)) s else s
      s.setCore c { s.core c with grout := some { g with mask := 0 } }

/-- The tile held for a hart with accumulated rows meets these sectors. -/
def State.groutMeets (s : State) (h : Hart) (p : Nat → Bool) : Bool :=
  match (s.core (coreOf h.id)).grout with
  | none => false
  | some g => g.mask ≠ 0 && g.live && g.owner == h.id &&
      (List.range 64).any (fun i => p (sectorOf (s.tileLoc (coreOf h.id) g (32 * i))))

/-! ### Turning a write set (R110, R190) -/

/-- The harts of the selected hart's gang, itself first. -/
def Hart.gangIds (h : Hart) : List (BitVec 11) := h.id :: h.members

/-- Every sector holding a write of the selected hart, or of its gang, since its last `turn.all`, rising. -/
def State.writeSets (s : State) : List Nat :=
  s.h.members.foldl (fun l m => match s.hart? m with
    | some x => x.writeSet.foldl (fun l x => ninsert x l) l
    | none => l) s.h.writeSet

/-- The write set begins afresh. -/
def State.clearWriteSets (s : State) : State :=
  s.h.members.foldl (fun s m => s.modHart m (fun x => { x with writeSet := [], wva := [], turned := [] }))
    (s.modH (fun h => { h with writeSet := [], wva := [], turned := [] }))

/-- The gang's writes to a sector reach its home. -/
def State.drainSector (s : State) (sec : Nat) : State :=
  let ids := s.h.gangIds
  s.arriveIf (fun o => (match o.src.hart with
    | some i => ids.contains i
    | none => false) && o.bytes.any (fun b => sectorOf b.1 == sec))

/-- One sector of a turn: drained, invalidated and marked (R190). -/
def State.turnOne (s : State) (lv sec : Nat) : State := (s.drainSector sec).turnSector lv s.myCore sec

/-- The address through which the gang stored to a sector still has a mapping; a sector without one is skipped (R190). What `ctxsave`
wrote went through the saved hart's region (R308). -/
def State.stillMapped (s : State) (sec : Nat) : Bool :=
  (s.h.gangIds.filterMap s.hart?).all (fun h => match sfind h.wva sec with
    | none => true
    | some (va, r) => match s.mappedLoc { s.h with region := r } (wd va) with
      | .ok _ => true
      | .error _ => false)

/-- One sector of the write set is turned. -/
def State.turnMine (s : State) (lv sec : Nat) : State := if s.stillMapped sec then s.turnOne lv sec else s

/-- `TurnAll(N)`: Grout first, then every sector of the write set in ascending order. -/
def State.turnAllNow (s : State) (lv : Nat) : State :=
  let s := if s.groutMeets s.h (fun _ => true) then s.writeBack s.myCore else s
  (s.writeSets.foldl (fun s sec => s.turnMine lv sec) s).clearWriteSets.latch

/-- One part of `TurnAll(N)` alone: Grout's lines leave, or the next sector of the write set is turned and leaves the set (R230). -/
def State.turnPart (s : State) (lv : Nat) : State :=
  if s.groutMeets s.h (fun _ => true) then s.writeBack s.myCore
  else match s.writeSets.head? with
    | none => s
    | some sec =>
      ((s.turnMine lv sec).onHarts s.h.gangIds (fun s => s.modH (fun h => { h with writeSet := nerase sec h.writeSet }))).modH
        (fun h => { h with turned := ninsert sec h.turned })

/-! ### Operations at the home (R90, R91, R108) -/

/-- Go on with the translated address of an operation at the home, after the split: MISALIGN, PAGE and PROT are taken between
strips, host memory traps PROT. -/
def State.homeThen (s : State) (va : Word) (al : Nat) (acc : Access) (k : State → Xlat → State) : State :=
  s.splitThen (fun s =>
    if va.toNat % al ≠ 0 then s.deliver (trapOf causeMisalign va) false
    else match s.translate s.h va acc with
      | .error f => s.deliver (xtrap va f) false
      | .ok x => if x.level = 5 then s.deliver (trapOf causeProt va) false else k s x)

/-- `HomeCheck(a)`: a poisoned sector traps PROT (R349), one not turned to the home level UNTURNED. -/
def State.homeCheck (s : State) (va : Word) (x : Xlat) (k : State → State) : State :=
  if s.poisoned (sectorOf x.loc) then s.deliver (trapOf causeProt va) false
  else if s.homeReady x.level (sectorOf x.loc) then k (s.dropEarly (x.loc / 8 * 8) 8)
  else s.deliver (trapOf causeUnturned va) false

/-- A home operation's write of `n` bytes by a hart, and its mark (R108). Its sector is turned by that mark and does not enter the set of
a later `turn.all` (DESIGN CHOICE, log entry 84: R190 speaks of every sector holding a write of the hart). -/
def State.homeWriteAs (s : State) (h : Hart) (x : Xlat) (n v : Nat) : State :=
  (s.putBytes (spread x.loc n v)).homeMark (coreOf h.id) h.region x.level (sectorOf x.loc)

/-- The same by the selected hart. -/
def State.homeWrite (s : State) (x : Xlat) (n v : Nat) : State := s.homeWriteAs s.h x n v

/-- An atomic's new memory value (Table scalar.8), `w` bits wide. -/
def atomicOp (op w m b : Nat) : Nat :=
  let b := b % 2^w
  match op with
  | 0 => (m + b) % 2^w
  | 1 => m &&& b
  | 2 => m ||| b
  | 3 => m ^^^ b
  | 4 => if sInt w m ≤ sInt w b then m else b
  | 5 => if sInt w b ≤ sInt w m then m else b
  | 6 => Nat.min m b
  | 7 => Nat.max m b
  | _ => b

/-- A home operation of the selected hart is logged under the physical address by which its core reaches the word (R351). -/
def State.homeLogged (s : State) (loc v2 : Nat) : State := s.logged 6 (physFor s.myCore loc) v2

/-- The first record not yet fed back of a home operation at a location, whichever hart made it and by whichever address (R352). -/
def State.homeFind (s : State) (loc : Nat) : Option LogRec :=
  s.logFind s.h.region (fun y => y.ty == 6 && (s.locate (coreOf y.hart) y.v).map Prod.fst == some loc)

/-- The order of home operations under record and replay (R351, R352): TYPE 0x06. The home holds an operation that the log puts
later; the logged old value is returned. -/
def State.homeInput (s : State) (loc : Nat) (free : State → State) (fed : State → Nat → State) : State :=
  if s.h.replay = 2 then
    match s.logMine 6 with
    | none => s.diverge s.h.region s.h.id none
    | some x =>
      if x.v ≠ physFor s.myCore loc then s.diverge s.h.region s.h.id (some x)
      else match s.homeFind loc with
        | some y => if y.idx = x.idx then fed (s.logUse s.h.region x) x.v2 else s.stall .retry
        | none => s.stall .retry
  else if s.h.replay = 1 && !(s.logRoom s.h.region 1) then s.stall .retry
  else free s

/-! ### Task readiness (R280, R282) -/

/-- A task meets readiness: COUNT is 0 and every operand word is full. -/
def State.taskMet (s : State) (t : Task) : Bool :=
  s.taskCount t.tcb == 0 && t.opws.all (fun l => s.full.contains (l / 8))

/-- Tasks among these TCBs that stand WAITING and meet readiness become READY, in a die's pool. -/
def State.readyTasks (s : State) (tcbs : List Nat) (die : BitVec 1) : State :=
  tcbs.foldl (fun s tcb =>
    match s.heldTask tcb with
    | none => s
    | some t =>
      if t.st = 1 ∧ s.taskMet t then (s.tcbState tcb 2).modTask tcb (fun u => { u with pool := some (s.clock, die) })
      else s) s

/-- The die that homes an operand word: for a scratchpad word its bank's, for one of another package that of the TCB (R282). -/
def State.wordDie (s : State) (loc tcb : Nat) : BitVec 1 :=
  if isScratch loc then dieOf (BitVec.ofNat 10 ((loc - scratchBase) / 2^18))
  else if s.isLocal loc then homeDie loc else homeDie tcb

/-- The home of an operand word reports a `stf` that set it full (R280, R282). -/
def State.reportFull (s : State) (loc : Nat) : State :=
  (s.tasks.filter (fun t => t.opws.contains loc)).foldl (fun s t => s.readyTasks [t.tcb] (s.wordDie loc t.tcb)) s

end Sys2Proof.Machine
end

