-- ==== Sys2Proof/Machine/Schedule.lean ====
section
/-!
DEFINITION. Fetching what the selected hart runs next (R58, R76, R200, R298), and which harts can run.
-/

namespace Sys2Proof.Machine

/-- The long instructions, which may begin with a progress index other than 0 (R13, R298). -/
def isLong : Instr → Bool
  | .vfetch .. | .turn .. | .turnAll .. | .kvtrunc .. | .ctxsave .. | .ctxload .. | .cnsave .. => true
  | _ => false

/-- The scalar word at the PC, read through the inbound path (R58, R76): the instruction, an unassigned word as ILLEGAL, or the
trap of the fetch (R100). -/
def State.fetchScalar (s : State) : Except Trap Instr :=
  let pc := s.h.pc
  if pc.toNat % 4 ≠ 0 then .error (trapOf causeMisalign pc)
  else match s.translate s.h pc .fetch with
    | .error f => .error (xtrap pc f)
    | .ok x =>
      match (s.settle s.h.id x.loc 4).loadBytes s.h.unbuffered x.loc 4 with
      | .error c => .error (readTrap c pc x)
      | .ok w =>
        match decodeScalar (BitVec.ofNat 32 w) with
        | .ok i => .ok i
        | .error _ => .ok (.illegal (BitVec.ofNat 32 w))

/-- The hart has fetched the word at the PC: own writes to it have arrived, a copy may be kept, and the access is watched. -/
def State.fetched (s : State) : State :=
  match s.translate s.h s.h.pc .fetch with
  | .error _ => s
  | .ok x => ((s.settle s.h.id x.loc 4).fill s.h.reader x.loc).accessed 0 s.h.pc.toNat 4

/-- The word of a block to run next; ILLEGAL_ELEMENT for one that no `vfetch` could have let pass. -/
def Block.next (b : Block) : Except Trap Instr :=
  match b.words[b.word]? with
  | none => .error (trapOf causeIllegalElement (wd (8 * b.word)))
  | some w =>
    match decodeElement w with
    | .ok i => .ok i
    | .error _ => .error (trapOf causeIllegalElement (wd (8 * b.word)))

/-- The selected hart can take a turn. -/
def Hart.canRun (h : Hart) : Bool :=
  h.st == .running && (match h.wait with
    | .none | .retry | .gang _ | .remote _ | .saving .. => true
    | _ => false)

/-- A hart can take a turn, and so can its gang: every core has switched back to it (R305), and no log record of its waits for room
(R351). -/
def State.mayAct (s : State) (h : Hart) : Bool := h.canRun && s.gangBack h && s.unlogged.all (fun i => i.hart != h.id)

/-- It stands stalled and would only try again. -/
def Hart.trying (h : Hart) : Bool := h.wait ≠ .none

/-- A stalled instruction is tried again. -/
def Hart.tryAgain (h : Hart) : Hart :=
  match h.wait with
  | .retry | .gang _ | .remote _ | .saving .. => { h with wait := .none }
  | _ => h

/-- A start record, a task or a `ctxload` left a READY hart on an idle core: the core switches to it (R12, R301). -/
def State.switchIn (s : State) : State := s.switchBack s.h.id

/-- The word of `stop` (R170). -/
def stopWord : BitVec 64 := 0xFFC0000000000000

/-- A block of no word yet. -/
def Block.one : Block :=
  { pc := 0, addr := 0, words := [], word := 0, rep := 0, reps := 1, snapS := Vector.replicate 32 0, snapC1 := false, snapVt := 8,
    spacing := 0, writers := [] }

/-- Every hart, rising by HARTID. -/
def State.hartsById (s : State) : List Hart := (if s.h.st = .free then s.others else sput s.others s.h.id.toNat s.h).map Prod.snd

/-- Harts that can take a turn, or switch in. -/
def State.ready (s : State) : List Hart :=
  s.hartsById.filter (fun h => s.mayAct h || (s.mayRun h && s.coreIdle h.id))

end Sys2Proof.Machine
end

