-- ==== Sys2Proof/Machine/Operands.lean ====
section
/-!
DEFINITION. Operands of element instructions: registers and masks over a gang (R17 to R19, R121, R122), the second operand B (R68), element
types and rounding (R41, R47, R67), stale reads (R207, R208), probing and loading of elements (R143 to R147), block tables
(R159, R160), stream slices (R179, R181), and the frame in which one word of a block runs.
-/

namespace Sys2Proof.Machine

/-! ### Registers over the gang (R17, R19) -/

/-- The harts that hold the gang's registers, in order of their index. -/
def State.gangHarts (s : State) : List Hart :=
  match s.h.gang with
  | none => [s.h]
  | some g => g.ids.filterMap s.hart?

/-- GANGW.WIDTH. -/
def Hart.width (h : Hart) : Nat :=
  match h.gang with
  | some g => g.width
  | none => 1

/-- VLMAX at an element width (Table state.2). -/
def Hart.vlmax (h : Hart) (w : Nat) : Nat := 16384 / w * h.width

/-- A vector register over the gang: member m holds bits 16,384 m on. -/
def State.readVN (s : State) (r : BitVec 5) : Nat := pack 16384 (s.gangHarts.map (fun h => (h.r.readV r).toNat))

/-- A mask register over the gang: member m holds bits 2,048 m on. -/
def State.readKN (s : State) (r : BitVec 3) : Nat := pack 2048 (s.gangHarts.map (fun h => (h.r.readK r).toNat))

/-- Write a vector register over the gang. -/
def State.writeVN (s : State) (r : BitVec 5) (x : Nat) : State :=
  match s.h.gang with
  | none => s.modR (fun q => q.writeV r (BitVec.ofNat 16384 x))
  | some g => (g.ids.zipIdx).foldl (fun s (p : BitVec 11 × Nat) =>
      s.modHart p.1 (fun h => { h with r := h.r.writeV r (BitVec.ofNat 16384 (elt 16384 x p.2)) })) s

/-- Write a mask register over the gang; k0 discards it. -/
def State.writeKN (s : State) (r : BitVec 3) (x : Nat) : State :=
  match s.h.gang with
  | none => s.modR (fun q => q.writeK r (BitVec.ofNat 2048 x))
  | some g => (g.ids.zipIdx).foldl (fun s (p : BitVec 11 × Nat) =>
      s.modHart p.1 (fun h => { h with r := h.r.writeK r (BitVec.ofNat 2048 (elt 2048 x p.2)) })) s

/-- What a register or mask holds over the gang. -/
def State.readRef (s : State) : ERef → Nat
  | .v r => s.readVN r
  | .k r => s.readKN r

/-- The hart that holds element `i` at width `w` (R147). -/
def State.lane (s : State) (w i : Nat) : Hart := (s.gangHarts[i / (16384 / w)]?).getD s.h

/-! ### What an element word reads, writes and waits for (Table encoding.7, Tables strips.3, mem.1) -/

/-- The queue a word enters. -/
inductive Queue where
  | none | lq | aq | sq
  deriving DecidableEq, Repr

/-- The elements a word reads of its sources (R181). -/
inductive Reach where
  /-- its active elements -/
  | active
  /-- every element below VL -/
  | below
  deriving DecidableEq, Repr

/-- What the sequencer knows of a word. -/
structure WordInfo where
  queue : Queue
  /-- vector registers read, each at its width -/
  reads : List (BitVec 5 × Nat)
  /-- mask registers read as operands; the mask field is read besides -/
  kreads : List (BitVec 3)
  /-- vector registers written, each at its width -/
  writes : List (BitVec 5 × Nat)
  kwrites : List (BitVec 3)
  /-- a fixed AQ latency (Table strips.3) -/
  latency : Option Nat
  reach : Reach
  /-- a reduction's seed register, read at element 0 only -/
  seed : Option (BitVec 5)
  deriving DecidableEq, Repr

/-- The mask register that a five-bit field names. -/
def kOf (r : BitVec 5) : BitVec 3 := r.extractLsb' 0 3
/-- An AQ word at one width. -/
def aqInfo (reads : List (BitVec 5 × Nat)) (writes : List (BitVec 5 × Nat)) (lat : Option Nat) : WordInfo :=
  { queue := .aq, reads := reads, kreads := [], writes := writes, kwrites := [], latency := lat, reach := .active, seed := none }

/-- A mask form. -/
def kInfo (kreads kwrites : List (BitVec 3)) (lat : Option Nat) : WordInfo :=
  { aqInfo [] [] lat with kreads := kreads, kwrites := kwrites }

end Sys2Proof.Machine

namespace Sys2Proof

/-- The width of a class W, I or F type field (R67). -/
def EWord.wW (e : EWord) : Nat := 8 * 2 ^ (e.ty.toNat % 4)
/-- The type of a class I field. -/
def EWord.tI (e : EWord) : Machine.EType := Machine.etypeOf e.ty.toNat
/-- The format of a class F field. -/
def EWord.fF (e : EWord) : Machine.Fmt :=
  match Machine.etypeOf (8 + e.ty.toNat) with
  | .flt f => f
  | .int _ _ => Machine.Fmt.f32
/-- Class IF: bit [16] selects F. -/
def EWord.isF (e : EWord) : Bool := e.func.getLsbD 0
/-- The width of a class IF word. -/
def EWord.wIF (e : EWord) : Nat := if e.isF then e.fF.width else e.tI.width
/-- The vector register of operand B, when OPSEL is 00. -/
def EWord.bRegs (e : EWord) (w : Nat) : List (BitVec 5 × Nat) := if e.opsel = 0 then [(e.vb, w)] else []

/-- Two sources and a destination of one width. -/
def EWord.info2 (e : EWord) (w lat : Nat) : Machine.WordInfo := Machine.aqInfo ([(e.va, w)] ++ e.bRegs w) [(e.vd, w)] (some lat)
/-- One source and a destination of one width. -/
def EWord.info1 (e : EWord) (w : Nat) (lat : Option Nat) : Machine.WordInfo := Machine.aqInfo [(e.va, w)] [(e.vd, w)] lat
/-- A reduction: the seed is read at element 0. -/
def EWord.infoRed (e : EWord) : Machine.WordInfo :=
  { Machine.aqInfo [(e.va, e.wIF)] [(e.vd, e.wIF)] (some 4) with seed := if e.opsel = 0 then some e.vb else none }

end Sys2Proof

namespace Sys2Proof.Machine

/-- What the sequencer knows of an element instruction; none for a scalar instruction or an event. -/
def wordInfo : Instr → Option WordInfo
  | .vadd e | .vsub e | .vand e | .vor e | .vxor e | .vandn e | .vsll e | .vsrl e | .vsra e | .vmin e | .vmax e
  | .vminn e | .vmaxn e => some (e.info2 e.tI.width 1)
  | .vadc e | .vsbc e => some { e.info2 e.tI.width 1 with kwrites := [kOf e.vc], reach := .below }
  | .vmul e | .vmulh e => some (e.info2 e.tI.width 3)
  | .vmac e => some { e.info2 e.tI.width 3 with
      reads := [(e.va, e.tI.width)] ++ e.bRegs e.tI.width ++ [(e.vc, e.tI.width)] }
  | .vabs e | .vneg e => some (e.info1 e.tI.width (some 1))
  | .vcmp e => some { e.info2 e.wIF 2 with writes := [], kwrites := [kOf e.vd] }
  | .vclass e => some (e.info1 e.fF.width (some 2))
  | .vfadd e | .vfsub e | .vfmul e | .vfmin e | .vfmax e => some (e.info2 e.fF.width 3)
  | .vfma e => some { e.info2 e.fF.width 3 with
      reads := [(e.va, e.fF.width)] ++ e.bRegs e.fF.width ++ [(e.vc, e.fF.width)] }
  | .vfdiv e => some { e.info2 e.fF.width 0 with latency := none }
  | .vfsqrt e => some (e.info1 e.fF.width none)
  | .vfexp2 e => some (e.info1 32 (some 6))
  | .vfabs e | .vfneg e => some (e.info1 e.fF.width (some 1))
  | .vcvt e => some (aqInfo [(e.va, (etypeOf (nbits e.imm.toNat 4 4)).width)] [(e.vd, (etypeOf (nbits e.imm.toNat 0 4)).width)]
      (some 2))
  | .kand e | .kor e | .kxor e | .kandn e => some (kInfo [kOf e.va, kOf e.vb] [kOf e.vd] (some 1))
  | .knot e | .kmov e | .kshup e | .kshdn e => some (kInfo [kOf e.va] [kOf e.vd] (some 1))
  | .kset e => some (kInfo [] [kOf e.vd] (some 1))
  | .kpopc e | .kfirst e | .klast e => some (kInfo [kOf e.va] [] none)
  | .vredsum e | .vredmax e | .vredmin e => some e.infoRed
  | .vmerge e => some { e.info2 e.wW 1 with reach := .below }
  | .vosm e | .vfnorm e => some (e.info1 32 none)
  | .vld e | .vlds e => some { aqInfo [] [(e.vd, e.wW)] none with queue := .lq }
  | .vldx e => some { aqInfo [(e.vb, e.wW)] [(e.vd, e.wW)] none with queue := .lq }
  | .vst e | .vsts e => some { aqInfo [(e.vd, e.wW)] [] none with queue := .sq }
  | .vstx e => some { aqInfo [(e.vd, e.wW), (e.vb, e.wW)] [] none with queue := .sq }
  | .vamo e => some { aqInfo [(e.va, e.wW), (e.vb, e.wW)] [(e.vd, e.wW)] none with queue := .sq }
  | .vwait e => some { aqInfo [(e.vd, 64), (e.va, e.wW)] [] none with queue := .lq, kwrites := [kOf e.vc] }
  | .vxlate e => some { aqInfo [(e.va, 64)] [(e.vd, 64)] none with queue := .lq, kwrites := [kOf e.vc] }
  | .kvput e => some { aqInfo [(e.va, e.wW), (e.vb, e.wW)] [] none with queue := .sq }
  | .kvflush _ => some { aqInfo [] [] none with queue := .sq }
  | .vbcast e => some { aqInfo (e.bRegs e.wW) [(e.vd, e.wW)] (some 1) with reach := .below }
  | .viota e => some (aqInfo [] [(e.vd, e.wW)] (some 1))
  | .vslideup e | .vslidedn e => some { e.info2 e.wW 4 with reach := .below }
  | .vperm e => some { aqInfo [(e.va, e.wW), (e.vb, e.wW)] [(e.vd, e.wW)] (some 4) with reach := .below }
  | .vcompress e | .vexpand e => some { e.info1 e.wW (some 4) with reach := .below }
  | .vextract e => some { aqInfo ([(e.va, e.wW)] ++ e.bRegs e.wW) [] none with reach := .below }
  | .vnop _ | .elementHint _ _ => some (aqInfo [] [] none)
  | .stop _ => some { aqInfo [] [] none with queue := .none }
  | _ => none

/-- The fields of an element instruction. -/
def wordFields : Instr → Option EWord
  | .vadd e | .vsub e | .vadc e | .vsbc e | .vmul e | .vmulh e | .vmac e | .vand e | .vor e | .vxor e | .vandn e | .vsll e
  | .vsrl e | .vsra e | .vmin e | .vmax e | .vminn e | .vmaxn e | .vabs e | .vneg e | .vcmp e | .vclass e | .vfadd e
  | .vfsub e | .vfmul e | .vfma e | .vfdiv e | .vfsqrt e | .vfmin e | .vfmax e | .vfexp2 e | .vfabs e | .vfneg e | .vcvt e
  | .kand e | .kor e | .kxor e | .kandn e | .knot e | .kmov e | .kshup e | .kshdn e | .kset e | .kpopc e | .kfirst e
  | .klast e | .vredsum e | .vredmax e | .vredmin e | .vmerge e | .vosm e | .vfnorm e | .vld e | .vlds e | .vldx e | .vst e
  | .vsts e | .vstx e | .vamo e | .vwait e | .vxlate e | .kvput e | .kvflush e | .vbcast e | .viota e | .vslideup e
  | .vslidedn e | .vperm e | .vcompress e | .vexpand e | .vextract e | .vnop e | .stop e => some e
  | _ => none

/-- The mask register a word's mask field names; k0 where it has none. -/
def wordMask (i : Instr) : BitVec 3 :=
  match wordFields i with
  | some e => e.mask
  | none => 0

/-- The spacing of an AQ word (R207): a hint's is 0, a `vnop`'s its stall count, any other's at least 1. -/
def wordSpacing (i : Instr) : Nat :=
  match i with
  | .elementHint _ _ => 0
  | .vnop e => e.stall.toNat
  | _ => match wordFields i with
    | some e => Nat.max 1 e.stall.toNat
    | none => 0

/-- The registers and masks a word reads. -/
def WordInfo.sources (x : WordInfo) (mask : BitVec 3) : List ERef :=
  x.reads.map (fun r => .v r.1) ++ (match x.seed with
    | some r => [.v r]
    | none => []) ++ x.kreads.map .k ++ [.k mask]

/-- The registers and masks a word writes. -/
def WordInfo.targets (x : WordInfo) : List ERef := x.writes.map (fun r => .v r.1) ++ x.kwrites.map .k

/-! ### The snapshot (R47, R123, R176) -/

/-- A scalar as the block's `vfetch` saw it; outside a block, as it is now. -/
def State.snapS (s : State) (r : BitVec 5) : Word :=
  match s.h.blk with
  | some b => if r = 0 then 0 else b.snapS.get r.toFin
  | none => s.h.r.readS r

/-- `c1` as the block's `vfetch` saw it. -/
def State.snapC1 (s : State) : Bool :=
  match s.h.blk with
  | some b => b.snapC1
  | none => s.h.r.readC 1

/-- VTYPE as the block's `vfetch` saw it. -/
def State.snapVt (s : State) : BitVec 7 :=
  match s.h.blk with
  | some b => b.snapVt
  | none => s.h.r.vtype

/-- VTYPE.RM of a VTYPE value (Table state.4). -/
def vtRm (vt : BitVec 7) : Rm :=
  match nbits vt.toNat 4 3 with
  | 0 => .rne
  | 1 => .rtz
  | 2 => .rdn
  | _ => .rup

/-- The effective rounding mode (Table numbers.5). -/
def State.rm (s : State) (e : EWord) : Rm :=
  match e.rnd.toNat with
  | 1 => .rne
  | 2 => .rtz
  | 3 => .rdn
  | 4 => .rup
  | _ => vtRm s.snapVt

/-! ### Reading registers in a block (R205, R207, R208) -/

/-- What a word reads from a register or mask: for an AQ word whose stall count is not sufficient for the last writer in the
block, what it held before that write (R208). STRIPCTL.CHK counts as it stands when the word runs: a block fetched with CHK clear that
resumes after CHK was set reads the new value (DESIGN CHOICE, log entry 85). -/
def State.readIn (s : State) (i : Instr) (ref : ERef) : Nat :=
  let cur := s.readRef ref
  match s.h.blk with
  | none => cur
  | some b =>
    if s.h.stripctl.getLsbD 0 || (wordInfo i).map WordInfo.queue ≠ some .aq then cur
    else match b.writers.find? (fun w => w.ref == ref) with
      | some w => if b.spacing + wordSpacing i - w.at_ < w.latency then w.old else cur
      | none => cur

/-- A vector source: the slice read for it where the register is bound, else the register (R181, R208). -/
def State.src (s : State) (i : Instr) (r : BitVec 5) : Nat :=
  match s.h.slices.find? (fun x => x.1 == r) with
  | some x => x.2
  | none => s.readIn i (.v r)

/-- A mask source; k0 reads as all ones (R19). -/
def State.srcK (s : State) (i : Instr) (r : BitVec 3) : Nat :=
  if r = 0 then s.readKN 0 else s.readIn i (.k r)

/-- Mask bit i of a word after its invert bit. -/
def State.maskBit (s : State) (i : Instr) (e : EWord) (k : Nat) : Bool := nbit (s.srcK i e.mask) k ^^ (e.inv == 1)

/-- VL. -/
def State.vl (s : State) : Nat := s.h.r.vl

/-- Active(i) for every i below VL (R19). -/
def State.actives (s : State) (i : Instr) (e : EWord) : List Bool := (List.range s.vl).map (s.maskBit i e)

/-- The indices of the active elements, rising. -/
def State.activeIdx (s : State) (i : Instr) (e : EWord) : List Nat := (List.range s.vl).filter (s.maskBit i e)

/-! ### Operand B (R68, R139) -/

/-- Element k of B in class I. -/
def State.bI (s : State) (i : Instr) (e : EWord) (k : Nat) : Nat :=
  match e.tI with
  | .int w signed =>
    if e.opsel = 0 then elt w (s.src i e.vb) k
    else if e.opsel = 1 then (if signed then wrapN w (sInt 16 e.imm.toNat) else e.imm.toNat % 2^w)
    else (s.snapS e.sreg).toNat % 2^w
  | .flt _ => 0

/-- Element k of B in class F. -/
def State.bF (s : State) (i : Instr) (e : EWord) (k : Nat) : Nat :=
  let f := e.fF
  if e.opsel = 0 then elt f.width (s.src i e.vb) k
  else if e.opsel = 1 then bf16Imm f e.imm.toNat
  else (s.snapS e.sreg).toNat % 2^f.width

/-- Element k of B in class W: an immediate is sign-extended and wrapped. -/
def State.bW (s : State) (i : Instr) (e : EWord) (k : Nat) : Nat :=
  let w := e.wW
  if e.opsel = 0 then elt w (s.src i e.vb) k
  else if e.opsel = 1 then wrapN w (sInt 16 e.imm.toNat)
  else (s.snapS e.sreg).toNat % 2^w

/-! ### Probing and loading elements (R143 to R147) -/

/-- What one element's access gives: its value, and what it touched. -/
structure Touch where
  hart : BitVec 11
  va : Word
  x : Xlat
  n : Nat
  /-- when it was performed -/
  at_ : Nat
  deriving DecidableEq, Repr

/-- One load by a hart, probed: MISALIGN, PAGE, PROT or UNTURNED, or the value. With an index `since` it may have been performed
early, but not before that index, at which the latest of the loads that feed it was performed (R231). -/
def State.loadOneAs (s : State) (since : Option Nat) (h : Hart) (va : Word) (n : Nat) : Except Trap (Nat × Touch) :=
  if va.toNat % n ≠ 0 then .error (trapOf causeMisalign va)
  else match s.translate h va .read with
    | .error f => .error (xtrap va f)
    | .ok x =>
      let s := s.settle h.id x.loc n
      let early := since.bind (s.earlyOf h x.loc n)
      match (early.map Early.result).getD (s.loadBytes h x.loc n) with
      | .error c => .error (readTrap c va x)
      | .ok v => .ok (v, { hart := h.id, va := va, x := x, n := n, at_ := (early.map Early.at_).getD s.clock })

/-- A load performed at its place. -/
def State.loadOne (s : State) (h : Hart) (va : Word) (n : Nat) : Except Trap (Nat × Touch) := s.loadOneAs none h va n

/-- When the latest of the loads that feed some registers and masks was performed (R231). -/
def Hart.fedAt (h : Hart) (rs : List ERef) : Nat :=
  ((h.fed.filter (fun x => rs.contains x.1)).map Prod.snd).foldl Nat.max 0

/-- A load or store of a hart, or of its gang, has its place in program order: no later load of these bytes stays performed early, and
what it filled, if it was performed early itself, is met from now on (R231). -/
def State.inPlace (s : State) (t : Touch) : State := (s.showCopies t.hart t.at_).dropEarly t.x.loc t.n

/-- A load has been performed: own earlier writes have arrived, copies of the data and of its translation are kept, the access is
watched. -/
def State.touch (s : State) (t : Touch) : State :=
  let s := (s.settle t.hart t.x.loc t.n).inPlace t
  let s := match s.hart? t.hart with
    | some h => (s.fill h.reader t.x.loc).keepXlat h t.va.toNat
    | none => s
  (s.modH (fun h => { h with perf := Nat.max h.perf t.at_ })).watch 0 t.va.toNat t.n

/-- Loads have been performed. -/
def State.touchAll (s : State) (ts : List Touch) : State := ts.foldl State.touch s

/-- The rank of a cause among the elements of one instruction (R145); an access without a path is to trap PROT (R371). -/
def failRank (c : BitVec 8) : Nat :=
  if c = causeMisalign then 1 else if c = causePage then 2 else if c = causeProt ∨ c = waitNoPath then 3
  else if c = causeUnturned then 4 else if c = causeKvunmapped then 5 else 6

/-- The first of the failures with the highest rank. -/
def bestFail : List Trap → Option Trap
  | [] => none
  | t :: ts =>
    match bestFail ts with
    | none => some t
    | some u => if failRank t.code ≤ failRank u.code then some t else some u

/-- Each missing page or block once, at its first appearance. -/
def distinctMissing : List Word → List Missing → List Missing
  | _, [] => []
  | seen, m :: ms => if seen.contains m.entry then distinctMissing seen ms else m :: distinctMissing (m.entry :: seen) ms

/-- One trap for the whole instruction (R145): the highest-ranked cause, at the lowest element, with every missing page and
block. -/
def oneTrap (ts : List Trap) : Option Trap :=
  (bestFail ts).map (fun t => { t with missing := distinctMissing [] (ts.flatMap Trap.missing) })

/-- The failures among results. -/
def fails {α : Type} : List (Except Trap α) → List Trap
  | [] => []
  | .error t :: rs => t :: fails rs
  | .ok _ :: rs => fails rs

/-- The results where none failed. -/
def goods {α : Type} : List (Except Trap α) → List α
  | [] => []
  | .error _ :: rs => goods rs
  | .ok a :: rs => a :: goods rs

/-- All results, or the one trap. -/
def allOrTrap {α : Type} (rs : List (Except Trap α)) : Except Trap (List α) :=
  match oneTrap (fails rs) with
  | some t => .error t
  | none => .ok (goods rs)

/-! ### Block tables (R159, R160) -/

/-- The address of a position's block-table entry. -/
def entryAddr (table : Word) (shift : Nat) (p : Word) : Word := table + wd (4 * (p.toNat / 2^shift))

/-- What an entry of a block table that has been read says of a position: block number and row within it, or KVMISS or KVUNMAPPED. -/
def entryOf (table : Word) (shift : Nat) (p : Word) (e : Nat) (t : Touch) : Except Trap (Nat × Nat) :=
  let st := nbits e 28 4
  if st = 0 then .ok (nbits e 0 28, p.toNat % 2^shift)
  else if st = 8 ∨ st = 9 then
    .error { code := causeKvmiss, val := p, missing := [{ entry := entryAddr table shift p ||| 1, loc := t.x.loc, page := false }] }
  else .error (trapOf causeKvunmapped p)

/-- A position through a block table: block number, row within it and what was touched; KVMISS, KVUNMAPPED, or the failure of
the read of the entry. -/
def State.blockOf (s : State) (since : Option Nat) (h : Hart) (table : Word) (shift : Nat) (p : Word) :
    Except Trap (Nat × Nat × Touch) :=
  match s.loadOneAs since h (entryAddr table shift p) 4 with
  | .error t => .error t
  | .ok (e, t) =>
    match entryOf table shift p e t with
    | .error t => .error t
    | .ok (pbn, row) => .ok (pbn, row, t)

/-! ### Streams (R179, R181) -/

/-- A field of a stream record (Table ctrl.4). -/
def Binding.field (b : Binding) (off n : Nat) : Nat := nbits b.record.toNat (8 * off) (8 * n)
/-- WIDTH of a stream record, in bits. -/
def Binding.width (b : Binding) : Nat := 8 * 2 ^ nbits b.record.toNat 8 2
/-- The slice is at or beyond a non-zero COUNT. -/
def Binding.ended (b : Binding) : Bool := b.field 4 4 != 0 && decide (b.field 4 4 ≤ b.pos.toNat)

/-- The address of element i of the current slice, and what finding it touched. -/
def State.sliceAddr (s : State) (since : Option Nat) (h : Hart) (b : Binding) (i : Nat) : Except Trap (Word × List Touch) :=
  let step := b.pos * wd (b.field 56 8)
  match b.field 0 1 with
  | 1 =>
    let posn : Except Trap (Word × List Touch) :=
      if b.field 48 8 = 0 then .ok (wd (b.field 40 8) + wd i, [])
      else match s.loadOneAs since h (wd (b.field 48 8) + wd (8 * i)) 8 with
        | .error t => .error t
        | .ok (p, t) => .ok (wd p, [t])
    match posn with
    | .error t => .error t
    | .ok (p, ts) =>
      match s.blockOf since h (wd (b.field 8 8)) (b.field 2 1) p with
      | .error t => .error t
      | .ok (pbn, row, t) =>
        let a := if nbit b.record.toNat 10 then
            wd (b.field 24 8) + wd ((pbn * 2 ^ b.field 2 1 + row) * (b.width / 8))
          else wd (b.field 16 8) + wd (pbn * b.field 32 8) + wd (row * b.field 24 8)
        .ok (a + step, ts ++ [t])
  | 2 => .ok (wd (b.field 8 8) + wd i * wd (b.field 16 8) + step, [])
  | _ => .ok (wd (b.field 8 8) + step, [])

/-- The next slice of a binding over these elements: the register value it delivers, and what it touched. Its loads may have been
performed early, as those of other words (R231). -/
def State.slice (s : State) (since : Option Nat) (b : Binding) (els : List Nat) : Except Trap (Nat × List Touch) :=
  let w := b.width
  if b.ended then .ok (0, [])
  else
    let rs := els.map (fun i =>
      let h := s.lane w i
      match s.sliceAddr since h b i with
      | .error t => .error t
      | .ok (a, ts) =>
        match s.loadOneAs since h a (w / 8) with
        | .error t => .error t
        | .ok (v, t) => .ok ((i, v), ts ++ [t]))
    match allOrTrap rs with
    | .error t => .error t
    | .ok vs => .ok (vs.foldl (fun (x : Nat) (v : (Nat × Nat) × List Touch) => nput x (w * v.1.1) w v.1.2) 0, vs.flatMap Prod.snd)

/-- The bound registers a word reads, each once, with the elements it reads of it (R181). -/
def State.streamReads (s : State) (i : Instr) : List (BitVec 5 × List Nat) :=
  match wordInfo i, wordFields i with
  | some x, some e =>
    let act := (s.actives i e).zipIdx.filterMap (fun (p : Bool × Nat) => if p.1 then some p.2 else none)
    let els := match x.reach with
      | .active => act
      | .below => List.range s.vl
    let main : List (BitVec 5 × List Nat) := (distinct [] (x.reads.map Prod.fst)).map (fun r => (r, els))
    let all : List (BitVec 5 × List Nat) := match x.seed with
      | none => main
      | some q => if (main.map Prod.fst).contains q then main.map (fun p => if p.1 = q then (q, ninsert 0 p.2) else p)
          else main ++ [(q, [0])]
    all.filter (fun p => (s.h.r.bind p.1).isSome)
  | _, _ => []

/-- When the latest of the loads that select the elements of a word was performed: those that feed its mask (R231). -/
def State.selectedAt (s : State) (i : Instr) : Nat := s.h.fedAt (if wordMask i = 0 then [] else [.k (wordMask i)])

/-- Read the next slice for one register, unless STREAM_READ has read it already. -/
def State.readStream (s : State) (since : Option Nat) (r : BitVec 5) (els : List Nat) : Except Trap State :=
  if s.h.slices.any (fun x => x.1 == r) then .ok s
  else match s.h.r.bind r with
    | none => .ok s
    | some b =>
      match s.slice since b els with
      | .error t => .error t
      | .ok (x, ts) => .ok ((s.touchAll ts).modH (fun h => { h with slices := h.slices ++ [(r, x)] }))

/-- Read every slice of these registers. Where the reads of two of them fail, the trap is that of the first in the order of the operands
(DESIGN CHOICE, log entry 86: R181 makes each an entry of its own, and R145 ranks the failures of one). -/
def State.feedAll (s : State) (since : Option Nat) : List (BitVec 5 × List Nat) → Except Trap State
  | [] => .ok s
  | (r, els) :: rest =>
    match s.readStream since r els with
    | .error t => .error t
    | .ok s => s.feedAll since rest

/-- When the latest of the loads that feed a word was performed: those of its slices, its sources and its mask (R231). -/
def State.fedSince (s : State) (i : Instr) : Nat :=
  match wordInfo i with
  | some x => Nat.max s.h.perf (s.h.fedAt (x.sources (wordMask i)))
  | none => s.h.perf

/-- Read every slice a word needs. -/
def State.feed (s : State) (i : Instr) : Except Trap State := s.feedAll (some (s.selectedAt i)) (s.streamReads i)

/-! ### The frame of one word -/

/-- The slices a word has read are consumed: each binding's position advances (R181). -/
def Hart.advance (h : Hart) : Hart :=
  { h with
    slices := []
    r := h.slices.foldl (fun r x => match r.bind x.1 with
      | some b => r.setBind x.1 (some { b with pos := b.pos + 1, slice := b.pos })
      | none => r) h.r }

/-- A word is done: its targets have a new last writer, and the block goes on to the next word (R207). -/
def Block.after (b : Block) (i : Instr) (x : WordInfo) (olds : List (ERef × Nat)) : Block :=
  let sp := b.spacing + (if x.queue = .aq then wordSpacing i else 0)
  let kept := b.writers.filter (fun w => !(x.targets.contains w.ref))
  { b with
    word := b.word + 1
    spacing := sp
    writers := match x.latency with
      | some l => kept ++ olds.map (fun o => { ref := o.1, at_ := sp, latency := l, old := o.2 })
      | none => kept }

/-- What the targets of a word hold before it writes. -/
def State.oldValues (s : State) (x : WordInfo) : List (ERef × Nat) := (distinct [] x.targets).map (fun t => (t, s.readRef t))

/-- The registers and masks that a word writes are fed by its loads, by what feeds its sources, and where a mask may leave elements
alone by what fed them before (R231). -/
def Hart.refeed (h : Hart) (i : Instr) : Hart :=
  match wordInfo i with
  | none => h
  | some x =>
    let at_ := fun (t : ERef) =>
      Nat.max h.perf (h.fedAt (x.sources (wordMask i) ++ (if wordMask i = 0 then [] else [t])))
    { h with perf := 0, fed := x.targets.map (fun t => (t, at_ t)) ++ h.fed.filter (fun f => !(x.targets.contains f.1)) }

/-- A word has executed. -/
def State.wordDone (s : State) (i : Instr) (olds : List (ERef × Nat)) : State :=
  s.modH (fun h0 =>
    let h := h0.advance.refeed i
    { h with blk := h.blk.map (fun b => match wordInfo i with
        | some x => b.after i x olds
        | none => b) })

/-- One word that does not split: its slices are read, it computes, and the block goes on; a failure aborts the strip
(R119, R145, R181). -/
def State.element (s : State) (i : Instr) (k : State → Except Trap State) : State :=
  let olds := match wordInfo i with
    | some x => s.oldValues x
    | none => []
  match s.feed i with
  | .error t => s.abortTrap t
  | .ok s1 =>
    match k s1 with
    | .error t => s.abortTrap t
    | .ok s2 => s2.wordDone i olds

/-! ### Writing results (R18) -/

/-- Write elements of a vector register: the given ones replace, a `none` keeps what stands. -/
def State.putElts (s : State) (r : BitVec 5) (w : Nat) (es : List (Option Nat)) : State :=
  let old := s.readVN r
  s.writeVN r (overlay w old (es.zipIdx.map (fun p => p.1.getD (elt w old p.2))))

/-- Write bits of a mask register: the given ones replace, a `none` keeps what stands. -/
def State.putBits (s : State) (r : BitVec 3) (bs : List (Option Bool)) : State :=
  let old := s.readKN r
  s.writeKN r (overlayBits old (bs.zipIdx.map (fun p => p.1.getD (nbit old p.2))))

/-- A result for each active element below VL. -/
def State.onActive {α : Type} (s : State) (i : Instr) (e : EWord) (f : Nat → α) : List (Option α) :=
  (s.actives i e).zipIdx.map (fun p => if p.1 then some (f p.2) else none)

end Sys2Proof.Machine
end

