-- ==== Sys2Proof/Machine/Flags.lean ====
section
/-!
DEFINITION. Exception flags: what raises them in a strip (R28, R43, R44), what an engine delivers (R45), and results that carry
flags.
-/

namespace Sys2Proof.Machine

/-- Flags are sticky in FFLAGS[4:0], and count as raised in the open strip (R28). -/
def Hart.raise (h : Hart) (f : BitVec 5) : Hart :=
  { h with r := { h.r with fflags := h.r.fflags ||| f.setWidth 13 }, raised := h.raised ||| f }

/-- An engine delivers flags: they stay although the strip aborts (R45). -/
def Hart.deliverFlags (h : Hart) (f : BitVec 5) : Hart :=
  { h.raise f with delivered := h.delivered ||| f }

/-- The flags of several results together (R44). -/
def orFlags : List (BitVec 5) → BitVec 5
  | [] => 0
  | f :: fs => f ||| orFlags fs

/-- The flags of the results that exist. -/
def someFlags (rs : List (Option Rounded)) : BitVec 5 := orFlags (rs.filterMap (fun r => r.map Prod.snd))

/-- Write rounded results to the active elements of a register, and raise their flags. -/
def State.putRounded (s : State) (r : BitVec 5) (w : Nat) (rs : List (Option Rounded)) : State :=
  (s.putElts r w (rs.map (fun x => x.map Prod.fst))).modH (fun h => h.raise (someFlags rs))

end Sys2Proof.Machine
end

