-- ==== Sys2Proof/Machine/Blocks.lean ====
section
/-!
DEFINITION. Blocks: where a block stands after a word (R176, R200), words that split the strip inside a block (R200), and `stop`
(R170).
-/

namespace Sys2Proof.Machine

/-- The queues run a word of the oldest block that the scalar core has passed: that block stands for the one at the PC meanwhile, and the hart
at its place in program order (R204, R361). -/
def State.enterOldest (s : State) : State :=
  match s.h.queue with
  | [] => s
  | b :: rest => s.modH (fun h => { h with blk := some b, queue := rest, place := h.place - 2 * h.queue.length + 1 })

/-- The block goes back to the head of its hart's queue, and the one at the PC, which `old` held, comes back. A strip that has aborted
has dropped them all (R201). -/
def State.leaveOldest (s : State) (old : Hart) : State :=
  if old.queue = [] then s
  else s.modHart old.id (fun h => match h.blk with
    | some b => { h with queue := b :: h.queue, blk := old.blk, place := old.place }
    | none => h)

/-- The word at which a block stands is its `stop`. -/
def Block.atStop (b : Block) : Bool :=
  match b.words[b.word]? with
  | some w => fld w.toNat 54 10 == 0x3FF
  | none => true
where
  /-- a field of a number -/
  fld (x lo len : Nat) : Nat := x / 2^lo % 2^len

/-- The next repeat begins: nothing of the earlier one is trusted to a stall count (R205). -/
def Block.nextRepeat (b : Block) : Block := { b with rep := b.rep + 1, word := 0, spacing := 0, writers := [] }

/-- The `vfetch` is done: execution goes on after it. -/
def Hart.leaveBlock (h : Hart) : Hart := { h with blk := none, pc := h.pc + 4, eix := 0 }

/-- A position at the `stop` of the last repeat is PC + 4; at the `stop` of another it is the next repeat (R200). A repeat whose last
word has split ends with that split, and closes no second, empty strip (DESIGN CHOICE, log entry 87). -/
def State.pastStop (s : State) (count : Hart → Hart) : State :=
  match s.h.blk with
  | none => s
  | some b =>
    if !b.atStop then s
    else if b.rep + 1 < b.reps then s.modH (fun h => { h with blk := some b.nextRepeat })
    else s.modH (fun h => count h.leaveBlock)

/-- An irrevocable word has executed: the new strip opens behind it, with EIX naming the next word (R200). -/
def State.wordSplitDone (s : State) (i : Instr) (olds : List (ERef × Nat)) : State :=
  ((s.wordDone i olds).modH (fun h => { h with wait := .none })).pastStop
    (fun h => { h with instret := h.instret + 1 }) |>.openNext

/-- An irrevocable word: the strip splits, its slices are read, and it acts; a failure is taken after the split (R145, R200).
The action is handed what ends the word. -/
def State.elementSplit (s : State) (i : Instr) (k : State → (State → State) → Except Trap State) : State :=
  s.splitThen (fun s =>
    let olds := match wordInfo i with
      | some x => s.oldValues x
      | none => []
    match s.feed i with
    | .error t => s.deliver t false
    | .ok s1 =>
      match k s1 (fun s => s.wordSplitDone i olds) with
      | .error t => s.deliver t false
      | .ok s2 => s2)

/-- `stop` (R170, R176): a single run goes on behind the `vfetch`;
the end of a repeat of a repeated `vfetch` commits as a split, and the position is the next repeat, or PC + 4 after the last. -/
def execStop (_e : EWord) (s : State) : Res :=
  .next (match s.h.blk with
    | none => s
    | some b =>
      let s' := s.pastStop (fun h => { h with instPend := h.instPend + 1 })
      if b.reps ≤ 1 then s' else s'.closeThen true State.openNext)

/-- An LQ entry reads the next slice of a bound stream ahead of the word that reads it (R181). -/
def execStreamRead (r : BitVec 5) (s : State) : Res :=
  let old := s.h
  let s := s.enterOldest
  .next ((match s.h.blk with
    | none => s
    | some b =>
      match b.next with
      | .error _ => s
      | .ok i =>
        match (s.streamReads i).find? (fun (x : BitVec 5 × List Nat) => x.1 == r) with
        | none => s
        | some x =>
          match s.readStream (some (s.selectedAt i)) r x.2 with
          | .error t => s.abortTrap t
          | .ok s' => s').leaveOldest old)

end Sys2Proof.Machine
end

