-- ==== Sys2Proof/Machine/ElementMem.lean ====
section
/-!
DEFINITION. Element instructions that reach memory: loads and stores (R148 to R150), `vamo` (R151 to R153), `vwait` (R154 to R156) with
its release and timeout, `vxlate` (R157 to R160), `kvput` and `kvflush` (R161 to R166).
-/

namespace Sys2Proof.Machine

/-! ### Addresses (Table mem.2) -/

/-- Contiguous elements. -/
def State.addrC (s : State) (e : EWord) (k : Nat) : Word := s.snapS e.sreg + wd (k * (e.wW / 8))
/-- Strided elements. -/
def State.addrS (s : State) (e : EWord) (k : Nat) : Word := s.snapS e.sreg + wd k * s.snapS e.sreg2
/-- Indexed elements: the index is signed and counts elements. -/
def State.addrX (s : State) (i : Instr) (e : EWord) (k : Nat) : Word :=
  s.snapS e.sreg + wdI (sInt e.wW (elt e.wW (s.src i e.vb) k) * ((e.wW / 8 : Nat) : Int))

/-! ### Loads (R148) -/

/-- Each active element is probed; when none fails, each is delivered. It may have been performed early, behind the loads that feed the
word (R231). -/
def State.loadWord (s : State) (i : Instr) (e : EWord) (addr : State → Nat → Word) : State :=
  s.element i (fun s =>
    let w := e.wW
    let rs : List (Except Trap (Option (Nat × Touch))) := (s.actives i e).zipIdx.map (fun (p : Bool × Nat) =>
      if p.1 then (match s.loadOneAs (some (s.fedSince i)) (s.lane w p.2) (addr s p.2) (w / 8) with
        | .ok v => .ok (some v)
        | .error t => .error t) else .ok none)
    match allOrTrap rs with
    | .error t => .error t
    | .ok vs => .ok ((s.touchAll ((vs.filterMap id).map Prod.snd)).putElts e.vd w (vs.map (fun v => v.map Prod.fst))))

/-- `vld` (R148). -/
def execVld (e : EWord) (s : State) : Res := .next (s.loadWord (.vld e) e (fun s k => s.addrC e k))
/-- `vlds` (R148). -/
def execVlds (e : EWord) (s : State) : Res := .next (s.loadWord (.vlds e) e (fun s k => s.addrS e k))
/-- `vldx` (R148). -/
def execVldx (e : EWord) (s : State) : Res := .next (s.loadWord (.vldx e) e (fun s k => s.addrX (.vldx e) e k))

/-! ### Stores (R149, R150) -/

/-- A store's probe: MISALIGN, PAGE, PROT, or where the element goes. -/
def State.storeOne (s : State) (h : Hart) (va : Word) (n : Nat) : Except Trap Xlat :=
  if va.toNat % n ≠ 0 then .error (trapOf causeMisalign va)
  else match s.translate h va .write with
    | .error f => .error (xtrap va f)
    | .ok x => .ok x

/-- One element of a store: whose buffer, its address, its bytes. -/
structure StoreElt where
  hart : BitVec 11
  va : Word
  x : Xlat
  bytes : List (Nat × Byte)
  deriving DecidableEq, Repr

/-- The elements' bytes that go into one hart's buffer. -/
def bytesOf (es : List StoreElt) (id : BitVec 11) : List (Nat × Byte) :=
  (es.filter (fun x => x.hart == id)).flatMap StoreElt.bytes

/-- These bytes do not fit in a hart's remaining store budget (R149). -/
def Hart.overBudget (h : Hart) (bs : List (Nat × Byte)) : Bool :=
  h.used != 0 && decide (h.limit < h.used + 8 * newWords h.buf bs)

/-- A store's element has entered its buffer. -/
def State.stored (s : State) (n : Nat) (x : StoreElt) : State :=
  let s := s.inPlace { hart := x.hart, va := x.va, x := x.x, n := n, at_ := s.clock }
  let s := match s.hart? x.hart with
    | some h => (s.setHart (h.storedAt x.x.loc x.va.toNat)).keepXlat h x.va.toNat
    | none => s
  s.watch 1 x.va.toNat n

/-- Each active element is probed; when none fails and all fit, all are buffered in element order. -/
def State.storeWord (s : State) (i : Instr) (e : EWord) (addr : State → Nat → Word) : State :=
  match s.feed i with
  | .error t => s.abortTrap t
  | .ok s1 =>
    let w := e.wW
    let rs : List (Except Trap StoreElt) := (s1.activeIdx i e).map (fun k =>
      let h := s1.lane w k
      match s1.storeOne h (addr s1 k) (w / 8) with
      | .error t => .error t
      | .ok x => .ok { hart := h.id, va := addr s1 k, x := x, bytes := spread x.loc (w / 8) (elt w (s1.src i e.vd) k) })
    match allOrTrap rs with
    | .error t => s.abortTrap t
    | .ok es =>
      match es with
      | [] => s1.wordDone i []
      | e0 :: _ =>
        if s1.gangHarts.any (fun h => h.overBudget (bytesOf es h.id)) then s.splitTrap (trapOf causeStripovf e0.va)
        else
          let s2 := s1.h.gangIds.foldl (fun s id => s.modHart id (fun h => { h with buf := bufPut h.buf (bytesOf es h.id) })) s1
          let s2 := s2.shadow (es.flatMap (fun x => x.bytes.map (fun b => (b.1, x.hart))))
          (es.foldl (fun s x => s.stored (w / 8) x) s2).wordDone i []

/-- `vst` (R149). -/
def execVst (e : EWord) (s : State) : Res := .next (s.storeWord (.vst e) e (fun s k => s.addrC e k))
/-- `vsts` (R149). -/
def execVsts (e : EWord) (s : State) : Res := .next (s.storeWord (.vsts e) e (fun s k => s.addrS e k))
/-- `vstx` (R149). -/
def execVstx (e : EWord) (s : State) : Res := .next (s.storeWord (.vstx e) e (fun s k => s.addrX (.vstx e) e k))

/-! ### Home operations of elements (R108, R145, R152, R155) -/

/-- One active element's access at its home: its index, the hart that makes it, and where. -/
structure HomeElt where
  k : Nat
  hart : Hart
  va : Word
  x : Xlat

/-- The probe of an element's home operation: alignment, translation, home level, poison, and for `vamo` the turn state. A translation that
reads an entry which is not turned far enough traps UNTURNED also for `vwait` (DESIGN CHOICE, log entry 58: R155 says that `vwait` never
traps UNTURNED, which the model takes of the word it waits on, and R293 has such a walk fail). -/
def State.homeProbe (s : State) (k : Nat) (h : Hart) (va : Word) (n : Nat) (acc : Access) (check : Bool) : Except Trap HomeElt :=
  if va.toNat % n ≠ 0 then .error (trapOf causeMisalign va)
  else match s.translate h va acc with
    | .error f => .error (xtrap va f)
    | .ok x =>
      if x.level = 5 ∨ s.poisoned (sectorOf x.loc) then .error (trapOf causeProt va)
      else if check && !(s.homeReady x.level (sectorOf x.loc)) then .error (trapOf causeUnturned va)
      else .ok { k := k, hart := h, va := va, x := x }

/-- The elements' records of a replayed log, in order: an error says that the replay diverges, with the record met, or that an earlier
record of the address must come first (R352). -/
def State.takeLogged (s : State) : List Nat → Except (Option (Option LogRec)) (State × List Nat)
  | [] => .ok (s, [])
  | l :: ls =>
    match s.logMine 6 with
    | none => .error (some none)
    | some x =>
      if x.v ≠ physFor s.myCore l then .error (some (some x))
      else match s.homeFind l with
        | none => .error none
        | some y =>
          if y.idx ≠ x.idx then .error none
          else match (s.logUse s.h.region x).takeLogged ls with
            | .error d => .error d
            | .ok (s, vs) => .ok (s, x.v2 :: vs)

/-- One element of pass 2 at its home, as its hart: the old value (R108, R152). -/
def State.amoAct (s : State) (w op : Nat) (x : AmoElt) : State × Nat :=
  let m := s.homeNat x.loc (w / 8)
  let s := s.inPlace { hart := x.hart, va := x.va, x := { loc := x.loc, level := x.level, pa := 0 }, n := w / 8, at_ := s.clock }
  let h := (s.hart? x.hart).getD s.h
  ((((s.homeLogged x.loc m).homeWriteAs h { loc := x.loc, level := x.level, pa := 0 } (w / 8) (atomicOp op w m x.operand)).watch 2
    x.va.toNat (w / 8)).latch, m)

/-- Elements of pass 2 in order, each seeing the result of the one before it; the old values (R152). -/
def State.amoPass (s : State) (w op : Nat) : List AmoElt → State × List (Nat × Nat)
  | [] => (s, [])
  | x :: xs =>
    let a := s.amoAct w op x
    let r := a.1.amoPass w op xs
    (r.1, (x.k, a.2) :: r.2)

/-- Pass 1 of `vamo` behind its `TurnAll`: every active element is probed; where none fails, pass 2 stands before its first (R152). -/
def State.amoProbe (s : State) (i : Instr) (e : EWord) : Except Trap Amo :=
  let w := e.wW
  match allOrTrap ((s.activeIdx i e).map (fun k => s.homeProbe k (s.lane w k) (s.addrX i e k) (w / 8) .atomic true)) with
  | .error t => .error t
  | .ok es => .ok { width := w, op := e.func.toNat, olds := [], rest := es.map (fun x =>
      { k := x.k, hart := x.hart.id, va := x.va, loc := x.x.loc, level := x.x.level, operand := elt w (s.src i e.va) x.k }) }

/-- A `vamo` in pass 2 stands nowhere else (R152). -/
def State.setAmo (s : State) (a : Option Amo) : State := s.modH (fun h => { h with amo := a })

/-- `vamo` (R152): with no element active it splits the strip and does nothing else. One that stands in its pass 2 goes on with the
elements that are left. Where pass 1 fails, what its `TurnAll` in the same step would have turned stays as it was (DESIGN CHOICE, log
entry 96: the pseudocode turns before pass 1, and the trap comes with no effect). -/
def execVamo (e : EWord) (s : State) : Res :=
  let i : Instr := .vamo e
  .next (s.elementSplit i (fun s fin =>
    let w := e.wW
    let put := fun (s : State) (olds : List (Nat × Nat)) =>
      fin (((if e.rnd.getLsbD 0 then s.ordered else s).putElts e.vd w
        ((List.range s.vl).map (fun k => (olds.find? (fun o => o.1 == k)).map Prod.snd))).setAmo none)
    match s.h.amo with
    | some a =>
      let r := s.amoPass a.width a.op a.rest
      .ok (put r.1 (a.olds ++ r.2))
    | none =>
      let s := if e.rnd.getLsbD 1 && !(s.activeIdx i e).isEmpty then s.turnAllNow (nbits e.imm.toNat 10 3) else s
      match s.amoProbe i e with
      | .error t => .error t
      | .ok a =>
        if s.h.replay = 2 then
          match s.takeLogged (a.rest.map AmoElt.loc) with
          | .error (some met) => .ok (s.diverge s.h.region s.h.id met)
          | .error none => .ok (s.stall .retry)
          | .ok (s, vs) => .ok (put (s.amoPass w a.op a.rest).1 ((a.rest.map AmoElt.k).zip vs))
        else if s.h.replay = 1 && !(s.logRoom s.h.region a.rest.length) then .ok (s.stall .retry)
        else
          let r := s.amoPass w a.op a.rest
          .ok (put r.1 r.2)))

/-- Elements of a hart's pass 2 that meet a test act now, in order; the others stay (R152). -/
def State.amoSome (s : State) (id : BitVec 11) (p : AmoElt → Bool) : State :=
  let old := s.h.id
  match s.hart? id with
  | none => s
  | some h =>
    match h.amo with
    | none => s
    | some a =>
      let r := (s.select id).amoPass a.width a.op (a.rest.filter p)
      ((r.1.setAmo (some { a with rest := a.rest.filter (fun x => !(p x)), olds := a.olds ++ r.2 })).select old)

/-- One element of the pass 2 in which the selected hart stands acts alone (R152, R230). -/
def State.amoPart (s : State) : State :=
  match s.h.amo.bind (fun a => a.rest.head?) with
  | none => s
  | some x => s.amoSome s.h.id (fun y => y == x)

/-! ### Waiting on memory words (R154 to R156) -/

/-- The log records of an outcome: one for each 64 elements (Table swap.8, TYPE 0x05). -/
def waitRecords (vl : Nat) : Nat := (vl + 63) / 64

/-- Log the outcome of a `vwait` in record mode (R156). -/
def State.logWait (s : State) (sat : List Nat) (timedOut : Bool) : State :=
  let n := waitRecords s.vl
  let bits := sat.foldl (fun (x : Nat) k => nput x k 1 1) 0
  (List.range n).foldl (fun s j => s.logged 5 (nbits bits (64 * j) 64) (bnat timedOut + 2 * n)) s

/-- The end of a `vwait`: `c1`, and the bits of kC for its active elements (R155). -/
def State.waitResult (s : State) (i : Instr) (kd : BitVec 3) (cells : List (Nat × Bool)) (timedOut : Bool) : State :=
  let s := s.ordered.modR (fun r => r.writeC 1 (!timedOut))
  let s := s.putBits kd ((List.range s.vl).map (fun k => (cells.find? (fun c => c.1 == k)).map (fun c => timedOut && !c.2)))
  s.wordSplitDone i []

/-- The `vwait` a parked hart stands at. -/
def State.waitInstr (s : State) : Instr :=
  match s.h.blk with
  | some b => (match b.next with
    | .ok i => i
    | .error _ => .vsync)
  | none => .vsync

/-- The outcome that a replayed log holds in `n` records (R156): the satisfied elements, and whether it timed out, as `out` has it of the
records before. Each record gives their number and agrees with the others (Table swap.8); the answer is else the record that was met. -/
def State.loggedWait (s : State) (n : Nat) (out : Option Bool) : Nat → Except (Option LogRec) (State × Nat × Bool)
  | 0 => .ok (s, 0, out.getD false)
  | m + 1 =>
    match s.logMine 5 with
    | none => .error none
    | some x =>
      let o := nbit x.v2 0
      if x.v2 ≠ bnat o + 2 * n ∨ out.getD o ≠ o then .error (some x)
      else match (s.logUse s.h.region x).loggedWait n (some o) m with
        | .error y => .error y
        | .ok (s, bits, o) => .ok (s, x.v * 2^(64 * (n - (m + 1))) + bits, o)

/-- `vwait` (R155): with no element active it returns at once; its outcome is logged, or fed back, as any other (R156). -/
def execVwait (e : EWord) (s : State) : Res :=
  let i : Instr := .vwait e
  .next (s.elementSplit i (fun s fin =>
    let w := e.wW
    let kd := kOf e.vc
    match allOrTrap ((s.activeIdx i e).map (fun k =>
        s.homeProbe k (s.lane w k) (wd (elt 64 (s.src i e.vd) k)) (w / 8) .read false)) with
    | .error t => .error t
    | .ok [] =>
      let n := waitRecords s.vl
      if s.h.replay = 2 then
        match s.loggedWait n none n with
        | .error y => .ok (s.diverge s.h.region s.h.id y)
        | .ok (s, _, out) => .ok (fin (s.ordered.modR (fun r => r.writeC 1 (!out))))
      else if s.h.replay = 1 && !(s.logRoom s.h.region n) then .ok (s.stall .retry)
      else .ok (fin ((s.logWait [] false).ordered.modR (fun r => r.writeC 1 true)))
    | .ok es =>
      let s := es.foldl (fun s x => s.watch 2 x.va.toNat (w / 8)) s
      let t := s.snapS e.sreg
      let cs : List Cell := es.map (fun x =>
        s.cellNow w e.f10.toNat (x.k, x.x.loc, x.x.level, elt w (s.src i e.va) x.k, false))
      let sat := (cs.filter (fun c => c.2.2.2.2)).map Prod.fst
      let n := waitRecords s.vl
      if s.h.replay = 2 then
        match s.loggedWait n none n with
        | .error y => .ok (s.diverge s.h.region s.h.id y)
        | .ok (s, bits, out) => .ok (s.waitResult i kd (cs.map (fun c => (c.1, nbit bits c.1))) out)
      else if s.h.replay = 1 && !(s.logRoom s.h.region n) then .ok (s.stall .retry)
      else if cs.all (fun c => c.2.2.2.2) then
        .ok ((s.logWait sat false).waitResult i kd (cs.map (fun c => (c.1, true))) false)
      else if t = 0 then .ok ((s.logWait sat true).waitResult i kd (cs.map (fun c => (c.1, c.2.2.2.2))) true)
      else .ok (s.parkOn (.cells w e.f10 kd (t ≠ BitVec.allOnes 64) cs))))

/-- A parked `vwait` ends with its latches as they stand: satisfied, or at its timeout (R155). -/
def State.waitEnds (s : State) (id : BitVec 11) (timedOut : Bool) : State :=
  s.onHart id (fun s0 =>
    let s := s0.modH (fun h => h.latch s0)
    match s.h.wait with
    | .cells _ _ kd lim cs =>
      let all := cs.all (fun c => c.2.2.2.2)
      let ok := if timedOut then lim && !all else all
      if !ok || (s.h.replay == 1 && !(s.logRoom s.h.region (waitRecords s.vl))) then s
      else
        let sat := (cs.filter (fun c => c.2.2.2.2)).map Prod.fst
        ((s.logWait sat timedOut).waitResult s.waitInstr kd (cs.map (fun c => (c.1, c.2.2.2.2))) timedOut).wakeHere
    | _ => s)

/-- VWAIT_SATISFIED: every active element of a parked `vwait` is satisfied (R155). -/
def execVwaitSatisfied (hart : BitVec 11) (s : State) : Res := .next (s.waitEnds hart false)

/-- VWAIT_TIMEOUT: T cycles have passed since the last request reached its home (R155). -/
def execVwaitTimeout (hart : BitVec 11) (s : State) : Res := .next (s.waitEnds hart true)

/-! ### Translating positions (R157 to R160) -/

/-- The four scalars from s[N] on (Table mem.5). -/
def State.group (s : State) (e : EWord) (k : Nat) : Word := s.snapS (e.sreg + BitVec.ofNat 5 k)

/-- One position's address (R160), and what reading its entry touched, also where the entry gives no address. -/
def State.xlateOne (s : State) (i : Instr) (e : EWord) (h : Hart) (p : Word) : Except Trap Word × Option Touch :=
  let sh := nbits (s.group e 1).toNat 0 6
  let table := wd (nbits (s.group e 0).toNat 2 62 * 4)
  match s.loadOneAs (some (s.fedSince i)) h (entryAddr table sh p) 4 with
  | .error t => (.error { t with val := p }, none)
  | .ok (x, t) => (match entryOf table sh p x t with
    | .error f => .error { f with val := p }
    | .ok (pbn, row) => .ok (wd (nbits (s.group e 1).toNat 12 52 * 4096) + wd pbn * s.group e 3 + wd row * s.group e 2), some t)

/-- The addresses below an index are written, with zeros in the fault mask. -/
def State.xlatePut (s : State) (e : EWord) (rs : List (Nat × Word)) (j : Nat) : State :=
  let at_ := fun (k : Nat) => (rs.find? (fun r => r.1 == k)).map Prod.snd
  (s.putElts e.vd 64 ((List.range j).map (fun k => (at_ k).map BitVec.toNat))).putBits (kOf e.vc)
    ((List.range j).map (fun k => (at_ k).map (fun _ => false)))

/-- `vxlate` (R160): the plain form takes one trap when an element fails; `.ff` trims VL at the first failing one and posts
fetches of the missing blocks. -/
def execVxlate (e : EWord) (s : State) : Res :=
  let i : Instr := .vxlate e
  .next (s.element i (fun s =>
    let rs : List (Nat × Except Trap Word × Option Touch) := (s.activeIdx i e).map (fun k =>
      (k, s.xlateOne i e (s.lane 64 k) (wd (elt 64 (s.src i e.va) k))))
    let put := rs.filterMap (fun r => match r.2.1 with
      | .ok a => some (r.1, a)
      | .error _ => none)
    let bad := rs.filterMap (fun r => match r.2.1 with
      | .ok _ => none
      | .error t => some (r.1, t))
    let touched := s.touchAll (rs.filterMap (fun r => r.2.2))
    match bad, oneTrap (bad.map Prod.snd) with
    | b :: _, some t =>
      if e.rnd = 0 ∨ !(put.any (fun g => decide (g.1 < b.1))) then .error t
      else
        let ms := (distinctMissing [] ((bad.filter (fun x => x.2.code == causeKvmiss)).flatMap (fun x => x.2.missing))).take 28
        let s := touched.xlatePut e (put.filter (fun g => decide (g.1 < b.1))) b.1
        let s := if ms.isEmpty then s else s.postFetches ms
        .ok (s.modH (fun h => { h with r := { h.r with vl := b.1 }, trimmed := true }))
    | _, _ => .ok (touched.xlatePut e put s.vl)))

/-! ### Writing cache entries through Grout (R161 to R166) -/

/-- One active element of the K row of a `kvput`: its index, hart, location and address. -/
structure KvElt where
  k : Nat
  hart : BitVec 11
  loc : Nat
  va : Word
  deriving DecidableEq, Repr

/-- Where a `kvput` writes: the K row, the scale word, the tile's physical and virtual address, the column, and the entry it read. -/
structure KvPlace where
  elts : List KvElt
  scale : Nat
  scaleVa : Word
  tile : Nat
  tileVa : Word
  row : Nat
  entry : Touch
  deriving DecidableEq, Repr

/-- The probe of `kvput`: where the K row's active elements, the scale word and the tile lie; every failure carries the position (R145). -/
def State.kvProbe (s : State) (i : Instr) (e : EWord) (p : Word) : Except Trap KvPlace :=
  let wb := e.wW / 8
  let sh := nbits (s.group e 1).toNat 0 6
  match s.blockOf none s.h (wd (nbits (s.group e 0).toNat 2 62 * 4)) sh p with
  | .error t => .error { t with val := p }
  | .ok (pbn, row, t) =>
    let k := wd (nbits (s.group e 1).toNat 12 52 * 4096) + wd pbn * s.group e 3
    let vt := k + s.group e 3 - 2048
    let scale := wd (nbits (s.group e 5).toNat 2 62 * 4) + wd ((pbn * 2^sh + row) * 4)
    let one := fun (h : Hart) (a : Word) (n : Nat) => match s.storeOne h a n with
      | .error t => Except.error { t with val := p }
      | .ok x => .ok x
    let ks : List (Except Trap KvElt) := (s.activeIdx i e).map (fun j =>
      let a := k + wd row * s.group e 2 + wd (j * wb)
      match one (s.lane e.wW j) a wb with
      | .error t => .error t
      | .ok x => .ok { k := j, hart := (s.lane e.wW j).id, loc := x.loc, va := a })
    let tile : Except Trap Nat :=
      match one s.h vt 128, s.mapping s.h vt.toNat with
      | .error t, _ => .error t
      | .ok _, .error f => .error (xtrap p f)
      | .ok x, .ok (_, _, last) => if last < vt.toNat + 2047 then .error (trapOf causeMisalign p) else .ok x.pa
    let sc := one s.h scale 4
    match oneTrap (fails ks ++ fails [sc] ++ fails [tile]), sc, tile with
    | some t, _, _ => .error t
    | none, .ok a, .ok b =>
      .ok { elts := goods ks, scale := a.loc, scaleVa := scale, tile := b, tileVa := vt, row := row, entry := t }
    | none, .error t, _ => .error t
    | none, _, .error t => .error t

/-- A column of the tile is replaced: the active elements of vb, zero in the others, for every row (R163). -/
def State.groutColumn (s : State) (i : Instr) (e : EWord) (tile : VReg) (sh col : Nat) : VReg :=
  let wb := e.wW / 8
  let rows := 2048 / (2^sh * wb)
  BitVec.ofNat 16384 ((List.range rows).foldl (fun x r =>
    let v := if decide (r < s.vl) && s.maskBit i e r then elt e.wW (s.src i e.vb) r else 0
    nput x (8 * (r * 2^sh * wb + col * wb)) e.wW v) tile.toNat)

/-- A tile at a physical address, of which no column is accumulated. -/
def Hart.newTile (h : Hart) (pa : Nat) (va : Word) (sh wb : Nat) : Grout :=
  { tile := 0, pa := pa, va := va, mask := 0, owner := h.id, live := true, region := h.region, strict := h.strict, shift := sh, wbytes := wb }

/-- Bytes that a hart sends outbound through a virtual address, without its strip store buffer (R163, R190). -/
def State.sendVia (s : State) (id : BitVec 11) (loc va : Nat) (bytes : List (Nat × Byte)) : State :=
  (s.send id [bytes]).modHart id (fun h => h.storedAt loc va)

/-- `kvput` (R163). Rows that a hart which has ended has left in the tile of this address are written back first, as those of another
slot are, and a new mask begins (DESIGN CHOICE, log entry 88: R22 and R163 name the owning slot, R164 the owning hart). -/
def execKvput (e : EWord) (s : State) : Res :=
  let i : Instr := .kvput e
  .next (s.elementSplit i (fun s fin =>
    if (s.activeIdx i e).isEmpty then .ok (fin s)
    else
      let p := wd (nbits (s.group e 4).toNat 0 48)
      match s.kvProbe i e p with
      | .error t => .error t
      | .ok q =>
        let wb := e.wW / 8
        let sh := nbits (s.group e 1).toNat 0 6
        let c := s.myCore
        let s := s.touch q.entry
        let s := q.elts.foldl (fun s k =>
          s.inPlace { hart := k.hart, va := p, x := { loc := k.loc, level := 3, pa := 0 }, n := wb, at_ := s.clock }) s
        let s := s.dropEarly q.scale 4
        let s := q.elts.foldl (fun s k => s.watch 1 k.va.toNat wb) s
        let s := q.elts.foldl (fun s k => s.sendVia k.hart k.loc k.va.toNat (spread k.loc wb (elt e.wW (s.src i e.va) k.k))) s
        let s := s.sendVia s.h.id q.scale q.scaleVa.toNat (spread q.scale 4 ((s.group e 6).toNat % 2^32))
        let held := match (s.core c).grout with
          | some g => g.pa == q.tile && g.owner == s.h.id && g.live
          | none => false
        let s := if held then s else s.writeBack c
        let g := match (s.core c).grout with
          | some g => if held then g else s.h.newTile q.tile q.tileVa sh wb
          | none => s.h.newTile q.tile q.tileVa sh wb
        let s := (List.range 16).foldl (fun s j => s.dropEarly (s.tileLoc c g (128 * j)) 128) s
        let g := { g with tile := s.groutColumn i e g.tile sh q.row, mask := g.mask ||| BitVec.ofNat 16 (2^q.row), shift := sh, wbytes := wb }
        let s := s.setCore c { s.core c with grout := some g }
        .ok (fin (if nbit (s.group e 4).toNat 63 && q.row + 1 ≠ 2^sh then s else s.writeBack c))))

/-- `kvflush` (R165). -/
def execKvflush (e : EWord) (s : State) : Res :=
  .next (s.elementSplit (.kvflush e) (fun s fin => .ok (fin (s.writeBack s.myCore))))

end Sys2Proof.Machine
end

