-- ==== Sys2Proof/Machine/Lanes.lean ====
section
/-!
DEFINITION. Budget caps of regions (R266), the slots of the part, the order of what waits for one (R272, R282), and the lane arbiter (R174,
R275 to R277).
-/

namespace Sys2Proof.Machine

/-- A region's own cap: the value held since it was last read, else the one in its control block (R267). -/
def State.cap (s : State) (r : BitVec 16) (held : RegionCtx → Nat) (off n : Nat) : Nat :=
  match sfind s.regions r.toNat with
  | some c => held c
  | none => s.rcb r off n

/-- No cap on a path to region 0 would be exceeded: `cap` gives a region's own cap (0 = none), `use` what the region and its
descendants would hold (R266). -/
def capsAllow (path : List (BitVec 16)) (cap use : BitVec 16 → Nat) : Bool :=
  path.all (fun a => cap a == 0 || decide (use a ≤ cap a))

/-- BHARTS allows `n` more resident harts (R266): a start or dispatch goes by the control blocks as it reads them (R267). -/
def State.hartsAllow (s : State) (r : BitVec 16) (n : Nat) : Bool :=
  capsAllow ((s.chain r).getD []) (fun a => s.rcb a 10 2) (fun a => (s.hartsUnder a).length + n)

/-! ### Leases (R275) -/

/-- A hart holds a lease while it is RUNNING, READY or PARKED. -/
def Hart.leases (h : Hart) : Bool := h.st == .running || h.st == .ready || h.st == .parked

/-- The harts that hold a lease in a cluster. -/
def State.leasing (s : State) (cl : BitVec 8) : List Hart :=
  s.harts.filter (fun h => clusterOf (coreOf h.id) == cl && h.leases)

/-- Free lane sets of a cluster. -/
def State.freeLanes (s : State) (cl : BitVec 8) : Nat :=
  8 - ((s.leasing cl).map (fun h => h.granted.toNat)).foldl (· + ·) 0

/-- BLANES allows a start or dispatch `n` more lane sets, by the control blocks as it reads them (R266, R267, R272). -/
def State.lanesFit (s : State) (r : BitVec 16) (n : Nat) : Bool :=
  capsAllow ((s.chain r).getD []) (fun a => s.rcb a 12 2)
    (fun a => (((s.hartsUnder a).filter Hart.leases).map (fun h => h.granted.toNat)).foldl (· + ·) 0 + n)

/-- cap(h) of R276. -/
def Hart.laneCap (h : Hart) : Nat :=
  Nat.min h.leasePref.toNat (if h.vlceil = 0 then 8 else (h.vlceil.toNat + 7) / 8)

/-! ### Slots (R178, R272, R282, R288) -/

/-- The region's EVQ, in CSR layout (Table state.10). -/
def State.regionEvq (s : State) (r : BitVec 16) : Word := wd (s.resolved r 6 40 8 / 256 * 256)

/-- R288 lets a hart of a region into a slot. -/
def State.evqAllows (s : State) (id : BitVec 11) (r : BitVec 16) : Bool :=
  let c := s.core (coreOf id)
  match s.hart? (otherSlot id) with
  | some o => s.regionEvq o.region == s.regionEvq r
  | none => c.evq == s.regionEvq r || c.evHead == c.evTail

/-- A slot of the part (R2): a BN6-P1 has those of die 0 alone. -/
def State.hasSlot (s : State) (id : BitVec 11) : Bool := s.twoDie || !(id.getLsbD 10)

/-- A slot is open to a hart of a region but for its lane sets: Primer has not failed and holds no core, the part has the slot and
it is FREE, its cluster's MIN values leave room, and its core's event queue allows the region (R2, R272, R275, R282, R372). -/
def State.slotOpen (s : State) (id : BitVec 11) (min : Nat) (r : BitVec 16) : Bool :=
  s.host.fail == 0 && s.hasSlot id && (s.hart? id).isNone &&
    decide (((s.leasing (clusterOf (coreOf id))).map (fun h => h.min.toNat)).foldl (· + ·) 0 + min ≤ 8) && s.evqAllows id r

/-- A slot fits: it is open, and its cluster has the minimum lane sets free (R272, R282). -/
def State.slotFits (s : State) (id : BitVec 11) (min : Nat) (r : BitVec 16) : Bool :=
  s.slotOpen id min r && decide (min ≤ s.freeLanes (clusterOf (coreOf id)))

/-- The slots of a die, by rising HARTID. -/
def dieSlots (die : Nat) : List (BitVec 11) := (List.range 1024).map (fun i => BitVec.ofNat 11 (1024 * die + i))

/-- Every slot of the package, by rising HARTID. -/
def State.allSlots (s : State) : List (BitVec 11) := dieSlots 0 ++ (if s.twoDie then dieSlots 1 else [])

/-- The slots that would form a gang with a hart: same slot number and core index, in the clusters of one router, the lowest
cluster first. -/
def gangSlots (id : BitVec 11) (width : Nat) : List (BitVec 11) :=
  let base := id.toNat % 8 + (id.toNat / 8 / width * width) * 8
  (List.range width).map (fun i => BitVec.ofNat 11 (base + 8 * i))

/-! ### Held start records and ready tasks in their order (R272, R282) -/

/-- The first of a list by an order. -/
def firstBy {α : Type} (lt : α → α → Bool) : List α → Option α
  | [] => none
  | x :: xs =>
    match firstBy lt xs with
    | none => some x
    | some y => if lt y x then some y else some x

/-- A field of a start record (Table region.3). -/
def startField (r : BitVec 512) (off n : Nat) : Nat := nbits r.toNat (8 * off) (8 * n)

/-- The gang width a start record asks for. -/
def startGang (r : BitVec 512) : Nat := 2 ^ nbits (startField r 19 1) 0 2

/-- Whether a cluster can lead a gang of a width (R178, R272). -/
def leads (id width : Nat) : Bool := id / 8 % width == 0

/-- The region a held record names. -/
def HeldStart.region (h : HeldStart) : BitVec 16 := BitVec.ofNat 16 (startField h.record 16 2)

/-- The slots where a record may put its leader, the lowest first (R272). -/
def State.startSlots (s : State) (h : HeldStart) : List (BitVec 11) :=
  let place := startField h.record 28 2
  let id := BitVec.ofNat 11 (nbits place 0 11)
  let l := if nbit place 15 then [id] else if nbit place 14 then dieSlots (nbits place 10 1) else s.allSlots
  l.filter (fun i => s.hasSlot i && leads i.toNat (startGang h.record))

/-- REPLAY of a region. -/
def State.replayOf (s : State) (r : BitVec 16) : Nat := nbits (s.resolved r 1 5 1) 3 2

/-- Which held record comes first: the highest PRIO, the earliest doorbell, the lowest queue (R272). -/
def State.startBefore (s : State) (a b : HeldStart) : Bool :=
  let p := fun (h : HeldStart) => s.resolved h.region 0 4 1 % 16
  if p a ≠ p b then decide (p b < p a)
  else if a.time ≠ b.time then decide (a.time < b.time) else decide (a.queue < b.queue)

/-- Which ready task comes first. -/
def poolBefore (a b : Task) : Bool :=
  let t := fun (x : Task) => (x.pool.map Prod.fst).getD 0
  if a.prio ≠ b.prio then decide (b.prio < a.prio)
  else if t a ≠ t b then decide (t a < t b) else decide (a.tcb < b.tcb)

/-- The tasks of a die's ready pool; those of a stopped region are held (R198), and so block no other and do not count as the pool's
(DESIGN CHOICE, log entry 103: neither R282 nor R283 speaks of them). -/
def State.poolTasks (s : State) (die : BitVec 1) : List Task :=
  s.tasks.filter (fun t => (t.pool.map Prod.snd) == some die && !(s.regionStopped t.region))

/-- The head of a die's ready pool. A task that is replayed goes to its logged slot and blocks no other (R352). -/
def State.poolHead (s : State) (die : BitVec 1) : Option Task :=
  firstBy poolBefore ((s.poolTasks die).filter (fun t => s.replayOf t.region ≠ 2))

/-- A slot's other slot holds a task that needs the array. -/
def State.mxBeside (s : State) (id : BitVec 11) : Bool :=
  match s.hart? (otherSlot id) with
  | some o =>
    match o.origin with
    | .task tcb => s.tasks.any (fun t => t.tcb == tcb && t.mx)
    | _ => false
  | none => false

/-! ### What waits for lane sets (R272, R277, R282) -/

/-- A slot, as the arbiter counts a hart that waits for lane sets there. -/
def laneWaiter (id : BitVec 11) (r : BitVec 16) (pref min : Nat) (vlceil : Nat) (prio : BitVec 4) : Hart :=
  { Hart.blank id with st := .held, region := r, leasePref := BitVec.ofNat 4 pref, leaseMin := BitVec.ofNat 4 min,
                       vlceil := BitVec.ofNat 16 vlceil, prio := prio, granted := 0 }

/-- The first of some leading slots at which only lane sets are missing; none when a hart fits somewhere now. -/
def State.wantsLanes (s : State) (ids : List (BitVec 11)) (w min : Nat) (r : BitVec 16) : Option (BitVec 11) :=
  if ids.any (fun id => (gangSlots id w).all (fun i => s.slotFits i min r)) then none
  else ids.find? (fun id => (gangSlots id w).all (fun i => s.slotOpen i min r))

/-- A held start record as it waits for lane sets. -/
def State.startWants (s : State) (h : HeldStart) : List Hart :=
  let w := startGang h.record
  let min := nbits (startField h.record 18 1) 0 4
  if s.regionStopped h.region || !(s.hartsAllow h.region w) || !(s.lanesFit h.region (w * min)) then []
  else match s.wantsLanes (s.startSlots h) w min h.region with
    | none => []
    | some id => (gangSlots id w).map (fun i => laneWaiter i h.region (nbits (startField h.record 18 1) 4 4) min
        (Nat.min (startField h.record 20 4) 65535) (BitVec.ofNat 4 (s.resolved h.region 0 4 1)))

/-- The head of a die's pool as it waits for lane sets. -/
def State.taskWants (s : State) (die : BitVec 1) : List Hart :=
  match s.poolHead die with
  | none => []
  | some t =>
    if !(s.hartsAllow t.region 1) || !(s.lanesFit t.region t.min.toNat) then []
    else match s.wantsLanes ((dieSlots die.toNat).filter (fun id => !(t.mx && s.mxBeside id))) 1 t.min.toNat t.region with
      | none => []
      | some id => [laneWaiter id t.region t.pref.toNat t.min.toNat 0 t.prio]

/-- What waits for lane sets in a cluster: the first held start record and the heads of the pools count as harts there, so that the
targets of the others fall (DEDUCED from the example of R277, log entry 44). -/
def State.waiting (s : State) (cl : BitVec 8) : List Hart :=
  (((firstBy s.startBefore (s.starts.filter (fun h => !(s.startWants h).isEmpty))).map s.startWants).getD [] ++
    s.taskWants 0 ++ s.taskWants 1).filter (fun h => clusterOf (coreOf h.id) == cl)

/-! ### Targets (R276) -/

/-- The target of a hart among targets so far. -/
def targetOf (ts : List (Hart × Nat)) (id : BitVec 11) : Option Nat := (ts.find? (fun t => t.1.id == id)).map Prod.snd

/-- BLANES of the region's path allows one more lane set for a hart, with the targets so far in its cluster; a HELD hart has
none (R266, R275). -/
def State.lanesAllow (s : State) (ts : List (Hart × Nat)) (h : Hart) : Bool :=
  capsAllow (s.ancestors h.region) (fun a => s.cap a (fun c => c.blanes.toNat) 12 2) (fun a =>
    ((ts.filter (fun t => s.under t.1.region a)).map Prod.snd).foldl (· + ·) 0 +
    (((s.hartsUnder a).filter (fun x => x.leases && (targetOf ts x.id).isNone)).map (fun x => x.granted.toNat)).foldl (· + ·) 0 + 1)

/-- Who comes first for the next lane set: highest priority, then lowest T, then lowest HARTID. -/
def lanesBefore (a b : Hart × Nat) : Bool :=
  if a.1.prio ≠ b.1.prio then decide (b.1.prio < a.1.prio)
  else if a.2 ≠ b.2 then decide (a.2 < b.2) else decide (a.1.id < b.1.id)

/-- The surplus goes out one lane set at a time. -/
def State.shareLanes (s : State) : Nat → List (Hart × Nat) → List (Hart × Nat)
  | 0, ts => ts
  | k + 1, ts =>
    match firstBy lanesBefore (ts.filter (fun t => decide (t.2 < t.1.laneCap) && s.lanesAllow ts t.1)) with
    | none => ts
    | some c => s.shareLanes k (ts.map (fun t => if t.1.id = c.1.id then (t.1, t.2 + 1) else t))

/-- The arbiter's targets in a cluster. -/
def State.targets (s : State) (cl : BitVec 8) : List (Hart × Nat) :=
  let ts := (s.leasing cl ++ s.waiting cl).map (fun h => (h, h.leaseMin.toNat))
  s.shareLanes (8 - (ts.map Prod.snd).foldl (· + ·) 0) ts

/-- The grant a hart takes at its next `setvl` (R277). -/
def State.nextGrant (s : State) (h : Hart) : Nat :=
  let cl := clusterOf (coreOf h.id)
  let t := (targetOf (s.targets cl) h.id).getD h.granted.toNat
  if t ≤ h.granted.toNat then t else Nat.min t (h.granted.toNat + s.freeLanes cl)

/-- A hart takes its grant. -/
def State.takeGrant (s : State) (id : BitVec 11) : State :=
  match s.hart? id with
  | some h => s.setHart { h with granted := BitVec.ofNat 4 (s.nextGrant h) }
  | none => s

end Sys2Proof.Machine
end

