-- ==== Sys2Proof/Machine/Control.lean ====
section
/-!
DEFINITION. Vector control (R174 to R178): `setvl`, `settype`, `slip`, `vsync`, `vfetch`, `vtest`, `vget`, gangs; and stream
bindings (R179, R180). A scalar instruction that waits for earlier blocks (R123, R168, R174, R175, R177, R180) begins when the queues
are empty, which the step sees to (R204, log entry 49).
-/

namespace Sys2Proof.Machine

/-! ### Vector length and type (R27, R174, R175) -/

/-- The element width of a VTYPE value (Table state.5). -/
def vtWidth (vt : BitVec 7) : Nat := (etypeOf (nbits vt.toNat 0 4)).width

/-- VLMAX as the CSR reads (R17). -/
def Hart.vlmaxNow (h : Hart) : Nat := h.vlmax (vtWidth h.r.vtype)

/-- VTYPE after a write of a value: a reserved code leaves its field (R25, Table state.4). -/
def newVtype (old : BitVec 7) (x : Word) : BitVec 7 :=
  let et := nbits x.toNat 0 4
  let rm := nbits x.toNat 4 3
  let et := if et ≤ 12 then et else nbits old.toNat 0 4
  let rm := if rm ≤ 3 then rm else nbits old.toNat 4 3
  BitVec.ofNat 7 (et + 16 * rm)

/-- A write of VTYPE: a change of width sets VL to min(VL, new VLMAX) (R27). -/
def Hart.setVtype (h : Hart) (x : Word) : Hart :=
  let vt := newVtype h.r.vtype x
  let vl := if vtWidth vt = vtWidth h.r.vtype then h.r.vl else Nat.min h.r.vl (h.vlmax (vtWidth vt))
  { h with r := { h.r with vtype := vt, vl := vl } }

/-- The VL that `setvl` grants for a request (R174). -/
def Hart.grantVl (h : Hart) (n : Nat) : Nat :=
  let vl := Nat.min n h.vlmaxNow
  if h.vlceil = 0 then vl else Nat.min vl h.vlceil.toNat

/-- A write of MIN or PREF takes effect at the strip boundary (R30), before the grant that is taken there. -/
def State.leaseNow (s : State) : State :=
  s.h.gangIds.foldl (fun (s : State) m => s.modHart m (fun h => { h with leasePref := h.pref, leaseMin := h.min })) s

/-- `setvl` opens its strip: grants are taken, VL and rd written, the state checkpointed (R174). A `setvl` to which its own strip
has rolled back opens that strip again, under its ordinal (R199). -/
def State.openVl (s : State) (rd ra : BitVec 5) (again : Bool) : State :=
  let s := s.h.gangIds.foldl State.takeGrant s.leaseNow
  let vl := s.h.grantVl (s.h.r.readS ra).toNat
  let s := s.modH (fun h => { h with
    r := { h.r.writeS rd (wd vl) with vl := vl }
    stripn := if again then h.stripn - 1 else h.stripn })
  let s := s.openRaw.modH (fun h => { h with byVl := true }.retire)
  if s.h.preempt then s.leaveCore else s

/-- `setvl` (R174). -/
def execSetvl (rd : BitVec 5) (ra : BitVec 5) (s : State) : Res :=
  .next (if s.h.rerun then s.openVl rd ra true
    else s.closeThen false (fun s =>
      if s.h.stopDue then s.clearStop.vector causeBreak 64 false else s.openVl rd ra false))

/-- `settype` (R175). -/
def execSettype (rd : BitVec 5) (ra : BitVec 5) (s : State) : Res :=
  .next ((s.modH (fun h =>
    let h := h.setVtype (h.r.readS ra)
    { h with r := h.r.writeS rd (wd h.vlmaxNow) })).done id)

/-- `slip` (R175). -/
def execSlip (n : BitVec 3) (s : State) : Res := .next (s.done (fun r => { r with slip := n }))

/-- `vsync` (R175): every earlier block has completed. -/
def execVsync (s : State) : Res := .next (s.done id)

/-- `vtest` (R177): over the bits of the mask below VL, of every member in a gang. -/
def execVtest (rd : BitVec 3) (ra : BitVec 3) (c : BitVec 2) (s : State) : Res :=
  let bs := elts 1 s.vl (s.readKN ra)
  let v := match c.toNat with
    | 0 => bs.any (fun b => b == 1)
    | 1 => bs.all (fun b => b == 1)
    | _ => !(bs.any (fun b => b == 1))
  .next (s.done (fun r => r.writeC rd v))

/-- `vget` (R177). -/
def execVget (rd : BitVec 5) (which : BitVec 2) (s : State) : Res :=
  .next (s.done (fun r => r.writeS rd ((match which.toNat with
    | 0 => r.osmax
    | 1 => r.ossum
    | _ => r.oscale).setWidth 64)))

/-! ### Gangs (R178) -/

/-- The width at which a hart waits at its `gang`. -/
def Hart.gangWait (h : Hart) : Option Nat :=
  match h.wait with
  | .gang w => if h.st = .running then some w else none
  | _ => none

/-- The harts that wait at a `gang` in some slots. -/
def State.gangWaiting (s : State) (ids : List (BitVec 11)) : List Hart :=
  (ids.filterMap s.hart?).filter (fun h => h.gangWait.isSome && h.id ≠ s.h.id)

/-- All have arrived: every member's GANGW is set, the members stay at their `gang`, and the leader goes on (R178). INTRUSIVE of any of
them holds a request for the leader that came by priority (R305, R363). -/
def State.formGang (s : State) (ids : List (BitVec 11)) (width : Nat) : State :=
  let s := (ids.zipIdx).foldl (fun s (p : BitVec 11 × Nat) => s.modHart p.1 (fun h => { h with
    gang := some { width := width, member := p.2, ids := ids, started := false }
    wait := if p.2 = 0 then .none else .member })) s
  s.onHart ((ids.head?).getD s.h.id) (fun s =>
    (s.modH (fun h => { h with
      preempt := h.preempt && (!(s.gangProfiled h) || s.regionStopped h.region)
      r := { h.r with vl := Nat.min h.r.vl h.vlmaxNow } })).doneSplit id)

/-- `gang` (R178). -/
def execGang (g : BitVec 2) (s : State) : Res :=
  let width := 2 ^ g.toNat
  .next (s.splitThen (fun s =>
    let word := (encodeScalar (.gang g)).setWidth 64
    let ids := gangSlots s.h.id width
    let waiting := (s.gangWaiting ids).filter (fun h => h.gangWait == some width)
    let clash := (s.gangWaiting (gangSlots s.h.id 4)).any (fun h => h.gangWait ≠ some width)
    if s.h.gang.isSome || clash then s.deliver (trapOf causeIllegal word) false
    else if waiting.any (fun h => h.region ≠ s.h.region || h.cur ≠ s.h.cur) then
      s.deliver (trapOf causeIllegal (s.h.region.setWidth 64)) false
    else if waiting.length + 1 = width then s.formGang ids width
    else s.stall (.gang width)))

/-- `ungang` (R178): the leader ends its gang; a member's traps ILLEGAL, and without a gang the width is 1 already. What INTRUSIVE of one
of the gang held for the cores of the others is requested again (R363). -/
def execUngang (s : State) : Res :=
  .next (s.splitThen (fun s =>
    match s.h.gang with
    | none => s.doneSplit id
    | some g =>
      if g.member ≠ 0 then s.deliver (trapOf causeIllegal ((encodeScalar .ungang).setWidth 64)) false
      else
        let held := if s.gangProfiled s.h then s.h.gangIds else []
        (((s.breakGang false).modH (fun h => { h with r := { h.r with vl := Nat.min h.r.vl h.vlmaxNow } })).doneSplit id).askCores held))

/-! ### Fetching a block (R73 to R76, R120, R176, R378) -/

/-- A read of 8 bytes of a block through the inbound path; the strip store buffer takes no part (R76). -/
def State.blockWord (s : State) (va : Word) : Except Trap (BitVec 64 × Touch) :=
  match s.translate s.h va .blockFetch with
  | .error f => .error (xtrap va f)
  | .ok x =>
    match (s.settle s.h.id x.loc 8).loadBytes s.h.unbuffered x.loc 8 with
    | .error c => .error (readTrap c va x)
    | .ok w => .ok (BitVec.ofNat 64 w, { hart := s.h.id, va := va, x := x, n := 8, at_ := s.clock })

/-- The block-table scalars of `vxlate` and `kvput` have no reserved bit set (Table mem.5). -/
def State.groupReservedOk (s : State) (e : EWord) : Bool :=
  nbits (s.group e 0).toNat 0 2 == 0 && nbits (s.group e 1).toNat 6 6 == 0

/-- The snapshot check of `vxlate` (R158). -/
def State.xlateOk (s : State) (e : EWord) : Bool :=
  s.groupReservedOk e && decide (nbits (s.group e 1).toNat 0 6 ≤ 16)

/-- The snapshot and VL checks of `kvput` (R162). -/
def State.kvputOk (s : State) (e : EWord) : Bool :=
  let sh := nbits (s.group e 1).toNat 0 6
  let wb := e.wW / 8
  let rowb := (s.group e 2).toNat
  let blkb := (s.group e 3).toNat
  s.groupReservedOk e && nbits (s.group e 4).toNat 48 15 == 0 && nbits (s.group e 5).toNat 0 2 == 0 &&
    nbits (s.group e 6).toNat 32 32 == 0 && decide (sh ≤ 4) && decide (s.vl ≤ 2048 / (2^sh * wb)) &&
    decide (s.vl * wb ≤ rowb) && decide (rowb * 2^sh + 2048 ≤ blkb) && blkb % 128 == 0

/-- A word passes the checks that depend on the hart: bound destinations (R20), widths under VL (R120), stream widths (R180),
and the snapshots of `vxlate` and `kvput` (R158, R162). -/
def State.wordOk (s : State) (i : Instr) : Bool :=
  match wordInfo i with
  | none => true
  | some x =>
    let regs := x.reads ++ x.writes
    x.writes.all (fun w => (s.h.r.bind w.1).isNone) &&
      regs.all (fun r => decide (s.vl ≤ s.h.vlmax r.2)) &&
      x.reads.all (fun r => match s.h.r.bind r.1 with
        | some b => b.width == r.2
        | none => true) &&
      (match x.seed, x.reads with
       | some q, (_, w) :: _ => (match s.h.r.bind q with
          | some b => b.width == w
          | none => true)
       | _, _ => true) &&
      (match i with
       | .vxlate e => s.xlateOk e
       | .kvput e => s.kvputOk e
       | _ => true)

/-- A stall count is sufficient for every fixed-latency writer before it in the block (R207, R209); `b` has run the earlier
words. -/
def Block.sufficient (b : Block) (i : Instr) : Bool :=
  match wordInfo i with
  | none => true
  | some x => x.queue ≠ .aq ||
    (x.sources (wordMask i)).all (fun r => r == .k 0 || !(b.writers.any (fun w =>
      w.ref == r && decide (b.spacing + wordSpacing i - w.at_ < w.latency))))

/-- A block passes, or the trap of its first word that has a problem, and whether that trap aborts the strip (R378); with it the reads
of its words, which a strip that commits has made (R361). -/
inductive Predecode where
  | ok (words : List (BitVec 64)) (ts : List Touch)
  | abort (t : Trap)
  | split (ts : List Touch) (t : Trap)

/-- Read and examine the words of a block from offset `8 k` on, at most `fuel` of them. -/
def State.predecode (s : State) (addr : Word) (chk : Bool) (b : Block) (ws : List (BitVec 64)) (ts : List Touch) (k : Nat) :
    Nat → Predecode
  | 0 => .split ts (trapOf causeIllegalElement 512)
  | fuel + 1 =>
    match s.blockWord (addr + wd (8 * k)) with
    | .error t => .abort t
    | .ok (w, t) =>
      match decodeElement w with
      | .error _ => .split (ts ++ [t]) (trapOf causeIllegalElement (wd (8 * k)))
      | .ok (.stop e) =>
        if (Instr.stop e).wf then .ok (ws ++ [w]) (ts ++ [t])
        else .split (ts ++ [t]) (trapOf causeIllegalElement (wd (8 * k)))
      | .ok i =>
        if fuel = 0 ∨ !(s.wordOk i) then .split (ts ++ [t]) (trapOf causeIllegalElement (wd (8 * k)))
        else if chk && !(b.sufficient i) then .split (ts ++ [t]) (trapOf causeStallchk (wd (8 * k)))
        else
          let b := match wordInfo i with
            | some x => b.after i x ((distinct [] x.targets).map (fun t => (t, 0)))
            | none => b
          s.predecode addr chk b (ws ++ [w]) (ts ++ [t]) (k + 1) fuel

/-- The repeat count (R176): 1 where rd is s0, else the register, as given by `sr`. -/
def repeats (rd : BitVec 5) (sr : Word) : Nat := if rd = 0 then 1 else sr.toNat

/-- The words of a block have been read; no load waits for these reads (R231). -/
def State.wordsRead (s : State) (ts : List Touch) : State := (s.touchAll ts).modH (fun h => { h with perf := 0 })

/-- A first run of `vfetch`: fetch, predecode, snapshot (R176, R378). -/
def State.fetchBlock (s : State) (rd : BitVec 5) (addr : Word) : State :=
  let reps := repeats rd (s.h.r.readS rd)
  if addr.toNat % 8 ≠ 0 then s.abortTrap (trapOf causeMisalign addr)
  else if 65535 < reps then s.illegal (wd reps)
  else
    match s.predecode addr (s.h.stripctl.getLsbD 0) Block.one [] [] 0 65 with
    | .abort t => s.abortTrap t
    | .split ts t => (s.wordsRead ts).splitTrap t
    | .ok ws ts =>
      let s := s.wordsRead ts
      if reps = 0 then s.done id
      else s.modH (fun h => { h with blk := some { Block.one with
        pc := h.pc, addr := addr, words := ws, reps := reps, snapS := h.r.s, snapC1 := h.r.readC 1, snapVt := h.r.vtype } })

/-- The kept copy stands at the position that a progress index names: where it is elsewhere, no writer is trusted to a count. -/
def Block.placeAt (b : Block) (rep word reps : Nat) : Block :=
  if b.rep = rep ∧ b.word = word then { b with reps := reps }
  else { b with rep := rep, word := word, reps := reps, spacing := 0, writers := [] }

/-- A `vfetch` that resumes with EIX ≠ 0 runs the kept copy, for n(s[rd]) repeats as s[rd] stands; a count
above 65,535 traps ILLEGAL as at a first run, and a wrong progress index traps ILLEGAL with that index (R176, R298). -/
def State.resumeBlock (s : State) (rd : BitVec 5) : State :=
  let e := s.h.eix.toNat
  let rep := nbits e 0 16
  let word := nbits e 16 7
  let bad := (s.modH (fun h => { h with eix := 0, ckBlk := none })).illegal s.h.eix
  match s.h.ckBlk with
  | none => bad
  | some b =>
    let reps := repeats rd (s.h.r.readS rd)
    if 65535 < reps then s.illegal (wd reps)
    else if b.pc = s.h.pc ∧ nbits e 23 41 = 0 ∧ rep < reps ∧ word + 1 < b.words.length then
      s.modH (fun h => { h with blk := some (b.placeAt rep word reps), eix := 0 })
    else bad

/-- `vfetch` (R176). Its words run one a step; the last leaves the block. -/
def execVfetch (rd : BitVec 5) (ra : BitVec 5) (imm : BitVec 15) (s : State) : Res :=
  let base := if ra = 0 then s.h.pc else s.h.r.readS ra
  .next (if s.h.eix ≠ 0 then s.resumeBlock rd else s.fetchBlock rd (base + imm.signExtend 64 * 8))

/-! ### Stream bindings (R20, R179, R180) -/

/-- A stream record that `sbind` accepts: an assigned KIND, zero reserved bits, SHIFT at most 16 (Table ctrl.4). -/
def Binding.recordOk (b : Binding) : Bool :=
  let k := b.field 0 1
  (k == 1 || k == 2 || k == 3) && nbits b.record.toNat 11 5 == 0 && b.field 3 1 == 0 && decide (b.field 2 1 ≤ 16)

/-- `sbind` (R180): the record is read as a load reads, and copied. -/
def execSbind (rd : BitVec 5) (ra : BitVec 5) (s : State) : Res :=
  let va := s.h.r.readS ra
  .next (if va.toNat % 64 ≠ 0 then s.abortTrap (trapOf causeMisalign va)
    else match s.translate s.h va .read with
      | .error f => s.abortTrap (xtrap va f)
      | .ok x =>
        let s := ((s.accessed 0 va.toNat 64).dropEarly x.loc 64).settle s.h.id x.loc 64
        match s.loadBytes s.h x.loc 64 with
        | .error c => s.abortTrap (readTrap c va x)
        | .ok d =>
          let b : Binding := { record := BitVec.ofNat 512 d, addr := va, pos := 0, slice := 0 }
          if b.recordOk then
            (((s.fill s.h.reader x.loc).fill s.h.reader (x.loc + 32))).done (fun r => r.setBind rd (some b))
          else s.illegal va)

/-- `sdrop` (R180). -/
def execSdrop (ra : BitVec 5) (s : State) : Res := .next (s.done (fun r => r.setBind ra none))

/-- `spos` (R180): the position, 0 for an unbound register. -/
def execSpos (rd : BitVec 5) (ra : BitVec 5) (s : State) : Res :=
  .next (s.done (fun r => r.writeS rd (match r.bind ra with
    | some b => b.pos
    | none => 0)))

/-- `spos.w` (R180): an unbound register ignores the write. -/
def execSposW (ra : BitVec 5) (rb : BitVec 5) (s : State) : Res :=
  .next (s.done (fun r => match r.bind ra with
    | some b => r.setBind ra (some { b with pos := r.readS rb })
    | none => r))

end Sys2Proof.Machine
end

