-- ==== Sys2Proof/Machine/Engines.lean ====
section
/-!
DEFINITION. Engine commands: the matrix array (R182 to R184), the copy engine (R185, R186), tickets and faults (R187 to R189), and
turns (R190, R191). A command acts as a whole at its completion; a fault leaves the effects of the chunks or rows before it, and a
missing page its progress, from which it goes on (R188).
-/

namespace Sys2Proof.Machine

/-! ### Operand groups (R171, Tables ctrl.5 to ctrl.7) -/

/-- An operand group of `n` registers. -/
def Hart.operands (h : Hart) (ra : BitVec 5) (n : Nat) : List Word :=
  (List.range n).map (fun i => h.r.readS (ra + BitVec.ofNat 5 i))

/-- A register of a group. -/
def opnd (g : List Word) (i : Nat) : Word := g.getD i 0

/-- A bit field of a register of a group. -/
def opfld (g : List Word) (i lo len : Nat) : Nat := nbits (opnd g i).toNat lo len

/-- The format of an FMTA or FMTB code. -/
def matFmt (c : Nat) : Fmt := if c = 0 then Fmt.e4m3 else if c = 1 then Fmt.e5m2 else Fmt.bf16

/-- BF16 commands. -/
def isBf (g : List Word) : Bool := opfld g 6 2 2 == 2

/-- For each register of an `mma` or `mslide` group, whether it breaks a limit (Table ctrl.5, R182). A pair of formats that the
array does not take breaks the limit of register 6 alone: no element size or column limit follows from it. -/
def mmaBad (g : List Word) (slide : Bool) : List Bool :=
  let fa := opfld g 6 0 2
  let fb := opfld g 6 2 2
  let pair := fa == 3 || fb == 3 || ((fa == 2) != (fb == 2))
  let bf := isBf g && !pair
  let e := if bf then 2 else 1
  [ (opnd g 0).toNat % e != 0, (opnd g 1).toNat % e != 0, false,
    opfld g 3 25 7 != 0 || opfld g 3 8 8 != 0 || opfld g 3 32 32 == 0 || opfld g 3 16 9 == 0 ||
      decide ((if bf then 128 else 256) < opfld g 3 16 9) || opfld g 3 0 8 == 0 || decide (128 < opfld g 3 0 8),
    !pair && !bf && !slide && (opnd g 4).toNat % 4 != 0, !pair && !bf && (opnd g 5).toNat % 4 != 0,
    opfld g 6 5 59 != 0 || pair ]

/-- The same for `mfill` and `mdrain` (Table ctrl.6). -/
def fillBad (g : List Word) (drain : Bool) : List Bool :=
  let n := opfld g 2 32 9
  let m := opfld g 2 16 8
  [ false, false,
    opfld g 2 41 23 != 0 || opfld g 2 24 8 != 0 || opfld g 2 4 12 != 0 || (!drain && opfld g 2 0 4 != 0) ||
      n == 0 || decide (256 < n) || m == 0 || decide (128 < m) ||
      (drain && (decide (opfld g 2 0 4 < 8) || decide (12 < opfld g 2 0 4))) ]

/-- The same for `mconst` (Table ctrl.6; log entry 13). -/
def constBad (g : List Word) : List Bool :=
  let k := opfld g 2 32 32
  let n := opfld g 2 16 9
  let m := opfld g 2 0 8
  [ false, false,
    opfld g 2 25 7 != 0 || opfld g 2 8 8 != 0 || k == 0 || decide (256 < k) || n == 0 || decide (256 < n) || m == 0 ||
      decide (128 < m),
    false, opfld g 4 2 62 != 0 || opfld g 4 0 2 == 3 ]

/-- The same for `dmov` and `dconv` (Table ctrl.7). -/
def copyBad (g : List Word) (conv : Bool) : List Bool :=
  [ false, false, opfld g 2 32 32 == 0 || opfld g 2 0 32 == 0, false,
    conv && (opfld g 4 8 56 != 0 || decide (12 < opfld g 4 4 4) || decide (12 < opfld g 4 0 4)) ]

/-- The same for `dmov.mx` (R186): bit [8] of the last register selects the tile. -/
def copyMxBad (g : List Word) : List Bool :=
  let m := (g.drop 4).take 6 ++ [opnd g 10 &&& ~~~0x100]
  (copyBad g false).take 4 ++ mmaBad m false

/-- Go on when no register of a group breaks a limit; else ILLEGAL with its index (R171). -/
def State.groupThen (s : State) (bad : List Bool) (k : State → State) : State :=
  match bad.findIdx? id with
  | some i => s.deliver (trapOf causeIllegal (wd i)) false
  | none => k s

/-! ### Issue (R184, R187, R266) -/

/-- A command is issued: it holds what it needs of its hart (R47, R188), and its ticket is the new count. -/
def State.issueCmd (s : State) (t : Timeline) (kind : CmdKind) : State × Word :=
  let (s, n) := s.issue t
  ({ s with cmds := s.cmds ++ [{ hart := s.h.id, tl := t, ticket := n, kind := kind, vtype := s.h.r.vtype, seq := s.clock,
                                 region := s.h.region, cur := s.h.cur, strict := s.h.strict, orphan := false,
                                 done := 0, flags := 0, reads := [], writes := [],
                                 out := [], fwd := [] }] }, n)

/-- Matrix commands of a core not completed. -/
def State.mxPending (s : State) (c : BitVec 10) : Nat := (s.cmds.filter (fun x => coreOf x.hart == c && x.tl == .mx)).length

/-- The cores of a region and its descendants that have issued a matrix command (R266). -/
def State.mxCores (s : State) (r : BitVec 16) : List (BitVec 10) :=
  distinct [] (((s.hartsUnder r).filter (fun h => h.tiles ≠ 0)).map (fun h => coreOf h.id))

/-- BMX allows this core a matrix command. -/
def State.mxAllow (s : State) : Bool :=
  capsAllow (s.ancestors s.h.region) (fun a => s.cap a (fun c => c.bmx.toNat) 14 1) (fun a =>
    let cs := s.mxCores a
    cs.length + (if cs.contains s.myCore then 0 else 1))

/-- The array takes another command of this core, or the hart stalls (R184, R266). -/
def State.arrayThen (s : State) (tile : BitVec 1) (k : State → State) : State :=
  if 8 ≤ s.mxPending s.myCore ∨ !s.mxAllow then s.stall .retry
  else k (s.modH (fun h => { h with tiles := h.tiles ||| (if tile = 0 then 1 else 2) }))

/-- Issue on one timeline; rd receives the ticket. -/
def State.issueTo (s : State) (rd : BitVec 5) (t : Timeline) (kind : CmdKind) : State :=
  let (s, n) := s.issueCmd t kind
  s.doneSplit (fun r => r.writeS rd n)

/-- A matrix command (R182, R183). -/
def State.matrix (s : State) (rd : BitVec 5) (tile : BitVec 1) (bad : List Bool) (kind : CmdKind) : State :=
  s.splitThen (fun s => s.groupThen bad (fun s => s.arrayThen tile (fun s => s.issueTo rd .mx kind)))

/-- `mma` (R182). -/
def execMma (rd : BitVec 5) (ra : BitVec 5) (t : BitVec 1) (s : State) : Res :=
  let g := s.h.operands ra 7
  .next (s.matrix rd t (mmaBad g false) (.mma g t))

/-- `mslide` (R182). -/
def execMslide (rd : BitVec 5) (ra : BitVec 5) (t : BitVec 1) (s : State) : Res :=
  let g := s.h.operands ra 7
  .next (s.matrix rd t (mmaBad g true) (.mslide g t))

/-- `mzero` (R183). -/
def execMzero (rd : BitVec 5) (t : BitVec 1) (s : State) : Res := .next (s.matrix rd t [] (.mzero t))

/-- `mfill` (R183). -/
def execMfill (rd : BitVec 5) (ra : BitVec 5) (t : BitVec 1) (s : State) : Res :=
  let g := s.h.operands ra 3
  .next (s.matrix rd t (fillBad g false) (.mfill g t))

/-- `mdrain` (R183). -/
def execMdrain (rd : BitVec 5) (ra : BitVec 5) (lv : BitVec 3) (t : BitVec 1) (s : State) : Res :=
  let g := s.h.operands ra 3
  .next (s.matrix rd t (fillBad g true) (.mdrain g t lv.toNat))

/-- `mconst` (R183). -/
def execMconst (rd : BitVec 5) (ra : BitVec 5) (k : BitVec 2) (t : BitVec 1) (s : State) : Res :=
  let g := s.h.operands ra 5
  .next (s.needLevel 1 (.mconst rd ra k t) (fun s => s.matrix rd t (constBad g) (.mconst k g t)))

/-- `dmov` (R185). -/
def execDmov (rd : BitVec 5) (ra : BitVec 5) (lv : BitVec 3) (s : State) : Res :=
  let g := s.h.operands ra 4
  .next (s.splitThen (fun s => s.groupThen (copyBad g false) (fun s => s.issueTo rd .dm (.dmov g lv.toNat))))

/-- `dconv` (R185). -/
def execDconv (rd : BitVec 5) (ra : BitVec 5) (lv : BitVec 3) (s : State) : Res :=
  let g := s.h.operands ra 5
  .next (s.splitThen (fun s => s.groupThen (copyBad g true) (fun s => s.issueTo rd .dm (.dconv g lv.toNat))))

/-- `dmov.mx` (R186): a TLDM ticket, then a TLMX ticket, which rd receives. -/
def execDmovMx (rd : BitVec 5) (ra : BitVec 5) (lv : BitVec 3) (s : State) : Res :=
  let g := s.h.operands ra 11
  let tile := (opnd g 10).extractLsb' 8 1
  .next (s.splitThen (fun s => s.groupThen (copyMxBad g) (fun s => s.arrayThen tile (fun s =>
    ((s.issueCmd .dm (.dmov (g.take 4) lv.toNat)).1).issueTo rd .mx (.follow (g.drop 4) tile false)))))

/-! ### What an engine reads and writes (R188) -/

/-- The results in order, or the first failure. -/
def collect {α : Type} : List (Except Trap α) → Except Trap (List α)
  | [] => .ok []
  | .error t :: _ => .error t
  | .ok a :: rs =>
    match collect rs with
    | .error t => .error t
    | .ok as => .ok (a :: as)

/-- A hart as which a command translates and reads; a follow-on finds the bytes of its copy as a strip finds its stores. -/
def Cmd.asHart (c : Cmd) : Hart :=
  { Hart.blank c.hart with st := .running, region := c.region, cur := c.cur, strict := c.strict, buf := c.fwd }

/-- One byte as the issuing hart reads it, and its location; the bytes of a follow-on's own copy need no turn (R186). -/
def State.engByte (s : State) (h : Hart) (va : Word) : Except Trap (Byte × Nat) :=
  match s.translate h va .read with
  | .error f => .error (xtrap va f)
  | .ok x =>
    match sfind h.buf x.loc with
    | some b => .ok (b, x.loc)
    | none =>
      match s.visible h.reader x.loc with
      | .error c => .error (readTrap c va x)
      | .ok b => .ok (b, x.loc)

/-- Some bytes, and the sectors they lie in. -/
def State.engBytes (s : State) (h : Hart) (va : Word) (n al : Nat) : Except Trap (List Byte × List Nat) :=
  if va.toNat % al ≠ 0 then .error (trapOf causeMisalign va)
  else match collect ((List.range n).map (fun i => s.engByte h (va + wd i))) with
    | .error t => .error t
    | .ok bs => .ok (bs.map Prod.fst, distinct [] (bs.map (fun b => sectorOf b.2)))

/-- An element, and the sectors read. -/
def State.engElt (s : State) (h : Hart) (va : Word) (n : Nat) : Except Trap (Nat × List Nat) :=
  match s.engBytes h va n n with
  | .error t => .error t
  | .ok (bs, l) => .ok (leOf bs, l)

/-- Where bytes of a write go. -/
def State.engDest (s : State) (h : Hart) (va : Word) (bs : List Byte) (al : Nat) : Except Trap (List (Nat × Byte)) :=
  if va.toNat % al ≠ 0 then .error (trapOf causeMisalign va)
  else collect (bs.zipIdx.map (fun b =>
    match s.translate h (va + wd b.2) .write with
    | .error f => .error (xtrap (va + wd b.2) f)
    | .ok x => .ok (x.loc, b.1)))

/-- How far a command has come: the state with what it wrote, its tile, the flags, the sectors read and written, the bytes written,
the chunks or rows done, and what stopped it. -/
structure EngRun where
  s : State
  tile : List (Nat × BitVec 32)
  flags : BitVec 5
  reads : List Nat
  writes : List (Nat × Nat)
  out : List (Nat × Byte)
  done : Nat
  stop : Option Trap

/-- A row or chunk that failed stops the command. -/
def EngRun.halt (r : EngRun) (t : Trap) : EngRun := { r with stop := some t }

/-- Run the steps of a command one after the other until one stops it. -/
def EngRun.steps (r : EngRun) (f : EngRun → Nat → EngRun) : Nat → Nat → EngRun
  | 0, _ => r
  | n + 1, c => match r.stop with
    | some _ => r
    | none =>
      let r := f r c
      (match r.stop with
       | some _ => r
       | none => { r with done := c + 1 }).steps f n (c + 1)

/-- Run the steps of a command from where it stands to the last of `total`. -/
def EngRun.going (r : EngRun) (f : EngRun → Nat → EngRun) (total : Nat) : EngRun := r.steps f (total - r.done) r.done

/-- Bytes as writes of a hart: those that other packages home, and those of this one, each marked as their homes have it (Table
turn.3). -/
def State.writesOf (s : State) (h : Hart) (bs : List (Nat × Byte)) : List Outbound :=
  ([bs.filter (fun b => isRemote b.1), bs.filter (fun b => !(isRemote b.1))].filter (fun l => !l.isEmpty)).map (fun l =>
    { src := h.writerAt ((l.head?.map Prod.fst).getD 0), bytes := l, sent := s.clock })

/-- The sectors of bytes written from a virtual address on, each with the address of its first byte written. -/
def sectorVas (va : Word) (bs : List (Nat × Byte)) : List (Nat × Nat) :=
  (sectorsOf bs).map (fun sec => (sec, (va + wd ((bs.findIdx? (fun b => sectorOf b.1 == sec)).getD 0)).toNat))

/-- Bytes written by a command from a virtual address on arrive at their homes as writes of its hart. Where a home still holds the record
of an earlier race and this would be another, the command waits (R287). -/
def EngRun.put (r : EngRun) (h : Hart) (va : Word) (bs : List (Nat × Byte)) : EngRun :=
  let os := r.s.writesOf h bs
  if os.any r.s.heldUp then r.halt (trapOf waitNoPath va)
  else { r with
    s := os.foldl State.arrive r.s
    writes := (sectorVas va bs).foldl (fun l x => sput l x.1 x.2) r.writes
    out := bufPut r.out bs }

/-- An element of a tile. -/
def accAt (tile : List (Nat × BitVec 32)) (i j : Nat) : Nat := (sget 0 tile (256 * i + j)).toNat

/-- A chunk's contribution to one element (R51). -/
def EngRun.accumulate (r : EngRun) (i j sa sb : Nat) (ps : List (FVal × FVal)) : EngRun :=
  let x := chunkStep (accAt r.tile i j) sa sb ps
  { r with tile := sset 0 r.tile (256 * i + j) (BitVec.ofNat 32 x.1), flags := r.flags ||| x.2 }

/-! ### Matrix commands (R182, R183) -/

/-- FP32 1.0. -/
def one32 : Nat := 0x3F800000

/-- A scale, 1.0 where the array's address is 0. -/
def State.engScale (s : State) (h : Hart) (base : Word) (i : Nat) : Except Trap (Nat × List Nat) :=
  if base = 0 then .ok (one32, []) else s.engElt h (base + wd (4 * i)) 4

/-- One chunk of `mma` or `mslide`: everything is read before anything accumulates. Where several operands fault, the chunk stops on
A's first, else on B's, else on an A scale's, else on a B scale's (DESIGN CHOICE, log entry 59: R188 says that the command reports
the faulting address, and not which one of several). -/
def EngRun.chunk (h : Hart) (g : List Word) (slide : Bool) (r : EngRun) (c : Nat) : EngRun :=
  let bf := isBf g
  let e := if bf then 2 else 1
  let fa := matFmt (opfld g 6 0 2)
  let fb := matFmt (opfld g 6 2 2)
  let k := opfld g 3 32 32
  let n := opfld g 3 16 9
  let m := opfld g 3 0 8
  let cs := (k + 127) / 128
  let k0 := 128 * c
  let kk := List.range (Nat.min 128 (k - k0))
  let addrA := fun (i x : Nat) =>
    if slide then opnd g 0 + wd ((i + k0 + x) * e)
    else opnd g 0 + wdI (sInt 32 (opfld g 2 0 32) * i) + wd ((k0 + x) * e)
  let addrB := fun (j x : Nat) => opnd g 1 + wdI (sInt 32 (opfld g 2 32 32) * j) + wd ((k0 + x) * e)
  let sca := if bf || slide then 0 else opnd g 4
  let scb := if bf then 0 else opnd g 5
  let a := collect ((List.range m).map (fun i => collect (kk.map (fun x => r.s.engElt h (addrA i x) e))))
  let b := collect ((List.range n).map (fun j => collect (kk.map (fun x => r.s.engElt h (addrB j x) e))))
  let sa := collect ((List.range m).map (fun i => r.s.engScale h sca (i * cs + c)))
  let sb := collect ((List.range n).map (fun j =>
    r.s.engScale h scb ((if opfld g 6 4 1 = 1 then j / 128 else j) * cs + c)))
  match a, b, sa, sb with
  | .error t, _, _, _ => r.halt t
  | _, .error t, _, _ => r.halt t
  | _, _, .error t, _ => r.halt t
  | _, _, _, .error t => r.halt t
  | .ok a, .ok b, .ok sa, .ok sb =>
    let secs := (a ++ b).flatMap (fun l => l.flatMap Prod.snd) ++ (sa ++ sb).flatMap Prod.snd
    let va := a.map (fun l => l.map (fun x => FVal.ofBits fa x.1))
    let vb := b.map (fun l => l.map (fun x => FVal.ofBits fb x.1))
    let r := { r with reads := distinct [] (r.reads ++ secs) }
    (List.range m).foldl (fun r i => (List.range n).foldl (fun r j =>
      r.accumulate i j ((sa.map Prod.fst).getD i one32) ((sb.map Prod.fst).getD j one32)
        ((va.getD i []).zip (vb.getD j []))) r) r

/-- One row of `mfill`. -/
def EngRun.fillRow (h : Hart) (g : List Word) (r : EngRun) (i : Nat) : EngRun :=
  let n := opfld g 2 32 9
  match collect ((List.range n).map (fun j => r.s.engElt h (opnd g 0 + wd i * opnd g 1 + wd (4 * j)) 4)) with
  | .error t => r.halt t
  | .ok xs => { r with
      reads := distinct [] (r.reads ++ xs.flatMap Prod.snd)
      tile := xs.zipIdx.foldl (fun t (x : (Nat × List Nat) × Nat) => sset 0 t (256 * i + x.2) (BitVec.ofNat 32 x.1.1)) r.tile }

/-- One row of `mdrain`: narrowed RTZ (R42). -/
def EngRun.drainRow (h : Hart) (g : List Word) (r : EngRun) (i : Nat) : EngRun :=
  let n := opfld g 2 32 9
  let dst := etypeOf (opfld g 2 0 4)
  let e := dst.width / 8
  let xs := (List.range n).map (fun j => convert (.flt Fmt.f32) dst .rtz (accAt r.tile i j))
  let base := opnd g 0 + wd i * opnd g 1
  match collect (xs.zipIdx.map (fun (x : Rounded × Nat) =>
      r.s.engDest h (base + wd (x.2 * e)) ((spread 0 e x.1.1).map Prod.snd) e)) with
  | .error t => r.halt t
  | .ok bs => { r.put h base (bs.flatMap (fun l => l)) with flags := r.flags ||| orFlags (xs.map Prod.snd) }

/-- The read of one element of `mconst`'s operand. -/
def State.constElt (s : State) (h : Hart) (g : List Word) (j k : Nat) : Except Trap (FVal × List Nat) :=
  let f := matFmt (opfld g 4 0 2)
  let e := f.width / 8
  match s.engElt h (opnd g 0 + wd j * opnd g 1 + wd (k * e)) e with
  | .error t => .error t
  | .ok (x, l) => .ok (FVal.ofBits f x, l)

/-- Row i of `.tr` and `.perm`: acc[i][j] accumulates X[j][p]; nothing where the permutation names a place at or beyond K
(log entry 13). -/
def EngRun.constRow (h : Hart) (g : List Word) (r : EngRun) (i p : Nat) : EngRun :=
  let n := opfld g 2 16 9
  if opfld g 2 32 32 ≤ p then (List.range n).foldl (fun r j => r.accumulate i j one32 one32 []) r
  else match collect ((List.range n).map (fun j => r.s.constElt h g j p)) with
    | .error t => r.halt t
    | .ok xs =>
      let r := { r with reads := distinct [] (r.reads ++ xs.flatMap Prod.snd) }
      xs.zipIdx.foldl (fun (r : EngRun) (x : (FVal × List Nat) × Nat) =>
        r.accumulate i x.2 one32 one32 [(.fin false 1 0, x.1.1)]) r

/-- Row i of `.perm`: the permutation array is read first. -/
def EngRun.permRow (h : Hart) (g : List Word) (r : EngRun) (i : Nat) : EngRun :=
  match r.s.engElt h (opnd g 3 + wd i) 1 with
  | .error t => r.halt t
  | .ok (p, l) => EngRun.constRow h g { r with reads := distinct [] (r.reads ++ l) } i p

/-- Chunk c of `.red`: acc[0][j] accumulates the sum of X[j][kk]. -/
def EngRun.redChunk (h : Hart) (g : List Word) (r : EngRun) (c : Nat) : EngRun :=
  let n := opfld g 2 16 9
  let kk := (List.range (Nat.min 128 (opfld g 2 32 32 - 128 * c))).map (fun x => 128 * c + x)
  match collect ((List.range n).map (fun j => collect (kk.map (fun x => r.s.constElt h g j x)))) with
  | .error t => r.halt t
  | .ok xs =>
    let r := { r with reads := distinct [] (r.reads ++ xs.flatMap (fun l => l.flatMap Prod.snd)) }
    xs.zipIdx.foldl (fun (r : EngRun) (x : List (FVal × List Nat) × Nat) =>
      r.accumulate 0 x.2 one32 one32 (x.1.map (fun v => ((.fin false 1 0 : FVal), v.1)))) r

/-- `mconst` (R183): `.tr`, `.perm` or `.red`. -/
def EngRun.const (h : Hart) (kind : BitVec 2) (g : List Word) (r : EngRun) : EngRun :=
  let k := opfld g 2 32 32
  let m := opfld g 2 0 8
  match kind.toNat with
  | 0 => r.going (fun r i => EngRun.constRow h g r i i) (Nat.min k m)
  | 1 => r.going (EngRun.permRow h g) m
  | _ => r.going (EngRun.redChunk h g) ((k + 127) / 128)

/-! ### Copy commands (R185) -/

/-- Row i of `dmov`. -/
def EngRun.copyRow (h : Hart) (g : List Word) (r : EngRun) (i : Nat) : EngRun :=
  let src := opnd g 0 + wdI (sInt 32 (opfld g 3 0 32) * i)
  let dst := opnd g 1 + wdI (sInt 32 (opfld g 3 32 32) * i)
  match r.s.engBytes h src (opfld g 2 0 32) 1 with
  | .error t => r.halt t
  | .ok (bs, l) =>
    match r.s.engDest h dst bs 1 with
    | .error t => r.halt t
    | .ok out => { r.put h dst out with reads := distinct [] (r.reads ++ l) }

/-- Row i of `dconv`: converted as `vcvt` does, in the captured rounding mode (R47). -/
def EngRun.convRow (h : Hart) (g : List Word) (vtype : BitVec 7) (r : EngRun) (i : Nat) : EngRun :=
  let st := etypeOf (opfld g 4 4 4)
  let dt := etypeOf (opfld g 4 0 4)
  let se := st.width / 8
  let de := dt.width / 8
  let src := opnd g 0 + wdI (sInt 32 (opfld g 3 0 32) * i)
  let dst := opnd g 1 + wdI (sInt 32 (opfld g 3 32 32) * i)
  match collect ((List.range (opfld g 2 0 32)).map (fun k => r.s.engElt h (src + wd (k * se)) se)) with
  | .error t => r.halt t
  | .ok xs =>
    let ys := xs.map (fun x => convert st dt (vtRm vtype) x.1)
    match collect (ys.zipIdx.map (fun (y : Rounded × Nat) =>
        r.s.engDest h (dst + wd (y.2 * de)) ((spread 0 de y.1.1).map Prod.snd) de)) with
    | .error t => r.halt t
    | .ok out => { r.put h dst (out.flatMap (fun l => l)) with
        reads := distinct [] (r.reads ++ xs.flatMap Prod.snd), flags := r.flags ||| orFlags (ys.map Prod.snd) }

/-! ### Completion (R184, R186 to R188) -/

/-- The tile a command names. -/
def CmdKind.tile : CmdKind → Option (BitVec 1)
  | .mma _ t | .mslide _ t | .mzero t | .mfill _ t | .mdrain _ t _ | .mconst _ _ t | .follow _ t _ | .dropped t => some t
  | .dmov .. | .dconv .. | .turn .. => none

/-- The level to which a command turns what it wrote. -/
def CmdKind.level : CmdKind → Nat
  | .mdrain _ _ l | .dmov _ l | .dconv _ l | .turn _ l => l
  | .mma .. | .mslide .. | .mzero .. | .mfill .. | .mconst .. | .follow .. | .dropped _ => 0

/-- Tile `t` of a core. -/
def Core.tile (c : Core) (t : BitVec 1) : List (Nat × BitVec 32) := if t = 0 then c.acc0 else c.acc1
/-- A core with tile `t` replaced. -/
def Core.setTile (c : Core) (t : BitVec 1) (x : List (Nat × BitVec 32)) : Core :=
  if t = 0 then { c with acc0 := x } else { c with acc1 := x }

/-- Trowel turns one sector of a `turn.a`: the writes of its hart that left up to its split are drained, later ones are not covered
(R190). -/
def State.trowel (s : State) (c : Cmd) (lv sec : Nat) : State :=
  (s.arriveIf (fun o => o.src.hart == some c.hart && decide (o.sent ≤ c.seq) && o.bytes.any (fun b => sectorOf b.1 == sec))).turnSector
    lv (coreOf c.hart) sec

/-- A command acts, from its progress on. -/
def State.runCmd (s : State) (c : Cmd) : EngRun :=
  let h := c.asHart
  let core := coreOf c.hart
  let tile := match c.kind.tile with
    | some t => (s.core core).tile t
    | none => []
  let r : EngRun := { s := s, tile := tile, flags := c.flags, reads := c.reads, writes := c.writes, out := c.out, done := c.done, stop := none }
  let chunks := fun (g : List Word) => (opfld g 3 32 32 + 127) / 128
  match c.kind with
  | .mma g _ => r.going (EngRun.chunk h g false) (chunks g)
  | .follow g _ _ => r.going (EngRun.chunk h g false) (chunks g)
  | .dropped _ => r
  | .mslide g _ => r.going (EngRun.chunk h g true) (chunks g)
  | .mzero _ => { r with tile := [] }
  | .mfill g _ => r.going (EngRun.fillRow h g) (opfld g 2 16 8)
  | .mdrain g _ _ => r.going (EngRun.drainRow h g) (opfld g 2 16 8)
  | .mconst k g _ => r.const h k g
  | .dmov g _ => r.going (EngRun.copyRow h g) (opfld g 2 32 32)
  | .dconv g _ => r.going (EngRun.convRow h g c.vtype) (opfld g 2 32 32)
  | .turn secs lv =>
    { r with s := secs.foldl (fun s sec =>
        s.trowel c lv sec) s }

/-- The first matrix command of a core not completed, where the array can start it: a follow-on needs its copy (R184, R186). -/
def State.arrayHead (s : State) (core : BitVec 10) : Bool :=
  match s.cmds.find? (fun x => coreOf x.hart == core && x.tl == .mx) with
  | none => false
  | some x => match x.kind with
    | .follow _ _ handed => handed
    | _ => true

/-- The array of a cluster takes commands from its cores in turn, one per core: it is this core's turn when none between the core
served last and this one has a command to start (R184). -/
def State.arrayTurn (s : State) (core : BitVec 10) : Bool :=
  let cl := clusterOf core
  let last := (sfind s.arrays cl.toNat).getD 3
  let dist := fun (k : Nat) => (k + 3 - last) % 4
  (List.range 4).all (fun k => decide (dist (core.toNat % 4) ≤ dist k) || !(s.arrayHead (cl ++ BitVec.ofNat 2 k)))

/-- The array has served a core, when the command is one of the array's. -/
def State.arrayServed (s : State) (c : Cmd) : State :=
  if c.tl = .mx then { s with arrays := sput s.arrays (clusterOf (coreOf c.hart)).toNat ((coreOf c.hart).toNat % 4) } else s

/-- No earlier command stands before this one on its unit: a core's commands start in order on the array, which takes the cores in
turn, and complete in order on the copy engine (R184, R187); a follow-on needs its copy (R186). -/
def State.mayComplete (s : State) (k : Nat) (c : Cmd) : Bool :=
  let before := (s.cmds.take k).filter (fun x => coreOf x.hart == coreOf c.hart && x.tl == c.tl)
  match c.kind with
  | .turn .. => true
  | .follow _ _ handed => before.isEmpty && handed && s.arrayTurn (coreOf c.hart)
  | .dmov .. | .dconv .. => before.isEmpty
  | _ => before.isEmpty && s.arrayTurn (coreOf c.hart)

/-- A timeline counter (R187): the largest n such that every command with a ticket up to n has completed. -/
def State.counter (s : State) (h : Hart) (t : Timeline) : Word :=
  let open_ : List Nat := match t with
    | .sw => s.fetches.flatMap (fun f => (f.tickets.filter (fun x => x.1 == .hart h.id)).map (fun x => x.2.toNat))
    | _ => (s.cmds.filter (fun c => c.hart == h.id && c.tl == t && !c.orphan)).map (fun c => c.ticket.toNat)
  match open_ with
  | [] => h.issued.get t.idx
  | x :: xs => wd (xs.foldl Nat.min x - 1)

/-- A timeline counter advances; a hart whose `twait` it satisfies wakes (R189), but one that replays an arrival: it wakes in the logged order
(R352). -/
def State.advance (s : State) (id : BitVec 11) (t : Timeline) : State :=
  let s := s.modHart id (fun h => { h with tl := h.tl.set t.idx (s.counter h t) })
  match s.hart? id with
  | none => s
  | some h =>
    match h.wait with
    | .ticket u n => if n.toNat ≤ (h.tl.get u.idx).toNat && !(u == .sw && h.replay == 2) then s.wake id else s
    | _ => s

/-- Keep a report in issue order. -/
def addReport (rs : List (Nat × BitVec 8 × Word)) (x : Nat × BitVec 8 × Word) : List (Nat × BitVec 8 × Word) :=
  rs.takeWhile (fun r => decide (r.1 ≤ x.1)) ++ [x] ++ rs.dropWhile (fun r => decide (r.1 ≤ x.1))

/-- A command meets a missing page, or has no path: it keeps its progress and goes on from it later (R188). -/
def State.keepProgress (s : State) (k : Nat) (c : Cmd) (r : EngRun) : State :=
  let core := coreOf c.hart
  let c' := { c with done := r.done, flags := r.flags, reads := r.reads, writes := r.writes, out := r.out }
  let s := { r.s with cmds := s.cmds.set k c' }
  (match c.kind.tile with
   | some t => s.setCore core ((s.core core).setTile t r.tile)
   | none => s).arrayServed c

/-- A command has completed: its writes are turned, its flags delivered, its report held, and its timeline advances (R45, R187,
R188). A copy that stops on a report leaves no product to its follow-on (R186, R256; DESIGN CHOICE, log entry 60). -/
def State.finishCmd (s : State) (k : Nat) (c : Cmd) (r : EngRun) : State :=
  let core := coreOf c.hart
  let s := { r.s with cmds := (s.cmds.eraseIdx k).map (fun (x : Cmd) => match c.kind, x.kind with
      | .dmov .., .follow _ t _ =>
        if x.hart = c.hart ∧ x.seq = c.seq then (if r.stop.isNone then { x with fwd := r.out } else { x with kind := .dropped t }) else x
      | _, _ => x) }
  let s := s.arrayServed c
  let s := match c.kind.tile with
    | some t => s.setCore core ((s.core core).setTile t r.tile)
    | none => s
  let s := r.reads.foldl (fun s sec => s.fill c.asHart.reader (32 * sec)) s
  let s := r.writes.foldl (fun s w => s.turnSector c.kind.level core w.1) s
  if c.orphan then s
  else
    let s := s.modHart c.hart (fun h =>
      let h := if r.flags = 0 then h else h.deliverFlags r.flags
      { h with
        writeSet := r.writes.foldl (fun l x => ninsert x.1 l) h.writeSet
        wva := r.writes.foldl (fun l x => sput l x.1 (x.2, c.region)) h.wva
        reports := match r.stop with
          | some t => addReport h.reports (c.seq, t.code, t.val)
          | none => h.reports })
    s.advance c.hart c.tl

/-- The dies at which the writes of a hart on their way would race, once for each sector (R219). -/
def State.raceDies (s : State) (id : BitVec 11) : List (BitVec 1) :=
  (distinct [] ((s.flight.filter (s.isOwn id)).flatMap (fun o => (sectorsOf o.bytes).filter (s.races o.src)))).map
    (fun sec => homeDie (physOf (32 * sec)))

/-- A write of a hart on its way waits at a home that holds the record of an earlier race (R287): what would have it arrive waits too. So do
writes that would race in two sectors of one home: they arrive one by one, each once the record of the last has been written. -/
def State.writesHeld (s : State) (id : BitVec 11) : Bool :=
  s.flight.any (fun o => s.isOwn id o && s.heldUp o) || distinct [] (s.raceDies id) != s.raceDies id

/-- ENGINE_COMMAND_COMPLETE (R187, R188): a missing page is posted, and the command stays with its progress. -/
def execEngineCommandComplete (k : Nat) (s : State) : Res :=
  .next (match s.cmds[k]? with
    | none => s
    | some c =>
      if !(s.mayComplete k c) || s.writesHeld c.hart then s
      else
        let r := s.runCmd c
        match r.stop with
        | some t =>
          if t.code = causePage then t.missing.foldl (fun s m => s.askFetch [] c.region m) (s.keepProgress k c r)
          else if t.code = waitNoPath then s.keepProgress k c r
          else s.finishCmd k c r
        | none => s.finishCmd k c r)

/-- DMOV_MX_FOLLOW_ON (R186, R256): the copy's last byte has landed, and the array receives the product. -/
def execDmovMxFollowOn (k : Nat) (s : State) : Res :=
  .next (match s.cmds[k]? with
    | some c =>
      match c.kind with
      | .follow g t false =>
        if (s.cmds.take k).any (fun x => coreOf x.hart == coreOf c.hart && x.tl == .dm) then s
        else { s with cmds := s.cmds.set k { c with kind := .follow g t true } }
      | _ => s
    | none => s)

/-! ### Waiting on tickets (R188, R189) -/

/-- The timeline a selector names. -/
def timelineOf (t : BitVec 2) : Timeline :=
  match t.toNat with
  | 0 => .mx
  | 1 => .dm
  | 2 => .tn
  | _ => .sw

/-- The hart takes the oldest report it holds, which is consumed; else it goes on (R188). -/
def State.reportThen (s : State) (k : State → State) : State :=
  match s.h.reports with
  | [] => k s
  | (_, c, a) :: rest => (s.modH (fun h => { h with reports := rest })).deliver (trapOf c a) false

/-- `twait` (R189). -/
def execTwait (ra : BitVec 5) (t : BitVec 2) (s : State) : Res :=
  let tl := timelineOf t
  let n := s.h.r.readS ra
  .next (if !s.h.reports.isEmpty then s.closeThen true (fun s => s.reportThen id)
    else if (s.h.issued.get tl.idx).toNat < n.toNat then s.done (fun r => r.writeC 1 false)
    else if n.toNat ≤ (s.h.tl.get tl.idx).toNat then s.ordered.done (fun r => r.writeC 1 true)
    else s.parkOn (.ticket tl n))

/-- `tread` (R189). -/
def execTread (rd : BitVec 5) (t : BitVec 2) (s : State) : Res :=
  .next (s.done (fun r => r.writeS rd (s.h.tl.get (timelineOf t).idx)))

/-! ### Turns (R190, R191) -/

/-- The number of 32-byte sectors that meet a range. -/
def rangeSectors (a n : Nat) : Nat := if n = 0 then 0 else (a + n - 1) / 32 - a / 32 + 1

/-- The sector at an index of a range: its location's, where its address has a mapping (R190). -/
def State.rangeSector (s : State) (a i : Nat) : Except XFail Nat :=
  match s.mappedLoc s.h (wd ((a / 32 + i) * 32)) with
  | .error f => .error f
  | .ok loc => .ok (sectorOf loc)

/-- Grout's tile is written back first when it lies among these sectors (R164). -/
def State.groutFirst (s : State) (p : Nat → Bool) : State := if s.groutMeets s.h p then s.writeBack s.myCore else s

/-- The sectors of a range that have a mapping. -/
def State.mappedSectors (s : State) (a n : Nat) : List Nat :=
  (List.range (rangeSectors a n)).filterMap (fun i => match s.rangeSector a i with
    | .ok sec => some sec
    | .error _ => none)

/-- One sector of a synchronous turn is done: the progress index and TURNPROG move on, and after the last the turn is done; a
pre-emption takes effect between two (R13, R304). -/
def State.turnStep (s : State) (total : Nat) (bytes : Nat → Nat) (fin : State → State) : State :=
  let i := s.h.eix.toNat + 1
  if total ≤ i then (fin s).ordered.modH (fun h => { h with turnprog := 0 }) |>.doneSplit id
  else
    let s := s.modH (fun h => { h with eix := wd i, turnprog := wd (bytes i), wait := .none })
    if s.h.preempt then s.leaveCore else s

/-- `turn` over a range (R190): one sector a step. A sector without a mapping is skipped; the progress index and TURNPROG count it as the
others (DESIGN CHOICE, log entry 93: R190 numbers the sectors of S and counts bytes of the range). -/
def execTurn (ra : BitVec 5) (rb : BitVec 5) (lv : BitVec 3) (s : State) : Res :=
  let a := (s.h.r.readS ra).toNat
  let n := (s.h.r.readS rb).toNat
  let total := rangeSectors a n
  .next (if total < s.h.eix.toNat then (s.modH (fun h => { h with eix := 0 })).illegal s.h.eix
    else s.splitThen (fun s =>
      if total ≤ s.h.eix.toNat then (s.ordered.modH (fun h => { h with turnprog := 0 })).doneSplit id
      else
        let s := s.groutFirst (fun sec => (s.mappedSectors a n).contains sec)
        let bytes := fun (i : Nat) => Nat.min n ((a / 32 + i) * 32 - a)
        match s.rangeSector a s.h.eix.toNat with
        | .ok sec => (s.turnOne lv.toNat sec).turnStep total bytes id
        | .error _ => s.turnStep total bytes id))

/-- `turn.all` (R190): every sector holding a write of the hart since its last `turn.all`. -/
def execTurnAll (lv : BitVec 3) (s : State) : Res :=
  .next (if s.h.eix ≠ 0 ∧ s.writeSets.length < s.h.eix.toNat then (s.modH (fun h => { h with eix := 0 })).illegal s.h.eix
    else s.splitThen (fun s =>
      let s := s.groutFirst (fun _ => true)
      let secs := s.writeSets
      match secs[s.h.eix.toNat]? with
      | none => (s.clearWriteSets.ordered.modH (fun h => { h with turnprog := 0 })).doneSplit id
      | some sec => (s.turnMine lv.toNat sec).turnStep secs.length (fun i => 32 * i) State.clearWriteSets))

/-- `turn.a` over a range (R190): the Trowel unit is handed the sectors. -/
def execTurnA (rd : BitVec 5) (ra : BitVec 5) (rb : BitVec 5) (lv : BitVec 3) (s : State) : Res :=
  let a := (s.h.r.readS ra).toNat
  let n := (s.h.r.readS rb).toNat
  .next (s.splitThen (fun s =>
    let secs := s.mappedSectors a n
    (s.groutFirst (fun sec => secs.contains sec)).issueTo rd .tn (.turn secs lv.toNat)))

/-- `turn.a.all` (R190). -/
def execTurnAAll (rd : BitVec 5) (lv : BitVec 3) (s : State) : Res :=
  .next (s.splitThen (fun s =>
    let s := s.groutFirst (fun _ => true)
    let secs := s.writeSets.filter s.stillMapped
    s.clearWriteSets.issueTo rd .tn (.turn secs lv.toNat)))

/-- Translation that no turn state stops: where an entry it reads is not turned far enough, it goes by what the entries' homes hold (R191;
DEDUCED, log entry 92). -/
def State.translateHome (s : State) (va : Word) : Except XFail Xlat :=
  match s.translate s.h va .read with
  | .error f => if f.1 = causeUnturned then ({ s with turn := [], copies := [] } : State).translate s.h va .read else .error f
  | .ok x => .ok x

/-- `tstate` (R191): the STATE of the sector at its home; no UNTURNED, and PROT for a poisoned sector as a load has it (R349). -/
def execTstate (rd : BitVec 5) (ra : BitVec 5) (s : State) : Res :=
  let va := s.h.r.readS ra
  .next (match s.translateHome va with
    | .error f => s.abortTrap (xtrap va f)
    | .ok x =>
      let s := s.settle s.h.id x.loc 1
      if s.poisoned (sectorOf x.loc) then s.abortTrap (trapOf causeProt va)
      else s.done (fun r => r.writeS rd (wd (entryState (s.entry (sectorOf x.loc))))))

end Sys2Proof.Machine
end

