-- ==== Sys2Proof/Machine/Launch.lean ====
section
/-!
DEFINITION. Regions as the hardware reads them (R264 to R267), host work queues and start records (R268 to R273), the dispatch of
tasks (R282 to R284) and the writing of event records (R286 to R288).
-/

namespace Sys2Proof.Machine

/-! ### Reading a region (R264, R267) -/

/-- Where a physical address lies, for a unit. -/
def State.unitLoc (s : State) (pa : Nat) : Nat := ((s.locate 0 pa).map Prod.fst).getD pa

/-- What the hardware holds of a region once it has read its control block (R267, R293). -/
def State.readRegion (s : State) (r : BitVec 16) : RegionCtx :=
  let ranges := s.resolved r 8 64 8
  let entry := fun (i : Nat) => s.homeNat (s.unitLoc (ranges + 32 * i)) 32
  { id := r, ranges := wd ranges, ptroot := wd (s.resolved r 8 72 8), prio := BitVec.ofNat 4 (s.resolved r 0 4 1),
    bharts := BitVec.ofNat 16 (s.rcb r 10 2), blanes := BitVec.ofNat 16 (s.rcb r 12 2), bmx := BitVec.ofNat 8 (s.rcb r 14 1),
    bswap := BitVec.ofNat 32 (s.rcb r 52 4), bmem := BitVec.ofNat 64 (s.rcb r 56 8),
    locked := ((List.range 32).filter (fun i => nbit (entry i) 199)).map (fun i => (i, BitVec.ofNat 256 (entry i))) }

/-- A hart's priority is its region's, but for a task (R276). -/
def Origin.isTask : Origin → Bool
  | .task _ => true
  | _ => false

/-- The hardware reads a region's control block and those it inherits from; its region-wide values hold for every hart of the region
(R267). -/
def State.loadRegion (s : State) (r : BitVec 16) : State :=
  let c := s.readRegion r
  let s := { s with
    regions := sput s.regions r.toNat c
    refs := ((s.chain r).getD []).foldl (fun (l : List (Nat × RegionRefs)) (a : BitVec 16) => sput l a.toNat (s.readRefs a)) s.refs }
  (s.harts.filter (fun h => h.region == r && !h.origin.isTask)).foldl (fun (s : State) h => s.modHart h.id (fun h => { h with prio := c.prio })) s

/-- The state in which a region's control block has been read as a start or a dispatch of its reads it, by which these look into its log
(R267, R351); where the block cannot be read, the state as it is. -/
def State.asRead (s : State) (r : BitVec 16) : State := if s.regionValid r then s.loadRegion r else s

/-! ### Starting a hart (R273) -/

/-- What a start record or a TCB gives a hart. -/
structure Launch where
  entry : Word
  arg : Word
  region : BitVec 16
  pref : BitVec 4
  min : BitVec 4
  vlceil : BitVec 16
  prio : BitVec 4
  origin : Origin
  deriving DecidableEq, Repr

/-- The core's event queue unit takes the region's EVQ when its other slot is FREE (R288). -/
def State.setEvq (s : State) (id : BitVec 11) (r : BitVec 16) : State :=
  let c := s.core (coreOf id)
  let q := s.regionEvq r
  match s.hart? (otherSlot id) with
  | some _ => s
  | none => if c.evq = q then s else s.setCore (coreOf id) { c with evq := q, evHead := 0, evTail := 0 }

/-- The hart that starts in a slot (R15, R16, R19, R23, R273, Table state.3): READY, with no lane set granted yet. What its
vector registers hold is free (log entry 51). A region with the reserved REPLAY code 11 starts its harts with replay off (DESIGN CHOICE,
log entry 62). -/
def State.newHart (s : State) (id : BitVec 11) (l : Launch) : Hart :=
  let f := s.resolved l.region 1 5 1
  let r := { Regs.start with s := Regs.start.s.set 1 l.arg, v := Vector.ofFn (Config.startVector s.clock id) }
  { Hart.blank id with
    st := .ready, pc := l.entry, strippc := l.entry, r := r, ck := r, region := l.region, vlceil := l.vlceil,
    pref := l.pref, min := l.min, leasePref := l.pref, leaseMin := l.min, granted := 0, prio := l.prio, origin := l.origin,
    trapvec := wd (s.resolved l.region 3 16 8 / 4 * 4)
    savearea := wd ((s.resolved l.region 4 24 8 + 344064 * id.toNat) / 4096 * 4096)
    faultrec := wd ((s.resolved l.region 5 32 8 + 256 * id.toNat) / 256 * 256)
    strict := nbit f 0, expert := nbit f 1, trace := nbit f 2,
    replay := if nbits f 3 2 = 3 then 0 else BitVec.ofNat 2 (nbits f 3 2), openedAt := s.clock }

/-- Put a new hart into a slot: it is resident, and holds its MIN (R275). -/
def State.seat (s : State) (id : BitVec 11) (l : Launch) : State :=
  (s.setEvq id l.region).setHart { s.newHart id l with granted := l.min }

/-- Put a new hart into a slot, with its grant (R273, R276). -/
def State.place (s : State) (id : BitVec 11) (l : Launch) : State := (s.seat id l).takeGrant id

/-! ### Event records (R286 to R288) -/

/-- The location of a core's event queue record by its count: EVQ.BASE is a physical address as the core reaches it
(log entry 17). -/
def State.evqLoc (s : State) (c : BitVec 10) (i : Nat) : Option Nat :=
  let q := (s.core c).evq.toNat
  (s.locate c (nbits q 12 52 * 4096 + 16 * (i % 2 ^ (nbits q 8 4 + 8)))).map Prod.fst

/-- Wake the harts of a core that wait in `evwait`. -/
def State.wakeEvwait (s : State) (c : BitVec 10) : State :=
  ((s.harts.filter (fun h => coreOf h.id == c && h.st == .parked && h.wait == .retry)).map Hart.id).foldl State.wake s

/-- Write a record to a core's event queue, turned to L1 before the tail moves; none when it is full. -/
def State.writeCoreEvent (s : State) (c : BitVec 10) (region : BitVec 16) (e : BitVec 128) : Option State :=
  let x := s.core c
  if 2 ^ (nbits x.evq.toNat 8 4 + 8) ≤ x.evTail - x.evHead then none
  else
    let s := match s.evqLoc c x.evTail with
      | some loc => ((s.putBytes (spread loc 16 e.toNat)).invalidate 3 c (sectorOf loc)).setEntry (sectorOf loc)
          (mkEntry 1 (posCore c) region)
      | none => s
    some ((s.setCore c { s.core c with evTail := x.evTail + 1 }).wakeEvwait c)

/-- Where a host bus address lies, through a port (R368). -/
def hostLoc (port : BitVec 1) (addr : Nat) : Nat := 2^51 + port.toNat * 2^50 + addr % 2^50

/-- Write a record to a host completion ring, turned to L5 before TAIL moves, with a message when the ring was empty (R366);
none when it is full or disabled. -/
def State.writeRingEvent (s : State) (n : Nat) (region : BitVec 16) (e : BitVec 128) : Option State :=
  let r := sget Ring.reset s.rings n
  if !r.enable || decide (2 ^ r.log2n.toNat ≤ (r.tail - r.head).toNat) then none
  else
    let s := s.unitWrite 5 region (hostLoc r.port (r.base.toNat + 16 * (r.tail.toNat % 2 ^ r.log2n.toNat))) 16 e.toNat
    some { s with
      rings := sput s.rings n { r with tail := r.tail + 1 }
      host := { s.host with msix := if r.tail = r.head then s.host.msix ++ [(r.port, r.vector)] else s.host.msix } }

/-- Write an event record to a valid target; none when its queue has no room. -/
def State.writeEvent (s : State) (t : BitVec 32) (region : BitVec 16) (e : BitVec 128) : Option State :=
  if t.getLsbD 31 then s.writeRingEvent (nbits t.toNat 0 12) region e
  else s.writeCoreEvent (t.extractLsb' 1 10) region e

/-- The records of a change of INTRUSIVE of the selected hart are written before it takes effect; none when one has no room (R363). -/
def State.intrusiveNow (s : State) (set : Bool) : Option State :=
  let rs := distinct [s.h.region] (s.harts.map Hart.region)
  rs.foldl (fun s? r =>
    match s? with
    | none => none
    | some s =>
      let t := s.evtgt r
      if !(targetOk t) then some s
      else if s.posted.any (fun p => p.target == t) then none
      else s.writeEvent t r (mkEvent 0x08 (bnat set) s.h.region s.h.id.toNat 0)) (some s)

/-- The selected hart clears its INTRUSIVE before it ends or is saved; none while one of its records has no room (R363). -/
def State.unprofile (s : State) : Option State :=
  if s.h.intrusive then
    (s.intrusiveNow false).map (fun s => s.modH (fun h => { h with tracectl := wd (nput h.tracectl.toNat 16 1 0) }))
  else some s

/-- EVENT_RECORD_WRITE (R287): a record reaches its target once nothing sent there before it and nothing its producer sent before it
still waits, and there is room. -/
def execEventRecordWrite (k : Nat) (s : State) : Res :=
  .next (match s.posted[k]? with
    | none => s
    | some p =>
      if (s.posted.take k).any (fun q => q.target == p.target || producer q.record == producer p.record) then s
      else (({ s with posted := s.posted.eraseIdx k } : State).writeEvent p.target p.region p.record).getD s)

/-! ### Work queues (R268 to R271) -/

/-- A work queue. -/
def State.queue (s : State) (q : Nat) : WorkQueue := sget WorkQueue.reset s.queues q

/-- Put a work queue back. -/
def State.setQueue (s : State) (q : Nat) (x : WorkQueue) : State := { s with queues := sput s.queues q x }

/-- The record at HEAD is passed. -/
def WorkQueue.pass (x : WorkQueue) : WorkQueue :=
  let n := 2 ^ x.log2n.toNat
  let h := (x.head.toNat + 1) % n
  { x with head := BitVec.ofNat 16 h, bells := x.bells.filter (fun b => decide ((x.head.toNat + n - b.1) % n + 1 < (b.2.1 + n - b.1) % n) ||
      decide ((b.2.1 + n - b.1) % n ≤ (x.head.toNat + n - b.1) % n)) }

/-- When the doorbell of the record at HEAD completed. -/
def WorkQueue.bellTime (x : WorkQueue) : Nat :=
  let n := 2 ^ x.log2n.toNat
  ((x.bells.find? (fun b => decide ((x.head.toNat + n - b.1) % n < (b.2.1 + n - b.1) % n))).map (fun b => b.2.2)).getD 0

/-- The reason for which a start record that could be read is rejected, 0 for none (R271, Table region.8). Where several conditions
hold the lowest reason is reported (DESIGN CHOICE, log entry 61: R271 gives them no order). PREFLS of 9 to 15 has reason 3 too (DESIGN
CHOICE, log entry 102: R271 rejects a PREFLS below MINLS alone, and the record's table allows it up to 8). -/
def State.startReason (s : State) (root : BitVec 16) (r : BitVec 512) : Nat :=
  let place := startField r 28 2
  let region := BitVec.ofNat 16 (startField r 16 2)
  let min := nbits (startField r 18 1) 0 4
  let pref := nbits (startField r 18 1) 4 4
  if startField r 0 8 % 4 ≠ 0 then 1
  else if !(s.regionValid region) || !(((s.chain region).getD []).contains root) then 2
  else if min = 0 ∨ 8 < min ∨ pref < min ∨ 8 < pref then 3
  else if nbits (startField r 19 1) 0 2 = 3 then 4
  else if nbits (startField r 19 1) 2 6 ≠ 0 ∨ nbits place 11 3 ≠ 0 ∨ startField r 30 2 ≠ 0 ∨ startField r 40 24 ≠ 0 then 5
  else if nbit place 15 && (nbit place 14 || !(leads (nbits place 0 11) (startGang r))) then 6
  else 0

/-- The completion record of a rejected start (R271). Where the EVTGT of REGION applies and is itself invalid the record goes on to that of
ROOT, as one of ROOT's (DESIGN CHOICE, log entry 104: R271 names no such step). -/
def State.rejectRecord (s : State) (q : Nat) (root : BitVec 16) (reason : Nat) (r : Option (BitVec 512)) : State :=
  let rec_ := fun (region : BitVec 16) (user : Word) => mkEvent 0x01 2 region (q + reason * 2^12) user.toNat
  match r with
  | none => s.post (s.evtgt root) root (rec_ root 0)
  | some r =>
    let region := BitVec.ofNat 16 (startField r 16 2)
    let user := wd (startField r 32 8)
    let target := BitVec.ofNat 32 (startField r 24 4)
    if targetOk target then s.post target region (rec_ region user)
    else if (region == root || (s.under region root && s.regionValid region)) && targetOk (s.evtgt region) then
      s.post (s.evtgt region) region (rec_ region user)
    else s.post (s.evtgt root) root (rec_ root user)

/-- The record at a queue's HEAD is rejected (R271). -/
def State.rejectHead (s : State) (q reason : Nat) (r : Option (BitVec 512)) : State :=
  let x := s.queue q
  (s.rejectRecord q x.root reason r).setQueue q { x.pass with err := true, reason := BitVec.ofNat 4 reason }

/-- WORK_QUEUE_TAKE (R269, R271): the record at HEAD is read at its home and rejected, or held for its conditions. A queue whose last
completion record still waits takes no other (R287). -/
def execWorkQueueTake (q : BitVec 12) (s : State) : Res :=
  let x := s.queue q.toNat
  let loc := x.base.toNat + 64 * x.head.toNat
  .next (if s.host.warmBusy || !x.enable || x.head == x.tail || s.starts.any (fun h => h.queue == q) || s.holdsRecord (0x01, q.toNat) then s
    else if !(s.unitReadable loc 64) then s.rejectHead q.toNat 8 none
    else
      let r := BitVec.ofNat 512 (s.homeNat loc 64)
      match s.startReason x.root r with
      | 0 => { s with starts := s.starts ++ [{ queue := q, record := r, time := x.bellTime }] }
      | n => s.rejectHead q.toNat n (some r))

/-! ### Held start records (R272, R273) -/

/-- A log allows a start or dispatch: room for its record while the region records; the logged slot in replay (R351, R352). -/
def State.logAllows (s : State) (r : BitVec 16) (ty v v2 : Nat) (slot : BitVec 11) : Bool :=
  match s.replayOf r with
  | 1 => s.logRoom r 1
  | 2 => (s.logFind r (fun x => x.ty == ty && x.v == v && x.v2 == v2)).any (fun x => x.hart == slot)
  | _ => true

/-- The log finds no record for a start or dispatch of a region that replays. -/
def State.logLacks (s : State) (r : BitVec 16) (ty v v2 : Nat) : Bool :=
  s.replayOf r == 2 && (s.logFind r (fun x => x.ty == ty && x.v == v && x.v2 == v2)).isNone

/-- A start or dispatch is logged, or its logged record used. -/
def State.logStart (s : State) (r : BitVec 16) (ty v v2 : Nat) (slot : BitVec 11) : State :=
  match s.replayOf r with
  | 1 => s.logPut r slot ty 0 v v2
  | 2 => match s.logFind r (fun x => x.ty == ty && x.v == v && x.v2 == v2) with
    | some x => s.logUse r x
    | none => s
  | _ => s

/-- The slot in which a held record starts now, the lowest that meets every condition (R272). -/
def State.startSlot (s : State) (h : HeldStart) : Option (BitVec 11) :=
  let w := startGang h.record
  let min := nbits (startField h.record 18 1) 0 4
  if s.regionStopped h.region || !(s.hartsAllow h.region w) || !(s.lanesFit h.region (w * min)) then none
  else
    let a := s.asRead h.region
    (s.startSlots h).find? (fun id => (gangSlots id w).all (fun i => s.slotFits i min h.region) &&
      a.logAllows h.region 1 h.queue.toNat (s.queue h.queue.toNat).head.toNat id)

/-- Start a held record with its leader in a slot (R273): the region's control block is read, the start logged, every hart of a gang
seated, and then each takes its grant. -/
def State.start (s : State) (h : HeldStart) (id : BitVec 11) : State :=
  let r := h.record
  let q := h.queue.toNat
  let w := startGang r
  let s := (s.loadRegion h.region).logStart h.region 1 q (s.queue q).head.toNat id
  let l : Launch :=
    { entry := wd (startField r 0 8), arg := wd (startField r 8 8), region := h.region,
      pref := BitVec.ofNat 4 (nbits (startField r 18 1) 4 4), min := BitVec.ofNat 4 (nbits (startField r 18 1) 0 4),
      vlceil := BitVec.ofNat 16 (Nat.min (startField r 20 4) 65535), prio := BitVec.ofNat 4 (s.resolved h.region 0 4 1),
      origin := .start h.queue (BitVec.ofNat 32 (startField r 24 4)) (wd (startField r 32 8)) }
  let ids := gangSlots id w
  let s := { s with starts := s.starts.filter (fun x => x.queue ≠ h.queue) }
  let s := ids.foldl (fun s i => s.seat i (if i = id then l else { l with origin := .none })) s
  let s := ids.foldl State.takeGrant s
  let s := if w = 1 then s else (ids.zipIdx).foldl (fun s (p : BitVec 11 × Nat) => s.modHart p.1 (fun x => { x with
    gang := some { width := w, member := p.2, ids := ids, started := true }
    wait := if p.2 = 0 then .none else .member })) s
  (s.setQueue q (s.queue q).pass).onHart id State.nowReady

/-- A held record leaves its queue now: it can start, or its region's control block cannot be read, for which it is rejected (R267). -/
def State.startNow (s : State) (h : HeldStart) : Bool :=
  !(s.regionStopped h.region) && (!(s.regionValid h.region) || (s.startSlot h).isSome)

/-- HART_START (R272, R273): a held record starts when its conditions are met and none that comes before it could start. One whose
region's control block cannot be read any more, or is not turned far enough, is rejected (R267). INFO of the event of a replay that finds no
record for the start holds the PLACE of the start record (DESIGN CHOICE, log entry 83: no hart is there yet). -/
def execHartStart (k : Nat) (s : State) : Res :=
  .next (match s.starts[k]? with
    | none => s
    | some h =>
      let id := BitVec.ofNat 11 (nbits (startField h.record 28 2) 0 11)
      let a := s.asRead h.region
      if a.logLacks h.region 1 h.queue.toNat (s.queue h.queue.toNat).head.toNat && !(s.regionStopped h.region) then
        s.divergeAt h.region id (a.logTail h.region)
      else
        match firstBy s.startBefore (s.starts.filter s.startNow) with
        | none => s
        | some x =>
          if x.queue ≠ h.queue then s
          else if !(s.regionValid h.region) then
            ({ s with starts := s.starts.filter (fun x => x.queue ≠ h.queue) } : State).rejectHead h.queue.toNat 2 (some h.record)
          else ((s.startSlot h).map (s.start h)).getD s)

/-! ### Dispatch (R282 to R284) -/

/-- A slot takes a task (R282). -/
def State.taskFits (s : State) (t : Task) (id : BitVec 11) : Bool :=
  s.hartsAllow t.region 1 && s.lanesFit t.region t.min.toNat && s.slotFits id t.min.toNat t.region && !(t.mx && s.mxBeside id)

/-- The slot of a die that takes a task (R282). -/
def State.taskSlot (s : State) (die : Nat) (t : Task) : Option (BitVec 11) :=
  let a := s.asRead t.region
  (dieSlots die).find? (fun id => s.taskFits t id && a.logAllows t.region 2 t.tcb 0 id)

/-- A TCB becomes FAULTED with a cause, and the parent of its region, or of a region given, is told (R279, R285). -/
def State.faultTask (s : State) (tcb cause : Nat) (r : BitVec 16) : State :=
  ((s.tcbPut tcb 108 1 cause).tcbState tcb 5).postParent r (mkEvent 0x03 0 r cause tcb)

/-- The smallest level whose scope holds both cores (R284, Table turn.1). -/
def coverLevel (a b : BitVec 10) : Nat :=
  if a = b then 0 else if clusterOf a = clusterOf b then 1 else if dieOf a = dieOf b then 2 else 3

/-- The turns still to make before a successor starts on a core outside the scope of its predecessors' releases: the predecessor's core,
the level and the sector (R284). -/
def State.promoted (s : State) (tcb : Nat) (core : BitVec 10) : List (BitVec 10 × Nat × Nat) :=
  s.promos.flatMap (fun p =>
    let lv := coverLevel p.core core
    if p.succs.contains tcb && decide (p.level < lv) then
      (p.secs.filter (fun sec => !(p.turned.contains (tcb, sec, lv)))).map (fun sec => (p.core, lv, sec))
    else [])

/-- The release of a predecessor is promoted for a successor that goes to a core outside its scope (R284). -/
def State.promote (s : State) (tcb : Nat) (core : BitVec 10) : State :=
  let s := (s.promoted tcb core).foldl (fun (s : State) x => s.turnSector x.2.1 x.1 x.2.2) s
  { s with promos := (s.promos.map (fun p => { p with succs := nerase tcb p.succs })).filter (fun p => !p.succs.isEmpty) }

/-- Dispatch a task to a slot (R282). One whose region's control block cannot be read, or is not turned far enough, is rejected: it
becomes FAULTED with UNTURNED (R267; DESIGN CHOICE, log entry 64: no rule gives a rejected dispatch's report). -/
def State.dispatch (s : State) (t : Task) (id : BitVec 11) : State :=
  if !(s.regionValid t.region) then
    if s.holdsRecord (0x03, (homeDie t.tcb).toNat) then s else
    (s.modTask t.tcb (fun u => { u with pool := none })).faultTask t.tcb causeUnturned.toNat t.region
  else
    let s := (s.loadRegion t.region).logStart t.region 2 t.tcb 0 id
    let s := (s.tcbState t.tcb 3).tcbPut t.tcb 112 8 (s.pkg.toNat * 2048 + id.toNat)
    let s := ((s.promote t.tcb (coreOf id)).modTask t.tcb (fun u => { u with pool := none })).place id
      { entry := t.entry, arg := t.arg, region := t.region, pref := t.pref, min := t.min, vlceil := 0, prio := t.prio,
        origin := .task t.tcb }
    s.onHart id State.nowReady

/-- The first task of a die's pool that is replayed and whose logged slot can take it (R352). -/
def State.replayTask (s : State) (die : BitVec 1) : Option (Task × BitVec 11) :=
  (firstBy poolBefore ((s.poolTasks die).filter (fun t => s.replayOf t.region == 2 &&
    ((s.asRead t.region).logFind t.region (fun x => x.ty == 2 && x.v == t.tcb && x.v2 == 0)).any (fun x => s.taskFits t x.hart)))).bind
      (fun t => ((s.asRead t.region).logFind t.region (fun x => x.ty == 2 && x.v == t.tcb && x.v2 == 0)).map (fun x => (t, x.hart)))

/-- The slot that the head of a die's pool takes: on its own die, or on the other when that one's pool is empty (R282, R283). -/
def State.headSlot (s : State) (die : BitVec 1) (t : Task) : Option (BitVec 11) :=
  match s.taskSlot die.toNat t with
  | some id => some id
  | none => if s.twoDie && (s.poolTasks (~~~die)).isEmpty then s.taskSlot (1 - die.toNat) t else none

/-- The task that comes next on a die, and its slot: one that is replayed goes to its logged slot, whatever stands before it (R282, R283,
R352). One whose region's control block cannot be read goes nowhere, and is rejected (R267). -/
def State.nextDispatch (s : State) (die : BitVec 1) : Option (Task × BitVec 11) :=
  match s.replayTask die with
  | some x => some x
  | none => (s.poolHead die).bind (fun t =>
      if s.regionValid t.region then (s.headSlot die t).map (fun id => (t, id)) else some (t, 0))

/-- The dispatcher turns one sector that it promotes for the task that comes next on a die (R230, R284). -/
def State.promoPart (s : State) (die : BitVec 1) : State :=
  match s.nextDispatch die with
  | none => s
  | some (t, id) =>
    match (s.promoted t.tcb (coreOf id)).head? with
    | none => s
    | some (core, lv, sec) =>
      { s.turnSector lv core sec with promos := s.promos.map (fun p =>
          if p.core = core ∧ p.secs.contains sec then { p with turned := (t.tcb, sec, lv) :: p.turned } else p) }

/-- TASK_DISPATCH (R282, R283): the task that comes next on a die is dispatched. INFO of the event of a replay that finds no record for the
dispatch is 0 (DESIGN CHOICE, log entry 83: no hart is there yet). -/
def execTaskDispatch (die : BitVec 1) (s : State) : Res :=
  .next (if s.host.warmBusy then s else match (s.poolTasks die).find? (fun t => (s.asRead t.region).logLacks t.region 2 t.tcb 0) with
    | some t => s.divergeAt t.region 0 ((s.asRead t.region).logTail t.region)
    | none => match s.nextDispatch die with
      | some x => s.dispatch x.1 x.2
      | none => s)

end Sys2Proof.Machine
end

