-- ==== Sys2Proof/Machine/Tasks.lean ====
section
/-!
DEFINITION. Task control blocks (R278 to R281, R379) and the task and event instructions (R193).
-/

namespace Sys2Proof.Machine

/-! ### Reading a TCB (R278, R279, R379) -/

/-- A field of a TCB at its home (Table region.4). -/
def State.tcb (s : State) (t off n : Nat) : Nat := s.homeNat (t + off) n

/-- The region a TCB names. -/
def State.tcbRegion (s : State) (t : Nat) : BitVec 16 := BitVec.ofNat 16 (s.tcb t 16 2)

/-- Every sector of these bytes is turned to L3 or beyond and not poisoned (R379). -/
def State.turnedL3 (s : State) (loc n : Nat) : Bool :=
  (List.range ((loc + n - 1) / 32 - loc / 32 + 1)).all (fun i =>
    let e := entryState (s.entry (loc / 32 + i))
    !(s.poisoned (loc / 32 + i)) && e != 6 && decide (3 ≤ e))

/-- The indices of `n` successor fields, without 0xFFFF_FFFF. -/
def State.indices (s : State) (at_ n : Nat) : List (BitVec 32) :=
  ((List.range n).map (fun i => BitVec.ofNat 32 (s.homeNat (at_ + 4 * i) 4))).filter (fun i => i ≠ 0xFFFFFFFF)

/-- The indices of a continuation chain of at most `fuel` blocks; none when the chain is invalid (R379). -/
def State.chainIndices (s : State) : Nat → Nat → Option (List (BitVec 32))
  | 0, a => if a = 0 then some [] else none
  | fuel + 1, a =>
    if a = 0 then some []
    else if a % 128 ≠ 0 ∨ s.memBytes < a + 128 ∨ !(s.turnedL3 a 128) then none
    else (s.chainIndices fuel (s.homeNat (a + 120) 8)).map (s.indices a 30 ++ ·)

/-- The location of a successor in the pool of a region (R278). -/
def State.succLoc (s : State) (r : BitVec 16) (i : BitVec 32) : Nat := (s.refsOf r).taskbase + 128 * i.toNat

/-- An operand word's location, in a TAGGED page (R278); none where there is none. -/
def State.operandLoc (s : State) (a : Word) : Except XFail Nat :=
  match s.translate s.h a .any with
  | .error f => .error f
  | .ok x =>
    match s.mapping s.h a.toNat with
    | .ok (_, flags, _) => if nbit flags 6 then .ok x.loc else .error (causeProt, [])
    | .error f => .error f

/-- The operand words of a TCB: all, or what is missing. -/
def State.operandLocs (s : State) (t : Nat) : List (Word × Except XFail Nat) :=
  (((List.range 4).map (fun i => wd (s.tcb t (32 + 8 * i) 8))).filter (fun a => a ≠ 0)).map (fun a => (a, s.operandLoc a))

/-- The fields of a TCB keep to Table region.4 (R279). -/
def State.tcbFieldsOk (s : State) (t : Nat) : Bool :=
  let min := nbits (s.tcb t 28 1) 0 4
  let pref := nbits (s.tcb t 28 1) 4 4
  s.tcb t 0 8 % 4 == 0 && decide (1 ≤ min) && decide (min ≤ pref) && decide (pref ≤ 8) &&
    nbits (s.tcb t 18 1) 4 4 == 0 && nbits (s.tcb t 29 1) 2 6 == 0 && s.tcb t 30 2 == 0 && s.tcb t 109 3 == 0 && s.tcb t 120 8 == 0 &&
    decide (s.tcb t 19 1 < 7) && (List.range 4).all (fun i => s.tcb t (32 + 8 * i) 8 % 8 == 0)

/-- The task that a TCB's fields describe as they stand: successors and operand words that are none count for nothing. -/
def State.taskFields (s : State) (t : Nat) : Task :=
  let r := s.tcbRegion t
  { tcb := t, entry := wd (s.tcb t 0 8), arg := wd (s.tcb t 8 8), region := r, prio := BitVec.ofNat 4 (s.tcb t 18 1),
    pref := BitVec.ofNat 4 (nbits (s.tcb t 28 1) 4 4), min := BitVec.ofNat 4 (nbits (s.tcb t 28 1) 0 4),
    notify := nbit (s.tcb t 29 1) 1, mx := nbit (s.tcb t 29 1) 0,
    opws := (s.operandLocs t).filterMap (fun o => o.2.toOption),
    succs := (s.indices (t + 64) 8 ++ (s.chainIndices 256 (s.tcb t 96 8)).getD []).filter
      (fun i => decide (s.succLoc r i + 128 ≤ s.memBytes)),
    init := BitVec.ofNat 32 (s.tcb t 24 4), target := BitVec.ofNat 32 (s.tcb t 104 4), reg := false, st := s.tcb t 19 1,
    count := s.tcb t 20 4, pool := none }

/-- A TCB is valid (R279). -/
def State.tcbValid (s : State) (t : Nat) : Bool :=
  match s.chainIndices 256 (s.tcb t 96 8) with
  | none => false
  | some cont =>
    s.tcbFieldsOk t && s.regionValid (s.tcbRegion t) && (s.operandLocs t).all (fun o => o.2.isOk) &&
      (s.indices (t + 64) 8 ++ cont).all (fun i => decide (s.succLoc (s.tcbRegion t) i + 128 ≤ s.memBytes))

/-- The task a TCB describes, or none when the TCB is invalid (R279). -/
def State.readTask (s : State) (t : Nat) : Option Task := if s.tcbValid t then some (s.taskFields t) else none

/-! ### Changing a task (R279 to R281) -/

/-- Set the registered task of a TCB. -/
def State.setTask (s : State) (t : Task) : State := { s with tasks := s.tasks.filter (fun u => u.tcb ≠ t.tcb) ++ [t] }

/-- An invalid TCB is not registered, and FAULTED (R279). Its fields are kept as they were read, for `tarm.r` (log entry 26). -/
def State.refuseTcb (s : State) (tcb : Nat) : State :=
  let r := if s.regionValid (s.tcbRegion tcb) then s.tcbRegion tcb else s.h.region
  (s.setTask (s.taskFields tcb)).faultTask tcb 1 r

/-- The TCB is invalid, and the unit that would report it still holds a record: it waits (R287). -/
def State.refusalHeld (s : State) (tcb : Nat) : Bool := !(s.tcbValid tcb) && s.holdsRecord (0x03, (homeDie tcb).toNat)

/-- Register a TCB with a counter: the state, and whether it was valid (R279). -/
def State.registerTcb (s : State) (tcb count : Nat) : State × Bool :=
  match s.readTask tcb with
  | none => (s.refuseTcb tcb, false)
  | some t =>
    let s := ((s.setTask { t with reg := true }).tcbCount tcb count).tcbState tcb 1
    (s.readyTasks [tcb] (dieOf s.myCore), true)

/-- The successors of a TCB: those read at its registration, else those it names now (R379). -/
def State.succsOf (s : State) (tcb : Nat) : List Nat :=
  match s.tasks.find? (fun t => t.tcb == tcb) with
  | some t => t.succs.map (s.succLoc t.region)
  | none => (s.taskFields tcb).succs.map (s.succLoc (s.tcbRegion tcb))

/-- Cancel one TCB that is not RUNNING or DONE; its promotion entries are released (R284). -/
def State.cancelOne (s : State) (tcb : Nat) : State × Bool :=
  let st := s.taskSt tcb
  if st = 3 ∨ st = 4 then (s, false)
  else
    let s := (s.tcbState tcb 6).modTask tcb (fun t => { t with pool := none })
    let s := { s with
      promos := (s.promos.map (fun p => { p with succs := nerase tcb p.succs })).filter (fun p => !p.succs.isEmpty) }
    (s, true)

/-- Cancel every TCB of a list and, transitively, their successors, each once. -/
def State.cancelAll (s : State) (seen : List Nat) : Nat → List Nat → State
  | 0, _ => s
  | _, [] => s
  | fuel + 1, t :: ts =>
    if seen.contains t then s.cancelAll seen fuel ts
    else (s.cancelOne t).1.cancelAll (t :: seen) fuel (s.succsOf t ++ ts)

/-- A predecessor's `tdone` decrements a successor's counter, floor 0, and decides its readiness (R280). -/
def State.decrement (s : State) (tcb : Nat) (die : BitVec 1) : State :=
  let c := s.taskCount tcb
  let s := if c = 0 then s else s.tcbCount tcb (c - 1)
  s.readyTasks [tcb] die

/-! ### tspawn, tarm, tcancel (R193) -/

/-- The four sectors of a TCB. -/
def tcbSectors (tcb : Nat) : List Nat := (List.range 4).map (fun i => sectorOf tcb + i)

/-- The TCB that an address names, or the trap: MISALIGN, that of a store's translation, and PROT for a TCB of a region that is neither
the executing hart's nor a descendant. A TCB outside package memory traps PROT (log entry 16). `tspawn` and `tarm` go on with one whose
region is invalid, which R264 and R279 make FAULTED. -/
def State.tcbAt (s : State) (va : Word) (spawn : Bool) : Except Trap Nat :=
  if va.toNat % 128 ≠ 0 then .error (trapOf causeMisalign va)
  else match s.translate s.h va .write with
    | .error f => .error (xtrap va f)
    | .ok x =>
      let r := s.tcbRegion x.loc
      if !(s.isLocal x.loc) || (tcbSectors x.loc).any s.poisoned then .error (trapOf causeProt va)
      else if !(spawn && !(s.regionValid r)) && !(s.under r s.h.region) then .error (trapOf causeProt va)
      else .ok x.loc

/-- Go on with the TCB that s[ra] names; its traps are taken after the split. -/
def State.tcbThen (s : State) (va : Word) (spawn : Bool) (k : State → Nat → State) : State :=
  s.splitThen (fun s =>
    match s.tcbAt va spawn with
    | .error t => s.deliver t false
    | .ok tcb => k s tcb)

/-- The operand words of a TCB that must first come in from flash. -/
def State.operandPage (s : State) (tcb : Nat) : Option Trap :=
  (s.operandLocs tcb).findSome? (fun o => match o.2 with
    | .error f => if f.1 = causePage ∨ f.1 = waitNoPath then some (xtrap o.1 f) else none
    | .ok _ => none)

/-- The sectors of a TCB that no part of the `tspawn` has turned yet (R230). -/
def State.tcbUnturned (s : State) (tcb : Nat) : List Nat := (tcbSectors tcb).filter (fun sec => !(s.h.turned.contains sec))

/-- The TCB's sectors are turned to L3, but for those that parts of the `tspawn` have turned already (R193, R230). -/
def State.turnTcb (s : State) (tcb : Nat) : State :=
  (s.tcbUnturned tcb).foldl (fun s sec => s.turnOne 3 sec) (s.groutFirst (fun x => (tcbSectors tcb).contains x))

/-- One part of a `tspawn`, its strip closed: the next sector of the TCB is turned (R230). A page of an operand word that is on flash is
met before (R172). -/
def State.spawnPart (s : State) (ra : BitVec 5) : State :=
  match s.tcbAt (s.h.r.readS ra) true with
  | .error _ => s
  | .ok tcb =>
    match (s.tcbUnturned tcb).head?, (s.turnTcb tcb).operandPage tcb with
    | some sec, none =>
      ((s.groutFirst (fun x => (tcbSectors tcb).contains x)).turnOne 3 sec).modH (fun h => { h with turned := ninsert sec h.turned })
    | _, _ => s

/-- `tspawn` (R193, R279). A page of an operand word that is on flash is met before anything is turned (R172). -/
def execTspawn (ra : BitVec 5) (s : State) : Res :=
  .next (s.tcbThen (s.h.r.readS ra) true (fun s0 tcb =>
    let s := s0.turnTcb tcb
    let st := s.taskSt tcb
    if st = 1 ∨ st = 2 ∨ st = 3 ∨ st = 5 then s.doneSplit (fun r => r.writeC 1 false)
    else if s.refusalHeld tcb then s0.stall .retry
    else match s.operandPage tcb with
      | some t => s0.deliver t false
      | none =>
        let (s, ok) := s.registerTcb tcb (if st = 0 then s.tcb tcb 20 4 else s.tcb tcb 24 4)
        s.doneSplit (fun r => r.writeC 1 ok)))

/-- `tarm` (R193, R279): a DONE TCB is read again and starts from INIT. -/
def execTarm (ra : BitVec 5) (s : State) : Res :=
  .next (s.tcbThen (s.h.r.readS ra) true (fun s tcb =>
    if s.taskSt tcb ≠ 4 then s.doneSplit (fun r => r.writeC 1 false)
    else if s.refusalHeld tcb then s.stall .retry
    else match s.operandPage tcb with
      | some t => s.deliver t false
      | none =>
        let (s, ok) := s.registerTcb tcb (s.tcb tcb 24 4)
        s.doneSplit (fun r => r.writeC 1 ok)))

/-- `tarm.r` (R193, R279, R379): a FAULTED task is queued again with the fields read before; one that the task system has not read is
taken by its fields as they stand (DEDUCED, log entry 26). -/
def execTarmR (ra : BitVec 5) (s : State) : Res :=
  .next (s.needLevel 1 (.tarmR ra) (fun s => s.tcbThen (s.h.r.readS ra) false (fun s tcb =>
    if s.taskSt tcb = 5 then
      let s := if s.tasks.any (fun t => t.tcb == tcb) then s else s.setTask (s.taskFields tcb)
      let s := s.modTask tcb (fun t => { t with reg := true, count := s.taskCount tcb, pool := some (s.clock, dieOf s.myCore) })
      (s.tcbState tcb 2).doneSplit (fun r => r.writeC 1 true)
    else s.doneSplit (fun r => r.writeC 1 false))))

/-- `tcancel` (R193). -/
def execTcancel (ra : BitVec 5) (s : State) : Res :=
  .next (s.needLevel 1 (.tcancel ra) (fun s => s.tcbThen (s.h.r.readS ra) false (fun s tcb =>
    let (s, ok) := s.cancelOne tcb
    s.doneSplit (fun r => r.writeC 1 ok))))

/-- `tcancel.c` (R193): the successors too, transitively; also those of a RUNNING or DONE TCB, which itself stays (DESIGN CHOICE, log
entry 66). -/
def execTcancelC (ra : BitVec 5) (s : State) : Res :=
  .next (s.needLevel 1 (.tcancelC ra) (fun s => s.tcbThen (s.h.r.readS ra) false (fun s tcb =>
    let (s, ok) := s.cancelOne tcb
    (s.cancelAll [tcb] (2^64) (s.succsOf tcb)).doneSplit (fun r => r.writeC 1 ok))))

/-! ### tdone (R193, R274, R279, R287) -/

/-- A hart has engine commands outstanding. -/
def State.hasCommands (s : State) (id : BitVec 11) : Bool := s.cmds.any (fun c => c.hart == id && !c.orphan)

/-- The hart has nothing more to do but write a record: it stands RUNNING and stalled until that has room, and then ends (R287). The
records of a hart that ends with INTRUSIVE set go first (R363). -/
def State.endWith (s : State) (t : BitVec 32) (e : BitVec 128) : State :=
  let held := (s.modH (fun h => { h with origin := .ending t e })).stall .retry
  match s.unprofile with
  | none => held
  | some s =>
    if !(targetOk t) then s.freeSlot
    else if s.posted.any (fun p => p.target == t) then (s.modH (fun h => { h with origin := .ending t e })).stall .retry
    else match s.writeEvent t s.h.region e with
      | some s => s.freeSlot
      | none => (s.modH (fun h => { h with origin := .ending t e })).stall .retry

/-- The lowest `n` places of a region's promotion log that no entry takes (R284). -/
def State.promoPlaces (s : State) (r : BitVec 16) (n : Nat) : List Nat :=
  let base := (s.refsOf r).promolog
  let used := (s.promos.filter (fun p => (s.refsOf p.region).promolog == base)).flatMap Promotion.log
  ((List.range (used.length + n)).filter (fun i => !(used.contains i))).take n

/-- A predecessor's `tdone` records the sectors of its `turn.all` in its region's promotion log, 16 bytes for each 2 KiB granule; what
stands in an entry is free (R284, log entry 67). -/
def State.promoRecord (s : State) (r : BitVec 16) (level : Nat) (secs succs : List Nat) : State :=
  let gs := distinct [] (secs.map (fun x => x / 64))
  let places := s.promoPlaces r gs.length
  let base := s.unitLoc (s.refsOf r).promolog
  let mask := fun (g : Nat) => (secs.filter (fun x => x / 64 == g)).foldl (fun (m : BitVec 64) x => m ||| BitVec.ofNat 64 (2^(x % 64))) 0
  let s := (gs.zip places).foldl (fun s (x : Nat × Nat) =>
    s.unitPut r (base + 16 * x.2) 16 (Config.promoEntry x.1 (mask x.1) level s.myCore).toNat) s
  { s with promos := s.promos ++
      [{ region := r, core := s.myCore, level := level, secs := secs, succs := distinct [] succs, log := places, turned := [] }] }

/-- The end of a task: DONE, its successors decremented once for each appearance, the release kept for promotion (R280, R284). -/
def State.taskDone (s : State) (tcb level : Nat) (secs : List Nat) : State :=
  match s.tasks.find? (fun t => t.tcb == tcb) with
  | none => s.tcbState tcb 4
  | some t =>
    let succs := t.succs.map (s.succLoc t.region)
    let die := dieOf s.myCore
    let s := s.tcbState tcb 4
    let s := if succs.isEmpty then s else s.promoRecord t.region level secs succs
    succs.foldl (fun s x => s.decrement x die) s

/-- The work of `tdone` behind its split, its commands and its reports. -/
def State.finishHart (s : State) (lv : Nat) : State :=
  let s := s.groutFirst (fun _ => true)
  let secs := s.h.turned.foldl (fun l x => ninsert x l) s.writeSets
  let s := (s.turnAllNow lv).modH (fun h => { h with instret := h.instret + 1 })
  match s.h.origin with
  | .none => s.endWith noTarget 0
  | .ending t e => s.endWith t e
  | .start q t u => s.endWith t (startRecord q s.h.region 0 0 u)
  | .task tcb =>
    let notify := (s.tasks.find? (fun t => t.tcb == tcb && t.notify)).map Task.target
    let s := s.taskDone tcb lv secs
    match notify with
    | some t => s.endWith t (mkEvent 0x02 0 s.h.region lv tcb)
    | none => s.endWith noTarget 0

/-- `tdone` (R193). -/
def execTdone (lv : BitVec 3) (s : State) : Res :=
  .next (match s.h.origin with
    | .ending t e => s.endWith t e
    | _ => s.splitThen (fun s =>
      if s.hasCommands s.h.id then s.stall .retry
      else s.reportThen (fun s => s.finishHart lv.toNat)))

/-! ### tyield and the event queue (R193, R301) -/

/-- `tyield` (R193): when the other slot is READY, this hart becomes READY and the core switches. -/
def execTyield (s : State) : Res :=
  .next (s.splitThen (fun s =>
    let id0 := s.h.id
    let go := !(s.gangProfiled s.h) && (match s.hart? (otherSlot s.h.id) with
      | some o => s.mayRun o
      | none => false)
    let s := s.doneSplit id
    if go && s.h.id == id0 && s.h.st == .running then (s.setSt .ready).yieldCore else s))

/-- Take the oldest record of the core's event queue: its location. -/
def State.evTaken (s : State) : Option Nat :=
  let c := s.core s.myCore
  if c.evHead = c.evTail then none else some ((s.evqLoc s.myCore c.evHead).getD 0)

/-- The record taken goes into two registers. -/
def State.takeEvent (s : State) (rd : BitVec 5) (loc : Nat) : State :=
  if s.poisoned (sectorOf loc) then s.deliver (trapOf causeProt (wd loc)) false
  else
    let c := s.core s.myCore
    let a := wd (s.homeNat loc 8)
    let b := wd (s.homeNat (loc + 8) 8)
    (s.setCore s.myCore { c with evHead := c.evHead + 1 }).ordered.doneSplit (fun r => ((r.writeS rd a).writeS (rd + 1) b).writeC 1 true)

/-- `evread` (R193). -/
def execEvread (rd : BitVec 5) (s : State) : Res :=
  .next (s.splitThen (fun s =>
    match s.evTaken with
    | some loc => s.takeEvent rd loc
    | none => s.doneSplit (fun r => ((r.writeS rd 0).writeS (rd + 1) 0).writeC 1 false)))

/-- `evwait` (R193). -/
def execEvwait (rd : BitVec 5) (s : State) : Res :=
  .next (s.splitThen (fun s =>
    match s.evTaken with
    | some loc => s.takeEvent rd loc
    | none => s.parkOn .retry))

/-- `lquery` (R193, R275): the grant is the one that a `setvl` would take now, with what LANEGRANT holds (R30). -/
def execLquery (rd : BitVec 5) (s : State) : Res :=
  .next (s.done (fun r => r.writeS rd
    (wd (s.h.granted.toNat + s.freeLanes (clusterOf s.myCore) * 2^4 + s.leaseNow.nextGrant s.leaseNow.h * 2^8))))

end Sys2Proof.Machine
end

