-- ==== Sys2Proof/Machine/Csr.lean ====
section
/-!
DEFINITION. Control and status registers (R9, R10, R25 to R32, R195).
-/

namespace Sys2Proof.Machine

/-! ### The CSR map (Table state.3) -/

/-- The level that reads a CSR and the one that writes it, if any does; none for an unassigned number. -/
def csrLevels (n : Nat) : Option (Nat × Option Nat) :=
  match n with
  | 0x000 | 0x001 | 0x010 | 0x011 | 0x030 | 0x031 | 0x032 | 0x033 | 0x050 | 0x051 | 0x052 | 0x182 | 0x183 => some (0, none)
  | 0x002 | 0x003 | 0x005 | 0x012 | 0x013 | 0x053 | 0x180 | 0x181 | 0x1C0 | 0x1C1 | 0x1C2 => some (0, some 0)
  | 0x004 | 0x021 | 0x040 => some (0, some 1)
  | 0x020 | 0x100 | 0x101 | 0x102 | 0x103 | 0x104 | 0x105 => some (1, some 1)
  | _ => none

/-- GANGW (Table state.8). -/
def Hart.gangw (h : Hart) : Nat :=
  match h.gang with
  | some g => g.width + g.member * 2^3
  | none => 1

/-- TRACECTL as it reads: INTRUSIVE is an expert field, and without the TRACE grant all of it is zero (R9, R32). -/
def Hart.tracectlNow (h : Hart) : Nat :=
  if h.trace then nput h.tracectl.toNat 16 1 (bnat h.intrusive) else 0

/-- LANEGRANT (Table state.8). -/
def Hart.lanegrant (h : Hart) : Nat :=
  h.granted.toNat + h.min.toNat * 2^8 + h.pref.toNat * 2^12 + h.vlceil.toNat * 2^16

/-- PRIV (Table state.9). -/
def Hart.priv (h : Hart) : Nat := h.cur.toNat + h.prev.toNat * 2^2 + bnat h.expert * 2^8

/-- STRIPCTL as it reads: LIMIT is an expert field (R9). -/
def Hart.stripctlNow (h : Hart) : Nat := if h.expert then h.stripctl.toNat else nput h.stripctl.toNat 8 32 0

/-- FFLAGS as it reads: TE is an expert field (R9). -/
def Hart.fflagsNow (h : Hart) : Nat := if h.expert then h.r.fflags.toNat else nbits h.r.fflags.toNat 0 5

/-- What a CSR reads as. SLIPD.QUEUED counts the blocks that stand in the queues (R204). -/
def State.csrValue (s : State) (n : Nat) : Nat :=
  let h := s.h
  match n with
  | 0x000 => h.r.vl
  | 0x001 => h.vlmaxNow
  | 0x002 => h.r.vtype.toNat
  | 0x003 => h.fflagsNow
  | 0x004 => h.eixCsr.toNat
  | 0x005 => h.r.slip.toNat + h.queue.length * 2^8
  | 0x010 => h.stripn.toNat
  | 0x011 => h.strippc.toNat
  | 0x012 => h.stripctlNow
  | 0x013 => h.limit + h.used * 2^32
  | 0x020 => h.faultrec.toNat
  | 0x021 => h.turnprog.toNat
  | 0x030 => (h.tl.get 0).toNat
  | 0x031 => (h.tl.get 1).toNat
  | 0x032 => (h.tl.get 2).toNat
  | 0x033 => (h.tl.get 3).toNat
  | 0x040 => (s.core s.myCore).evq.toNat
  | 0x050 => s.pkg.toNat * 2^11 + h.id.toNat
  | 0x051 => h.region.toNat
  | 0x052 => h.gangw
  | 0x053 => h.lanegrant
  | 0x100 => h.priv
  | 0x101 => h.epc.toNat
  | 0x102 => h.ecause.toNat
  | 0x103 => h.eval.toNat
  | 0x104 => h.trapvec.toNat
  | 0x105 => h.savearea.toNat
  | 0x180 => h.tracectlNow
  | 0x181 => if h.trace then h.samplebuf.toNat else 0
  | 0x182 => (s.core s.myCore).cycle.toNat
  | 0x183 => h.instret.toNat
  | 0x1C0 => h.r.osmax.toNat
  | 0x1C1 => h.r.ossum.toNat
  | 0x1C2 => h.r.oscale.toNat
  | _ => 0

/-- CYCLE has advanced by a free number of cycles since it was last looked at (R26; log entry 6). -/
def State.tickCycle (s : State) : State :=
  let c := s.core s.myCore
  s.setCore s.myCore { c with cycle := c.cycle + wd (Config.freeCycles s.clock) }

/-! ### Writes, field by field -/

/-- FFLAGS: the flags, and TE where the region is expert (Table state.6). -/
def Hart.putFflags (h : Hart) (x : Nat) : Hart :=
  let te := if h.expert then nbits x 8 5 else nbits h.r.fflags.toNat 8 5
  { h with r := { h.r with fflags := BitVec.ofNat 13 (nbits x 0 5 + te * 2^8) } }

/-- STRIPCTL (Table state.7): PREEMPTWAIT from supervisor level on. -/
def Hart.putStripctl (h : Hart) (x : Nat) : Hart :=
  let old := h.stripctl.toNat
  let wait := if h.cur = 0 then nbits old 40 24 else nbits x 40 24
  let limit := if h.expert then nbits x 8 32 else nbits old 8 32
  { h with stripctl := wd (nbits x 0 1 + limit * 2^8 + wait * 2^40) }

/-- STOREBUDGET.LIMIT: above 131,072 stores 131,072 (Table state.7). -/
def Hart.putBudget (h : Hart) (x : Nat) : Hart :=
  if h.expert then { h with budget := BitVec.ofNat 18 (Nat.min (nbits x 0 18) 131072) } else h

/-- MIN and PREF (R30). -/
def Hart.putLanes (h : Hart) (x : Nat) : Hart :=
  let ok := fun (v : Nat) (old : BitVec 4) => if 1 ≤ v ∧ v ≤ 8 then BitVec.ofNat 4 v else old
  let m := ok (nbits x 8 4) h.min
  let p := ok (nbits x 12 4) h.pref
  { h with min := m, pref := if p < m then m else p }

/-- PRIV.PREV, but for its reserved code (Table state.9). -/
def Hart.putPriv (h : Hart) (x : Nat) : Hart := if nbits x 2 2 = 3 then h else { h with prev := BitVec.ofNat 2 (nbits x 2 2) }

/-- FAULTREC: BASE, and VALID cleared by a 1 (Table state.10). -/
def Hart.putFaultrec (h : Hart) (x : Nat) : Hart :=
  { h with faultrec := wd (nbits x 8 56 * 2^8 + (if nbit x 0 then 0 else nbits h.faultrec.toNat 0 1)) }

/-- TRACECTL, under the TRACE grant (R32): INTRUSIVE is set from hypervisor level by an expert region alone (R363). -/
def Hart.putTracectl (h : Hart) (x : Nat) : Hart :=
  let old := nbits h.tracectl.toNat 16 1
  let intr := if !h.expert then old else if nbit x 16 then (if h.cur = 2 then 1 else old) else 0
  if h.trace then { h with tracectl := wd (nbits x 0 2 + nbits x 8 4 * 2^8 + intr * 2^16) } else h

/-- SAMPLEBUF, under the TRACE grant: a reserved size leaves its field. -/
def Hart.putSamplebuf (h : Hart) (x : Nat) : Hart :=
  let size := if 12 ≤ nbits x 0 6 ∧ nbits x 0 6 ≤ 40 then nbits x 0 6 else nbits h.samplebuf.toNat 0 6
  if h.trace then { h with samplebuf := wd (nbits x 12 52 * 2^12 + size) } else h

/-- A write of a CSR that only the hart holds. -/
def Hart.putCsr (h : Hart) (n : Nat) (x : Nat) : Hart :=
  match n with
  | 0x002 => h.setVtype (wd x)
  | 0x003 => h.putFflags x
  | 0x004 => { h with eixCsr := wd x }
  | 0x005 => { h with r := { h.r with slip := BitVec.ofNat 3 x } }
  | 0x012 => h.putStripctl x
  | 0x013 => h.putBudget x
  | 0x020 => h.putFaultrec x
  | 0x021 => { h with turnprog := wd x }
  | 0x053 => h.putLanes x
  | 0x100 => h.putPriv x
  | 0x101 => { h with epc := wd x }
  | 0x102 => { h with ecause := BitVec.ofNat 9 x }
  | 0x103 => { h with eval := wd x }
  | 0x104 => { h with trapvec := wd (x / 4 * 4) }
  | 0x105 => { h with savearea := wd (x / 4096 * 4096) }
  | 0x180 => h.putTracectl x
  | 0x181 => h.putSamplebuf x
  | 0x1C0 => { h with r := { h.r with osmax := BitVec.ofNat 32 x } }
  | 0x1C1 => { h with r := { h.r with ossum := BitVec.ofNat 32 x } }
  | 0x1C2 => { h with r := { h.r with oscale := BitVec.ofNat 32 x } }
  | _ => h

/-- Intrusive profiling begins: the clocks are at their rates, and a request for the hart that came by priority is held (R363). -/
def State.holdClocks (s : State) : State :=
  { s.modH (fun h => { h with preempt := h.preempt && s.regionStopped h.region }) with ratio := 16 }

/-- It ends: what it held is requested again, in every core of the hart's gang (R363). -/
def State.askAgain (s : State) : State := s.askCores s.h.gangIds

/-- A CSR whose accesses wait for every block fetched before: FFLAGS and the soft-maximum state (R123). -/
def waitsForBlocks (n : Nat) : Bool := n == 0x003 || n == 0x1C0 || n == 0x1C1 || n == 0x1C2

/-- A write of a CSR, and how the instruction goes on: a write of EVQ that finds records queued traps ILLEGAL (R288), a change of
INTRUSIVE waits for its events, and what pre-emption a cleared INTRUSIVE held is requested again (R363). -/
def State.csrWrite (s : State) (n : Nat) (x : Nat) (k : State → State) : State :=
  let c := s.core s.myCore
  if n = 0x040 then
    if c.evHead = c.evTail then k (s.setCore s.myCore { c with evq := wd (x / 256 * 256), evHead := 0, evTail := 0 })
    else s.illegal (wd (c.evTail - c.evHead))
  else
    let h := s.h.putCsr n x
    if h.intrusive ≠ s.h.intrusive then
      match s.intrusiveNow h.intrusive with
      | none => s.stall .retry
      | some s =>
        let s := s.modH (fun _ => h)
        k (if h.intrusive then s.holdClocks else s.askAgain)
    else if n = 0x181 then k ((s.modH (fun _ => h)).readHeader)
    else k (s.modH (fun _ => h))

/-- `csrr`, `csrw`, `csrs` and `csrc` (R25, R195): an unassigned number, and a write where none is, trap ILLEGAL with the word. -/
def State.csr (s : State) (i : Instr) (rd : BitVec 5) (c : BitVec 12) (new : Option (Nat → Nat)) : State :=
  let word := (encodeScalar i).setWidth 64
  match csrLevels c.toNat, new with
  | none, _ => s.illegal word
  | some (r, _), none => s.needLevel r i (fun s =>
      let s := if c = 0x182 then s.tickCycle else s
      let v := s.csrValue c.toNat
      s.done (fun r => r.writeS rd (wd v)))
  | some (_, none), some _ => s.illegal word
  | some (_, some w), some f => s.needLevel w i (fun s =>
      let v := s.csrValue c.toNat
      s.csrWrite c.toNat (f v) (fun s => s.done (fun r => r.writeS rd (wd v))))

/-- `csrr` (R195). -/
def execCsrr (rd : BitVec 5) (c : BitVec 12) (s : State) : Res := .next (s.csr (.csrr rd c) rd c none)

/-- `csrw` (R195). -/
def execCsrw (rd : BitVec 5) (ra : BitVec 5) (c : BitVec 12) (s : State) : Res :=
  let x := (s.h.r.readS ra).toNat
  .next (s.csr (.csrw rd ra c) rd c (some (fun _ => x)))

/-- `csrs` (R195). -/
def execCsrs (rd : BitVec 5) (ra : BitVec 5) (c : BitVec 12) (s : State) : Res :=
  let x := (s.h.r.readS ra).toNat
  .next (s.csr (.csrs rd ra c) rd c (some (fun v => v ||| x)))

/-- `csrc` (R195). -/
def execCsrc (rd : BitVec 5) (ra : BitVec 5) (c : BitVec 12) (s : State) : Res :=
  let x := (s.h.r.readS ra).toNat
  .next (s.csr (.csrc rd ra c) rd c (some (fun v => v &&& (2^64 - 1 - x))))

end Sys2Proof.Machine
end

