-- ==== Sys2Proof/Machine/ElementFloat.lean ====
section
/-!
DEFINITION. Floating element instructions (R127 to R133), reductions (R138), the online soft-maximum (R140, R141), and the movement
forms (R167 to R169).
-/

namespace Sys2Proof.Machine

/-! ### Shapes -/

/-- A floating form: one rounded result for each active element, with its flags (R129). -/
def State.fltWord (s : State) (i : Instr) (e : EWord) (f : Fmt → Rm → Nat → Nat → Nat → Rounded) : State :=
  let t := e.fF
  s.element i (fun s => .ok (s.putRounded e.vd t.width (s.onActive i e (fun k =>
    f t (s.rm e) (elt t.width (s.src i e.va) k) (s.bF i e k) (elt t.width (s.src i e.vc) k)))))

/-- The comparison of class I (R127). -/
def icmp (w : Nat) (signed : Bool) (cond a b : Nat) : Bool :=
  let x := intVal w signed a
  let y := intVal w signed b
  match cond with
  | 0 => a == b
  | 1 => a != b
  | 2 => decide (x < y)
  | 3 => decide (y ≤ x)
  | 4 => decide (x ≤ y)
  | _ => decide (y < x)

/-- The active elements of a source, the others ABSENT (R138). -/
def State.present (s : State) (i : Instr) (e : EWord) (r : BitVec 5) (w : Nat) : List (Option Nat) :=
  s.onActive i e (fun k => elt w (s.src i r) k)

/-- The seed of a reduction: element 0 of vb, the immediate or the scalar (R138). -/
def State.seed (s : State) (i : Instr) (e : EWord) : Nat := if e.isF then s.bF i e 0 else s.bI i e 0

/-- A reduction in class F: the tree of the present elements, combined with the seed; a tree without elements gives the seed
unrounded (R49, R138). -/
def reduceF (comb : Nat → Nat → Rounded) (seed : Nat) (es : List (Option Nat)) : Rounded :=
  match tree comb es with
  | (none, _) => (seed, 0)
  | (some x, fl) =>
    let r := comb seed x
    (r.1, fl ||| r.2)

/-- A reduction writes element 0 of vd, always (R138). -/
def State.redWord (s : State) (i : Instr) (e : EWord) (ff : Fmt → Rm → Nat → Nat → Rounded) (fi : Int → Int → Int) : State :=
  s.element i (fun s =>
    let w := e.wIF
    let es := s.present i e e.va w
    let seed := s.seed i e
    let r : Rounded :=
      if e.isF then reduceF (ff e.fF (s.rm e)) seed es
      else match e.tI with
        | .int w t => (wrapN w ((es.filterMap id).foldl (fun x y => fi x (intVal w t y)) (intVal w t seed)), 0)
        | .flt _ => (seed, 0)
    .ok ((s.putElts e.vd w [some r.1]).modH (fun h => h.raise r.2)))

/-- A movement form's amount or index: B unsigned (R167). -/
def State.amount (s : State) (i : Instr) (e : EWord) : Nat :=
  if e.opsel = 0 then elt e.wW (s.src i e.vb) 0
  else if e.opsel = 1 then e.imm.toNat
  else (s.snapS e.sreg).toNat

/-- A movement form: a value for each active element, or none where it stays. -/
def State.moveWord (s : State) (i : Instr) (e : EWord) (f : State → Nat → Option Nat) : State :=
  s.element i (fun s => .ok (s.putElts e.vd e.wW ((s.onActive i e (f s)).map Option.join)))

/-- Element k of va. -/
def State.aW (s : State) (i : Instr) (e : EWord) (k : Nat) : Nat := elt e.wW (s.src i e.va) k

/-! ### The meanings -/

/-- `vcmp` (R127). -/
def execVcmp (e : EWord) (s : State) : Res :=
  .next (s.element (.vcmp e) (fun s =>
    let w := e.wIF
    let i : Instr := .vcmp e
    let r := s.onActive i e (fun k =>
      let a := elt w (s.src i e.va) k
      if e.isF then fcmp e.fF e.rnd.toNat a (s.bF i e k)
      else match e.tI with
        | .int w t => (icmp w t e.rnd.toNat a (s.bI i e k), 0)
        | .flt _ => (false, 0))
    .ok ((s.putBits (kOf e.vd) (r.map (fun x => x.map Prod.fst))).modH (fun h =>
      h.raise (orFlags (r.filterMap (fun x => x.map Prod.snd)))))))

/-- `vclass` (R128). -/
def execVclass (e : EWord) (s : State) : Res :=
  .next (s.element (.vclass e) (fun s => .ok (s.putElts e.vd e.fF.width (s.onActive (.vclass e) e (fun k =>
    fclass e.fF (elt e.fF.width (s.src (.vclass e) e.va) k))))))

/-- `vfadd` (Table arith.6). -/
def execVfadd (e : EWord) (s : State) : Res :=
  .next (s.fltWord (.vfadd e) e (fun f rm a b _ => fadd f rm a b))

/-- `vfsub` (Table arith.6). -/
def execVfsub (e : EWord) (s : State) : Res :=
  .next (s.fltWord (.vfsub e) e (fun f rm a b _ => fsub f rm a b))

/-- `vfmul` (Table arith.6). -/
def execVfmul (e : EWord) (s : State) : Res :=
  .next (s.fltWord (.vfmul e) e (fun f rm a b _ => fmul f rm a b))

/-- `vfma` (Table arith.6). -/
def execVfma (e : EWord) (s : State) : Res :=
  .next (s.fltWord (.vfma e) e (fun f rm a b c => ffma f rm e.f10 a b c))

/-- `vfdiv` (Table arith.6). -/
def execVfdiv (e : EWord) (s : State) : Res :=
  .next (s.fltWord (.vfdiv e) e (fun f rm a b _ => fdiv f rm a b))

/-- `vfsqrt` (Table arith.6). -/
def execVfsqrt (e : EWord) (s : State) : Res :=
  .next (s.fltWord (.vfsqrt e) e (fun f rm a _ _ => fsqrt f rm a))

/-- `vfmin` (Table arith.6). -/
def execVfmin (e : EWord) (s : State) : Res :=
  .next (s.fltWord (.vfmin e) e (fun f _ a b _ => fminmax f false a b))

/-- `vfmax` (Table arith.6). -/
def execVfmax (e : EWord) (s : State) : Res :=
  .next (s.fltWord (.vfmax e) e (fun f _ a b _ => fminmax f true a b))

/-- `vfexp2` (Table arith.6). -/
def execVfexp2 (e : EWord) (s : State) : Res :=
  .next (s.fltWord (.vfexp2 e) e (fun _ rm a _ _ => fexp2 rm a))

/-- `vfabs` (Table arith.6). -/
def execVfabs (e : EWord) (s : State) : Res :=
  .next (s.fltWord (.vfabs e) e (fun f _ a _ _ => fsign f true a))

/-- `vfneg` (Table arith.6). -/
def execVfneg (e : EWord) (s : State) : Res :=
  .next (s.fltWord (.vfneg e) e (fun f _ a _ _ => fsign f false a))

/-- `vcvt` (R133). Every source element is read before any element of vd is written, also where vd is va and the widths differ (DESIGN
CHOICE, log entry 89: R119 orders element i of the one before element i of the other, and R167 speaks of movement forms). -/
def execVcvt (e : EWord) (s : State) : Res :=
  .next (s.element (.vcvt e) (fun s =>
    let src := etypeOf (nbits e.imm.toNat 4 4)
    let dst := etypeOf (nbits e.imm.toNat 0 4)
    .ok (s.putRounded e.vd dst.width (s.onActive (.vcvt e) e (fun k =>
      convert src dst (s.rm e) (elt src.width (s.src (.vcvt e) e.va) k))))))

/-- `vredsum` (R138). -/
def execVredsum (e : EWord) (s : State) : Res :=
  .next (s.redWord (.vredsum e) e (fun f rm a b => fadd f rm a b) (fun x y => x + y))

/-- `vredmax` (R138). -/
def execVredmax (e : EWord) (s : State) : Res :=
  .next (s.redWord (.vredmax e) e (fun f _ a b => fminmax f true a b) (fun x y => if x ≤ y then y else x))

/-- `vredmin` (R138). -/
def execVredmin (e : EWord) (s : State) : Res :=
  .next (s.redWord (.vredmin e) e (fun f _ a b => fminmax f false a b) (fun x y => if x ≤ y then x else y))

/-- The result of one `vosm` (R140): the weights below VL, OSMAX, OSSUM, OSCALE and the flags. -/
def softMax (osmax ossum : Nat) (es : List (Option Nat)) : List Nat × Nat × Nat × Nat × BitVec 5 :=
  let f := Fmt.f32
  let ninf := 0xFF800000
  let m := es.foldl (fun (x : Rounded) e => match e with
    | some v => let r := fminmax f true x.1 v; (r.1, x.2 ||| r.2)
    | none => x) (osmax, 0)
  let exp := fun (a : Nat) =>
    let d := fsub f .rne a m.1
    let r := fexp2 .rne d.1
    ((r.1, d.2 ||| r.2) : Rounded)
  let scale : Rounded := if osmax = ninf ∧ m.1 = ninf then (0x3F800000, 0) else exp osmax
  let ws : List (Option Rounded) := es.map (fun e => e.map (fun v => if v = ninf then ((0, 0) : Rounded) else exp v))
  let t := tree (fun a b => fadd f .rne a b) (ws.map (fun x => x.map Prod.fst))
  let p := fmul f .rne ossum scale.1
  let q := fadd f .rne p.1 (t.1.getD 0)
  (ws.map (fun x => (x.map Prod.fst).getD 0), m.1, q.1, scale.1, m.2 ||| scale.2 ||| someFlags ws ||| t.2 ||| p.2 ||| q.2)

/-- `vosm` (R140). -/
def execVosm (e : EWord) (s : State) : Res :=
  .next (s.element (.vosm e) (fun s =>
    let es := s.present (.vosm e) e e.va 32
    if es.all Option.isNone then .ok (s.modR (fun r => { r with oscale := 0x3F800000 }))
    else
      let (ws, mx, sm, sc, fl) := softMax s.h.r.osmax.toNat s.h.r.ossum.toNat es
      .ok ((s.putElts e.vd 32 (ws.map some)).modH (fun h =>
        ({ h with r := { h.r with osmax := BitVec.ofNat 32 mx, ossum := BitVec.ofNat 32 sm,
                                  oscale := BitVec.ofNat 32 sc } } : Hart).raise fl))))

/-- `vfnorm` (R141). -/
def execVfnorm (e : EWord) (s : State) : Res :=
  .next (s.element (.vfnorm e) (fun s =>
    let d := s.h.r.ossum.toNat
    .ok (s.putRounded e.vd 32 (s.onActive (.vfnorm e) e (fun k =>
      if d = 0 ∨ d = 0x80000000 then (0, 0) else fdiv Fmt.f32 .rne (elt 32 (s.src (.vfnorm e) e.va) k) d)))))

/-- `vbcast` (R167): element 0 of vb, the immediate or the scalar. -/
def execVbcast (e : EWord) (s : State) : Res :=
  .next (s.moveWord (.vbcast e) e (fun s _ => some (s.bW (.vbcast e) e 0)))

/-- `viota` (R167): the step stands in [43:34]. -/
def execViota (e : EWord) (s : State) : Res :=
  .next (s.moveWord (.viota e) e (fun _ k =>
    some (wrapN e.wW ((e.imm.toNat : Int) + k * sInt 10 (e.vb.toNat * 32 + e.vc.toNat)))))

/-- `vslideup` (R167). -/
def execVslideup (e : EWord) (s : State) : Res :=
  .next (s.moveWord (.vslideup e) e (fun s k =>
    let n := s.amount (.vslideup e) e
    if k < n then none else some (s.aW (.vslideup e) e (k - n))))

/-- `vslidedn` (R167). -/
def execVslidedn (e : EWord) (s : State) : Res :=
  .next (s.moveWord (.vslidedn e) e (fun s k =>
    let n := s.amount (.vslidedn e) e
    some (if k + n < s.vl then s.aW (.vslidedn e) e (k + n) else 0)))

/-- `vperm` (R167). -/
def execVperm (e : EWord) (s : State) : Res :=
  .next (s.moveWord (.vperm e) e (fun s k =>
    let j := elt e.wW (s.src (.vperm e) e.vb) k
    some (if j < s.vl then s.aW (.vperm e) e j else 0)))

/-- `vcompress` (R167). -/
def execVcompress (e : EWord) (s : State) : Res :=
  .next (s.element (.vcompress e) (fun s =>
    .ok (s.putElts e.vd e.wW ((s.activeIdx (.vcompress e) e).map (fun k => some (s.aW (.vcompress e) e k))))))

/-- `vexpand` (R167). -/
def execVexpand (e : EWord) (s : State) : Res :=
  .next (s.moveWord (.vexpand e) e (fun s k =>
    some (s.aW (.vexpand e) e ((s.activeIdx (.vexpand e) e).filter (fun j => decide (j < k))).length)))

/-- `vextract` (R168). -/
def execVextract (e : EWord) (s : State) : Res :=
  .next (s.element (.vextract e) (fun s =>
    let n := s.amount (.vextract e) e
    .ok (s.modR (fun r => r.writeS e.vd (wd (if n < s.vl then s.aW (.vextract e) e n else 0))))))

end Sys2Proof.Machine
end

