-- ==== Sys2Proof/Machine/ElementInt.lean ====
section
/-!
DEFINITION. Integer element instructions (R124 to R126), `vmerge` (R139), the mask instructions (R134 to R137), and `vnop`, hints and
`stop`.
-/

namespace Sys2Proof.Machine

/-! ### Shapes -/

/-- `Sat` or `Wrap` of an exact integer (R125). -/
def intResult (w : Nat) (signed sat : Bool) (x : Int) : Nat := if sat then satN w signed x else wrapN w x

/-- An integer form: F of the elements of va, B and vc, exact, then one wrap or saturation (R125). -/
def State.intWord (s : State) (i : Instr) (e : EWord) (f : Nat → Bool → Nat → Nat → Nat → Int) : State :=
  match e.tI with
  | .flt _ => s
  | .int w signed =>
    s.element i (fun s => .ok (s.putElts e.vd w (s.onActive i e (fun k =>
      intResult w signed (e.rnd == 1)
        (f w signed (elt w (s.src i e.va) k) (s.bI i e k) (elt w (s.src i e.vc) k))))))

/-- `vadc` and `vsbc` (R126): every element below VL, with the carry taken from the mask field and given to vc's mask. -/
def State.carryWord (s : State) (i : Instr) (e : EWord) (invert : Bool) : State :=
  match e.tI with
  | .flt _ => s
  | .int w _ =>
    s.element i (fun s =>
      let xs := (List.range s.vl).map (fun k =>
        let b := s.bI i e k
        elt w (s.src i e.va) k + (if invert then 2^w - 1 - b else b) + bnat (s.maskBit i e k))
      .ok ((s.putElts e.vd w (xs.map (fun x => some (x % 2^w)))).putBits (kOf e.vc) (xs.map (fun x => some (x / 2^w == 1)))))

/-- A mask form: a bit for each active element (R134). -/
def State.maskWord (s : State) (i : Instr) (e : EWord) (f : State → Nat → Bool) : State :=
  s.element i (fun s => .ok (s.putBits (kOf e.vd) (s.onActive i e (f s))))

/-- P of R137: the active elements whose bit of A is set, rising. -/
def State.setBits (s : State) (i : Instr) (e : EWord) : List Nat :=
  (List.range s.vl).filter (fun k => s.maskBit i e k && nbit (s.srcK i (kOf e.va)) k)

/-- A count over P into a scalar register, always (R137). -/
def State.countWord (s : State) (i : Instr) (e : EWord) (f : List Nat → Word) : State :=
  s.element i (fun s => .ok (s.modR (fun r => r.writeS e.vd (f (s.setBits i e)))))

/-! ### The meanings -/

/-- `vadd` (Table arith.3): Ty(a) + Ty(b). -/
def execVadd (e : EWord) (s : State) : Res :=
  .next (s.intWord (.vadd e) e (fun w t a b _ => intVal w t a + intVal w t b))

/-- `vsub` (Table arith.3): Ty(a) − Ty(b). -/
def execVsub (e : EWord) (s : State) : Res :=
  .next (s.intWord (.vsub e) e (fun w t a b _ => intVal w t a - intVal w t b))

/-- `vadc` (R126). -/
def execVadc (e : EWord) (s : State) : Res :=
  .next (s.carryWord (.vadc e) e false)

/-- `vsbc` (R126). -/
def execVsbc (e : EWord) (s : State) : Res :=
  .next (s.carryWord (.vsbc e) e true)

/-- `vmul` (Table arith.3): Ty(a) · Ty(b). -/
def execVmul (e : EWord) (s : State) : Res :=
  .next (s.intWord (.vmul e) e (fun w t a b _ => intVal w t a * intVal w t b))

/-- `vmulh` (Table arith.3): the high half. -/
def execVmulh (e : EWord) (s : State) : Res :=
  .next (s.intWord (.vmulh e) e (fun w t a b _ => intVal w t a * intVal w t b / 2^w))

/-- `vmac` (Table arith.3): Ty(a) · Ty(b) + Ty(c). -/
def execVmac (e : EWord) (s : State) : Res :=
  .next (s.intWord (.vmac e) e (fun w t a b c => intVal w t a * intVal w t b + intVal w t c))

/-- `vand` (Table arith.3): a AND b. -/
def execVand (e : EWord) (s : State) : Res :=
  .next (s.intWord (.vand e) e (fun _ _ a b _ => ((a &&& b : Nat) : Int)))

/-- `vor` (Table arith.3): a OR b. -/
def execVor (e : EWord) (s : State) : Res :=
  .next (s.intWord (.vor e) e (fun _ _ a b _ => ((a ||| b : Nat) : Int)))

/-- `vxor` (Table arith.3): a XOR b. -/
def execVxor (e : EWord) (s : State) : Res :=
  .next (s.intWord (.vxor e) e (fun _ _ a b _ => ((a ^^^ b : Nat) : Int)))

/-- `vandn` (Table arith.3): a AND NOT b. -/
def execVandn (e : EWord) (s : State) : Res :=
  .next (s.intWord (.vandn e) e (fun w _ a b _ => ((a &&& (2^w - 1 - b) : Nat) : Int)))

/-- `vsll` (Table arith.3): Ty(a) · 2^sh. -/
def execVsll (e : EWord) (s : State) : Res :=
  .next (s.intWord (.vsll e) e (fun w t a b _ => intVal w t a * 2^(b % w)))

/-- `vsrl` (Table arith.3): floor(Un(a) / 2^sh). -/
def execVsrl (e : EWord) (s : State) : Res :=
  .next (s.intWord (.vsrl e) e (fun w _ a b _ => ((a / 2^(b % w) : Nat) : Int)))

/-- `vsra` (Table arith.3): floor(Sg(a) / 2^sh). -/
def execVsra (e : EWord) (s : State) : Res :=
  .next (s.intWord (.vsra e) e (fun w _ a b _ => sInt w a / 2^(b % w)))

/-- `vmin` (Table arith.3): the smaller signed. -/
def execVmin (e : EWord) (s : State) : Res :=
  .next (s.intWord (.vmin e) e (fun w _ a b _ => if sInt w a ≤ sInt w b then sInt w a else sInt w b))

/-- `vmax` (Table arith.3): the larger signed. -/
def execVmax (e : EWord) (s : State) : Res :=
  .next (s.intWord (.vmax e) e (fun w _ a b _ => if sInt w a ≤ sInt w b then sInt w b else sInt w a))

/-- `vminn` (Table arith.3): the smaller unsigned. -/
def execVminn (e : EWord) (s : State) : Res :=
  .next (s.intWord (.vminn e) e (fun _ _ a b _ => ((Nat.min a b : Nat) : Int)))

/-- `vmaxn` (Table arith.3): the larger unsigned. -/
def execVmaxn (e : EWord) (s : State) : Res :=
  .next (s.intWord (.vmaxn e) e (fun _ _ a b _ => ((Nat.max a b : Nat) : Int)))

/-- `vabs` (Table arith.3): |Ty(a)|. -/
def execVabs (e : EWord) (s : State) : Res :=
  .next (s.intWord (.vabs e) e (fun w t a _ _ => ((intVal w t a).natAbs : Int)))

/-- `vneg` (Table arith.3): −Ty(a). -/
def execVneg (e : EWord) (s : State) : Res :=
  .next (s.intWord (.vneg e) e (fun w t a _ _ => -(intVal w t a)))

/-- `kand` (Table arith.8). -/
def execKand (e : EWord) (s : State) : Res :=
  .next (s.maskWord (.kand e) e (fun s k =>
    let a := nbit (s.srcK (.kand e) (kOf e.va)) k
    let b := nbit (s.srcK (.kand e) (kOf e.vb)) k
    a && b))

/-- `kor` (Table arith.8). -/
def execKor (e : EWord) (s : State) : Res :=
  .next (s.maskWord (.kor e) e (fun s k =>
    let a := nbit (s.srcK (.kor e) (kOf e.va)) k
    let b := nbit (s.srcK (.kor e) (kOf e.vb)) k
    a || b))

/-- `kxor` (Table arith.8). -/
def execKxor (e : EWord) (s : State) : Res :=
  .next (s.maskWord (.kxor e) e (fun s k =>
    let a := nbit (s.srcK (.kxor e) (kOf e.va)) k
    let b := nbit (s.srcK (.kxor e) (kOf e.vb)) k
    a ^^ b))

/-- `kandn` (Table arith.8). -/
def execKandn (e : EWord) (s : State) : Res :=
  .next (s.maskWord (.kandn e) e (fun s k =>
    let a := nbit (s.srcK (.kandn e) (kOf e.va)) k
    let b := nbit (s.srcK (.kandn e) (kOf e.vb)) k
    a && !b))

/-- `knot` (Table arith.8). -/
def execKnot (e : EWord) (s : State) : Res :=
  .next (s.maskWord (.knot e) e (fun s k => !(nbit (s.srcK (.knot e) (kOf e.va)) k)))

/-- `kmov` (Table arith.8). -/
def execKmov (e : EWord) (s : State) : Res :=
  .next (s.maskWord (.kmov e) e (fun s k => nbit (s.srcK (.kmov e) (kOf e.va)) k))

/-- `kshup` (R135): with `.c` the snapshot's `c1` enters at bit 0. -/
def execKshup (e : EWord) (s : State) : Res :=
  .next (s.maskWord (.kshup e) e (fun s k =>
    if k = 0 then e.rnd == 1 && s.snapC1 else nbit (s.srcK (.kshup e) (kOf e.va)) (k - 1)))

/-- `kshdn` (R135). -/
def execKshdn (e : EWord) (s : State) : Res :=
  .next (s.maskWord (.kshdn e) e (fun s k => decide (k + 1 < s.vl) && nbit (s.srcK (.kshdn e) (kOf e.va)) (k + 1)))

/-- `kset` (R136). -/
def execKset (e : EWord) (s : State) : Res :=
  .next (s.maskWord (.kset e) e (fun s k =>
    decide (k < if e.opsel = 1 then e.imm.toNat else (s.snapS e.sreg).toNat)))

/-- `kpopc` (R137). -/
def execKpopc (e : EWord) (s : State) : Res :=
  .next (s.countWord (.kpopc e) e (fun p => wd p.length))

/-- `kfirst` (R137). -/
def execKfirst (e : EWord) (s : State) : Res :=
  .next (s.countWord (.kfirst e) e (fun p => match p.head? with
    | some k => wd k
    | none => BitVec.allOnes 64))

/-- `klast` (R137). -/
def execKlast (e : EWord) (s : State) : Res :=
  .next (s.countWord (.klast e) e (fun p => match p.getLast? with
    | some k => wd k
    | none => BitVec.allOnes 64))

/-- `vmerge` (R139): every element below VL. -/
def execVmerge (e : EWord) (s : State) : Res :=
  .next (s.element (.vmerge e) (fun s => .ok (s.putElts e.vd e.wW ((List.range s.vl).map (fun k =>
    some (if s.maskBit (.vmerge e) e k then elt e.wW (s.src (.vmerge e) e.va) k else s.bW (.vmerge e) e k))))))

/-- `vnop` (R170): it only takes its place in the AQ. -/
def execVnop (e : EWord) (s : State) : Res :=
  .next (s.element (.vnop e) .ok)

/-- An element hint executes as `vnop`, whatever its bits hold (R72). -/
def execElementHint (op : BitVec 4) (bits : BitVec 54) (s : State) : Res :=
  .next (s.element (.elementHint op bits) .ok)

end Sys2Proof.Machine
end

