-- ==== Sys2Proof/Machine/ScalarAlu.lean ====
section
/-!
DEFINITION. Scalar instructions that compute (R92 to R97, R94, R95) and branches and jumps (R98 to R100). All of them leave the
strip open and count in it.
-/

namespace Sys2Proof.Machine

/-! ### The functions (Tables scalar.1 to scalar.4) -/

/-- Signed quotient, truncated toward zero (R93). -/
def divS (a b : Word) : Word := if b = 0 then BitVec.allOnes 64 else wdI (Int.tdiv a.toInt b.toInt)
/-- Unsigned quotient (R93). -/
def divU (a b : Word) : Word := if b = 0 then BitVec.allOnes 64 else wd (a.toNat / b.toNat)
/-- Signed remainder with the sign of the dividend (R93). -/
def remS (a b : Word) : Word := if b = 0 then a else wdI (Int.tmod a.toInt b.toInt)
/-- Unsigned remainder (R93). -/
def remU (a b : Word) : Word := if b = 0 then a else wd (a.toNat % b.toNat)
/-- The shift amount: the low six bits (R92). -/
def shamt (b : Word) : Nat := b.toNat % 64
/-- Zero bits above the highest one bit (R95). -/
def leadingZeros (x : Word) : Nat := if x = 0 then 64 else 63 - Nat.log2 x.toNat
/-- Zero bits below the lowest one bit among `k` bits from `64 - k` on (R95). -/
def trailingZeros (x : Nat) : Nat → Nat
  | 0 => 0
  | k + 1 => if x % 2 = 1 then 0 else 1 + trailingZeros (x / 2) k
/-- The one bits among the low `k` bits (R95). -/
def oneBits (x : Nat) : Nat → Nat
  | 0 => 0
  | k + 1 => x % 2 + oneBits (x / 2) k
/-- The bits of a size: 8, 16, 32 or 64 (R95, R101). -/
def sizeBits (sz : Nat) : Nat := 8 * 2 ^ (sz % 4)
/-- The bytes of a number of `n` bytes in reverse order (R95). -/
def reverseBytes : Nat → Nat → Nat
  | 0, _ => 0
  | n + 1, x => x % 256 * 256 ^ n + reverseBytes n (x / 256)
/-- A comparison (R96): eq, ne, lt, ge, ltn, gen. -/
def compareW (cond : Nat) (a b : Word) : Bool :=
  match cond with
  | 0 => a == b
  | 1 => !(a == b)
  | 2 => decide (a.toInt < b.toInt)
  | 3 => decide (b.toInt ≤ a.toInt)
  | 4 => decide (a.toNat < b.toNat)
  | _ => decide (b.toNat ≤ a.toNat)

/-! ### Shapes -/

/-- `op rd, ra, rb`: a function of two registers (R92). -/
def State.alu2 (s : State) (f : Word → Word → Word) (rd ra rb : BitVec 5) : State :=
  s.done (fun r => r.writeS rd (f (r.readS ra) (r.readS rb)))
/-- `op rd, ra`: a function of one register (R94, R95). -/
def State.alu1 (s : State) (f : Word → Word) (rd ra : BitVec 5) : State :=
  s.done (fun r => r.writeS rd (f (r.readS ra)))
/-- A comparison writes a condition bit (R96). -/
def State.cmpTo (s : State) (cd : BitVec 3) (cond : Nat) (a b : Word) : State :=
  s.done (fun r => r.writeC cd (compareW cond a b))
/-- A function of two condition bits (R97). -/
def State.cond2 (s : State) (f : Bool → Bool → Bool) (cd ca cb : BitVec 3) : State :=
  s.done (fun r => r.writeC cd (f (r.readC ca) (r.readC cb)))
/-- The instruction is done and execution goes on at a target (R98). -/
def State.jump (s : State) (target : Word) (f : Regs → Regs) : State :=
  s.modH (fun h => { ({ h with r := f h.r } : Hart).retire with pc := target })
/-- PC + sext(offset) · 4 (R98). -/
def State.relTarget (s : State) (off : Word) : Word := s.h.pc + off * 4
/-- A branch (R98). -/
def State.branchIf (s : State) (taken : Bool) (off : BitVec 21) : State :=
  if taken then s.jump (s.relTarget (off.signExtend 64)) id else s.done id

/-! ### The meanings -/

/-- `add` (R92): s[rd] := a + b. -/
def execAdd (rd : BitVec 5) (ra : BitVec 5) (rb : BitVec 5) (s : State) : Res :=
  .next (s.alu2 (fun a b => a + b) rd ra rb)

/-- `sub` (R92): s[rd] := a − b. -/
def execSub (rd : BitVec 5) (ra : BitVec 5) (rb : BitVec 5) (s : State) : Res :=
  .next (s.alu2 (fun a b => a - b) rd ra rb)

/-- `mul` (R92): bits [63:0] of the product. -/
def execMul (rd : BitVec 5) (ra : BitVec 5) (rb : BitVec 5) (s : State) : Res :=
  .next (s.alu2 (fun a b => a * b) rd ra rb)

/-- `mulh` (R92): bits [127:64] of the signed product. -/
def execMulh (rd : BitVec 5) (ra : BitVec 5) (rb : BitVec 5) (s : State) : Res :=
  .next (s.alu2 (fun a b => wdI (a.toInt * b.toInt / 2^64)) rd ra rb)

/-- `mulhn` (R92): bits [127:64] of the unsigned product. -/
def execMulhn (rd : BitVec 5) (ra : BitVec 5) (rb : BitVec 5) (s : State) : Res :=
  .next (s.alu2 (fun a b => wd (a.toNat * b.toNat / 2^64)) rd ra rb)

/-- `div` (R92): signed quotient (R93). -/
def execDiv (rd : BitVec 5) (ra : BitVec 5) (rb : BitVec 5) (s : State) : Res :=
  .next (s.alu2 (fun a b => divS a b) rd ra rb)

/-- `divn` (R92): unsigned quotient (R93). -/
def execDivn (rd : BitVec 5) (ra : BitVec 5) (rb : BitVec 5) (s : State) : Res :=
  .next (s.alu2 (fun a b => divU a b) rd ra rb)

/-- `rem` (R92): signed remainder (R93). -/
def execRem (rd : BitVec 5) (ra : BitVec 5) (rb : BitVec 5) (s : State) : Res :=
  .next (s.alu2 (fun a b => remS a b) rd ra rb)

/-- `remn` (R92): unsigned remainder (R93). -/
def execRemn (rd : BitVec 5) (ra : BitVec 5) (rb : BitVec 5) (s : State) : Res :=
  .next (s.alu2 (fun a b => remU a b) rd ra rb)

/-- `and` (R92): AND. -/
def execAnd (rd : BitVec 5) (ra : BitVec 5) (rb : BitVec 5) (s : State) : Res :=
  .next (s.alu2 (fun a b => a &&& b) rd ra rb)

/-- `or` (R92): OR. -/
def execOr (rd : BitVec 5) (ra : BitVec 5) (rb : BitVec 5) (s : State) : Res :=
  .next (s.alu2 (fun a b => a ||| b) rd ra rb)

/-- `xor` (R92): XOR. -/
def execXor (rd : BitVec 5) (ra : BitVec 5) (rb : BitVec 5) (s : State) : Res :=
  .next (s.alu2 (fun a b => a ^^^ b) rd ra rb)

/-- `andn` (R92): a AND NOT b. -/
def execAndn (rd : BitVec 5) (ra : BitVec 5) (rb : BitVec 5) (s : State) : Res :=
  .next (s.alu2 (fun a b => a &&& ~~~b) rd ra rb)

/-- `sll` (R92): left shift by the low six bits. -/
def execSll (rd : BitVec 5) (ra : BitVec 5) (rb : BitVec 5) (s : State) : Res :=
  .next (s.alu2 (fun a b => a <<< shamt b) rd ra rb)

/-- `srl` (R92): right shift, zeros in. -/
def execSrl (rd : BitVec 5) (ra : BitVec 5) (rb : BitVec 5) (s : State) : Res :=
  .next (s.alu2 (fun a b => a >>> shamt b) rd ra rb)

/-- `sra` (R92): right shift, copies of bit 63 in. -/
def execSra (rd : BitVec 5) (ra : BitVec 5) (rb : BitVec 5) (s : State) : Res :=
  .next (s.alu2 (fun a b => a.sshiftRight (shamt b)) rd ra rb)

/-- `min` (R92): smaller signed. -/
def execMin (rd : BitVec 5) (ra : BitVec 5) (rb : BitVec 5) (s : State) : Res :=
  .next (s.alu2 (fun a b => if a.toInt ≤ b.toInt then a else b) rd ra rb)

/-- `max` (R92): larger signed. -/
def execMax (rd : BitVec 5) (ra : BitVec 5) (rb : BitVec 5) (s : State) : Res :=
  .next (s.alu2 (fun a b => if a.toInt ≤ b.toInt then b else a) rd ra rb)

/-- `minn` (R92): smaller unsigned. -/
def execMinn (rd : BitVec 5) (ra : BitVec 5) (rb : BitVec 5) (s : State) : Res :=
  .next (s.alu2 (fun a b => if a.toNat ≤ b.toNat then a else b) rd ra rb)

/-- `maxn` (R92): larger unsigned. -/
def execMaxn (rd : BitVec 5) (ra : BitVec 5) (rb : BitVec 5) (s : State) : Res :=
  .next (s.alu2 (fun a b => if a.toNat ≤ b.toNat then b else a) rd ra rb)

/-- `clz` (R95). -/
def execClz (rd : BitVec 5) (ra : BitVec 5) (s : State) : Res :=
  .next (s.alu1 (fun x => wd (leadingZeros x)) rd ra)

/-- `ctz` (R95). -/
def execCtz (rd : BitVec 5) (ra : BitVec 5) (s : State) : Res :=
  .next (s.alu1 (fun x => wd (trailingZeros x.toNat 64)) rd ra)

/-- `popc` (R95). -/
def execPopc (rd : BitVec 5) (ra : BitVec 5) (s : State) : Res :=
  .next (s.alu1 (fun x => wd (oneBits x.toNat 64)) rd ra)

/-- `sext` (R95). -/
def execSext (rd : BitVec 5) (ra : BitVec 5) (sz : BitVec 2) (s : State) : Res :=
  .next (s.alu1 (fun x => sextW (sizeBits sz.toNat) x.toNat) rd ra)

/-- `zext` (R95). -/
def execZext (rd : BitVec 5) (ra : BitVec 5) (sz : BitVec 2) (s : State) : Res :=
  .next (s.alu1 (fun x => wd (x.toNat % 2 ^ sizeBits sz.toNat)) rd ra)

/-- `bswap` (R95). -/
def execBswap (rd : BitVec 5) (ra : BitVec 5) (sz : BitVec 2) (s : State) : Res :=
  .next (s.alu1 (fun x => wd (reverseBytes (sizeBits sz.toNat / 8) x.toNat)) rd ra)

/-- `cmp.cond` (R96). -/
def execCmp (rd : BitVec 3) (ra : BitVec 5) (rb : BitVec 5) (k : BitVec 3) (s : State) : Res :=
  .next (s.cmpTo rd k.toNat (s.h.r.readS ra) (s.h.r.readS rb))

/-- `cand` (R97). -/
def execCand (rd : BitVec 3) (ra : BitVec 3) (rb : BitVec 3) (s : State) : Res :=
  .next (s.cond2 (fun a b => a && b) rd ra rb)

/-- `cor` (R97). -/
def execCor (rd : BitVec 3) (ra : BitVec 3) (rb : BitVec 3) (s : State) : Res :=
  .next (s.cond2 (fun a b => a || b) rd ra rb)

/-- `cxor` (R97). -/
def execCxor (rd : BitVec 3) (ra : BitVec 3) (rb : BitVec 3) (s : State) : Res :=
  .next (s.cond2 (fun a b => a ^^ b) rd ra rb)

/-- `cnot` (R97). -/
def execCnot (rd : BitVec 3) (ra : BitVec 3) (s : State) : Res :=
  .next (s.done (fun r => r.writeC rd (!(r.readC ra))))

/-- `csel` (R97). -/
def execCsel (rd : BitVec 5) (ra : BitVec 5) (rb : BitVec 5) (c : BitVec 3) (s : State) : Res :=
  .next (s.done (fun r => r.writeS rd (if r.readC c then r.readS ra else r.readS rb)))

/-- `addi` (R94). -/
def execAddi (rd : BitVec 5) (ra : BitVec 5) (imm : BitVec 15) (s : State) : Res :=
  .next (s.alu1 (fun a => a + imm.signExtend 64) rd ra)

/-- `andi` (R94). -/
def execAndi (rd : BitVec 5) (ra : BitVec 5) (imm : BitVec 15) (s : State) : Res :=
  .next (s.alu1 (fun a => a &&& imm.setWidth 64) rd ra)

/-- `ori` (R94). -/
def execOri (rd : BitVec 5) (ra : BitVec 5) (imm : BitVec 15) (s : State) : Res :=
  .next (s.alu1 (fun a => a ||| imm.setWidth 64) rd ra)

/-- `xori` (R94). -/
def execXori (rd : BitVec 5) (ra : BitVec 5) (imm : BitVec 15) (s : State) : Res :=
  .next (s.alu1 (fun a => a ^^^ imm.setWidth 64) rd ra)

/-- `slli` (R94). -/
def execSlli (rd : BitVec 5) (ra : BitVec 5) (sh : BitVec 6) (s : State) : Res :=
  .next (s.alu1 (fun a => a <<< sh.toNat) rd ra)

/-- `srli` (R94). -/
def execSrli (rd : BitVec 5) (ra : BitVec 5) (sh : BitVec 6) (s : State) : Res :=
  .next (s.alu1 (fun a => a >>> sh.toNat) rd ra)

/-- `srai` (R94). -/
def execSrai (rd : BitVec 5) (ra : BitVec 5) (sh : BitVec 6) (s : State) : Res :=
  .next (s.alu1 (fun a => a.sshiftRight sh.toNat) rd ra)

/-- `lui` (R94). -/
def execLui (rd : BitVec 5) (imm : BitVec 20) (s : State) : Res :=
  .next (s.done (fun r => r.writeS rd (imm.signExtend 64 <<< 12)))

/-- `addpc` (R94). -/
def execAddpc (rd : BitVec 5) (imm : BitVec 20) (s : State) : Res :=
  .next (s.done (fun r => r.writeS rd (s.h.pc + imm.signExtend 64 <<< 12)))

/-- `cmpi.eq` (R96): the immediate is sign-extended first. -/
def execCmpiEq (rd : BitVec 3) (ra : BitVec 5) (imm : BitVec 15) (s : State) : Res :=
  .next (s.cmpTo rd 0 (s.h.r.readS ra) (imm.signExtend 64))

/-- `cmpi.ne` (R96): the immediate is sign-extended first. -/
def execCmpiNe (rd : BitVec 3) (ra : BitVec 5) (imm : BitVec 15) (s : State) : Res :=
  .next (s.cmpTo rd 1 (s.h.r.readS ra) (imm.signExtend 64))

/-- `cmpi.lt` (R96): the immediate is sign-extended first. -/
def execCmpiLt (rd : BitVec 3) (ra : BitVec 5) (imm : BitVec 15) (s : State) : Res :=
  .next (s.cmpTo rd 2 (s.h.r.readS ra) (imm.signExtend 64))

/-- `cmpi.ge` (R96): the immediate is sign-extended first. -/
def execCmpiGe (rd : BitVec 3) (ra : BitVec 5) (imm : BitVec 15) (s : State) : Res :=
  .next (s.cmpTo rd 3 (s.h.r.readS ra) (imm.signExtend 64))

/-- `cmpi.ltn` (R96): the immediate is sign-extended first. -/
def execCmpiLtn (rd : BitVec 3) (ra : BitVec 5) (imm : BitVec 15) (s : State) : Res :=
  .next (s.cmpTo rd 4 (s.h.r.readS ra) (imm.signExtend 64))

/-- `cmpi.gen` (R96): the immediate is sign-extended first. -/
def execCmpiGen (rd : BitVec 3) (ra : BitVec 5) (imm : BitVec 15) (s : State) : Res :=
  .next (s.cmpTo rd 5 (s.h.r.readS ra) (imm.signExtend 64))

/-- `bt` (R98). -/
def execBt (c : BitVec 3) (off : BitVec 21) (s : State) : Res :=
  .next (s.branchIf (s.h.r.readC c) off)

/-- `bf` (R98). -/
def execBf (c : BitVec 3) (off : BitVec 21) (s : State) : Res :=
  .next (s.branchIf (!(s.h.r.readC c)) off)

/-- `j` (R98). -/
def execJ (off : BitVec 25) (s : State) : Res :=
  .next (s.jump (s.relTarget (off.signExtend 64)) id)

/-- `jal` (R98). -/
def execJal (off : BitVec 25) (s : State) : Res :=
  .next (s.jump (s.relTarget (off.signExtend 64)) (fun r => r.writeS 31 (s.h.pc + 4)))

/-- `jalr` (R99): a target that is not 4-byte aligned traps MISALIGN before rd is written. -/
def execJalr (rd : BitVec 5) (ra : BitVec 5) (imm : BitVec 15) (s : State) : Res :=
  let target := s.h.r.readS ra + imm.signExtend 64
  .next (if target.toNat % 4 ≠ 0 then s.abortTrap (trapOf causeMisalign target)
    else s.jump target (fun r => r.writeS rd (s.h.pc + 4)))

/-- A scalar hint executes as `nop` (R72). -/
def execScalarHint (_h : BitVec 3) (_x : BitVec 25) (s : State) : Res := .next (s.done id)

/-- An unassigned word traps ILLEGAL at every level, with the word in EVAL (R71, R74). -/
def execIllegal (w : BitVec 32) (s : State) : Res := .next (s.illegal (w.setWidth 64))

end Sys2Proof.Machine
end

