-- ==== Sys2Proof/Machine/ScalarMem.lean ====
section
/-!
DEFINITION. Scalar instructions that reach memory: loads, probe loads and stores (R101 to R107), full/empty operations
(R109 to R111), atomics (R112 to R115) and the drawing of a number (R116 to R118).
-/

namespace Sys2Proof.Machine

/-! ### Loads and stores -/

/-- The value a load writes: sign-extended, or zero-extended for `.z` variants 4 to 6 (R101, R102). -/
def extendLoad (v x : Nat) : Word := if v < 4 then sextW (sizeBits v) x else wd (x % 2 ^ sizeBits v)

/-- Bytes of a size variant (Table encoding.4). -/
def sizeBytes (v : Nat) : Nat := sizeBits v / 8

/-- A load from an address (R102), or a probe load (R103), with size variant `v`. Another access may have been performed before it,
or after it, in program order (R231): `State.loadValue` gives what it delivered if it was performed early (log entry 57). A probe
whose walk or range entry is not turned far enough reports that through c1 as well. -/
def State.loadFrom (s : State) (probe : Bool) (rd : BitVec 5) (va : Word) (v : Nat) : State :=
  let n := sizeBytes v
  if va.toNat % n ≠ 0 then s.abortTrap (trapOf causeMisalign va)
  else match s.translate s.h va .read with
    | .error f =>
      if probe && f.1 == causeUnturned then s.done (fun r => (r.writeS rd 0).writeC 1 false)
      else s.abortTrap (xtrap va f)
    | .ok x =>
      let s := (s.accessed 0 va.toNat n).settle s.h.id x.loc n
      match s.loadValue s.h x.loc n 0 with
      | .ok d =>
        ((s.delivered x.loc n).fill s.h.reader x.loc).done (fun r =>
          let r := r.writeS rd (extendLoad v d)
          if probe then r.writeC 1 true else r)
      | .error c =>
        if probe && c == causeUnturned then (s.dropEarly x.loc n).done (fun r => (r.writeS rd 0).writeC 1 false)
        else s.abortTrap (readTrap c va x)

/-- A store of the low bytes of a word at an address (R104, R105). Its page walk or range entry may fail UNTURNED as any
translation's (R293), and the store then traps so (DEDUCED, log entry 58: R104 says that a store never traps UNTURNED, which is
taken of the sector it stores to). -/
def State.storeTo (s : State) (data va : Word) (v : Nat) : State :=
  let n := sizeBytes v
  if va.toNat % n ≠ 0 then s.abortTrap (trapOf causeMisalign va)
  else match s.translate s.h va .write with
    | .error f => s.abortTrap (xtrap va f)
    | .ok x =>
      let bs := spread x.loc n (data.toNat % 2 ^ (8 * n))
      if s.h.used ≠ 0 ∧ newWords s.h.buf bs ≠ 0 ∧ s.h.limit < s.h.used + 8 * newWords s.h.buf bs then
        s.splitTrap (trapOf causeStripovf va)
      else
        ((((s.accessed 1 va.toNat n).dropEarly x.loc n).modH (fun h => { h.storedAt x.loc va.toNat with buf := bufPut h.buf bs })).shadow
          (bs.map (fun b => (b.1, s.h.id)))).done id

/-- `ld` (R102). -/
def execLd (rd : BitVec 5) (ra : BitVec 5) (v : BitVec 3) (off : BitVec 12) (s : State) : Res :=
  .next (s.loadFrom false rd (s.h.r.readS ra + off.signExtend 64) v.toNat)

/-- `ld.p` (R103). -/
def execLdP (rd : BitVec 5) (ra : BitVec 5) (v : BitVec 3) (off : BitVec 12) (s : State) : Res :=
  .next (s.loadFrom true rd (s.h.r.readS ra + off.signExtend 64) v.toNat)

/-- `st` (R104). -/
def execSt (rd : BitVec 5) (ra : BitVec 5) (v : BitVec 2) (off : BitVec 12) (s : State) : Res :=
  .next (s.storeTo (s.h.r.readS rd) (s.h.r.readS ra + off.signExtend 64) v.toNat)

/-- `ldx` (R102). -/
def execLdx (rd : BitVec 5) (ra : BitVec 5) (rb : BitVec 5) (sz : BitVec 3) (s : State) : Res :=
  .next (s.loadFrom false rd (s.h.r.readS ra + s.h.r.readS rb) sz.toNat)

/-- `ldx.p` (R103). -/
def execLdxP (rd : BitVec 5) (ra : BitVec 5) (rb : BitVec 5) (sz : BitVec 3) (s : State) : Res :=
  .next (s.loadFrom true rd (s.h.r.readS ra + s.h.r.readS rb) sz.toNat)

/-- `stx` (R104). -/
def execStx (rd : BitVec 5) (ra : BitVec 5) (rb : BitVec 5) (sz : BitVec 2) (s : State) : Res :=
  .next (s.storeTo (s.h.r.readS rd) (s.h.r.readS ra + s.h.r.readS rb) sz.toNat)

/-! ### Full/empty operations (R109 to R111) -/

/-- The tag of a word. -/
def State.tagFull (s : State) (loc : Nat) : Bool := s.full.contains (loc / 8)
/-- Set or clear the tag of a word. -/
def State.setTag (s : State) (loc : Nat) (b : Bool) : State :=
  { s with full := if b then ninsert (loc / 8) s.full else nerase (loc / 8) s.full }

/-- `ldf` and `ldfe` finish: the word is read, and `ldfe` sets it empty (R109). The value and its logged copy are one. -/
def State.takeWord (s : State) (x : Xlat) (take : Bool) (rd : BitVec 5) (v : Nat) : State :=
  let s := if take then (s.setTag x.loc false).homeMark s.myCore s.h.region x.level (sectorOf x.loc) else s
  ((s.homeLogged x.loc v).ordered).doneSplit (fun r => r.writeS rd (wd v))

/-- `ldf` and `ldfe` (R111): an empty word parks the hart behind the earlier waiters. -/
def State.waitWord (s : State) (take : Bool) (rd ra : BitVec 5) : State :=
  let va := s.h.r.readS ra
  s.homeThen va 8 (if take then .feBoth else .feRead) (fun s x =>
    s.homeCheck va x (fun s =>
      let s := s.accessed 2 va.toNat 8
      s.homeInput x.loc
        (fun s =>
          if s.tagFull x.loc && !(s.waiters.any (fun w => w.1 == x.loc)) then s.takeWord x take rd (s.homeNat x.loc 8)
          else { s with waiters := s.waiters ++ [(x.loc, s.h.id)] }.parkOn (.word x.loc x.level take rd))
        (fun s v => s.takeWord x take rd v)))

/-- A waiter on a word is released with the data of the `stf` (R111); an `ldfe` sets the word empty and leaves its own mark
(R108). -/
def State.release (s : State) (id : BitVec 11) (loc v : Nat) : State :=
  { s with waiters := s.waiters.filter (fun w => w.2 ≠ id) }.onHart id (fun s =>
    match s.h.wait with
    | .word l lv take rd =>
      if l = loc then
        let s := if take then (s.setTag loc false).homeMark s.myCore s.h.region lv (sectorOf loc) else s
        let s := ((s.homeLogged loc v).ordered).modH (fun h =>
          { h with r := h.r.writeS rd (wd v), pc := h.pc + 4, eix := 0, instret := h.instret + 1, wait := .none })
        s.openNext.wakeHere
      else s
    | _ => s)

/-- The waiters that a `stf` releases: every `ldf` up to the first `ldfe`, then that `ldfe` (R111). -/
def State.releases (s : State) : List (BitVec 11) → List (BitVec 11)
  | [] => []
  | id :: rest =>
    match (s.hart? id).map Hart.wait with
    | some (.word _ _ true _) => [id]
    | _ => id :: s.releases rest

/-- The waiters on a word that a `stf` would release now. -/
def State.freedBy (s : State) (loc : Nat) : List (BitVec 11) :=
  s.releases ((s.waiters.filter (fun w => w.1 == loc)).map Prod.snd)

/-- A word has been set full: waiters go on in order, and readiness of tasks is decided (R111, R280). -/
def State.wordFilled (s : State) (x : Xlat) (v : Nat) : State :=
  (s.freedBy x.loc).foldl (fun s id => s.release id x.loc v) (s.reportFull x.loc)

/-- `ldf` (R109, R111). -/
def execLdf (rd : BitVec 5) (ra : BitVec 5) (s : State) : Res := .next (s.waitWord false rd ra)

/-- `ldfe` (R109, R111). -/
def execLdfe (rd : BitVec 5) (ra : BitVec 5) (s : State) : Res := .next (s.waitWord true rd ra)

/-- `stf.lN` (R110): after a release turn the word is stored and set full, and its waiters go on; it waits while a log has no room
for its record and theirs (R351). -/
def execStf (rd : BitVec 5) (ra : BitVec 5) (lv : BitVec 3) (s : State) : Res :=
  let va := s.h.r.readS ra
  .next (s.homeThen va 8 .feWrite (fun s x =>
    (s.turnAllNow lv.toNat).homeCheck va x (fun s =>
      let s := s.accessed 2 va.toNat 8
      let d := (s.h.r.readS rd).toNat
      let act := fun (s : State) (old : Nat) =>
        let s := (s.homeLogged x.loc old).homeWrite x 8 d
        ((s.setTag x.loc true).doneSplit id).wordFilled x d
      if s.logsRoom (s.h :: (s.freedBy x.loc).filterMap s.hart?) then s.homeInput x.loc (fun s => act s (s.homeNat x.loc 8)) act
      else s.stall .retry)))

/-- `ste` (R109). -/
def execSte (ra : BitVec 5) (s : State) : Res :=
  let va := s.h.r.readS ra
  .next (s.homeThen va 8 .feWrite (fun s x =>
    s.homeCheck va x (fun s =>
      let s := s.accessed 2 va.toNat 8
      let act := fun (s : State) (old : Nat) =>
        let s := (s.homeLogged x.loc old).homeMark s.myCore s.h.region x.level (sectorOf x.loc)
        (s.setTag x.loc false).doneSplit id
      s.homeInput x.loc (fun s => act s (s.homeNat x.loc 8)) act)))

/-- `fetag` (R109). -/
def execFetag (rd : BitVec 5) (ra : BitVec 5) (s : State) : Res :=
  let va := s.h.r.readS ra
  .next (s.homeThen va 8 .feRead (fun s x =>
    s.homeCheck va x (fun s =>
      let s := s.accessed 2 va.toNat 8
      let act := fun (s : State) (v : Nat) => (s.homeLogged x.loc v).doneSplit (fun r => r.writeS rd (wd v))
      s.homeInput x.loc (fun s => act s (bnat (s.tagFull x.loc))) act)))

/-! ### Atomics (R112 to R115) -/

/-- The bits of an atomic's word (R112). -/
def atomicBits (w : BitVec 1) : Nat := if w = 1 then 32 else 64

/-- An atomic at the home (R113, R114): `new` gives the value stored, if one is. With `.acq` no later load stays performed early
(R231). -/
def State.atomic (s : State) (rd ra : BitVec 5) (w rel acq : BitVec 1) (lv : BitVec 3) (new : Nat → Option Nat) : State :=
  let va := s.h.r.readS ra
  let bits := atomicBits w
  s.homeThen va (bits / 8) .atomic (fun s x =>
    (if rel = 1 then s.turnAllNow lv.toNat else s).homeCheck va x (fun s =>
      let s := s.accessed 2 va.toNat (bits / 8)
      let act := fun (s : State) (old : Nat) =>
        let put := new (s.homeNat x.loc (bits / 8))
        let s := s.homeLogged x.loc old
        let s := match put with
          | some v => s.homeWrite x (bits / 8) v
          | none => s
        (if acq = 1 then s.ordered else s).doneSplit (fun r => r.writeS rd (sextW bits old))
      s.homeInput x.loc (fun s => act s (s.homeNat x.loc (bits / 8))) act))

/-- `amo` (R113). -/
def execAmo (rd : BitVec 5) (ra : BitVec 5) (rb : BitVec 5) (wd : BitVec 1) (lv : BitVec 3) (rel : BitVec 1) (acq : BitVec 1)
    (op : BitVec 4) (s : State) : Res :=
  .next (s.atomic rd ra wd rel acq lv (fun m => some (atomicOp op.toNat (atomicBits wd) m (s.h.r.readS rb).toNat)))

/-- `cas` (R114). -/
def execCas (rd : BitVec 5) (ra : BitVec 5) (rb : BitVec 5) (wd : BitVec 1) (lv : BitVec 3) (rel : BitVec 1) (acq : BitVec 1)
    (s : State) : Res :=
  let low := fun (r : BitVec 5) => (s.h.r.readS r).toNat % 2 ^ atomicBits wd
  .next (s.atomic rd ra wd rel acq lv (fun m => if m = low rd then some (low rb) else none))

/-! ### Drawing a number (R116 to R118, R333) -/

/-- A counting network. -/
def State.net (s : State) (n : BitVec 4) : Net := s.nets.get n.toFin
/-- Put a counting network back. -/
def State.setNet (s : State) (n : BitVec 4) (x : Net) : State :=
  { s with nets := s.nets.set n.toNat x n.isLt }

/-- `takenum` (R117): a token enters the network, or waits at the entry of a closed one (R118). Under replay the logged value
is returned, for a record of this network, and no token enters. -/
def execTakenum (rd : BitVec 5) (n : BitVec 4) (s : State) : Res :=
  .next (s.splitThen (fun s =>
    s.input 3 1 (fun x => x.v2 == n.toNat)
      (fun s =>
        if (s.net n).closed then s.stall .retry
        else
          let w := s.h.id.toNat / 2 % 16
          (s.setNet n { s.net n with tokens := (s.net n).tokens ++
            [{ hart := s.h.id, rd := rd, entry := w, wire := w, layer := 0 }] }).stall (.token n rd))
      (fun s x => s.doneSplit (fun r => r.writeS rd (wd x.v)))))

end Sys2Proof.Machine
end

