-- ==== Sys2Proof/Machine/System.lean ====
section
/-!
DEFINITION. Traps by instruction and the return (R194), context save and load (R196, R306 to R309), the supervisor forms of the
counting networks (R197, R335) and region stops (R198).
-/

namespace Sys2Proof.Machine

/-! ### trap, brk, eret (R194) -/

/-- The instruction's own trap, behind the split: EPC is PC + 4 and EIX 0. -/
def State.trapNow (s : State) (code : BitVec 8) (n : Word) : State :=
  s.splitThen (fun s => (s.modH (fun h => { h with pc := h.pc + 4, eix := 0, instret := h.instret + 1 })).vector code n false)

/-- `trap n` (R194). -/
def execTrap (n : BitVec 6) (s : State) : Res := .next (s.trapNow causeSyscall (n.setWidth 64))

/-- `brk n` (R194). -/
def execBrk (n : BitVec 6) (s : State) : Res := .next (s.trapNow causeBreak (n.setWidth 64))

/-- `eret` (R194). -/
def execEret (s : State) : Res := .next (s.needLevel 1 .eret State.returnFromTrap)

/-! ### Context images (Table trap.8) -/

/-- MAGIC of an image. -/
def imageMagic : Nat := 0x43580601

/-- Units of 4 KiB in an image. -/
def imageUnits : Nat := 83

/-- Numbers placed at byte offsets and summed. -/
def placed (xs : List (Nat × Nat)) : Nat := xs.foldl (fun a x => a + x.2 * 2^(8 * x.1)) 0

/-- Numbers `step` bytes apart from an offset on. -/
def placedFrom (off step : Nat) (xs : List Nat) : List (Nat × Nat) := xs.zipIdx.map (fun x => (off + step * x.2, x.1))

/-- The CSRS area, in its order. INSTRET counts what the strip at its boundary has done. A hart whose EXPERT is clear has its expert
fields written as they are stored, and STOREBUDGET.LIMIT as it counts for it (DESIGN CHOICE, log entry 97: R9 speaks of reads and writes,
and R307 of what the hart needs to go on). -/
def State.imageCsrs (s : State) (h : Hart) : List Nat :=
  [h.r.vl, h.r.vtype.toNat, h.r.fflags.toNat, h.r.slip.toNat, h.stripn.toNat, h.strippc.toNat, h.stripctl.toNat, h.limit,
   h.faultrec.toNat, h.turnprog.toNat] ++ h.tl.toList.map BitVec.toNat ++ h.issued.toList.map BitVec.toNat ++
  [(s.core (coreOf h.id)).evq.toNat, h.lanegrant, h.priv, h.epc.toNat, h.ecause.toNat, h.eval.toNat, h.trapvec.toNat,
   h.savearea.toNat, nput h.tracectl.toNat 16 1 0, h.samplebuf.toNat, h.instret.toNat + h.instPend, h.r.osmax.toNat,
   h.r.ossum.toNat, h.r.oscale.toNat]

/-- The block areas: BLOCK, SNAP and SNAPV; BLOCK has room for 64 words, so that a `stop` behind 64 instructions is not written. The
snapshot of `c1` stands at bit 32 of SNAPV (log entry 12). -/
def imageBlock (b : Option Block) : List (Nat × Nat) :=
  match b with
  | none => []
  | some b => placedFrom 0x400 8 ((b.words.take 64).map BitVec.toNat) ++ placedFrom 0x600 8 (b.snapS.toList.map BitVec.toNat) ++
      [(0x700, b.snapVt.toNat + bnat b.snapC1 * 2^32), (0x708, b.addr.toNat)]

/-- Unit 0. -/
def State.imageHead (s : State) (h : Hart) : Nat :=
  placed ([(0, imageMagic), (4, h.region.toNat), (6, h.tiles.toNat), (8, h.pc.toNat), (0x10, h.posEix.toNat),
      (0x18, nput h.r.c.toNat 0 1 0), (0x220, h.eixCsr.toNat)] ++
    placedFrom 0x20 8 ((List.range 32).map (fun i => (h.r.readS (BitVec.ofNat 5 i)).toNat)) ++
    placedFrom 0x120 8 (s.imageCsrs h) ++ imageBlock h.posBlk)

/-- A binding in STREAMS. -/
def bindingImage (b : Option Binding) : Nat :=
  match b with
  | none => 0
  | some b => b.record.toNat + b.pos.toNat * 2^512 + b.slice.toNat * 2^576 + 2^640

/-- A row of a tile. -/
def tileRow (t : List (Nat × BitVec 32)) (i : Nat) : Nat :=
  pack 32 ((List.range 256).map (fun j => (sget 0 t (256 * i + j)).toNat))

/-- Unit `u` of a hart's image, as a number of 4,096 bytes. -/
def State.imageUnit (s : State) (h : Hart) (u : Nat) : Nat :=
  let c := s.core (coreOf h.id)
  if u = 0 then s.imageHead h
  else if u = 1 then placed (placedFrom 0 256 ((List.range 7).map (fun i => (h.r.k.toList.getD (i + 1) 0).toNat)) ++
      [(0xF00, (Config.groutMeta ((c.grout.filter (fun g => g.live && g.owner == h.id)).map (fun g => (g.pa, g.owner)))).toNat)])
  else if u = 2 then placed (placedFrom 0 96 (h.r.binds.toList.map bindingImage))
  else if u < 19 then
    let v := fun (i : Nat) => (h.r.v.toList.getD i 0).toNat
    v (2 * (u - 3)) + v (2 * (u - 3) + 1) * 2^16384
  else
    let t := if u < 51 then c.acc0 else c.acc1
    let i0 := if u < 51 then 4 * (u - 19) else 4 * (u - 51)
    placed (placedFrom 0 1024 ((List.range 4).map (fun i => tileRow t (i0 + i))))

/-! ### ctxsave (R196, R306 to R308) -/

/-- A hart stands at a strip boundary, with no work done since: where its strip opened, or just behind the `setvl` that opened it
(R196). -/
def Hart.atBoundary (h : Hart) : Bool :=
  !h.stripOpen || (h.buf.isEmpty && h.queue.isEmpty && h.posEix == h.ckEix &&
    ((h.pc == h.strippc && h.instPend == 0) || (h.byVl && h.pc == h.strippc + 4 && decide (h.instPend ≤ 1))))

/-- The saved hart's wait is withdrawn, and a strip with work done in it aborts; the slot stays as it is (R196, R308). -/
def State.readyToSave (s : State) (id : BitVec 11) : State :=
  ({ s with waiters := s.waiters.filter (fun w => w.2 ≠ id) } : State).onHart id (fun s =>
    let s := if s.h.st = .parked then
        s.modH (fun h => { h with wait := .none, eix := h.posEix, ckBlk := h.keepBlk, blk := none, slices := [], perf := 0 })
      else s
    if s.h.atBoundary then s else s.rollback true)

/-- Where a hart's image goes: the address of a unit through the saved hart's region (R308). -/
def State.saveXlat (s : State) (t : Hart) (u : Nat) : Except XFail Xlat :=
  s.translate { t with cur := s.h.cur } (wd (nbits t.savearea.toNat 12 52 * 4096 + 4096 * u)) .write

/-- The location of a byte of an image at a physical address, as this core reaches it (R225). -/
def State.imageLoc (s : State) (pa off : Nat) : Nat := ((s.locate s.myCore (pa + off)).map Prod.fst).getD 0

/-- The offset of TLSW in an image. -/
def tlswOff : Nat := 0x120 + 8 * 13

/-- The image has been written: TLSW goes in at `word` as it stands now, and what holds its tickets from here on is that word (R306);
the slot becomes FREE, and what the image does not hold is kept (R196; log entry 12). -/
def State.saveAll (s : State) (t : Hart) (word : Nat) : State :=
  let s := (s.send s.h.id [spread word 8 (t.tl.get Timeline.sw.idx).toNat]).settle s.h.id word 8
  let s := { s with
    saved := sput s.saved word t
    fetches := s.fetches.map (fun (f : Fetch) => { f with tickets := f.tickets.map (fun (x : Holder × Word) =>
      if x.1 = Holder.hart t.id then (Holder.image word, x.2) else x) }) }
  (s.onHart t.id State.freeSlot).doneSplit (fun r => r.writeC 1 true)

/-- The save stops on a fault in the save area: the slot is HELD, and the parent of its region is told (R308). -/
def State.saveFault (s : State) (t : Hart) (u : Nat) : State :=
  let va := nbits t.savearea.toNat 12 52 * 4096 + 4096 * u
  ((s.modHart t.id (fun h => { h with st := .held })).postParent t.region (mkEvent 0x06 0 t.region t.id.toNat va)).doneSplit
    (fun r => r.writeC 1 false)

/-- A store of a save that its translation stops: without a path it waits, any other fault ends the save (R308, R371). -/
def State.saveFails (s : State) (t : Hart) (u : Nat) (f : XFail) : State :=
  if f.1 = waitNoPath then s.stall (.saving (wd (nbits t.savearea.toNat 12 52 * 4096 + 4096 * u)) t.id u) else s.saveFault t u

/-- The last store of a save, of TLSW in unit 0, which may fail as any other (R196, R306). -/
def State.saveDone (s : State) (t : Hart) : State :=
  match s.saveXlat t 0 with
  | .error f => s.saveFails t 0 f
  | .ok x => s.saveAll t (s.imageLoc x.pa tlswOff)

/-- One unit of a save. -/
def State.saveUnit (s : State) (t : Hart) (u : Nat) : State :=
  match s.saveXlat t u with
  | .error f => s.saveFails t u f
  | .ok x =>
    let img := s.imageUnit t u
    let s := s.send s.h.id [(List.range 32).flatMap (fun k => spread (s.imageLoc x.pa (128 * k)) 128 (nbits img (1024 * k) 1024))]
    let va := nbits t.savearea.toNat 12 52 * 4096 + 4096 * u
    let s := (List.range 32).foldl (fun s k =>
      s.modH (fun h => h.storedOver t.region (s.imageLoc x.pa (128 * k)) (va + 128 * k) 128)) s
    if imageUnits ≤ u + 1 then s.saveDone t
    else
      let s := s.modH (fun h => { h with eix := wd (u + 1), wait := .none })
      if s.h.preempt then s.leaveCore else s

/-- `ctxsave` (R196, R308): one 4 KiB unit a step. It waits while the report of an earlier fault of the slot has not been written (R287), and
until the records of the hart's INTRUSIVE have been (R363). -/
def execCtxsave (ra : BitVec 5) (s : State) : Res :=
  let n := s.h.r.readS ra
  let id := (s.h.id.extractLsb' 1 10) ++ (n.extractLsb' 0 1)
  .next (if imageUnits < s.h.eix.toNat then (s.modH (fun h => { h with eix := 0 })).illegal s.h.eix
    else s.needLevel 1 (.ctxsave ra) (fun s => s.splitThen (fun s =>
      match s.hart? id with
      | none => s.deliver (trapOf causeIllegal n) false
      | some t =>
        if id = s.h.id ∨ t.st = .running ∨ t.gang.isSome then s.deliver (trapOf causeIllegal n) false
        else
          if s.hasCommands id || s.holdsRecord (0x06, id.toNat) then s.stall .retry
          else match t.reports with
            | (_, c, a) :: rest => (s.modHart id (fun h => { h with reports := rest })).deliver (trapOf c a) false
            | [] => match (s.select id).unprofile.map (fun t => t.select s.h.id) with
              | none => s.stall .retry
              | some s =>
              let s := if s.h.eix = 0 then s.readyToSave id else s
              let s := if s.groutMeets t (fun _ => true) then s.writeBack s.myCore else s
              let u := s.h.eix.toNat
              match s.hart? id with
              | some t => if u < imageUnits then s.saveUnit t u else s.saveDone t
              | none => s)))

/-! ### ctxload (R196, R309) -/

/-- Read 4,096 bytes as loads do, or the first trap. -/
def State.loadUnit (s : State) (va : Word) : Except Trap Nat :=
  (List.range 128).foldr (fun i acc =>
    match s.loadOne s.h (va + wd (32 * i)) 32, acc with
    | .error t, _ => .error t
    | _, .error t => .error t
    | .ok x, .ok n => .ok (x.1 + 2^256 * n)) (.ok 0)

/-- A field of an image's unit 0: `n` bytes at an offset. -/
def headField (x off n : Nat) : Nat := nbits x (8 * off) (8 * n)

/-- A CSR of an image by its place in the CSRS area. -/
def imageCsr (x i : Nat) : Word := wd (headField x (0x120 + 8 * i) 8)

/-- The predecoded words of an image, up to and with the `stop`. -/
def imageWords (x : Nat) : List (BitVec 64) :=
  let ws := (List.range 64).map (fun i => BitVec.ofNat 64 (headField x (0x400 + 8 * i) 8))
  let n := (ws.takeWhile (fun w => w ≠ stopWord)).length
  if ws.all (fun w => w == 0) then [] else if n < 64 then ws.take (n + 1) else ws ++ [stopWord]

/-- The block of an image, when it holds one. The image has no place for what registers held before their last writers in the block: a
reader behind the split whose stall count is not sufficient gets the old one (R208) from the saved hart, where the model keeps that
(`rekeep`), and of a copy of an image the new one (DESIGN CHOICE, log entry 90). -/
def imageBlk (x : Nat) : Option Block :=
  match imageWords x with
  | [] => none
  | w :: ws => some { Block.one with
      pc := wd (headField x 8 8), words := w :: ws, addr := wd (headField x 0x708 8),
      snapS := Vector.ofFn (fun (i : Fin 32) => wd (headField x (0x600 + 8 * i.val) 8))
      snapC1 := nbit x (8 * 0x700 + 32), snapVt := BitVec.ofNat 7 (headField x 0x700 8) }

/-- A binding of an image, which has no place for the address of its record: 0 here, and `rebind` puts the saved hart's in its place where
the model keeps that hart (DESIGN CHOICE, log entry 12). -/
def imageBinding (x i : Nat) : Option Binding :=
  let b := nbits x (768 * i) 768
  if nbit b 640 then
    some { record := BitVec.ofNat 512 (nbits b 0 512), pos := wd (nbits b 512 64), slice := wd (nbits b 576 64),
           addr := 0 }
  else none

/-- The registers of an image. -/
def imageRegs (us : List Nat) : Regs :=
  let x := us.getD 0 0
  { s := Vector.ofFn (fun (i : Fin 32) => if i.val = 0 then 0 else wd (headField x (0x20 + 8 * i.val) 8))
    c := BitVec.ofNat 8 (nput (headField x 0x18 1) 0 1 1)
    v := Vector.ofFn (fun (i : Fin 32) => BitVec.ofNat 16384 (us.getD (3 + i.val / 2) 0 / 2^(16384 * (i.val % 2))))
    k := Vector.ofFn (fun (i : Fin 8) => if i.val = 0 then 0 else BitVec.ofNat 2048 (us.getD 1 0 / 2^(2048 * (i.val - 1))))
    binds := Vector.ofFn (fun (i : Fin 32) => imageBinding (us.getD 2 0) i.val)
    osmax := (imageCsr x 29).setWidth 32, ossum := (imageCsr x 30).setWidth 32, oscale := (imageCsr x 31).setWidth 32
    vl := (imageCsr x 0).toNat, vtype := (imageCsr x 1).setWidth 7, slip := (imageCsr x 3).setWidth 3
    fflags := BitVec.ofNat 13 (nbits (imageCsr x 2).toNat 0 5 + nbits (imageCsr x 2).toNat 8 5 * 2^8) }

/-- A tile of an image. -/
def imageTile (us : List Nat) (first : Nat) : List (Nat × BitVec 32) :=
  (List.range 32).foldl (fun t u => (List.range 1024).foldl (fun t j =>
    sset 0 t (1024 * u + j) (BitVec.ofNat 32 (us.getD (first + u) 0 / 2^(32 * j)))) t) []

/-- SAMPLEBUF of an image: a reserved size leaves its field. -/
def imageSample (old x : Word) : Word :=
  wd (nbits x.toNat 12 52 * 2^12 + (if 12 ≤ nbits x.toNat 0 6 ∧ nbits x.toNat 0 6 ≤ 40 then nbits x.toNat 0 6 else nbits old.toNat 0 6))

/-- Reserved bits of a word cleared, so that they read as zero (R10): the fields that remain, by lowest bit and width. -/
def keepFields (x : Word) (fs : List (Nat × Nat)) : Word := wd (fs.foldl (fun a f => a + nbits x.toNat f.1 f.2 * 2 ^ f.1) 0)

/-- A binding of an image gets the address of its record from the saved hart, where the model has that; the image does not hold it, and
for a copy of an image it is 0 (DESIGN CHOICE, log entry 12). -/
def rebind (new old : Option Binding) : Option Binding := new.map (fun b => { b with addr := (old.map Binding.addr).getD 0 })

/-- The block of an image goes on as the saved hart's, which stood at the same words: with its writers and what registers held before
them (R208; log entry 90). -/
def rekeep (new old : Option Block) : Option Block :=
  match new, old with
  | some b, some o =>
    some (if o.pc = b.pc ∧ o.words = b.words then { b with rep := o.rep, word := o.word, spacing := o.spacing, writers := o.writers } else b)
  | _, _ => new

/-- The hart that an image gives a slot (R309): `base` is what the image does not hold. Until its first `setvl`, where it takes its grant, it
holds its MIN (DESIGN CHOICE, log entry 105: R309 and R275 name no lease before that). Reserved fields of its CSRs read as zero (R10);
INTRUSIVE is not restored, as a saved image holds it clear (R363), and no tile counts as named yet (Table trap.8). -/
def State.imageHart (s : State) (us : List Nat) (base : Hart) (id : BitVec 11) : Hart :=
  let x := us.getD 0 0
  let c := imageCsr x
  let region := BitVec.ofNat 16 (headField x 4 2)
  let lg := (c 19).toNat
  let r := imageRegs us
  let r := { r with binds := Vector.ofFn (fun (i : Fin 32) => rebind (r.binds.get i) (base.r.binds.get i)) }
  let eix := wd (headField x 0x10 8)
  { base with
    id := id, st := .ready, pc := wd (headField x 8 8), eix := eix, r := r, ck := r, ckEix := eix,
    ckBlk := rekeep (imageBlk x) base.ckBlk, blk := none,
    buf := [], stale := [], early := [], fed := [], perf := 0, queue := [], amo := none, listed := [],
    instPend := 0, instret := c 28, stripn := c 4, strippc := c 5,
    stripctl := keepFields (c 6) [(0, 1), (8, 32), (40, 24)], budget := BitVec.ofNat 18 (Nat.min (nbits (c 7).toNat 0 18) 131072),
    faultrec := wd ((s.resolved region 5 32 8 + 256 * id.toNat) / 256 * 256), turnprog := c 9,
    tl := Vector.ofFn (fun (i : Fin 4) => c (10 + i.val)), issued := Vector.ofFn (fun (i : Fin 4) => c (14 + i.val)),
    region := region, gang := none, vlceil := BitVec.ofNat 16 (nbits lg 16 16), pref := BitVec.ofNat 4 (nbits lg 12 4),
    min := BitVec.ofNat 4 (nbits lg 8 4), leasePref := BitVec.ofNat 4 (nbits lg 12 4), leaseMin := BitVec.ofNat 4 (nbits lg 8 4),
    granted := BitVec.ofNat 4 (nbits lg 8 4), cur := (c 20).setWidth 2, prev := ((c 20).extractLsb' 2 2),
    expert := (c 20).getLsbD 8, epc := c 21, eixCsr := wd (headField x 0x220 8), ecause := (c 22).setWidth 9, eval := c 23,
    trapvec := keepFields (c 24) [(2, 62)], savearea := wd ((s.resolved region 4 24 8 + 344064 * id.toNat) / 4096 * 4096),
    tracectl := keepFields (c 26) [(0, 2), (8, 4)],
    samplebuf := imageSample base.samplebuf (c 27), preempt := false, wait := .none, slices := [], reports := [], tiles := 0,
    openedAt := s.clock }

/-- What stands in for a saved hart's other state when the image is a copy: flags and priority as its region resolves them, no
write set, no origin, and a strip open unless the position is inside a long instruction (log entry 12). -/
def State.imageBase (s : State) (us : List Nat) (id : BitVec 11) : Hart :=
  let x := us.getD 0 0
  let region := BitVec.ofNat 16 (headField x 4 2)
  let h := s.newHart id { entry := 0, arg := 0, region := region, pref := 1, min := 1, vlceil := 0,
                          prio := BitVec.ofNat 4 (s.resolved region 0 4 1), origin := .none }
  { h with byVl := headField x 8 8 ≠ (imageCsr x 5).toNat,
           stripOpen := headField x 0x10 8 == 0 || !(imageWords x).isEmpty }

/-- The image is loaded into its slot; `loc` is the location of its TLSW word. -/
def State.loadImage (s : State) (us : List Nat) (loc : Nat) (id : BitVec 11) : State :=
  let x := us.getD 0 0
  let region := BitVec.ofNat 16 (headField x 4 2)
  let s := if (sfind s.regions region.toNat).isSome then s else s.loadRegion region
  let base := (sfind s.saved loc).getD (s.imageBase us id)
  let h := s.imageHart us base id
  let h := if h.origin.isTask then h else { h with prio := (s.region region).prio }
  let c := s.core (coreOf id)
  let c := if nbit x (8 * 6) then { c with acc0 := imageTile us 19 } else c
  let c := if nbit x (8 * 6 + 1) then { c with acc1 := imageTile us 51 } else c
  let s := { s.setCore (coreOf id) c with
    saved := serase s.saved loc
    fetches := s.fetches.map (fun (f : Fetch) => { f with tickets := f.tickets.map (fun (t : Holder × Word) =>
      if t.1 = Holder.image loc then (Holder.hart id, t.2) else t) }) }
  (s.setHart h).onHart id State.nowReady

/-- What an image must meet before it goes on to load (R309): MAGIC, the region, the event queue; none where it may. -/
def State.imageTrap (s : State) (va : Word) (x : Nat) : Option Trap :=
  let region := BitVec.ofNat 16 (headField x 4 2)
  if headField x 0 4 ≠ imageMagic then some (trapOf causeIllegal va)
  else if !(s.under region s.h.region) then some (trapOf causeProt va)
  else if s.regionEvq region ≠ s.regionEvq s.h.region then some (trapOf causeIllegal va)
  else none

/-- Every unit has been read: TLSW is read last, and the image goes into its slot (R306, R309). -/
def State.loadLast (s : State) (va : Word) (us : List Nat) (id : BitVec 11) : State :=
  match s.loadOne s.h (va + wd tlswOff) 8 with
  | .error t => s.deliver t false
  | .ok (sw, y) =>
    let x := nput (us.getD 0 0) (8 * tlswOff) 64 sw
    let s := { s with loads := serase s.loads id.toNat }
    (s.loadImage (x :: us.drop 1) y.x.loc id).doneSplit (fun r => r)

/-- Unit `u` of an image, with those before it: checked, kept, and the progress index counts it; a pre-emption takes effect behind it
(R13, R304, R309). -/
def State.loadStep (s : State) (va : Word) (us : List Nat) (id : BitVec 11) : State :=
  let u := us.length
  match s.loadUnit (va + wd (4096 * u)) with
  | .error t => (s.modH (fun h => { h with eix := wd u })).deliver t false
  | .ok n =>
    let us := us ++ [n]
    match s.imageTrap va (us.getD 0 0) with
    | some t => s.deliver t false
    | none =>
      if s.freeLanes (clusterOf s.myCore) < nbits (imageCsr (us.getD 0 0) 19).toNat 8 4 then s.stall .retry
      else
        let s := s.touchAll ((List.range 128).filterMap (fun i =>
          match s.loadOne s.h (va + wd (4096 * u + 32 * i)) 32 with
          | .ok y => some y.2
          | .error _ => none))
        if imageUnits ≤ u + 1 then s.loadLast va us id
        else
          let s := ({ s with loads := sput s.loads id.toNat us } : State).modH (fun h => { h with eix := wd (u + 1), wait := .none })
          if s.h.preempt then s.leaveCore else s

/-- `ctxload` (R196, R309): one 4 KiB unit a step. An image address that is not 4 KiB aligned traps MISALIGN, as the load that it
is read by (DESIGN CHOICE, log entry 91: R196 and R309 name no trap for it, and R171 gives ILLEGAL for a limit of its chapter).
The slot keeps the units read; a progress index that finds fewer there goes on from those (log entry 30). -/
def execCtxload (ra : BitVec 5) (rb : BitVec 5) (s : State) : Res :=
  let va := s.h.r.readS ra
  let n := s.h.r.readS rb
  let id := (s.h.id.extractLsb' 1 10) ++ (n.extractLsb' 0 1)
  .next (if imageUnits < s.h.eix.toNat then (s.modH (fun h => { h with eix := 0 })).illegal s.h.eix
    else s.needLevel 1 (.ctxload ra rb) (fun s => s.splitThen (fun s =>
      if (s.hart? id).isSome then s.deliver (trapOf causeIllegal n) false
      else if va.toNat % 4096 ≠ 0 then s.deliver (trapOf causeMisalign va) false
      else s.loadStep va ((((sfind s.loads id.toNat).getD []).take s.h.eix.toNat).take 82) id)))

/-! ### Counting networks (R197, R335) -/

/-- The image of a network (Table lath.3). -/
def Net.image (x : Net) (m : BitVec 4) : Nat :=
  0x4E430601 + m.toNat * 2^32 + bnat x.torn * 2^40 + x.base.toNat * 2^64 + x.hwm.toNat * 2^128 + x.bal.toNat * 2^192 +
    (x.cnt.toList.zipIdx.foldl (fun a (c : BitVec 48 × Nat) => a + c.1.toNat * 2^(320 + 48 * c.2)) 0)

/-- An image that `cnload` accepts: MAGIC, and zero reserved fields. -/
def netImageOk (x : Nat) : Bool :=
  nbits x 0 32 == 0x4E430601 && nbits x 36 4 == 0 && nbits x 41 23 == 0 && nbits x 272 48 == 0 && nbits x 1088 960 == 0

/-- The network an image gives: closed, and not TORN. -/
def imageNet (x : Nat) : Net :=
  { closed := true, torn := false, base := wd (nbits x 64 64), hwm := wd (nbits x 128 64), bal := BitVec.ofNat 80 (nbits x 192 80),
    cnt := Vector.ofFn (fun (w : Fin 16) => BitVec.ofNat 48 (nbits x (320 + 48 * w.val) 48)), tokens := [] }

/-- `cnclose` (R335): it returns when the network has drained. -/
def execCnclose (m : BitVec 4) (s : State) : Res :=
  .next (s.needLevel 1 (.cnclose m) (fun s => s.splitThen (fun s =>
    let s := s.setNet m { s.net m with closed := true }
    if (s.net m).tokens.isEmpty then s.doneSplit id else s.stall .retry)))

/-- `cnopen` (R335). -/
def execCnopen (m : BitVec 4) (s : State) : Res :=
  .next (s.needLevel 1 (.cnopen m) (fun s => s.splitThen (fun s =>
    if (s.net m).torn then s.doneSplit (fun r => r.writeC 1 false)
    else (s.setNet m { s.net m with closed := false }).doneSplit (fun r => r.writeC 1 true))))

/-- `cnsave` (R335): one doubleword a step. -/
def execCnsave (ra : BitVec 5) (m : BitVec 4) (s : State) : Res :=
  let va := s.h.r.readS ra
  let i := s.h.eix.toNat
  .next (if 32 < i then (s.modH (fun h => { h with eix := 0 })).illegal s.h.eix
    else s.needLevel 1 (.cnsave ra m) (fun s => s.splitThen (fun s =>
      if va.toNat % 256 ≠ 0 then s.deliver (trapOf causeMisalign va) false
      else if !(s.net m).closed then s.doneSplit (fun r => r.writeC 1 false)
      else if !(s.net m).tokens.isEmpty then s.stall .retry
      else if 32 ≤ i then s.doneSplit (fun r => r.writeC 1 true)
      else
        let a := va + wd (8 * i)
        match s.translate s.h a .write with
        | .error f => s.deliver (xtrap a f) false
        | .ok x =>
          let s := s.sendVia s.h.id x.loc a.toNat (spread x.loc 8 (nbits ((s.net m).image m) (64 * i) 64))
          if i = 31 then s.doneSplit (fun r => r.writeC 1 true)
          else
            let s := s.modH (fun h => { h with eix := wd (i + 1), wait := .none })
            if s.h.preempt then s.leaveCore else s)))

/-- `cnload` (R335): the whole image is read first. -/
def execCnload (ra : BitVec 5) (m : BitVec 4) (s : State) : Res :=
  let va := s.h.r.readS ra
  .next (s.needLevel 1 (.cnload ra m) (fun s => s.splitThen (fun s =>
    if va.toNat % 256 ≠ 0 then s.deliver (trapOf causeMisalign va) false
    else if !(s.net m).closed then s.doneSplit (fun r => r.writeC 1 false)
    else if !(s.net m).tokens.isEmpty then s.stall .retry
    else
      let ws := (List.range 32).map (fun i => s.loadOne s.h (va + wd (8 * i)) 8)
      match fails ws with
      | t :: _ => s.deliver t false
      | [] =>
        let x := pack 64 ((goods ws).map Prod.fst)
        let s := s.touchAll ((goods ws).map Prod.snd)
        if netImageOk x then (s.setNet m (imageNet x)).doneSplit (fun r => r.writeC 1 true)
        else s.deliver (trapOf causeIllegal va) false)))

/-! ### Region stops (R198, R242) -/

/-- Nothing of a region and its descendants is RUNNING, in flight or unfinished (R242). -/
def State.quiet (s : State) (r : BitVec 16) : Bool :=
  (s.hartsUnder r).all (fun h => h.st != .running && !(s.hasCommands h.id) &&
    s.flight.all (fun o => o.src.hart != some h.id)) &&
  s.cmds.all (fun c => !(s.under c.region r)) && s.flight.all (fun o => !(o.src.owner.any (fun x => s.under x r)))

/-- A region and its descendants are released: their control blocks are read again, where they are turned far enough, every cached
translation of their harts is dropped, and their harts may run (R198, R267). -/
def State.releaseRegion (s : State) (r : BitVec 16) : State :=
  let s := { s with stoppedRegions := (r, false) :: s.stoppedRegions.filter (fun a => !(s.under a.1 r)) }
  let s := ((s.regions.map (fun c => c.2.id)).filter (fun x => s.under x r && s.regionValid x)).foldl State.loadRegion s
  let s := { s with copies := s.copies.filter (fun x => !(x.xlat.any (fun a => s.under a r))) }
  ((s.hartsUnder r).filter (fun h => h.st == .ready)).foldl (fun s h => s.onHart h.id (fun s =>
    if s.h.st = .ready then s.nowReady else s)) s

/-- `rstop` (R198). -/
def execRstop (ra : BitVec 5) (rb : BitVec 5) (s : State) : Res :=
  let r := (s.h.r.readS ra).setWidth 16
  .next (s.needLevel 1 (.rstop ra rb) (fun s => s.splitThen (fun s =>
    if r = s.h.region ∨ !(s.under r s.h.region) then s.deliver (trapOf causeProt (r.setWidth 64)) false
    else if (s.h.r.readS rb).getLsbD 0 then (s.releaseRegion r).doneSplit id
    else
      let s := s.stopRegion r
      if s.quiet r then s.doneSplit id else s.stall .retry)))

end Sys2Proof.Machine
end

