-- ==== Sys2Proof/Machine/Errors.lean ====
section
/-!
DEFINITION. Storage errors and the end of a region (R348, R349), and the arrivals of writes (R217).
-/

namespace Sys2Proof.Machine

/-! ### Arrivals (R217) -/

/-- Two writes have a byte in common. -/
def Outbound.meets (a b : Outbound) : Bool := a.bytes.any (fun x => b.bytes.any (fun y => x.1 == y.1))

/-- Two writes have one writer: a hart, a gang, or a port and requester of the host (R217, R367). -/
def Writer2.same (a b : Writer2) : Bool := (a.hart == b.hart && a.host == b.host) || (a.lead.isSome && a.lead == b.lead)

/-- STORE_ARRIVAL (R217): a write in flight arrives; those of one writer to one byte arrive in program order. One that would race waits
while its home holds the record of an earlier race (R287). -/
def execStoreArrival (k : Nat) (s : State) : Res :=
  .next (match s.flight[k]? with
    | none => s
    | some o =>
      if (s.flight.take k).any (fun p => p.src.same o.src && p.meets o) || s.heldUp o then s
      else ({ s with flight := s.flight.eraseIdx k } : State).arrive o)

/-! ### The end of a region (R349) -/

/-- The record that the end of its region makes a hart send, in a slot or saved: its completion record with STATUS 0x03, or the one for
which it waits (R274, R287, R349). -/
def Hart.lastRecord (h : Hart) : Option (BitVec 32 × BitVec 128) :=
  match h.origin with
  | .start q t u => some (t, startRecord q h.region 3 causeUe.toNat u)
  | .ending t e => some (t, e)
  | .task _ | .none => none

/-- The end of its region takes what a hart was started from: its TCB is cancelled, its record sent (R349). -/
def State.endOrigin (s : State) (h : Hart) : State :=
  let s := match h.lastRecord with
    | some (t, e) => s.post t h.region e
    | none => s
  match h.origin with
  | .task tcb => if s.taskSt tcb = 3 then s.tcbState tcb 6 else s
  | _ => s

/-- The unit that sends what the end of a hart brings still holds a record, for which it waits (R287). -/
def State.endHeld (s : State) (h : Hart) : Bool := h.lastRecord.any (fun x => s.holdsRecord (producer x.2))

/-- A hart of an ended region that is not RUNNING leaves its slot without a save (R274, R349), once the records of its INTRUSIVE have been
written (R363). -/
def State.endHart (s : State) (id : BitVec 11) : State :=
  s.onHart id (fun s => if s.endHeld s.h then s else match s.unprofile with
    | some s => (s.endOrigin s.h).freeSlot
    | none => s)

/-- A hart of an ended region that `ctxsave` has saved ends as one in a slot; its image stays, and nothing it was started from (R349). -/
def State.endSaved (s : State) (x : Nat × Hart) : State :=
  if s.endHeld x.2 then s else { s.endOrigin x.2 with saved := sput s.saved x.1 { x.2 with origin := .none } }

/-- A saved hart that is still to end. -/
def State.savedUnder (s : State) (a : BitVec 16) : List (Nat × Hart) :=
  s.saved.filter (fun x => x.2.origin != .none && s.under x.2.region a)

/-- The harts of ended regions that have left their cores are freed; a region has ended when none is left. A HELD slot is freed too, as R349
frees every hart's slot (DESIGN CHOICE, log entry 23: Table state.1 gives HELD no exit at the end of its region). -/
def State.reap (s : State) : State :=
  if s.ended.isEmpty then s
  else
    let gone := s.harts.filter (fun h => h.st != .running && s.ended.any (fun a => s.under h.region a))
    let s := (gone.map Hart.id).foldl State.endHart s
    let s := (s.ended.flatMap s.savedUnder).foldl State.endSaved s
    { s with ended := s.ended.filter (fun a => !(s.hartsUnder a).isEmpty || !(s.savedUnder a).isEmpty) }

/-- The tasks of a region and its descendants are cancelled; a RUNNING one when its hart leaves. -/
def State.cancelTasks (s : State) (r : BitVec 16) : State :=
  (s.tasks.filter (fun t => s.under t.region r)).foldl (fun s t =>
    let st := s.taskSt t.tcb
    if st = 1 ∨ st = 2 ∨ st = 5 then (s.cancelOne t.tcb).1 else s) s

/-- An uncorrectable error ends a region and its descendants (R349). -/
def State.endRegion (s : State) (r : BitVec 16) (pa : Nat) : State :=
  let s := s.cancelTasks r
  let held := s.starts.filter (fun h => s.under h.region r)
  let s := held.foldl (fun s h => s.rejectHead h.queue.toNat 2 (some h.record))
    { s with starts := s.starts.filter (fun h => !(held.contains h)) }
  let s := s.postParent r (mkEvent 0x05 0 r r.toNat pa)
  let s := { s with ended := s.ended ++ [r] }
  (((s.hartsUnder r).map Hart.id).foldl State.requestPreempt s).reap

/-- The region that owns the data of a sector (R349). -/
def State.ownerOf (s : State) (sec : Nat) : BitVec 16 := entryOwner (s.entry sec)

/-- An uncorrectable error in the sector at a location: counted, the sector poisoned, an owner ended (R349). -/
def State.uncorrectableOf (s : State) (owner : BitVec 16) (loc : Nat) : State :=
  let sec := sectorOf loc
  let p : Poison := { sector := sec, parts := [] }
  let s := { s with
    poison := if s.poisoned sec then s.poison else s.poison ++ [p]
    host := { s.host with uecnt := s.host.uecnt + 1 } }
  s.endRegion owner (physOf (32 * sec))

/-- The same of the sector's own owner. -/
def State.uncorrectable (s : State) (loc : Nat) : State := s.uncorrectableOf (s.ownerOf (sectorOf loc)) loc

/-- A corrected error is counted (R348). -/
def State.corrected (s : State) : State := { s with host := { s.host with cecnt := s.host.cecnt + 1 } }

/-- The location of data in the package's own arrays, at an address as a core reaches it. -/
def State.arrayLoc (s : State) (core : BitVec 10) (pa : BitVec 52) : Option Nat :=
  match s.locate core pa.toNat with
  | some (loc, lv) => if lv ≤ 3 then some loc else none
  | none => none

/-- An uncorrectable error is taken up when the unit that reports it holds no earlier record (R287). -/
def State.errorThen (s : State) (k : State → State) : State := if s.holdsRecord (0x05, 0) then s else k s

/-- SKIM_SCRUB (R348). -/
def execSkimScrub (a : ArrayAddress) (correctable : Bool) (s : State) : Res :=
  .next (match s.arrayLoc a.core a.pa with
    | none => s
    | some loc => if correctable then s.corrected else s.errorThen (fun s => s.uncorrectable loc))

/-- An access of a hart of another region met the error: its strip aborts, and it tries again (R349). -/
def State.metError (s : State) (owner : BitVec 16) (access : Option (BitVec 11)) : State :=
  match access.bind s.hart? with
  | none => s
  | some h => s.onHart h.leader (fun s => if s.h.stripOpen && !(s.under s.h.region owner) then s.rollback false else s)

/-- An uncorrectable error in a register file, a tile, a store buffer or an outbound buffer of a hart: its region owns it (R349). -/
def State.holderError (s : State) (pa : BitVec 52) (h : Hart) : State :=
  ({ s with host := { s.host with uecnt := s.host.uecnt + 1 } } : State).endRegion h.region pa.toNat

/-- An uncorrectable error in the inbound copies of a sector, or in a cached translation read from it: they go, and the error counts as
corrected (R348). -/
def State.copyError (s : State) (sec : Nat) : State :=
  if s.copies.any (fun x => x.sector == sec) then
    ({ s with copies := s.copies.filter (fun x => x.sector ≠ sec) } : State).corrected
  else s

/-- UNCORRECTABLE_ERROR (R348, R349): in the copies of the sector at an address, in what a hart holds, or in the data at the address. -/
def execUncorrectableError (e : ErrorSite) (s : State) : Res :=
  .next (match e.holder, s.arrayLoc e.place.core e.place.pa with
    | some id, _ => match s.hart? id with
      | some h => s.errorThen (fun s => s.holderError e.place.pa h)
      | none => s
    | none, none => s
    | none, some loc =>
      if e.copy then s.copyError (sectorOf loc)
      else s.errorThen (fun s => (s.metError (s.ownerOf (sectorOf loc)) e.access).uncorrectable loc))

/-- The region of the data that a die-to-die error met: the owner of its sector, wherever that is homed; of host memory, which has no
OWNER field, the region of the hart whose access it was (R371; DESIGN CHOICE, log entry 101: R349 names no owner of host memory). -/
def State.linkOwner (s : State) (loc : Nat) (access : Option (BitVec 11)) : BitVec 16 :=
  if isHost loc then ((access.bind s.hart?).map Hart.region).getD (s.ownerOf (sectorOf loc)) else s.ownerOf (sectorOf loc)

/-- DIE_LINK_ERROR (R371): corrected by its retry, or uncorrectable with the region of the data as owner, as R349 has it. -/
def execDieLinkError (e : LinkSite) (correctable : Bool) (s : State) : Res :=
  .next (if !s.twoDie then s
    else if correctable then s.corrected
    else match s.locate 0 e.pa.toNat with
      | none => s
      | some (loc, _) => s.errorThen (fun s =>
          let owner := s.linkOwner loc e.access
          (s.metError owner e.access).uncorrectableOf owner loc))

end Sys2Proof.Machine
end

