-- ==== Sys2Proof/Machine/Sessions.lean ====
section
/-!
DEFINITION. The session sequencer: session records (R313 to R316), I/O pages (R317 to R320), truncation and revokes (R325, R326),
frames (R324, R327), builds (R321 to R323) and the instructions of R192.
-/

namespace Sys2Proof.Machine

/-! ### Session records (R313, R314) -/

/-- A session record, read at its home. -/
structure Sess where
  id : Nat
  state : Nat
  prio : Nat
  region : BitVec 16
  laststep : Nat
  g : Nat
  rpl : Nat
  kvw : Bool
  resume : Bool
  restore : Bool
  p : Nat
  f : Nat
  pend : Nat
  arrival : Nat
  bt : Nat
  fq : Nat
  deriving DecidableEq, Repr

/-- The location of a session record. -/
def State.sessLoc (s : State) (id : Nat) : Nat := s.host.sesstab.toNat + 64 * id

/-- A session record's fields (Table session.1). -/
def State.sess (s : State) (id : Nat) : Sess :=
  let x := s.homeNat (s.sessLoc id) 64
  { id := id, state := nbits x 0 8, prio := nbits x 8 4, region := BitVec.ofNat 16 (nbits x 16 16), laststep := nbits x 32 32,
    g := nbits x 64 48, rpl := nbits x 112 4, kvw := nbit x 122, resume := nbit x 121, restore := nbit x 120,
    p := nbits x 128 48, f := nbits x 192 48, pend := nbits x 256 32, arrival := nbits x 288 32, bt := nbits x 320 64,
    fq := nbits x 384 64 }

/-- A record's bytes with the fields the sequencer and the swap engine write replaced. -/
def Sess.image (x : Sess) (raw : Nat) : Nat :=
  let r := nput raw 0 8 x.state
  let r := nput r 32 32 x.laststep
  let r := nput r 64 48 x.g
  let r := nput r 112 4 x.rpl
  let r := nput r 120 2 (bnat x.restore + 2 * bnat x.resume)
  let r := nput r 128 48 x.p
  let r := nput r 192 48 x.f
  let r := nput r 256 32 x.pend
  let r := nput r 288 32 x.arrival
  nput r 384 64 x.fq

/-- Write a record back as home actions turned to L3; a sector that does not change is left alone (R314). -/
def State.putSess (s : State) (x : Sess) : State :=
  let at_ := s.sessLoc x.id
  let old := s.homeNat at_ 64
  let new := x.image old
  let s := if nbits new 0 256 = nbits old 0 256 then s else s.unitPut x.region at_ 32 (nbits new 0 256)
  if nbits new 256 256 = nbits old 256 256 then s else s.unitPut x.region (at_ + 32) 32 (nbits new 256 256)

/-- An ID below 2^24 of a session of the executing hart's region or a descendant (R192, R313). -/
def State.sessOk (s : State) (id : Word) : Bool := decide (id.toNat < 2^24) && s.under (s.sess id.toNat).region s.h.region

/-- The sessions that are not FREE, by rising ID (R315). -/
def State.sessIds (s : State) : List Nat :=
  let b := s.host.sesstab.toNat
  let ids := distinct [] ((s.mem.filter (fun c => decide (b ≤ c.1) && decide (c.1 < b + 64 * 2^24))).map (fun c => (c.1 - b) / 64))
  ids.filter (fun i => decide (1 ≤ (s.sess i).state) && decide ((s.sess i).state ≤ 6))

/-! ### The swap control block (R339) and what truncation needs of it -/

/-- The location of the SWAPCB. -/
def State.cbLoc (s : State) : Nat := nbits s.host.swapcb.toNat 7 57 * 128

/-- A field of the SWAPCB at its home. -/
def State.cb (s : State) (off n : Nat) : Nat := s.homeNat (s.cbLoc + off) n

/-- The engine submits a command; one that finds the queues full waits in the engine behind those before it (R370). -/
def State.submit (s : State) (op : NvmeOp) (object : Nat) : State :=
  { s with nvme := s.nvme ++ [{ object := object, op := op, retried := false }] }

/-- The swap engine, acting for a region, frees a flash slot: its bit in SLOTMAP clears, and it is deallocated (R218, R325, R370). -/
def State.freeFlash (s : State) (r : BitVec 16) (slot : Nat) : State :=
  let at_ := s.cb 88 8 + slot / 8
  let s := s.unitPut r at_ 1 (nput (s.homeNat at_ 1) (slot % 8) 1 0)
  s.submit .deallocate slot

/-- The pool blocks that fetches in flight are bringing in for a region change by one (R346). -/
def State.charge (s : State) (r : BitVec 16) (up : Bool) : State :=
  let old := ((s.charged.find? (fun c => c.1 == r)).map Prod.snd).getD 0
  let n := if up then old + 1 else old - 1
  let rest := s.charged.filter (fun c => c.1 ≠ r)
  { s with charged := if n = 0 then rest else rest ++ [(r, n)] }

/-- State bits of a block-table entry. -/
def blockState (e : Nat) : Nat := nbits e 28 4

/-- A block-table entry of a session, at its home. -/
def State.btEntry (s : State) (x : Sess) (b : Nat) : Nat := s.homeNat (x.bt + 4 * b) 4

/-- What the swap engine is asked for to bring a block in. -/
def blockMissing (x : Sess) (b : Nat) : Missing := { entry := wd (x.bt + 4 * b + 1), loc := x.bt + 4 * b, page := false }

/-! ### Truncation and revokes (R325, R326) -/

/-- Free one block beyond the cut: the state, and whether it counts (R325). -/
def State.freeBlock (s : State) (x : Sess) (b : Nat) : State × Bool :=
  let e := s.btEntry x b
  if blockState e = 0 then (s.unitPut x.region (x.bt + 4 * b) 4 (0xF0000000 + e), true)
  else if blockState e = 8 then
    ((s.freeFlash x.region (nbits e 0 28)).unitPut x.region (x.bt + 4 * b) 4 0xFFFFFFFF, true)
  else (s, false)

/-- The first block beyond a cut, and how many a truncation examines. -/
def cutBlock (h : Nat) : Nat := (h + 15) / 16
/-- Blocks from the cut up to G. -/
def cutBlocks (h g : Nat) : Nat := (g + 15) / 16 - cutBlock h

/-- Zero columns t to 15 of a V-transposed tile (R325): the tile's bytes after it. -/
def zeroColumns (kvw : Bool) (t : Nat) (old : Nat → Byte) (o : Nat) : Byte :=
  let wb := if kvw then 2 else 1
  if t ≤ o / wb % 16 then 0 else old o

/-- Zero the columns at and beyond H of the tile of H's block, when that block is resident: whole lines at the home, turned to L3. -/
def State.zeroTile (s : State) (x : Sess) (h : Nat) : State :=
  let e := s.btEntry x (h / 16)
  if h % 16 = 0 ∨ blockState e ≠ 0 then s
  else
    let at_ := s.cb 24 8 + 4096 * nbits e 0 28 + 2048
    s.unitPut x.region at_ 2048 (leOf ((List.range 2048).map (zeroColumns x.kvw (h % 16) (fun o => s.homeByte (at_ + o)))))

/-- What a truncation sets in the record. -/
def Sess.cut (x : Sess) (h : Nat) : Sess := { x with rpl := h % 16, restore := true, resume := false, g := h, p := h }

/-- A revoke record in the next slot of the sample ring, and STAIL advanced, turned to L5 (R320, R326). -/
def State.revoke (s : State) (x : Sess) (h n : Nat) : State :=
  let t := s.homeNat (x.fq + 16) 8
  let s := s.unitWrite 5 x.region (x.fq + 1088 + 16 * (t % 64)) 16 (0x11 + h % 2^48 * 2^16 + n % 2^32 * 2^64)
  s.unitWrite 5 x.region (x.fq + 16) 8 (t + 1)

/-- LATEFRAME, an event to the EVTGT of the session's region (R327). -/
def State.lateFrame (s : State) (x : Sess) (status h : Nat) : State :=
  s.post (s.evtgt x.region) x.region (mkEvent 0x07 status x.region x.id h)

/-! ### Frames (R319, R324) -/

/-- FHEAD and FTAIL of an I/O page. -/
def State.fhead (s : State) (fq : Nat) : Nat := s.homeNat fq 2
def State.ftail (s : State) (fq : Nat) : Nat := s.homeNat (fq + 8) 2

/-- Frames posted and not taken. -/
def State.framesPosted (s : State) (fq : Nat) : Nat := (s.ftail fq + 2^16 - s.fhead fq) % 2^16

/-- The sequencer's write of FHEAD or FTAIL leaves the page's header turned to L5, as STAIL beside it is read by the host
(R317, R320; log entry 14). -/
def State.putCount (s : State) (x : Sess) (off n : Nat) : State := s.unitWrite 5 x.region (x.fq + off) 8 (n % 2^16)

/-- Frame n of the ring, 64 bytes. -/
def State.frameAt (s : State) (fq n : Nat) : Nat := s.homeNat (fq + 64 + 64 * (n % 16)) 64

/-- A frame's tokens. -/
def frameTokens (fr : Nat) : List Nat := (List.range (nbits fr 64 16)).map (fun i => nbits fr (128 + 32 * i) 32)

/-- A malformed frame (R324). -/
def frameBad (fr pend : Nat) : Bool :=
  nbits fr 48 16 != 0 || nbits fr 80 48 != 0 || decide (12 < nbits fr 64 16) || decide (256 < pend + nbits fr 64 16)

/-- The token word of a position (R317). -/
def promptLoc (fq p : Nat) : Nat := fq + 2112 + 4 * (p % 256)

/-- Write tokens at consecutive positions, lowest first. -/
def State.putTokens (s : State) (x : Sess) (p : Nat) (ts : List Nat) : State :=
  ts.zipIdx.foldl (fun s t => s.unitPut x.region (promptLoc x.fq (p + t.2)) 4 t.1) s

/-- Truncate a session inside a build: every block at once, and the entries that were changed (R325). -/
def State.truncate (s : State) (x : Sess) (h : Nat) : State × Sess × List Nat :=
  let r := (List.range (cutBlocks h x.g)).foldl (fun (a : State × List Nat) i =>
    let (s, f) := a.1.freeBlock x (cutBlock h + i)
    (s, if f then a.2 ++ [x.bt + 4 * (cutBlock h + i)] else a.2)) (s, [])
  let s := r.1.zeroTile x h
  (s, x.cut h, r.2 ++ (if h % 16 = 0 then [] else [x.bt + 4 * (h / 16)]))

/-- Log a frame that a build applies: its record and two continuations (Table swap.8). -/
def State.logFrame (s : State) (x : Sess) (step fr : Nat) : State :=
  ((s.logged 7 x.id step).logged 0xF (nbits fr 0 64) (nbits fr 64 64)).logged 0xF (nbits fr 128 64) (nbits fr 192 64)

/-- One frame is taken (R324): the state, the record, and the block-table entries changed. -/
def State.takeFrame (s : State) (x : Sess) (step fr : Nat) : State × Sess × List Nat :=
  let h0 := nbits fr 0 48
  if frameBad fr x.pend then (s.lateFrame x 2 h0, x, [])
  else if h0 < x.f then (s.lateFrame x 0 h0, x, [])
  else
    let s := s.logFrame x step fr
    let g0 := x.g
    let (s, x, cs) := if h0 < x.g then s.truncate x h0 else (s, x, [])
    let h := Nat.min h0 g0
    let x := { x with p := h }
    let s := (List.range x.pend).foldl (fun s i =>
      s.unitPut x.region (promptLoc x.fq (h + i)) 4 (s.homeNat (promptLoc x.fq (g0 + i)) 4)) s
    let s := s.revoke x h step
    let ts := frameTokens fr
    let s := s.putTokens x (h + x.pend) ts
    let x := { x with pend := x.pend + ts.length }
    let fresh := !ts.isEmpty && x.pend == ts.length
    let s := if fresh then { s with arrivals := s.arrivals + 1 } else s
    let x := if fresh then { x with arrival := s.arrivals.toNat } else x
    (s, { x with state := if x.pend = 0 then 1 else 2 }, cs)

/-- Replay: the frames the log gives a session at a step, each with its record (R352). The tokens beyond the two continuation records
stand in the frame ring (log entry 15). -/
def State.loggedFrames (s : State) (x : Sess) (step : Nat) : List (LogRec × Nat) :=
  let rs := (s.logRest s.h.region).filter (fun r => r.ty == 7 && r.v == x.id && r.v2 == step)
  rs.zipIdx.map (fun (r : LogRec × Nat) =>
    let a := s.logRec s.h.region (r.1.idx + 1)
    let b := s.logRec s.h.region (r.1.idx + 2)
    (r.1, nput (s.frameAt x.fq (s.fhead x.fq + r.2)) 0 256 (a.v + a.v2 * 2^64 + b.v * 2^128 + b.v2 * 2^192)))

/-- The sessions whose frames a build takes, and the FTAIL that a doorbell has written by now: in replay those for which the log has
frames at the step (R322, R352). -/
def State.framedSessions (s : State) (ids : List Nat) (step : Nat) : List (Nat × Nat) :=
  (ids.filter (fun i => if s.h.replay = 2 then !(s.loggedFrames (s.sess i) step).isEmpty else s.framesPosted (s.sess i).fq != 0)).map
    (fun i => (i, s.ftail (s.sess i).fq))

/-- `ApplyFrames` (R324), one frame: the next of the session whose turn it is, whose FTAIL was `tail` when the build began; of more than
16 posted frames none is taken. Whether the session has no further frame, and the entries changed. -/
def State.nextFrame (s : State) (id tail step : Nat) : State × Bool × List Nat :=
  let x := s.sess id
  let n := (tail + 2^16 - s.fhead x.fq) % 2^16
  if x.state = 0 ∨ 4 < x.state then (s, true, [])
  else if s.h.replay = 2 then
    match s.loggedFrames x step with
    | [] => (s, true, [])
    | (r, fr) :: rest =>
      let s := ((s.logUse s.h.region r).logUse s.h.region (s.logRec s.h.region (r.idx + 1))).logUse s.h.region
        (s.logRec s.h.region (r.idx + 2))
      let (s, x, cs) := (s.putCount x 0 (s.fhead x.fq + 1)).takeFrame x step fr
      (s.putSess x, rest.isEmpty, cs)
  else if n = 0 then (s, true, [])
  else if 16 < n then ((s.lateFrame x 1 0).putCount x 0 tail, true, [])
  else
    let (s, x, cs) := (s.putCount x 0 (s.fhead x.fq + 1)).takeFrame x step (s.frameAt x.fq (s.fhead x.fq))
    (s.putSess x, n == 1, cs)

/-! ### What a build must wait for (R322) -/

/-- The blocks that a truncation to H with G = g frees, and the one whose tile it zeroes. -/
def truncBlocks (g h : Nat) : List (Nat × Bool) :=
  (List.range (cutBlocks h g)).map (fun i => (cutBlock h + i, false)) ++ (if h % 16 = 0 then [] else [(h / 16, true)])

/-- The same of the frames of a session: each is examined as the frames before it leave the session. -/
def frameBlocks (f g pend : Nat) : List Nat → List (Nat × Bool)
  | [] => []
  | fr :: rest =>
    let h := nbits fr 0 48
    if frameBad fr pend ∨ h < f then frameBlocks f g pend rest
    else (if h < g then truncBlocks g h else []) ++ frameBlocks f (Nat.min g h) (pend + nbits fr 64 16) rest

/-- The frames that the next build will apply to a session: those posted, or in replay those its log gives the step (R322, R352). -/
def State.framesAhead (s : State) (x : Sess) : List Nat :=
  if s.h.replay = 2 then (s.loggedFrames x (s.stepno + 1).toNat).map Prod.snd
  else if 16 < s.framesPosted x.fq then []
  else (List.range (s.framesPosted x.fq)).map (fun i => s.frameAt x.fq (s.fhead x.fq + i))

/-- The blocks of a session that the next build frees, and those whose tile it zeroes. -/
def State.buildBlocks (s : State) (id : Nat) : List (Nat × Bool) :=
  frameBlocks (s.sess id).f (s.sess id).g (s.sess id).pend (s.framesAhead (s.sess id))

/-- What must come in first: a block to free that is in flight, and one to zero that is not resident. -/
def State.buildNeeds (s : State) (id : Nat) : List Missing :=
  ((s.buildBlocks id).filter (fun b => let st := blockState (s.btEntry (s.sess id) b.1); st == 9 || (b.2 && st == 8))).map
    (fun b => blockMissing (s.sess id) b.1)

/-- The entries that the next build frees or zeroes in a session. -/
def State.buildCuts (s : State) (id : Nat) : List Nat := (s.buildBlocks id).map (fun b => (s.sess id).bt + 4 * b.1)

/-! ### Building a step (R321 to R323) -/

/-- Insert by an order. -/
def insertBy {α : Type} (lt : α → α → Bool) (x : α) : List α → List α
  | [] => [x]
  | y :: ys => if lt x y then x :: y :: ys else y :: insertBy lt x ys

/-- Sort by an order, equal members in their order. -/
def sortBy {α : Type} (lt : α → α → Bool) (l : List α) : List α := l.foldr (fun x acc => insertBy (fun a b => !(lt b a)) x acc) []

/-- A manifest entry (Table session.6). -/
structure Entry where
  session : Nat
  kind : Nat
  flags : Nat
  count : Nat
  start : Nat
  deriving DecidableEq, Repr

/-- The 16 bytes of a manifest entry. -/
def Entry.bytes (e : Entry) : Nat :=
  e.session % 2^24 + e.kind * 2^32 + e.flags * 2^40 + e.count % 2^16 * 2^48 + e.start % 2^64 * 2^64

/-- A build in progress: entries and tokens scheduled. -/
structure Build where
  s : State
  es : List Entry
  used : Nat

/-- F after G has been raised (R316). -/
def raisedFloor (f g : Nat) : Nat := Nat.max f (16 * (g / 16 - 63))

/-- `Unit` (R322): replay or resume, then the entry itself; the record goes on. -/
def Build.unit (b : Build) (x : Sess) (kind c : Nat) (fin : Sess → Sess) (step : Nat) : Build :=
  let pre : List Entry := if x.rpl = 0 then [] else
    [{ session := x.id, kind := if x.resume then 4 else 3, flags := bnat x.restore, count := x.rpl, start := x.g - x.rpl }]
  let e : Entry := { session := x.id, kind := kind, flags := if x.rpl = 0 then bnat x.restore else 0, count := c, start := x.g }
  let y := fin { x with g := x.g + c, rpl := 0, restore := false, resume := false, laststep := step % 2^32,
                        f := raisedFloor x.f (x.g + c) }
  { s := b.s.putSess y, es := b.es ++ pre ++ [e], used := b.used + x.rpl + c }

/-- The decode entries (R322). -/
def Build.decode (b : Build) (budget step : Nat) (xs : List Sess) : Build :=
  xs.foldl (fun b x =>
    if b.used + x.rpl + 1 ≤ budget then b.unit x 1 1 (fun y => { y with state := 3 }) step else b) b

/-- The prefill slice of a session within a budget (R322). -/
def slice (pend room : Nat) : Nat :=
  let c := Nat.min (Nat.min pend room) 512
  if c < pend then 16 * (c / 16) else c

/-- The prefill entries (R322). -/
def Build.prefill (b : Build) (budget step : Nat) (xs : List Sess) : Build :=
  xs.foldl (fun b x =>
    let c := slice x.pend (budget - b.used - x.rpl)
    if c = 0 then b
    else b.unit x 2 c (fun y => { y with pend := x.pend - c, state := if x.pend = c then 3 else 2 }) step) b

/-- Decode order: PRIO descending, LASTSTEP ascending, ID ascending. -/
def decodeBefore (a b : Sess) : Bool :=
  if a.prio ≠ b.prio then decide (b.prio < a.prio)
  else if a.laststep ≠ b.laststep then decide (a.laststep < b.laststep) else decide (a.id < b.id)

/-- Prefill order: ARRIVAL ascending, then ID. -/
def prefillBefore (a b : Sess) : Bool :=
  if a.arrival ≠ b.arrival then decide (a.arrival < b.arrival) else decide (a.id < b.id)

/-- The pages that a manifest for a budget of `n` meets: an address in each (R323). -/
def manifestPages (va : Word) (n : Nat) : List Word :=
  let first := va.toNat / 4096
  (List.range ((va.toNat + 32 + 16 * n - 1) / 4096 - first + 1)).map (fun i => if i = 0 then va else wd ((first + i) * 4096))

/-- The trap of the manifest's probe (R323). -/
def State.manifestProbe (s : State) (va : Word) (n : Nat) : Option Trap :=
  oneTrap (fails ((manifestPages va n).map (fun a => s.storeOne s.h a 1)))

/-- The location of a byte of the manifest, in the pages translated before the build began. -/
def Building.at (b : Building) (va : Word) (off : Nat) : Nat :=
  let o := va.toNat % 4096 + off
  b.pages.getD (o / 4096) 0 + o % 4096

/-- Write the manifest and turn it to L3 (R322, R323). -/
def State.putManifest (s : State) (w : Building) (va : Word) (budget : Nat) (b : Build) : State :=
  let n := fun (p : Entry → Bool) => (b.es.filter p).length
  let hdr := b.es.length + w.step % 2^32 * 2^32 + b.used * 2^64 + budget * 2^96 + n (fun e => e.kind == 1) * 2^128 +
    n (fun e => e.kind == 2) * 2^160 + n (fun e => e.kind == 3 || e.kind == 4) * 2^192
  let s := s.unitPut s.h.region (w.at va 0) 32 hdr
  b.es.zipIdx.foldl (fun s (e : Entry × Nat) => s.unitPut s.h.region (w.at va (32 + 16 * e.2)) 16 e.1.bytes) s

/-- A fault record has been serviced: VALID clears (R300). -/
def Hart.serviced (h : Hart) : Hart := { h with faultrec := h.faultrec &&& ~~~1, listed := [] }

/-- Harts parked on a fault record that lists a block a build freed or zeroed resume when it ends (R300). -/
def State.wakeChanged (s : State) (cs : List Nat) : State :=
  (s.harts.filter (fun h => match h.wait with
    | .fault es => es.any cs.contains
    | _ => false)).foldl (fun s h =>
      (s.modHart h.id Hart.serviced).wake h.id) s

/-- The sessions of a build by the selected hart (R313, R322). -/
def State.buildSessions (s : State) : List Nat :=
  (s.sessIds.filter (fun i => s.under (s.sess i).region s.h.region)).filter (fun i => (s.sess i).state != 5 && (s.sess i).state != 6)

/-- A build begins: the step has its number, and what the build goes by stands fixed (R322, R323). -/
def State.buildBegin (s : State) (budget : Nat) (va : Word) : State :=
  let ids := s.buildSessions
  let step := (s.stepno + 1).toNat
  let page := fun (a : Word) => match s.translate s.h a .write with
    | .ok x => x.loc - a.toNat % 4096
    | .error _ => 0
  let w : Building := { step := step, ids := ids, left := s.framedSessions ids step, changed := [], cuts := ids.flatMap s.buildCuts,
                        pages := (manifestPages va budget).map page }
  { s.modH (fun h => { h with building := some w }) with stepno := s.stepno + 1 }

/-- A build takes one frame of the next session (R322, R324). -/
def State.buildFrame (s : State) (w : Building) (id tail : Nat) (rest : List (Nat × Nat)) : State :=
  let (s, last, cs) := s.nextFrame id tail w.step
  s.modH (fun h => { h with building := some { w with left := if last then rest else w.left, changed := w.changed ++ cs } })

/-- A build whose frames have all been taken schedules the step and writes the manifest (R322): the state, and the number of entries. -/
def State.buildEnd (s : State) (w : Building) (budget : Nat) (va : Word) : State × Nat :=
  let xs := w.ids.map s.sess
  let dec := sortBy decodeBefore (xs.filter (fun x => x.state == 3 || (x.state == 4 && x.pend == 0)))
  let pre := sortBy prefillBefore (xs.filter (fun x => x.state == 2 || (x.state == 4 && x.pend != 0)))
  let b := (Build.decode { s := s, es := [], used := 0 } budget w.step dec).prefill budget w.step pre
  (((b.s.putManifest w va budget b).modH (fun h => { h with building := none })).wakeChanged w.changed, b.es.length)

/-- The session sequencer builds for some hart of the package (R192). -/
def State.sequencing (s : State) : Bool := s.harts.any (fun h => h.building.isSome)

/-- `stepbuild` (R192, R322, R323): the build begins, takes its frames one a turn, then schedules. While the sequencer holds a LATEFRAME that
has not been written it waits (R287), and while the log has no room for a frame's records its hart does (R351). -/
def execStepbuild (rd : BitVec 5) (ra : BitVec 5) (rb : BitVec 5) (s : State) : Res :=
  .next (s.splitThen (fun s =>
    let budget := (s.h.r.readS ra).toNat
    let va := s.h.r.readS rb
    match s.h.building with
    | some w =>
      if s.holdsRecord (0x07, 0) then s.stall .retry
      else match w.left with
        | (id, tail) :: rest => s.buildFrame w id tail rest
        | [] =>
          let (s, n) := s.buildEnd w budget va
          s.doneSplit (fun r => r.writeS rd (wd n))
    | none =>
      if 2^20 < budget then s.deliver (trapOf causeIllegal (wd budget)) false
      else if va.toNat % 32 ≠ 0 then s.deliver (trapOf causeMisalign va) false
      else match s.manifestProbe va budget with
        | some t => s.deliver t false
        | none =>
          let need := distinctMissing [] (s.buildSessions.flatMap s.buildNeeds)
          if s.sequencing then s.stall .retry
          else if !need.isEmpty then
            (need.foldl (fun s m => s.askFetch [] s.h.region m) s).parkOn (.blocks (need.map Missing.loc))
          else s.buildBegin budget va))

/-! ### kvtrunc (R192, R325) -/

/-- Park at a block that must come in first. -/
def State.parkBlock (s : State) (x : Sess) (b : Nat) : State :=
  (s.askFetch [] s.h.region (blockMissing x b)).parkOn (.blocks [x.bt + 4 * b])

/-- `kvtrunc` (R192): one block a step; after the last the tile is zeroed, the record cut and the samples revoked. -/
def execKvtrunc (rd : BitVec 5) (ra : BitVec 5) (rb : BitVec 5) (s : State) : Res :=
  let id := s.h.r.readS ra
  let h := (s.h.r.readS rb).toNat
  .next (s.splitThen (fun s =>
    let x := s.sess id.toNat
    let i := s.h.eix.toNat
    let within := decide (x.f ≤ h) && decide (h < x.g)
    let total := if s.sessOk id && within then cutBlocks h x.g else 0
    if total < i then (s.modH (fun h => { h with eix := 0 })).deliver (trapOf causeIllegal s.h.eix) false
    else if !(s.sessOk id) then s.deliver (trapOf causeProt id) false
    else if !within then s.doneSplit (fun r => (r.writeS rd 0).writeC 1 (decide (x.g ≤ h)))
    else
      let s := if i = 0 then s.modH (fun h => { h with freed := 0 }) else s
      let b := cutBlock h + i
      if i < total then
        if blockState (s.btEntry x b) = 9 then s.parkBlock x b
        else
          let (s, f) := s.freeBlock x b
          let s := s.modH (fun h => { h with eix := wd (i + 1), freed := h.freed + bnat f, wait := .none })
          if s.h.preempt then s.leaveCore else s
      else
        let st := blockState (s.btEntry x (h / 16))
        if h % 16 ≠ 0 ∧ (st = 8 ∨ st = 9) then s.parkBlock x (h / 16)
        else
          let n := s.h.freed
          ((((s.zeroTile x h).revoke x h (s.stepno.toNat + 1)).putSess (x.cut h)).doneSplit
            (fun r => (r.writeS rd (wd n)).writeC 1 true))))

/-! ### Cursors and I/O pages (R192, R316) -/

/-- A cursor: .g, .p or .f. -/
def Sess.cursor (x : Sess) (c : BitVec 2) : Nat :=
  match c.toNat with
  | 0 => x.g
  | 1 => x.p
  | _ => x.f

/-- A record with a cursor set. -/
def Sess.setCursor (x : Sess) (c : BitVec 2) (v : Nat) : Sess :=
  match c.toNat with
  | 0 => { x with g := v }
  | 1 => { x with p := v }
  | _ => { x with f := v }

/-- `curset` (R192): read at the record's home. -/
def execCurset (rd : BitVec 5) (ra : BitVec 5) (c : BitVec 2) (s : State) : Res :=
  let id := s.h.r.readS ra
  .next (s.needLevel 1 (.curset rd ra c) (fun s =>
    if !s.sessOk id then s.abortTrap (trapOf causeProt id)
    else
      let s := s.settle s.h.id (s.sessLoc id.toNat) 64
      s.done (fun r => r.writeS rd (wd ((s.sess id.toNat).cursor c)))))

/-- `curset.w` (R192): a write that would break F ≤ P ≤ G changes nothing and clears `c1`. -/
def execCursetW (ra : BitVec 5) (rb : BitVec 5) (c : BitVec 2) (s : State) : Res :=
  let id := s.h.r.readS ra
  let v := (s.h.r.readS rb).toNat
  .next (s.needLevel 1 (.cursetW ra rb c) (fun s => s.splitThen (fun s =>
    if !s.sessOk id then s.deliver (trapOf causeProt id) false
    else
      let y := (s.sess id.toNat).setCursor c v
      if y.f ≤ y.p ∧ y.p ≤ y.g ∧ v < 2^48 then (s.putSess y).doneSplit (fun r => r.writeC 1 true)
      else s.doneSplit (fun r => r.writeC 1 false))))

/-- `frameq` (R192). -/
def execFrameq (rd : BitVec 5) (ra : BitVec 5) (s : State) : Res :=
  let id := s.h.r.readS ra
  .next (s.needLevel 1 (.frameq rd ra) (fun s =>
    if !s.sessOk id then s.abortTrap (trapOf causeProt id)
    else
      let s := s.settle s.h.id (s.sessLoc id.toNat) 64
      s.done (fun r => r.writeS rd (wd (s.sess id.toNat).fq))))

/-- `frameq.w` (R192, R317). -/
def execFrameqW (ra : BitVec 5) (rb : BitVec 5) (s : State) : Res :=
  let id := s.h.r.readS ra
  let v := (s.h.r.readS rb).toNat
  .next (s.needLevel 1 (.frameqW ra rb) (fun s => s.splitThen (fun s =>
    if !s.sessOk id then s.deliver (trapOf causeProt id) false
    else (s.putSess { s.sess id.toNat with fq := v }).doneSplit id')))
where
  /-- no register changes -/
  id' (r : Regs) : Regs := r

end Sys2Proof.Machine
end

