-- ==== Sys2Proof/Machine/Swap.lean ====
section
/-!
DEFINITION. The swap engine: flash slots (R342, R343), requests and evictions (R339 to R341), fetches and resumes (R344, R345), the
memory cap (R346), failures (R347) and its NVMe commands (R370).
-/

namespace Sys2Proof.Machine

/-! ### CRC-32C and SDB streams (R342, R343) -/

/-- One bit of the reflected CRC-32C. -/
def crcBit (c : Nat) : Nat := if c % 2 = 1 then (c / 2) ^^^ 0x82F63B78 else c / 2

/-- CRC-32C of a list of bytes. -/
def crc32c (bs : List Byte) : Nat :=
  (bs.foldl (fun c b => (List.range 8).foldl (fun c _ => crcBit c) (c ^^^ b.toNat)) 0xFFFFFFFF) ^^^ 0xFFFFFFFF

/-- Elements of an SDB value block of a cache type, and its format code. -/
def sdbShape (etype : Nat) : Nat × Nat := if etype = 0xA then (31, 5) else (62, if etype = 0xB then 1 else 2)

/-- The 64 bytes of a value block. -/
def sdbValues (etype : Nat) (es : List Nat) : Nat :=
  let w := if etype = 0xA then 16 else 8
  (sdbShape etype).2 + 128 * 2^8 + pack w es * 2^16

/-- The 64 bytes of a run of equal elements. -/
def sdbRun (etype : Nat) (e n : Nat) : Nat :=
  if e = 0 then 6 + 128 * 2^8 + n * 2^16
  else 7 + 128 * 2^8 + n * 2^16 + (convert (etypeOf etype) (.flt Fmt.f16) .rne e).1 * 2^32

/-- The stream of a block (R342). -/
def sdbEncode (etype : Nat) : Nat → List Nat → List Nat
  | 0, _ => []
  | _, [] => []
  | fuel + 1, e :: es =>
    let l := (es.takeWhile (fun x => x == e)).length + 1
    if 32 ≤ l then sdbRun etype e l :: sdbEncode etype fuel (es.drop (l - 1))
    else
      let c := (sdbShape etype).1
      sdbValues etype ((e :: es).take c) :: sdbEncode etype fuel ((e :: es).drop c)

/-- The bytes of a number, the lowest first. -/
def bytesLe (n x : Nat) : List Byte := (spread 0 n x).map Prod.snd

/-- A length rounded up to a whole LBA. -/
def lbaRound (shift n : Nat) : Nat := (n + 2^shift - 1) / 2^shift * 2^shift

/-- Bytes that a slot of a kind holds (R343). -/
def slotLength (kind nsdb : Nat) : Nat := if kind = 1 then 64 * (2 + nsdb) else if kind = 3 then 4224 else 4160

/-- The written bytes of a slot (Table swap.4), CHECK included. -/
def slotBytes (shift etype kind nsdb nelem : Nat) (origin : Nat) (scales data : List Byte) : List Byte :=
  let head := fun (check : Nat) => bytesLe 64 (0x53420601 + etype * 2^32 + kind * 2^40 + nsdb * 2^48 + nelem * 2^64 + check * 2^96 + origin * 2^128)
  let body := (scales ++ data) ++ List.replicate (lbaRound shift (slotLength kind nsdb) - slotLength kind nsdb) 0
  head (crc32c (head 0 ++ body)) ++ body

/-- The slot of a cache block: encoded, or raw when its stream would hold more than 64 blocks. -/
def blockSlot (shift etype origin : Nat) (data scales : List Byte) : List Byte :=
  let w := if etype = 0xA then 16 else 8
  let n := 4096 * 8 / w
  let sdb := sdbEncode etype n (elts w n (leOf data))
  if 64 < sdb.length then slotBytes shift etype 3 0 n origin scales data
  else slotBytes shift etype 1 sdb.length n origin scales (sdb.flatMap (bytesLe 64))

/-- The slot of a page. -/
def pageSlot (shift origin : Nat) (data : List Byte) : List Byte :=
  slotBytes shift 0 2 0 0 origin (data.take 64) (data.drop 64)

/-! ### The flash device -/

/-- Where a slot begins: 8 KiB of namespace NSID from LBA SLOTLBA + slot · 2^(13 − LBASHIFT) on (R339). -/
def State.flashLoc (s : State) (slot : Nat) : Nat := s.cb 20 4 * 2^80 + s.cb 72 8 * 2^s.cb 19 1 + 8192 * slot

/-- The bytes of a flash slot. -/
def State.flashRead (s : State) (slot n : Nat) : List Byte := (List.range n).map (fun i => sget 0 s.flash (s.flashLoc slot + i))

/-- Write bytes into a flash slot. -/
def State.flashWrite (s : State) (slot : Nat) (bs : List Byte) : State :=
  { s with flash := bs.zipIdx.foldl (fun f (b : Byte × Nat) => sset 0 f (s.flashLoc slot + b.2) b.1) s.flash }

/-- What a slot gives a block or a page: 4,096 bytes, and the scales of a block; none where R347 applies. -/
def State.slotData (s : State) (page : Bool) (slot : Nat) : Option (List Byte × List Byte) :=
  let h := leOf (s.flashRead slot 64)
  let etype := nbits h 32 8
  let kind := nbits h 40 8
  let nsdb := nbits h 48 16
  let len := lbaRound (s.cb 19 1) (slotLength kind nsdb)
  let bs := s.flashRead slot len
  let zeroed := bs.take 12 ++ List.replicate 4 0 ++ bs.drop 16
  if nbits h 0 32 ≠ 0x53420601 ∨ 8192 < len ∨ crc32c zeroed ≠ nbits h 96 32 then none
  else if page then (if kind = 2 then some ((bs.drop 64).take 4096, []) else none)
  else if kind = 3 then some ((bs.drop 128).take 4096, (bs.drop 64).take 64)
  else if kind = 1 then
    let blocks := (List.range nsdb).map (fun i => sdbDecode ((bs.drop (128 + 64 * i)).take 64))
    if blocks.any Option.isNone then none
    else
      let w := if etype = 0xA then 16 else 8
      let vs := (blocks.flatMap (fun b => b.getD [])).map (fun v => (convert (.flt Fmt.f32) (etypeOf etype) .rne v).1)
      some ((bytesLe 4096 (pack w (vs.take (4096 * 8 / w)))), (bs.drop 64).take 64)
  else none

/-- A slot's bit in SLOTMAP. -/
def State.slotUsed (s : State) (slot : Nat) : Bool := nbit (s.homeNat (s.cb 88 8 + slot / 8) 1) (slot % 8)

/-- The lowest free slot from one on. -/
def State.freeSlotFrom (s : State) : Nat → Nat → Option Nat
  | 0, _ => none
  | fuel + 1, i => if s.slotUsed i then s.freeSlotFrom fuel (i + 1) else some i

/-- Take a slot for a region. -/
def State.takeSlot (s : State) (r : BitVec 16) : Option (State × Nat) :=
  (s.freeSlotFrom (s.cb 80 4) 0).map (fun i =>
    let at_ := s.cb 88 8 + i / 8
    (s.unitPut r at_ 1 (nput (s.homeNat at_ 1) (i % 8) 1 1), i))

/-! ### The engine and its rings (R339, R340, R364, R370) -/

/-- The control block has been set up: its sectors are turned to L3, and the sizes of its rings keep to Table swap.1 (R339, R364). -/
def State.cbReady (s : State) : Bool :=
  s.unitReadable s.cbLoc 128 && decide (4 ≤ s.cb 16 1) && decide (s.cb 16 1 ≤ 15) && decide (4 ≤ s.cb 17 1) &&
    decide (s.cb 17 1 ≤ 24) && decide (4 ≤ s.cb 18 1) && decide (s.cb 18 1 ≤ 24)

/-- ENABLE, with the control block set up (R364). -/
def State.swapEnabled (s : State) : Bool := s.host.swapcb.getLsbD 0 && s.cbReady

/-- The engine takes new work: it is enabled, and has an I/O queue pair (R364, R370). -/
def State.swapOn (s : State) : Bool := s.swapEnabled && s.pairs != 0

/-- The namespace has a format that the engine serves: LBAs of 512 or 4,096 bytes, no metadata, no protection (R370). -/
def State.lbaOk (s : State) : Bool :=
  (s.cb 19 1 == 9 || s.cb 19 1 == 12) &&
  (match sfind s.namespaces (s.cb 20 4) with
   | none => true
   | some x => x.shift == s.cb 19 1 && x.metadata == 0 && !x.protection)

/-- The command at a place is in a queue of the device: an admin command, or one of the first 1,024 I/O commands for each I/O queue pair
(R370). -/
def State.submitted (s : State) (k : Nat) (n : Nvme) : Bool :=
  n.op.isAdmin || decide (((s.nvme.take k).filter (fun m => !m.op.isAdmin)).length < 1024 * s.pairs)

/-- An enabled engine without an I/O queue pair begins with its admin commands: it identifies the namespace, then creates the completion
and the submission queue of a pair (R370; DESIGN CHOICE, log entry 77: the order, and one pair of up to 64). -/
def State.adminSetup (s : State) : State :=
  if s.swapEnabled && s.pairs == 0 && !(s.nvme.any (fun n => n.op.isAdmin)) then s.submit .identify 0 else s

/-- Change a word of the control block by a home action, for a region. -/
def State.cbPut (s : State) (r : BitVec 16) (off n x : Nat) : State := s.unitPut r (s.cbLoc + off) n x

/-- Location of a pool block. -/
def State.poolLoc (s : State) (pbn : Nat) : Nat := s.cb 24 8 + 4096 * pbn

/-- Location of a pool block's scales. -/
def State.scaleLoc (s : State) (pbn : Nat) : Nat := s.cb 32 8 + 64 * pbn

/-- The oldest request not taken; none while one is in hand, a completion record waits for room, or the package resets (R287, R340,
R365). Its record is read at its home, whatever the STATE of its sector (DESIGN CHOICE, log entry 99). -/
def State.nextRequest (s : State) : Option SwapRequest :=
  let hd := s.cb 12 4
  if !s.swapOn || s.host.warmBusy || s.cb 8 4 == hd || s.evict.isSome || s.holdsRecord (0x09, 0) then none
  else
    let x := s.homeNat (s.cb 0 8 + 32 * (hd % 2 ^ s.cb 16 1)) 32
    some { kind := BitVec.ofNat 8 (nbits x 0 8), etype := BitVec.ofNat 8 (nbits x 8 8), region := BitVec.ofNat 16 (nbits x 16 16),
           target := BitVec.ofNat 32 (nbits x 32 32), object := wd (nbits x 64 64), user := wd (nbits x 128 64) }

/-- The reserved bytes of the oldest request are zero. -/
def State.requestReservedOk (s : State) : Bool :=
  nbits (s.homeNat (s.cb 0 8 + 32 * (s.cb 12 4 % 2 ^ s.cb 16 1)) 32) 192 64 == 0

/-- The oldest request is taken, for the region that asks. -/
def State.takeRequest (s : State) (q : SwapRequest) : State := s.cbPut q.region 12 4 (s.cb 12 4 + 1)

/-- The region that owns a page-table or block-table entry: of a block, the region of the session whose table holds it (R313, R347). -/
def State.entryRegion (s : State) (f : Fetch) : BitVec 16 :=
  match f.session with
  | some id => (s.sess id).region
  | none =>
    if f.page then f.region
    else match s.sessIds.find? (fun i => decide ((s.sess i).bt ≤ f.entry) && decide (f.entry < (s.sess i).bt + 4 * (((s.sess i).g + 15) / 16))) with
      | some i => (s.sess i).region
      | none => f.region

/-- A request ends with its completion record (Table swap.3). -/
def State.endRequest (s : State) (q : SwapRequest) (status : Nat) : State :=
  let obj := if q.kind = 3 then 0 else q.object.toNat % 2^24
  ({ s with evict := none } : State).post q.target q.region (mkEvent 0x09 status q.region obj q.user.toNat)

/-- The fields of a request keep to Table swap.2, and its object belongs to REGION or a descendant of it (R340). -/
def State.requestOk (s : State) (q : SwapRequest) : Bool :=
  let cache := q.etype == 0xA || q.etype == 0xB || q.etype == 0xC
  s.lbaOk && s.requestReservedOk && s.regionValid q.region &&
  (if q.kind = 1 then cache && decide (q.object.toNat < 2^24) && s.under (s.sess q.object.toNat).region q.region
   else if q.kind = 2 then q.etype == 0 && decide (q.object.toNat < 2^24) && s.under (s.sess q.object.toNat).region q.region
   else q.kind == 3 && q.etype == 0)

/-! ### Waking what waits for an entry (R300, R306, R344) -/

/-- An entry is on flash or in flight. -/
def State.entryAway (s : State) (loc : Nat) (page : Bool) : Bool :=
  if page then let p := s.homeNat loc 8; !(nbit p 0) && (nbits p 60 4 == 8 || nbits p 60 4 == 9)
  else let e := blockState (s.homeNat loc 4); e == 8 || e == 9

/-- An entry is in flight. -/
def State.inFlight (s : State) (loc : Nat) (page : Bool) : Bool :=
  if page then let p := s.homeNat loc 8; !(nbit p 0) && nbits p 60 4 == 9
  else blockState (s.homeNat loc 4) == 9

/-- Some fetch still serves an entry. -/
def State.fetching (s : State) (loc : Nat) : Bool := s.fetches.any (fun f => f.entry == loc)

/-- The harts that go on once nothing fetches an entry any longer: those parked on it, and on no other that is fetched. One that replays its
arrivals goes on in the logged order instead (R352). -/
def State.wakers (s : State) (entry : Nat) : List Hart :=
  s.harts.filter (fun h => h.replay != 2 && match h.wait with
    | .fault es | .blocks es => es.contains entry && !(es.any (fun e => e != entry && s.fetching e))
    | _ => false)

/-- The address of a hart's fault record (R300). -/
def Hart.recordAt (h : Hart) : Nat := nbits h.faultrec.toNat 8 56 * 256

/-- The record of a replayed log that the next arrival of a hart takes (R352). -/
def State.arrivalRec (s : State) (h : Hart) : Option LogRec :=
  s.logFind h.region (fun x => x.ty == 4 && x.hart == h.id && x.stripn == h.stripn)

/-- An arrival that makes a parked hart READY is logged in record mode: VALUE is the fault record's address, VALUE2 the number of the landing
(R351). -/
def State.arrivalInput (s : State) (h : Hart) : State :=
  if h.replay = 1 then s.logAdd { region := h.region, hart := h.id, ty := 4, stripn := h.stripn, v := h.recordAt, v2 := s.landings } else s

/-- A hart parked on entries goes on; a fault record is serviced (R300). -/
def State.wakeFor (s : State) (h : Hart) : State :=
  ((s.arrivalInput h).modHart h.id (fun h => match h.wait with
    | .fault _ => h.serviced
    | _ => h)).wake h.id

/-- An entry has been dealt with: a fault record all of whose entries have been is serviced, also where its hart's wait was withdrawn
(R300, R303). -/
def Hart.unlist (h : Hart) (entry : Nat) : Hart :=
  if h.listed.contains entry then
    (let l := nerase entry h.listed
     if l = [] then h.serviced else { h with listed := l })
  else h

/-- The TLSW word of a saved image, at its location, follows its tickets (R306); the issue count stands 32 bytes behind it. -/
def State.imageCounter (s : State) (word : Nat) : State :=
  let open_ := s.fetches.flatMap (fun f => (f.tickets.filter (fun x => x.1 == .image word)).map (fun x => x.2.toNat))
  let n := match open_ with
    | [] => s.homeNat (word + 32) 8
    | x :: xs => xs.foldl Nat.min x - 1
  s.unitPut ((sfind s.saved word).map Hart.region |>.getD 0) word 8 n

/-- No fetch serves an entry any longer. -/
def State.dropFetch (s : State) (entry : Nat) : State := { s with fetches := s.fetches.filter (fun g => g.entry ≠ entry) }

/-- The harts parked in a `twait.tlsw` that the end of a fetch satisfies (R189, R344). -/
def State.ticketWakers (s : State) (f : Fetch) : List Hart :=
  let t := s.dropFetch f.entry
  s.harts.filter (fun h => match h.wait with
    | .ticket .sw n => h.replay != 2 && h.st == .parked && f.tickets.any (fun x => x.1 == .hart h.id) && decide (n.toNat ≤ (t.counter h .sw).toNat)
    | _ => false)

/-- There is room in the logs for the arrival of every hart that the end of a fetch makes READY (R351). -/
def State.overRoom (s : State) (f : Fetch) : Bool := s.logsRoom (s.ticketWakers f ++ s.wakers f.entry)

/-- A hart that replays its arrivals stands parked on a page or a block, and what it waits for has come. -/
def State.arrived (s : State) (h : Hart) : Bool :=
  h.replay == 2 && h.st == .parked && match h.wait with
    | .fault es | .blocks es => !(es.any s.fetching)
    | .ticket .sw n => decide (n.toNat ≤ (h.tl.get Timeline.sw.idx).toNat)
    | _ => false

/-- The replayed arrival of a hart (R352): it goes on once no arrival of a lower number is still to be fed back, but to a hart
whose strips have passed it, and takes its record; a record that does not match stops the region, and while the event of an
earlier divergence has not been written the hart stays parked (R287). -/
def State.replayArrival (s : State) (h : Hart) : State :=
  match s.arrivalRec h with
  | none => s.diverge h.region h.id none
  | some x =>
    if x.v ≠ h.recordAt then s.diverge h.region h.id (some x)
    else if (s.logRest h.region).any (fun y => y.ty == 4 && decide (y.v2 < x.v2) &&
        (s.hart? y.hart).all (fun z => decide (z.stripn ≤ y.stripn))) then s
    else (s.logUse h.region x).wakeFor h

/-- The arrivals that replays hold, as the logs let them go on (R352). -/
def State.replayArrivals (s : State) : State := (s.harts.filter s.arrived).foldl State.replayArrival s

/-! ### Resumes (R345) -/

/-- The blocks of a session's table. -/
def Sess.blocks (x : Sess) : Nat := (x.g + 15) / 16

/-- The entry of the resume set; none for an empty one. -/
def Sess.resumeEntry (x : Sess) : Option Nat := if x.g = 0 then none else some (x.bt + 4 * ((x.g - 1) / 16))

/-- A RESUMING session whose resume set is resident becomes READY, by one home action; the request that asked for it ends. -/
def State.resumeDone (s : State) (id : Nat) : State :=
  let x := s.sess id
  let away := match x.resumeEntry with
    | some e => s.entryAway e false
    | none => false
  if x.state != 5 || away then s
  else
    let s := s.putSess { x with rpl := x.g % 16, restore := true, resume := true, state := 4 }
    match s.evict with
    | some v => if v.req.kind = 2 ∧ v.req.object.toNat = id then s.endRequest v.req 0 else s
    | none => s

/-- The engine finds out whether the resume set of a RESUMING session is resident already; one that is stopped finds that out once it runs
(R345, R364, R370). -/
def State.resumeLook (s : State) (id : Nat) : State :=
  if s.swapOn && s.lbaOk then s.resumeDone id
  else if (s.sess id).state = 5 then { s with resumes := s.resumes ++ [id] } else s

/-! ### The end of a fetch (R344) -/

/-- A fetch is over: its tickets advance their timelines, and what waits for its entry goes on, as the session whose block it was does
where that is its resume set (R345). Each hart that becomes READY is an arrival that is logged (R351). -/
def State.fetchOver (s : State) (f : Fetch) : State :=
  let s := (s.ticketWakers f).foldl State.arrivalInput s
  let s := s.dropFetch f.entry
  let s := f.tickets.foldl (fun s (t : Holder × Word) => match t.1 with
    | .hart id => s.advance id .sw
    | .image word => s.imageCounter word) s
  let s := (s.wakers f.entry).foldl State.wakeFor s
  let s := (s.harts.map Hart.id).foldl (fun s id => s.modHart id (fun h => h.unlist f.entry)) s
  match f.session with
  | some id => if f.started.isSome then s.resumeDone id else s.resumeLook id
  | none => s

/-! ### Beginning a resume (R345) -/

/-- Ask for the blocks of a RESUMING session: the resume set, then the others from the highest downward; what is fetched already is not
fetched twice, and serves the session too (R344). -/
def State.resumeFetches (s : State) (id : Nat) : State :=
  let x := s.sess id
  let n := x.blocks
  let away := ((List.range n).map (fun i => x.bt + 4 * (n - 1 - i))).filter (fun e => s.entryAway e false)
  { s with fetches := s.fetches.map (fun f => if away.contains f.entry && f.session.isNone then { f with session := some id } else f) ++
      (away.filter (fun e => !(s.fetching e))).map (fun e =>
      { entry := e, page := false, origin := wd e, started := none, tickets := [], region := x.region, session := some id,
        cls := if x.resumeEntry = some e then 2 else 3, landed := false }) }

/-- An eviction of the session is being released: the release completes before the fetches of a resume (Table swap.5). -/
def State.releasing (s : State) (id : Nat) : Bool :=
  match s.evict with
  | some v => v.committed && v.req.kind == 1 && v.req.object.toNat == id
  | none => false

/-- The engine is asked for what a RESUMING session lacks, and finds out whether its resume set is resident already (R345). -/
def State.askResume (s : State) (id : Nat) : State := (s.resumeFetches id).resumeLook id

/-- A session starts its resume (R345, Table session.2). -/
def State.resume (s : State) (id : Nat) : State :=
  let s := s.putSess { s.sess id with state := 5 }
  if s.releasing id then s else s.askResume id

/-- The session that an engine which was stopped looks at next (R345, R364). -/
def State.toResume (s : State) : Option Nat := if s.swapOn && s.lbaOk then s.resumes.head? else none

/-- A fetch belongs to work that the engine has begun, so that it goes on when ENABLE is cleared (R364): its entry is in flight, a request
for its session has been taken, or another fetch of its session has started. -/
def State.fetchBegun (s : State) (f : Fetch) : Bool :=
  s.inFlight f.entry f.page || f.session.any (fun id => s.evict.any (fun v => v.req.kind == 2 && v.req.object.toNat == id) ||
    s.fetches.any (fun g => g.session == some id && g.started.isSome))

/-! ### Failures (R347) -/

/-- A slot cannot be used: the request in hand that it serves ends, and the owning region is ended. VALUE of its event is the location of
the page-table or block-table entry that named the slot (DESIGN CHOICE, log entry 100: R347 names no physical address for a slot). -/
def State.flashFailed (s : State) (region : BitVec 16) (at_ : Nat) (q : Option SwapRequest) : State :=
  let s := { s with host := { s.host with uecnt := s.host.uecnt + 1 } }
  let s := match q with
    | some q => s.endRequest q 5
    | none => s
  s.endRegion region at_

/-- The request that a fetch serves. -/
def State.requestOf (s : State) (f : Fetch) : Option SwapRequest :=
  match s.evict, f.session with
  | some v, some id => if v.req.kind = 2 ∧ v.req.object.toNat = id then some v.req else none
  | _, _ => none

/-! ### Evictions (R341) -/

/-- Copy the resident blocks of a session, from logical block `b` on: the state and what was copied, or the status that ends it. -/
def State.copyBlocks (s : State) (x : Sess) (etype b : Nat) : Nat → List (Nat × Nat × Nat) → State × List (Nat × Nat × Nat) × Nat
  | 0, done => (s, done, 0)
  | fuel + 1, done =>
    let e := s.btEntry x b
    if blockState e ≠ 0 then s.copyBlocks x etype (b + 1) fuel done
    else match s.takeSlot x.region with
      | none => (s, done, 3)
      | some (s, slot) =>
        let pbn := nbits e 0 28
        let loc := s.poolLoc pbn
        let sc := s.scaleLoc pbn
        let done := done ++ [(x.bt + 4 * b, slot, e)]
        if !(s.unitReadable loc 4096) || !(s.unitReadable sc 64) then (s, done, 2)
        else
          let bytes := fun (at_ n : Nat) => (List.range n).map (fun i => s.homeByte (at_ + i))
          let s := s.flashWrite slot (blockSlot (s.cb 19 1) etype (x.bt + 4 * b) (bytes loc 4096) (bytes sc 64))
          let s := s.submit .write (x.bt + 4 * b)
          s.copyBlocks x etype (b + 1) fuel done

/-- An eviction ends without its release: the slots are freed. -/
def State.dropEviction (s : State) (q : SwapRequest) (done : List (Nat × Nat × Nat)) (status : Nat) : State :=
  let s := { s with nvme := s.nvme.filter (fun (n : Nvme) => !(n.op == .write && done.any (fun d => d.1 == n.object))) }
  (done.foldl (fun (s : State) d => s.freeFlash q.region d.2.1) s).endRequest q status

/-- EVICT_SESSION (R340, R341): the next request, an eviction of a session or one of no assigned kind, begins with its copies. -/
def execEvictSession (s : State) : Res :=
  .next (match s.nextRequest with
    | none => s
    | some q =>
      if q.kind = 2 ∨ q.kind = 3 then s
      else if !(s.requestOk q) then (s.takeRequest q).endRequest q 4
      else
        let x := s.sess q.object.toNat
        let (s, done, status) := (s.takeRequest q).copyBlocks x q.etype.toNat 0 x.blocks []
        if status ≠ 0 then s.dropEviction q done status
        else ({ s with evict := some { req := q, copied := done, committed := false } } : State))

/-- The location of the level-0 entry of an address in a region's page table, and the entry; none where the walk does not reach one. -/
def State.pageEntry (s : State) (root va : Nat) : Nat → Option (Nat × Nat)
  | 0 => none
  | lvl + 1 =>
    let at_ := s.unitLoc (root + 8 * pteIndex va lvl)
    let p := s.homeNat at_ 8
    if lvl = 0 then some (at_, p)
    else if pteBad p || !(nbit p 0) || (lvl ≠ 3 && nbit p 7) then none
    else s.pageEntry (nbits p 12 40 * 4096) va lvl

/-- EVICT_PAGE (R341): one level-0 entry that maps a 4 KiB page; any other ends the request with STATUS 0x04. -/
def execEvictPage (s : State) : Res :=
  .next (match s.nextRequest with
    | none => s
    | some q =>
      if q.kind ≠ 3 then s
      else
        let ok := s.requestOk q
        let s := s.takeRequest q
        let va := q.object.toNat
        let root := s.resolved q.region 8 72 8
        match (if ok && va < 2^57 then s.pageEntry root va 4 else none) with
        | none => s.endRequest q 4
        | some (at_, p) =>
          if pteBad p || !(nbit p 0) || nbit p 8 then s.endRequest q 4
          else
            let pa := s.unitLoc (nbits p 12 40 * 4096)
            match s.takeSlot q.region with
            | none => s.endRequest q 3
            | some (s, slot) =>
              let done := [(at_, slot, p)]
              if !(s.unitReadable pa 4096) then s.dropEviction q done 2
              else
                let s := s.flashWrite slot (pageSlot (s.cb 19 1) (va / 4096 * 4096) ((List.range 4096).map (fun i => s.homeByte (pa + i))))
                { s.submit .write at_ with
                  evict := some { req := q, copied := done, committed := false } })

/-- The supply ring is empty (R344). -/
def State.supplyEmpty (s : State) : Bool := s.cb 48 4 == s.cb 52 4

/-- FETCH_SESSION (R345): the next request asks for a session; without one, the engine looks at a resume that began while it was
stopped. A request that finds a resume set to bring in and an empty supply ring ends with STATUS 0x03 (Table swap.3; DEDUCED, log
entry 68). -/
def execFetchSession (s : State) : Res :=
  .next (match s.nextRequest with
    | some q =>
      if q.kind ≠ 2 then s
      else
        let ok := s.requestOk q
        let s := s.takeRequest q
        if !ok then s.endRequest q 4
        else if (s.sess q.object.toNat).state ≠ 6 then s.endRequest q 1
        else if s.supplyEmpty && (s.sess q.object.toNat).g != 0 then s.endRequest q 3
        else ({ s with evict := some { req := q, copied := [], committed := true } } : State).resume q.object.toNat
    | none =>
      match s.toResume with
      | some i => ({ s with resumes := s.resumes.tail } : State).resumeDone i
      | none => s)

/-- The commit of an eviction: IDLE with no frame posted, or the page's entry as it was copied (R341). -/
def State.commitEviction (s : State) (v : Eviction) : State :=
  if v.req.kind = 3 then
    match v.copied with
    | (at_, slot, p) :: _ =>
      if s.homeNat at_ 8 = p then
        let s := s.unitPut v.req.region at_ 8 (nput (nput (nput p 0 1 0) 12 40 slot) 60 4 8)
        { s with evict := some { v with committed := true } }
      else s.dropEviction v.req v.copied 4
    | [] => s.endRequest v.req 0
  else
    let x := s.sess v.req.object.toNat
    if x.state = 1 ∧ s.fhead x.fq = s.ftail x.fq then
      { s.putSess { x with state := 6 } with evict := some { v with committed := true } }
    else s.dropEviction v.req v.copied 1

/-- The return ring has room (R341). -/
def State.returnRoom (s : State) : Bool := decide ((s.cb 64 4 + 2^32 - s.cb 68 4) % 2^32 < 2 ^ s.cb 18 1)

/-- Append a PBN to the return ring, for a region. -/
def State.returnPbn (s : State) (r : BitVec 16) (pbn : Nat) : State :=
  let t := s.cb 64 4
  (s.unitPut r (s.cb 56 8 + 4 * (t % 2 ^ s.cb 18 1)) 4 pbn).cbPut r 64 4 (t + 1)

/-- The region for which an eviction acts on its entries: of a session its own, of a page the one that asks. -/
def State.evictRegion (s : State) (v : Eviction) : BitVec 16 :=
  if v.req.kind = 3 then v.req.region else (s.sess v.req.object.toNat).region

/-- A PBN goes to the return ring; one that finds it full waits for room (R341). -/
def State.giveBack (s : State) (v : Eviction) (pbn : Nat) : State :=
  if s.returnRoom then s.returnPbn (s.evictRegion v) pbn else { s with evict := some { v with pbn := some pbn } }

/-- One copied entry is released: on flash with its slot, then its PBN returned; one found in another state keeps it, and its slot is
freed. A page's entry changed at the commit. -/
def State.releaseOne (s : State) (v : Eviction) (d : Nat × Nat × Nat) (rest : List (Nat × Nat × Nat)) : State :=
  let v := { v with copied := rest }
  let s := { s with evict := some v }
  let r := s.evictRegion v
  if v.req.kind = 3 then s.giveBack v ((nbits d.2.2 12 40 * 4096 - s.cb 24 8) / 4096)
  else if s.homeNat d.1 4 = d.2.2 then (s.unitPut r d.1 4 (d.2.1 + 8 * 2^28)).giveBack v (nbits d.2.2 0 28)
  else s.freeFlash r d.2.1

/-- SWAP_RELEASE (R341): the commit once every copy is written, then one entry at a time; its PBN follows once the return ring has room,
and the next entry behind it. -/
def execSwapRelease (s : State) : Res :=
  .next (match s.evict with
    | none => s
    | some v =>
      if v.req.kind = 2 then s
      else if !v.committed then
        (if s.nvme.any (fun n => n.op == .write && v.copied.any (fun d => d.1 == n.object)) then s else s.commitEviction v)
      else match v.pbn with
      | some p => if s.returnRoom then ({ s with evict := some { v with pbn := none } } : State).returnPbn (s.evictRegion v) p else s
      | none => match v.copied with
        | [] =>
          let s := s.endRequest v.req 0
          let id := v.req.object.toNat
          if v.req.kind = 1 ∧ (s.sess id).state = 5 then s.askResume id else s
        | d :: rest => s.releaseOne v d rest)

/-! ### Fetches (R344, R346) -/

/-- The pool blocks that are resident in the block tables of a region and its descendants, each once (R346). -/
def State.residentBlocks (s : State) (r : BitVec 16) : List Nat :=
  distinct [] ((s.sessIds.filter (fun i => s.under (s.sess i).region r)).flatMap (fun i =>
    (((List.range (s.sess i).blocks).map (fun b => s.btEntry (s.sess i) b)).filter (fun e => blockState e == 0)).map (fun e => nbits e 0 28)))

/-- The pages of 4 KiB that a page table maps from a level on (R346). -/
def State.tablePages (s : State) : Nat → Nat → Nat
  | 0, _ => 0
  | k + 1, t =>
    let at_ := s.unitLoc t
    let size := 8 * (if k = 3 then 2^18 else 512)
    let es := (s.mem.filter (fun c => decide (at_ ≤ c.1) && decide (c.1 < at_ + size) && (c.1 - at_) % 8 == 0 && c.2.getLsbD 0)).map
      (fun c => s.homeNat c.1 8)
    (es.map (fun p => if k = 0 then 1 else if k ≠ 3 && nbit p 7 then 512^k else s.tablePages k (nbits p 12 40 * 4096))).foldl (· + ·) 0

/-- The resident pages of a region and its descendants: those that the page tables of the regions seen so far map (R346). -/
def State.residentPages (s : State) (r : BitVec 16) : Nat :=
  let roots := distinct [] (((s.regions.map (fun c => c.2)).filter (fun c => s.under c.id r)).map (fun c => c.ptroot.toNat))
  (roots.map (s.tablePages 4)).foldl (· + ·) 0

/-- BMEM lets a region hold one more block or page: what is resident of it and its descendants, and what fetches in flight are bringing
in, counts (R346). -/
def State.memAllows (s : State) (r : BitVec 16) : Bool :=
  capsAllow (s.ancestors r) (fun a => s.cap a (fun c => c.bmem.toNat) 56 8 * 256)
    (fun a => (s.residentBlocks a).length + s.residentPages a +
      ((s.charged.filter (fun c => s.under c.1 a)).map Prod.snd).foldl (· + ·) 0 + 1)

/-- The slot an entry names. -/
def State.entrySlot (s : State) (f : Fetch) : Nat := if f.page then nbits (s.homeNat f.entry 8) 12 40 else nbits (s.homeNat f.entry 4) 0 28

/-- Mark an entry in flight. -/
def State.markInFlight (s : State) (f : Fetch) : State :=
  if f.page then s.unitPut f.region f.entry 8 (nput (s.homeNat f.entry 8) 60 4 9)
  else s.unitPut f.region f.entry 4 (nput (s.homeNat f.entry 4) 28 4 9)

/-- Which fetch comes first: its class, then the order of posting (R344). -/
def fetchBefore (a b : Nat × Fetch) : Bool :=
  if a.2.cls ≠ b.2.cls then decide (a.2.cls < b.2.cls) else decide (a.1 < b.1)

/-- A build that has begun frees or zeroes the block of an entry: no fetch of it starts before the build has ended (R322). -/
def State.buildCut (s : State) (entry : Nat) : Bool := s.harts.any (fun h => h.building.any (fun b => b.cuts.contains entry))

/-- The fetches not started that no cap and no build holds, with their places; of an engine whose ENABLE is clear those that it has begun (R364). -/
def State.startable (s : State) : List (Nat × Fetch) :=
  ((s.fetches.zipIdx.map (fun x => (x.2, x.1))).filter (fun x => x.2.started.isNone && (s.swapOn || s.fetchBegun x.2) &&
    s.memAllows (s.entryRegion x.2) && !(s.buildCut x.2.entry)))

/-- The fetch at a place takes the next PBN of the supply ring, and its slot is read (R344). -/
def State.takePbn (s : State) (k : Nat) (f : Fetch) : State :=
  let hd := s.cb 52 4
  let pbn := s.homeNat (s.cb 40 8 + 4 * (hd % 2 ^ s.cb 17 1)) 4
  let slot := s.entrySlot f
  let s := ((s.cbPut f.region 52 4 (hd + 1)).charge f.region true).submit .read f.entry
  { s with fetches := s.fetches.set k { f with started := some (slot, pbn) } }

/-- SWAP_FETCH_START (R344): the first fetch in priority marks its entry in flight, takes a PBN, for which an empty supply ring makes it
wait, and reads its slot; one whose entry is no longer away is over. What the engine has begun goes on when ENABLE is cleared (R364). -/
def execSwapFetchStart (k : Nat) (s : State) : Res :=
  .next (match s.fetches[k]? with
    | none => s
    | some f =>
      if f.started.isSome then s
      else if !(s.entryAway f.entry f.page) then (if s.overRoom f then s.fetchOver f else s)
      else if !(s.swapOn || s.fetchBegun f) || !s.lbaOk || (firstBy fetchBefore s.startable).map Prod.fst ≠ some k then s
      else
        let f := { f with region := s.entryRegion f }
        let s := s.markInFlight f
        if s.supplyEmpty then s else s.takePbn k f)

/-- A fetched block or page becomes resident (R224, R344). -/
def State.makeResident (s : State) (f : Fetch) (slot pbn : Nat) (data scales : List Byte) : State :=
  let s := s.unitPut f.region (s.poolLoc pbn) 4096 (leOf data)
  let s := if f.page then s else s.unitPut f.region (s.scaleLoc pbn) 64 (leOf scales)
  let s := if f.page then
      s.unitPut f.region f.entry 8 (nput (nput (nput (s.homeNat f.entry 8) 12 40 (s.poolLoc pbn / 4096)) 60 4 0) 0 1 1)
    else s.unitPut f.region f.entry 4 pbn
  (s.freeFlash f.region slot).charge f.region false

/-- SWAP_FETCH_COMPLETE (R344, R345): the slot's data is checked, decoded and written, and the entry set resident. In record mode a
wake that needs a record waits for room in the log (R351). -/
def execSwapFetchComplete (k : Nat) (s : State) : Res :=
  .next (match s.fetches[k]? with
    | none => s
    | some f =>
      match f.started with
      | none => s
      | some (slot, pbn) =>
        if !f.landed || !(s.overRoom f) then s
        else if !(s.entryAway f.entry f.page) then
          (if s.returnRoom then ((s.returnPbn f.region pbn).charge f.region false).fetchOver f else s)
        else match s.slotData f.page slot with
          | none =>
            if s.holdsRecord (0x05, 0) then s
            else (({ s with fetches := s.fetches.eraseIdx k } : State).charge f.region false).flashFailed f.region f.entry
              (s.requestOf f)
          | some (data, scales) =>
            let s := { s with landings := s.landings + 1 }
            (s.makeResident f slot pbn data scales).fetchOver f)

/-! ### NVMe (R370) -/

/-- The entry whose copy could not be written is left in state 0x8 with its slot, and nothing is freed (R347; DEDUCED, log entry 69: the
copy phase of R341 has not changed it yet). -/
def State.failedWrite (s : State) (v : Eviction) (entry : Nat) (r : BitVec 16) : State :=
  match v.copied.find? (fun d => d.1 == entry) with
  | none => s
  | some d =>
    if v.req.kind = 3 then
      (if s.homeNat entry 8 = d.2.2 then s.unitPut r entry 8 (nput (nput (nput d.2.2 0 1 0) 12 40 d.2.1) 60 4 8) else s)
    else if s.homeNat entry 4 = d.2.2 then s.unitPut r entry 4 (d.2.1 + 8 * 2^28)
    else s

/-- An admin command has completed, and the next one goes out: behind Identify the queues of the pair, which is then there. After an error
the engine asks for the device's log, and stays without a pair until its admin commands succeed (R370, log entry 77). -/
def State.adminDone (s : State) (n : Nvme) (ok : Bool) : State :=
  match n.op, ok with
  | .identify, true => s.submit .createCq n.object
  | .createCq, true => s.submit .createSq n.object
  | .createSq, true => { s with pairs := s.pairs + 1 }
  | .identify, false | .createCq, false | .createSq, false => s.submit .getLogPage n.object
  | .getLogPage, _ | .read, _ | .write, _ | .deallocate, _ => s

/-- NVME_COMPLETION (R370): a command that fails is retried once; after a second failure R347 applies to a read or a write. -/
def execNvmeCompletion (k : Nat) (ok : Bool) (s : State) : Res :=
  .next (match s.nvme[k]? with
    | none => s
    | some n =>
      let s' := { s with nvme := s.nvme.eraseIdx k }
      if !(s.submitted k n) then s
      else if !ok && !n.retried then { s with nvme := s.nvme.set k { n with retried := true } }
      else if n.op.isAdmin then s'.adminDone n ok
      else if !ok && s.holdsRecord (0x05, 0) then s
      else if n.op = .read then
        match s.fetches.find? (fun f => f.entry == n.object) with
        | none => s'
        | some f =>
          if ok then { s' with fetches := s'.fetches.map (fun g => if g.entry = n.object then { g with landed := true } else g) }
          else (({ s' with fetches := s'.fetches.filter (fun g => g.entry ≠ n.object) } : State).charge f.region false).flashFailed f.region
            n.object (s.requestOf f)
      else if n.op = .write && !ok then
        match s.evict with
        | some v =>
          let r := s.evictRegion v
          (({ s' with nvme := s'.nvme.filter (fun m => !(m.op == .write)) } : State).failedWrite v n.object r).flashFailed r n.object (some v.req)
        | none => s'
      else s')

end Sys2Proof.Machine
end

