-- ==== Sys2Proof/Machine/HostPort.lean ====
section
/-!
DEFINITION. The host ports: registers (R364, R366), doorbells and posted writes (R268, R269, R318, R367), reads (R366, R368).
-/

namespace Sys2Proof.Machine

/-! ### Ports -/

/-- Change the host registers. -/
def State.modHost (s : State) (f : HostRegs → HostRegs) : State := { s with host := f s.host }

/-- Answer a host read. -/
def State.answer (s : State) (r : Reply) : State := s.modHost (fun h => { h with reply := r })

/-- An event of a port whose link is down does not reach the part. -/
def State.throughPort (s : State) (port : BitVec 1) (k : State → State) : State := if s.portUp port then k s else s

/-! ### Posted writes and doorbells (R367) -/

/-- A posted write through BAR2: by sector, each on its way to its home. -/
def State.postWrite (s : State) (port : BitVec 1) (req : BitVec 16) (off : Nat) (bytes : List Byte) : State :=
  let cells := bytes.zipIdx.map (fun (b : Byte × Nat) => (off + b.2, b.1))
  let secs := sectorsOf cells
  let src : Writer2 := { pos := posUnit, owner := none, strict := false, hart := none, lead := none, host := some (port, req) }
  (s.outbound (fun _ => src) (secs.map (fun sec => cells.filter (fun c => sectorOf c.1 == sec)))).modHost
    (fun h => { h with uncovered := h.uncovered ++ secs.map (fun sec => (port, req, sec)) })

/-- HOST_POSTED_WRITE (R364, R367). -/
def execHostPostedWrite (port : BitVec 1) (req : BitVec 16) (off : BitVec 40) (bytes : List (BitVec 8)) (s : State) : Res :=
  .next (s.throughPort port (fun s =>
    if s.memBytes < off.toNat + bytes.length then s.answer .unsupported else s.postWrite port req off.toNat bytes))

/-- A doorbell waits in the agenda for this port and requester. -/
def State.bellRings (s : State) (port : BitVec 1) (req : BitVec 16) : Bool :=
  s.agenda.any (fun a => match a with
    | .event (.framedb p r _) | .event (.wqtail p r _ _) | .event (.syncdb p r _) => p == port && r == req
    | _ => false)

/-- One sector of the turn that a doorbell begins: the writes behind it have arrived, and the oldest sector not covered is turned to L3
(R230, R367). -/
def State.bellPart (s : State) (port : BitVec 1) (req : BitVec 16) : State :=
  if s.portUp port && s.bellRings port req then
    let s := s.arriveIf (fun o => o.src.host == some (port, req))
    match s.host.uncovered.find? (fun u => u.1 == port && u.2.1 == req) with
    | none => s
    | some u => (s.turnSector 3 0 u.2.2).modHost (fun h => { h with uncovered := h.uncovered.erase u })
  else s

/-- A doorbell completes: every earlier posted write of the port and requester has reached its home and been turned to L3. -/
def State.doorbell (s : State) (port : BitVec 1) (req : BitVec 16) : State :=
  let s := s.arriveIf (fun o => o.src.host == some (port, req))
  let mine := s.host.uncovered.filter (fun u => u.1 == port && u.2.1 == req)
  let s := mine.foldl (fun s u => s.turnSector 3 0 u.2.2) s
  s.modHost (fun h => { h with uncovered := h.uncovered.filter (fun u => !(u.1 == port && u.2.1 == req)) })

/-- SYNCDB (R367). -/
def execSyncdb (port : BitVec 1) (req : BitVec 16) (_v : BitVec 64) (s : State) : Res :=
  .next (s.throughPort port (fun s => s.doorbell port req))

/-- A read of SYNCDB returns 0 once every doorbell of the port and requester has completed; here a doorbell completes in its step. -/
def execSyncdbRead (port : BitVec 1) (_req : BitVec 16) (s : State) : Res :=
  .next (s.throughPort port (fun s => s.answer (.value 0)))

/-- FRAMEDB (R318), which a warm reset ignores (R365): the tail goes to FTAIL; an ONFLASH session starts its resume, a FREE one
posts LATEFRAME, and such a doorbell completes once the sequencer holds no earlier one (R287). -/
def execFramedb (port : BitVec 1) (req : BitVec 16) (v : BitVec 64) (s : State) : Res :=
  .next (s.throughPort port (fun s =>
    let s := s.doorbell port req
    let id := nbits v.toNat 16 24
    let x := s.sess id
    if s.host.warmBusy then s
    else if x.state = 0 ∨ 6 < x.state then (if s.holdsRecord (0x07, 0) then s else s.lateFrame x 3 0)
    else
      let s := s.putCount x 8 (nbits v.toNat 0 16)
      if x.state = 6 then s.resume id else s))

/-! ### Work queue registers (R268, R269, Table region.2) -/

/-- A write of WQTAIL once its doorbell has completed: checked, and accepted or reported in WQSTAT (R269). -/
def WorkQueue.setTail (q : WorkQueue) (v now : Nat) : WorkQueue :=
  let n := 2 ^ q.log2n.toNat
  let old := q.tail.toNat
  let dist := fun (x : Nat) => (x + n - q.head.toNat) % n
  if n ≤ v ∨ dist v < dist old then { q with err := true, reason := 7 }
  else if v = old then q
  else { q with tail := BitVec.ofNat 16 v, bells := q.bells ++ [(old, v, now)] }

/-- WQTAIL (R269). The reserved bits [63:16] of the value are ignored, also non-zero ones, and the low 16 bits are the tail (DESIGN CHOICE,
log entry 94: R10 ignores reserved bits, R269 a value with a bit at or above LOG2N). -/
def execWqtail (port : BitVec 1) (req : BitVec 16) (q : BitVec 12) (v : BitVec 64) (s : State) : Res :=
  .next (s.throughPort port (fun s =>
    let s := s.doorbell port req
    s.setQueue q.toNat ((s.queue q.toNat).setTail (nbits v.toNat 0 16) s.clock)))

/-- WQBASE. -/
def WorkQueue.setBase (q : WorkQueue) (v : Nat) : WorkQueue := { q with base := wd (v / 64 * 64) }

/-- WQCTL: a reserved LOG2N leaves its field, and the indices count modulo the new size. -/
def WorkQueue.setCtl (q : WorkQueue) (v : Nat) : WorkQueue :=
  let l := if 4 ≤ nbits v 16 4 then BitVec.ofNat 4 (nbits v 16 4) else q.log2n
  let wrap := fun (x : BitVec 16) => BitVec.ofNat 16 (x.toNat % 2 ^ l.toNat)
  { q with enable := nbit v 20, log2n := l, root := BitVec.ofNat 16 (nbits v 0 16), head := wrap q.head, tail := wrap q.tail }

/-- WQ_CONFIG_WRITE (R268): ignored while HEAD ≠ TAIL. -/
def execWqConfigWrite (q : BitVec 12) (ctl : Bool) (v : BitVec 64) (s : State) : Res :=
  let x := s.queue q.toNat
  .next (if x.head ≠ x.tail then s
    else s.setQueue q.toNat (if ctl then x.setCtl v.toNat else x.setBase v.toNat))

/-! ### Semaphores (R366) -/

/-- A semaphore. -/
def HostRegs.semOf (h : HostRegs) (i : BitVec 4) : Word := h.sem.get i.toFin

/-- Set a semaphore. -/
def HostRegs.setSem (h : HostRegs) (i : BitVec 4) (v : Word) : HostRegs := { h with sem := h.sem.set i.toNat v i.isLt }

/-- A read of a semaphore through a port. -/
def State.semRead (s : State) (port : BitVec 1) (i : BitVec 4) : State :=
  let v := s.host.semOf i
  if nbits v.toNat 0 2 = 0 then
    let n := wd (port.toNat + 1)
    (s.modHost (fun h => h.setSem i n)).answer (.value n)
  else s.answer (.value v)

/-- SEM_READ (R366). -/
def execSemRead (port : BitVec 1) (i : BitVec 4) (s : State) : Res := .next (s.throughPort port (fun s => s.semRead port i))

/-- SEM_WRITE (R366). -/
def execSemWrite (port : BitVec 1) (i : BitVec 4) (v : BitVec 64) (s : State) : Res :=
  .next (s.throughPort port (fun s =>
    if v = 0 ∧ s.host.semOf i = wd (port.toNat + 1) then s.modHost (fun h => h.setSem i 0) else s))

/-! ### Other registers (R364, Table host.1) -/

/-- REGIONTAB: its first write after power-on (R264, R364). -/
def execRegiontab (v : BitVec 64) (s : State) : Res :=
  .next (if s.host.regiontabSet then s
    else s.modHost (fun h => { h with regiontab := wd (v.toNat / 4096 * 4096), regiontabSet := true }))

/-- SESSTAB: its first write after power-on (R313, R364). -/
def execSesstab (v : BitVec 64) (s : State) : Res :=
  .next (if s.host.sesstabSet then s
    else s.modHost (fun h => { h with sesstab := wd (v.toNat / 4096 * 4096), sesstabSet := true }))

/-- SWAPCB (R339, R364). -/
def execSwapcb (v : BitVec 64) (s : State) : Res :=
  .next (s.modHost (fun h => { h with swapcb := wd (v.toNat / 128 * 128 + v.toNat % 2) }))

/-- A completion ring. -/
def State.ring (s : State) (r : Nat) : Ring := sget Ring.reset s.rings r

/-- Put a completion ring back. -/
def State.setRing (s : State) (r : Nat) (x : Ring) : State := { s with rings := sput s.rings r x }

/-- CRCTL_WRITE (Table host.2): a reserved LOG2N leaves its field. -/
def execCrctlWrite (r : BitVec 12) (v : BitVec 64) (s : State) : Res :=
  let x := s.ring r.toNat
  let l := nbits v.toNat 16 5
  .next (s.setRing r.toNat { x with
    enable := v.getLsbD 24, port := v.extractLsb' 23 1, log2n := if 4 ≤ l ∧ l ≤ 20 then BitVec.ofNat 5 l else x.log2n
    vector := v.extractLsb' 0 11 })

/-- CRHEAD_WRITE (Table host.2). -/
def execCrheadWrite (r : BitVec 12) (v : BitVec 64) (s : State) : Res :=
  .next (s.setRing r.toNat { s.ring r.toNat with head := v.setWidth 32 })

/-- CRTAIL_READ (R366): a record is in host memory before TAIL passes it. -/
def execCrtailRead (r : BitVec 12) (s : State) : Res :=
  .next (s.answer (.value ((s.ring r.toNat).tail.setWidth 64)))

/-- HOST_REGISTER_WRITE (R364): CNSAVEA, CECNT, UECNT, WQSTAT and CRBASE; a write of a read-only register does nothing. -/
def execHostRegisterWrite (off : BitVec 20) (v : BitVec 64) (s : State) : Res :=
  let o := off.toNat
  .next (if o = 0x218 then s.modHost (fun h => { h with cnsavea := wd (v.toNat / 4096 * 4096) })
    else if o = 0x220 then s.modHost (fun h => { h with cecnt := v })
    else if o = 0x228 then s.modHost (fun h => { h with uecnt := v })
    else if 0x10000 ≤ o ∧ o < 0x50000 ∧ o % 64 = 32 then
      let q := (o - 0x10000) / 64
      (if v.getLsbD 7 then s.setQueue q { s.queue q with err := false } else s)
    else if 0x80000 ≤ o ∧ o < 0xA0000 ∧ o % 32 = 0 then
      let r := (o - 0x80000) / 32
      s.setRing r { s.ring r with base := wd (v.toNat / 16 * 16) }
    else s)

/-- The work queue registers by their offset (Table region.2). -/
def WorkQueue.read (q : WorkQueue) (o : Nat) : Nat :=
  match o with
  | 0 => q.base.toNat
  | 8 => bnat q.enable * 2^20 + q.log2n.toNat * 2^16 + q.root.toNat
  | 16 => q.tail.toNat
  | 24 => q.head.toNat
  | 32 => bnat q.err * 2^7 + q.reason.toNat
  | _ => 0

/-- The completion ring registers by their offset (Table host.2). -/
def Ring.read (r : Ring) (o : Nat) : Nat :=
  match o with
  | 0 => r.base.toNat
  | 8 => bnat r.enable * 2^24 + r.port.toNat * 2^23 + r.log2n.toNat * 2^16 + r.vector.toNat
  | 16 => r.tail.toNat
  | 24 => r.head.toNat
  | _ => 0

/-- What a read of a BAR0 register gives where the read changes nothing (Table host.1): all but the semaphores. A BN6-P1 has no
die-to-die link (R2): its bit of LINKST reads 0. Write-only registers and reserved offsets read 0. -/
def State.hostRead (s : State) (port : BitVec 1) (o : Nat) : Nat :=
  let h := s.host
  if o = 0 then (if s.twoDie then 0xB602 else 0xB601) * 2^48 + port.toNat
  else if o = 0x008 then bnat h.warmBusy
  else if o = 0x010 then h.fail.toNat * 2^8 + h.stage.toNat
  else if o = 0x200 then h.regiontab.toNat
  else if o = 0x208 then h.sesstab.toNat
  else if o = 0x210 then h.swapcb.toNat
  else if o = 0x218 then h.cnsavea.toNat
  else if o = 0x220 then h.cecnt.toNat
  else if o = 0x228 then h.uecnt.toNat
  else if o = 0x230 then nput h.linkst.toNat 18 1 (bnat (s.twoDie && h.linkst.getLsbD 18))
  else if 0x400 ≤ o ∧ o < 0x600 then nbits (h.meas.toList.getD ((o - 0x400) / 64) 0).toNat ((o - 0x400) % 64 * 8) 64
  else if 0x10000 ≤ o ∧ o < 0x50000 then (s.queue ((o - 0x10000) / 64)).read (o % 64)
  else if 0x80000 ≤ o ∧ o < 0xA0000 then (s.ring ((o - 0x80000) / 32)).read (o % 32)
  else 0

/-! ### Reads (R224, R364, R368) -/

/-- A read of the register at an offset of BAR0 (R364): a semaphore is taken by it (R366). -/
def State.bar0Read (s : State) (port : BitVec 1) (o : Nat) : State :=
  if 0x100 ≤ o ∧ o < 0x180 then s.semRead port (BitVec.ofNat 4 ((o - 0x100) / 8))
  else s.answer (.value (wd (s.hostRead port (o / 8 * 8))))

/-- A read of `n` bytes through BAR2 (R224, R364). -/
def State.bar2Read (s : State) (o n : Nat) : State :=
  let secs := sectorsOf ((List.range n).map (fun i => (o + i, (0 : Byte))))
  if s.memBytes < o + n then s.answer .unsupported
  else if secs.all (fun sec => s.covered .io (32 * sec) && !(s.poisoned sec)) then
    s.answer (.bytes ((List.range n).map (fun i => s.homeByte (o + i))))
  else s.answer .completerAbort

/-- HOST_MEMORY_READ (R364, R368), through either BAR. It passes no posted write of its port (log entry 24): those on their way have
arrived. -/
def execHostMemoryRead (a : HostAddress) (len : BitVec 12) (s : State) : Res :=
  .next (s.throughPort a.port (fun s =>
    let s := s.arriveIf (fun o => (o.src.host.map Prod.fst) == some a.port)
    if a.bar0 then s.bar0Read a.port (a.off.toNat % 2^20) else s.bar2Read a.off.toNat len.toNat))

end Sys2Proof.Machine
end

