-- ==== Sys2Proof/Machine/Lath.lean ====
section
/-!
DEFINITION. The wiring of a counting network (R330, R331) and how its tokens travel and leave (R333, R118).
-/

namespace Sys2Proof.Machine

/-! ### Wiring (R331) -/

/-- A balancer: its layer, inputs and outputs (top, bottom), by wire. -/
structure Balancer where
  layer : Nat
  p : Nat
  q : Nat
  top : Nat
  bottom : Nat
  deriving DecidableEq, Repr

/-- Balancers in the order of their creation. -/
abbrev Wiring := List Balancer

/-- The layer that feeds a wire; entry wires, 0 to 15, count as layer 0. -/
def wireLayer (n : Wiring) (w : Nat) : Nat := ((n.find? (fun b => b.top == w || b.bottom == w)).map Balancer.layer).getD 0

/-- `Bal(p, q)`. -/
def bal (n : Wiring) (p q : Nat) : Wiring × (Nat × Nat) :=
  let w := 16 + 2 * n.length
  (n ++ [{ layer := Nat.max (wireLayer n p) (wireLayer n q) + 1, p := p, q := q, top := w, bottom := w + 1 }], (w, w + 1))

/-- The wires of a list at even or odd indices. -/
def everyOther (odd : Nat) (ws : List Nat) : List Nat := (ws.zipIdx.filter (fun x => x.2 % 2 == odd)).map Prod.fst

/-- The last column of a merger. -/
def mergeColumn (n : Wiring) : List Nat → List Nat → Wiring × List Nat
  | z :: zs, z' :: zs' =>
    let (n, t, b) := bal n z z'
    let (n, ys) := mergeColumn n zs zs'
    (n, t :: b :: ys)
  | _, _ => (n, [])

/-- `Merger` of two lists of 2^k wires. -/
def merger (n : Wiring) : Nat → List Nat → List Nat → Wiring × List Nat
  | 0, u, u' =>
    let (n, t, b) := bal n (u.getD 0 0) (u'.getD 0 0)
    (n, [t, b])
  | k + 1, u, u' =>
    let (n, z) := merger n k (everyOther 0 u) (everyOther 1 u')
    let (n, z') := merger n k (everyOther 1 u) (everyOther 0 u')
    mergeColumn n z z'

/-- `Bitonic` of 2^(k+1) wires. -/
def bitonic (n : Wiring) : Nat → List Nat → Wiring × List Nat
  | 0, x =>
    let (n, t, b) := bal n (x.getD 0 0) (x.getD 1 0)
    (n, [t, b])
  | k + 1, x =>
    let h := 2 ^ (k + 1)
    let (n, a) := bitonic n k (x.take h)
    let (n, c) := bitonic n k (x.drop h)
    merger n (k + 1) a c

/-- The network of width 16: its balancers and its exit wires. -/
def lath : Wiring × List Nat := bitonic [] 3 (List.range 16)

/-- A balancer's bit in the image: 8 (l - 1) + j, j counting the balancers of its layer in the order of creation. -/
def balIndex (n : Wiring) (b : Balancer) : Nat :=
  8 * (b.layer - 1) + (n.takeWhile (fun x => x ≠ b)).countP (fun x => x.layer == b.layer)

/-! ### Tokens (R330, R333) -/

/-- A token passes one balancer, if it stands before one. -/
def Net.hop (x : Net) (t : Token) : Net × Token :=
  match lath.1.find? (fun b => b.p == t.wire || b.q == t.wire) with
  | none => (x, t)
  | some b =>
    let i := balIndex lath.1 b
    let bit := x.bal.toNat / 2^i % 2
    ({ x with bal := x.bal ^^^ BitVec.ofNat 80 (2^i) }, { t with wire := if bit = 0 then b.top else b.bottom, layer := t.layer + 1 })

/-- A token passes up to `n` balancers. -/
def Net.hops (x : Net) (t : Token) : Nat → Net × Token
  | 0 => (x, t)
  | n + 1 =>
    let (x, t) := x.hop t
    x.hops t n

/-- The exit a token stands at, once it has passed the ten layers. -/
def Token.exit (t : Token) : Option Nat := lath.2.idxOf? t.wire

/-- The draw on exit wire w: its value, and the network after it (R117, R118, R333). -/
def Net.draw (x : Net) (w : Nat) : Word × Net :=
  let c := (x.cnt.toList.getD w 0)
  let v := x.base + wd (w + 16 * c.toNat)
  let hwm := if x.hwm.toNat < (v + 1).toNat then v + 1 else x.hwm
  if c = BitVec.allOnes 48 then (v, { x with hwm := hwm, closed := true, torn := true })
  else (v, { x with hwm := hwm, cnt := if h : w < 16 then x.cnt.set w (c + 1) h else x.cnt })

/-- A token travels through a network and, at an exit, draws: the network, the token where it has not left, the value drawn. -/
def Net.travel (x : Net) (k hops : Nat) : Net × Option (Token × Word) :=
  match x.tokens[k]? with
  | none => (x, none)
  | some t =>
    let (x, t) := x.hops t hops
    match t.exit with
    | none => ({ x with tokens := x.tokens.set k t }, none)
    | some w =>
      let (v, x) := x.draw w
      ({ x with tokens := x.tokens.eraseIdx k }, some (t, v))

/-- TOKEN_EXIT (R333): a token passes some balancers; where it leaves, the value is logged (R351) and written to the hart's rd. A
token does not leave while the region's log is full. -/
def execTokenExit (net : BitVec 4) (k hops : Nat) (s : State) : Res :=
  let (x, out) := (s.net net).travel k hops
  .next (match out with
    | none => s.setNet net x
    | some (t, v) =>
      match s.hart? t.hart with
      | none => s.setNet net x
      | some h =>
        if h.replay = 1 && !(s.logRoom h.region 1) then s
        else (s.setNet net x).onHart t.hart (fun s =>
          (s.logged 3 v.toNat net.toNat).doneSplit (fun r => r.writeS t.rd v)))

end Sys2Proof.Machine
end

