-- ==== Sys2Proof/Machine/Observe.lean ====
section
/-!
DEFINITION. Observation (R353 to R358), the strip cycle limit (R203) and pre-emption as events (R303).
-/

namespace Sys2Proof.Machine

/-! ### The sample buffer (R353, R354, R358) -/

/-- As whom a record's buffer is translated: its hart, or where that has ended, a hart of its region at user level. -/
def State.bufferHart (s : State) (r : ObsRecord) : Hart :=
  match s.hart? r.hart with
  | some h => { h with region := r.region }
  | none => { Hart.blank r.hart with region := r.region }

/-- The location of a byte of a record's buffer. -/
def State.bufferLoc (s : State) (r : ObsRecord) (off : Nat) : Option Nat :=
  match s.translate (s.bufferHart r) (wd (nbits r.buffer.toNat 12 52 * 4096 + off)) .write with
  | .ok x => some x.loc
  | .error _ => none

/-- Slots of a buffer. -/
def ObsRecord.slots (r : ObsRecord) : Nat := (2 ^ nbits r.buffer.toNat 0 6 - 64) / 32

/-- Slot j has a translation. -/
def State.slotMapped (s : State) (r : ObsRecord) (j : Nat) : Bool := (s.bufferLoc r (64 + 32 * (j % r.slots))).isSome

/-- Write 32 bytes in slot j, turned to L5. -/
def State.putSlot (s : State) (r : ObsRecord) (j x : Nat) : State :=
  match s.bufferLoc r (64 + 32 * (j % r.slots)) with
  | some loc => s.unitWrite 5 r.region loc 32 x
  | none => s

/-- The unit writes its oldest record, after a gap marker where records were dropped, or drops it (R358). A record whose header or slot
has no translation is dropped and counted, and WPTR stands (log entry 19). -/
def State.writeObs (s : State) (core : BitVec 10) (r : ObsRecord) (rest : List ObsRecord) : State :=
  let c := s.core core
  let gap := c.gap + r.lost
  let s := s.setCore core { c with obs := rest, gap := gap }
  let drop := s.setCore core { c with obs := rest, gap := gap + 1 }
  match s.bufferLoc r 0 with
  | none => drop
  | some hd =>
    let wptr := s.homeNat hd 8
    let free := r.slots - (wptr - s.homeNat (hd + 8) 8)
    if gap = 0 then
      (if 1 ≤ free && s.slotMapped r wptr then (s.putSlot r wptr r.record.toNat).unitWrite 5 r.region hd 8 (wptr + 1) else drop)
    else if 2 ≤ free && s.slotMapped r wptr && s.slotMapped r (wptr + 1) then
      let s := (s.putSlot r wptr (0xA1F00000 + Nat.min gap (2^20 - 1))).putSlot r (wptr + 1) r.record.toNat
      let s := s.unitWrite 5 r.region (hd + 16) 8 (s.homeNat (hd + 16) 8 + gap)
      (s.unitWrite 5 r.region hd 8 (wptr + 2)).setCore core { s.core core with gap := 0 }
    else drop

/-- OBS_RECORD_WRITE (R354). -/
def execObsRecordWrite (core : BitVec 10) (s : State) : Res :=
  .next (match (s.core core).obs with
    | [] => s
    | r :: rest => s.writeObs core r rest)

/-- A hart's sample record (R357). -/
def State.sample (s : State) (h : Hart) : State :=
  s.observe h (obsHeader 2 0 h.id + h.r.vl % 2^32 * 2^32 + h.strippc.toNat * 2^64 + h.stripn.toNat * 2^128 + h.pc.toNat * 2^192)

/-- A hart records samples. -/
def Hart.samples (h : Hart) : Bool := h.trace && h.tracectl.getLsbD 1

/-- SAMPLE_TICK (R357): while the other slot runs, its hart is sampled, if it records samples. -/
def execSampleTick (hart : BitVec 11) (s : State) : Res :=
  .next (match s.hart? hart with
    | none => s
    | some h =>
      if !h.samples then s
      else match s.hart? (otherSlot hart) with
        | some o => if o.st = .running then (if o.samples then s.sample o else s) else s.sample h
        | none => s.sample h)

/-! ### The strip cycle limit (R203) -/

/-- STRIP_LIMIT_EXPIRY (R203). -/
def execStripLimitExpiry (hart : BitVec 11) (s : State) : Res :=
  .next (s.modHart hart (fun h =>
    if h.expert && nbits h.stripctl.toNat 8 32 != 0 && h.stripOpen then { h with overLimit := true } else h))

/-! ### Pre-emption (R302, R303) -/

/-- PREEMPTION_REQUEST (R302, R303): intrusive profiling of the hart, or of another of its gang, holds it, unless the hart's region is
stopped (R198, R363). One whose wait it withdraws becomes READY as any other (R301). -/
def execPreemptionRequest (hart : BitVec 11) (s : State) : Res :=
  .next (match s.hart? hart with
    | none => s
    | some h =>
      if s.gangProfiled h && !(s.regionStopped h.region) then s
      else if h.st = .parked then (s.requestPreempt hart).onHart h.leader (fun s => if s.h.st = .ready then s.nowReady else s)
      else s.requestPreempt hart)

/-- The strip aborts and the selected hart leaves the core: a pending request, a strip that is still open, nothing that is never
cut (R303, R304). -/
def State.preemptAbort (s : State) : State :=
  let cut := match s.h.wait with
    | .none | .remote _ => true
    | _ => false
  if s.h.preempt && s.h.st == .running && s.h.stripOpen && cut && !s.h.isWhole then
    ((s.modH (fun h => { h with wait := .none })).rollback true).leaveCore
  else s

/-- PREEMPT_WAIT_EXPIRY (R303). -/
def execPreemptWaitExpiry (hart : BitVec 11) (s : State) : Res :=
  .next (match s.hart? hart with
    | none => s
    | some h => s.onHart h.leader State.preemptAbort)

end Sys2Proof.Machine
end

