-- ==== Sys2Proof/Machine/Package.lean ====
section
/-!
DEFINITION. The package: boot (R372), warm reset and power-on (R365, R336), links (R366, R371), attestation (R373), power (R374).
-/

namespace Sys2Proof.Machine

/-! ### Primer (R372) -/

/-- How a run of Primer ends: the last step completed, the failure code, the image's digest and entry point. -/
structure Boot where
  stage : Nat
  fail : Nat
  digest : Option (BitVec 512)
  entry : Nat
  deriving DecidableEq, Repr

/-- Bytes of a field of the boot image. -/
def slice8 (img : List Byte) (off n : Nat) : List Byte := (img.drop off).take n

/-- The 64 bytes of a digest. -/
def digestBytes (d : BitVec 512) : List Byte := bytesLe 64 d.toNat

/-- Primer reads and checks an image (Table host.5): `known` is the digest it requires at a warm reset (none of a
package that stands as State.reset: the same image was measured), and `clear` says that an
uncorrectable error stops its clearing of memory at power-on (log entry 29). -/
def primer (image : Option (List Byte)) (known : Option (BitVec 512)) (clear : Bool) : Boot :=
  match image with
  | none => { stage := 0, fail := 1, digest := none, entry := 0 }
  | some img =>
    let len := leOf (slice8 img 8 8)
    let entry := leOf (slice8 img 16 8)
    let digest := Config.sha512 (slice8 img 0 157 ++ slice8 img 512 len)
    let stop := fun (stage fail : Nat) => ({ stage := stage, fail := fail, digest := none, entry := entry } : Boot)
    if leOf (slice8 img 0 4) ≠ 0x50520601 ∨ img.length < 512 + len ∨ len ≤ entry then stop 0 2
    else if Config.sha512 (slice8 img 24 133) ≠ Config.fusedKeyHash then stop 1 3
    else if !(Config.ecdsaVerify (slice8 img 24 133) (slice8 img 157 132) digest) then stop 1 4
    else if leOf (slice8 img 4 4) < Config.fusedSvn then stop 2 5
    else match known with
      | some d => if d = digest then { stage := 6, fail := 0, digest := some digest, entry := entry } else stop 3 7
      | none => { stage := if clear then 4 else 6, fail := if clear then 6 else 0, digest := some digest, entry := entry }

/-- Every core held: no hart. -/
def State.holdCores (s : State) : State := { s with h := Hart.blank 0, others := [] }

/-- Primer has run: a failure holds every core, success starts the first stage (log entry 3). -/
def State.booted (s : State) (b : Boot) : State :=
  let s := (s.holdCores).modHost (fun h => { h with stage := BitVec.ofNat 8 b.stage, fail := BitVec.ofNat 8 b.fail })
  if b.fail = 0 then { s with h := { Hart.boot with pc := wd b.entry, strippc := wd b.entry } } else s

/-- An extension of a measurement register (R372). -/
def extend (m d : BitVec 512) : BitVec 512 := Config.sha512 (digestBytes m ++ digestBytes d)

/-- Memory outside the package: host memory as the host holds it, and that of other packages. -/
def State.outerCells (s : State) : List Host.Cell :=
  (s.held.foldl (fun m c => sset 0 m c.1 c.2) s.mem).filter (fun c => isHost c.1 || isRemote c.1)

/-- The state at power-on before Primer runs: what is fixed in the part, what is on flash, in host memory or in other packages, and
which host and Span links are up, stay; the die-to-die link trains, where there is one (R2). -/
def State.cold (s : State) : State :=
  { State.reset with
    twoDie := s.twoDie, pkg := s.pkg, domain := s.domain, flash := s.flash, clock := s.clock, agenda := s.agenda, mem := s.outerCells
    turn := s.turn.filter (fun e => isRemote (32 * e.1)), full := s.full.filter (fun w => isRemote (8 * w)), namespaces := s.namespaces
    host := { HostRegs.reset with stage := 0, linkUp := s.host.linkUp, linkst := BitVec.ofNat 19 (nput s.host.linkst.toNat 18 1 (bnat s.twoDie)) } }

/-- POWER_ON (R365, R372). -/
def execPowerOn (s : State) : Res :=
  let b := primer Config.bootImage none (Config.clearFails s.clock)
  let s := s.cold
  .next ((match b.digest with
    | some d => s.modHost (fun h => { h with meas := h.meas.set 0 (extend (h.meas.get 0) d), measured := some d })
    | none => s).booted b)

/-! ### Warm reset (R365, R336) -/

/-- What stopping admission changes (R365). -/
def State.warmAdmission (s : State) : State :=
  { s with
    queues := s.queues.map (fun (q : Nat × WorkQueue) => (q.1, { q.2 with enable := false, head := q.2.tail, bells := [] }))
    starts := [], tasks := s.tasks.map (fun (t : Task) => { t with pool := none }) }

/-- Step 2: a hart's open strip aborts, its writes arrive, and its admitted token completes (R242, R304). -/
def State.warmHart (s : State) (id : BitVec 11) : State :=
  let s := s.onHart id (fun s => if s.h.stripOpen then s.rollback true else s)
  s.arriveHart id

/-- The tokens of a network have all left (R336). -/
def Net.drain (x : Net) : Nat → Net
  | 0 => { x with tokens := [] }
  | n + 1 => if x.tokens.isEmpty then x else (x.travel 0 10).1.drain n

/-- Step 4: every network is closed, drained, saved and reset (R336). -/
def State.warmNets (s : State) : State :=
  (List.range 16).foldl (fun s i =>
    let m := BitVec.ofNat 4 i
    let x := { (s.net m).drain (s.net m).tokens.length with closed := true }
    (s.unitPut 0 (s.host.cnsavea.toNat + 256 * i) 256 (x.image m)).setNet m Net.reset) s

/-- Step 5: cores, scratchpads and inbound stores are cleared. -/
def State.warmCores (s : State) : State :=
  { s with
    cores := [], mem := s.mem.filter (fun c => !(isScratch c.1)), turn := s.turn.filter (fun e => !(isScratch (32 * e.1)))
    full := s.full.filter (fun w => !(isScratch (8 * w))), poison := s.poison.filter (fun p => !(isScratch (32 * p.sector)))
    copies := [], waiters := [], arrays := [], loads := [], tasks := [], promos := [],
    regions := [(0, RegionCtx.boot)], refs := [], stoppedRegions := [], ended := [], unlogged := [] }

/-- Step 7: the host registers that a warm reset changes. -/
def State.warmRegisters (s : State) : State :=
  { s.modHost (fun h => { h with sem := Vector.replicate 16 0 }) with
    rings := s.rings.map (fun (r : Nat × Ring) => (r.1, { r.2 with enable := false })) }

/-- Step 1: admission stops, and CTRL.WARM reads 1 (R365). -/
def State.warmBegin (s : State) : State := s.warmAdmission.modHost (fun h => { h with warmBusy := true })

/-- A hart, or its gang, has a build in the session sequencer, which completes first (R304, R365). -/
def State.warmKeeps (s : State) (h : Hart) : Bool := (s.leadOf h).building.isSome

/-- Step 2, and what of step 3 begins at once: every hart but one whose build has begun is gone, its tokens have left their networks, its
engine commands answer nobody, and of the fetches those go on that are in flight or serve a session (R242, R304, R344, R365). No record is
written for a hart, so what was posted before stays and nothing is added. -/
def State.warmStop (s : State) : State :=
  let go := s.harts.filter (fun h => !(s.warmKeeps h))
  let s := (go.map Hart.id).foldl State.warmHart s
  let s := go.foldl (fun s h => s.setHart (Hart.blank h.id)) s
  { s with
    nets := s.nets.map (fun x => { x.drain x.tokens.length with closed := true })
    cmds := s.cmds.map (fun (c : Cmd) => { c with orphan := true }), waiters := []
    fetches := (s.fetches.filter (fun (f : Fetch) => f.session.isSome || f.started.isSome || s.inFlight f.entry f.page)).map
      (fun (f : Fetch) => { f with tickets := [] }) }

/-- Step 3 is over: every engine command has completed, no entry is in flight, and the swap engine has no request in hand. -/
def State.warmIdle (s : State) : Bool :=
  s.cmds.isEmpty && s.evict.isNone && s.fetches.all (fun f => f.started.isNone && !(s.inFlight f.entry f.page))

/-- Step 3: the swap engine stops. What a RESUMING session lacks is fetched once it runs again. -/
def State.warmSwap (s : State) : State :=
  { s.modHost (fun h => { h with swapcb := h.swapcb &&& ~~~1 }) with
    fetches := s.fetches.filter (fun (f : Fetch) => f.session.isSome), nvme := [], pairs := 0 }

/-- Steps 4 to 8, behind the engines. -/
def State.warmFinish (s : State) : State :=
  let s := (s.warmSwap.warmNets.warmCores.warmRegisters).modHost (fun h => { h with warmBusy := false })
  s.booted (primer Config.bootImage s.host.measured false)

/-- A warm reset that has begun goes on: harts stop, and once none is left and the engines have finished it ends; CTRL.WARM reads 1 until
then (R365). -/
def State.warmOn (s : State) : State :=
  if !s.host.warmBusy then s
  else
    let s := s.warmStop
    if s.harts.isEmpty && s.warmIdle then s.warmFinish else s

/-- WARM (R365): a write of 1 to CTRL.WARM. -/
def execWarm (v : BitVec 64) (s : State) : Res :=
  .next (if v.getLsbD 0 && !s.host.warmBusy then s.warmBegin.warmOn else s)

/-! ### Links (R366, R371, R337) -/

/-- A host port's link goes down: its semaphores become free (R366). -/
def State.portDown (s : State) (port : BitVec 1) : State :=
  s.modHost (fun h => { h with
    linkUp := h.linkUp.set port.toNat false port.isLt
    sem := h.sem.map (fun v => if v = wd (port.toNat + 1) then 0 else v) })

/-- HOST_LINK_DOWN (R366). -/
def execHostLinkDown (port : BitVec 1) (s : State) : Res := .next (s.portDown port)

/-- HOST_LINK_UP (R369). -/
def execHostLinkUp (port : BitVec 1) (s : State) : Res :=
  .next (s.modHost (fun h => { h with linkUp := h.linkUp.set port.toNat true port.isLt }))

/-- A network loses a token: it is TORN and closed, and the token's `takenum` waits at its entry again (R337). -/
def State.loseToken (s : State) (m : BitVec 4) (k : Nat) : State :=
  let x := s.net m
  match x.tokens[k]? with
  | none => s
  | some t =>
    (s.setNet m { x with tokens := x.tokens.eraseIdx k, torn := true, closed := true }).onHart t.hart (fun s => s.stall .retry)

/-- LINK_FAULT (R371, R337): a Span link, or the die-to-die link, fails, and its LINKST bit clears. A router fault that loses a token is
reported as the fault of a link that the event names (DESIGN CHOICE, log entry 71: no rule says of which). -/
def execLinkFault (link : BitVec 5) (lost : Option (BitVec 4 × Nat)) (s : State) : Res :=
  let s := if link.toNat < 19 then
      s.modHost (fun h => { h with linkst := BitVec.ofNat 19 (nput h.linkst.toNat link.toNat 1 0) })
    else s
  .next (match lost with
    | some (m, k) => s.loseToken m k
    | none => s)

/-- SPAN_LINK_UP (R371). -/
def execSpanLinkUp (link : BitVec 5) (s : State) : Res :=
  .next (if link.toNat < 18 then
      s.modHost (fun h => { h with linkst := BitVec.ofNat 19 (nput h.linkst.toNat link.toNat 1 1) })
    else s)

/-- The first engine command of a hart that stands without a path, its place and how far it has come (R188, R371). -/
def State.pathless (s : State) (hart : BitVec 11) : Option (Nat × Cmd × EngRun × Trap) :=
  s.cmds.zipIdx.findSome? (fun x =>
    if x.1.hart == hart && s.mayComplete x.2 x.1 then
      let r := s.runCmd x.1
      match r.stop with
      | some t => if t.code = waitNoPath then some (x.2, x.1, r, t) else none
      | none => none
    else none)

/-- REMOTE_ACCESS_TIMEOUT (R371): an access of a hart without a path traps PROT with its address; a store of a `ctxsave` stops the save
(R308); an access of an engine command is reported so (R188). -/
def execRemoteAccessTimeout (hart : BitVec 11) (s : State) : Res :=
  .next (if !s.linksDown then s
    else match (s.hart? hart).map Hart.wait with
      | some (.saving _ id u) => s.onHart hart (fun s => match s.hart? id with
          | some t => (s.modH (fun h => { h with wait := .none })).saveFault t u
          | none => s)
      | some (.remote va) => s.onHart hart (fun s => (s.modH (fun h => { h with wait := .none })).abortTrap (trapOf causeProt va))
      | _ => match s.pathless hart with
        | some (k, c, r, t) => s.finishCmd k c { r with stop := some { t with code := causeProt } }
        | none => s)

/-! ### SPDM (R373) -/

/-- The responder of a port. -/
def State.spdmOf (s : State) (port : BitVec 1) : Spdm := s.host.spdm.get port.toFin

/-- Set the responder of a port, and answer. -/
def State.respond (s : State) (port : BitVec 1) (x : Spdm) (r : Reply) : State :=
  s.modHost (fun h => { h with spdm := h.spdm.set port.toNat x port.isLt, reply := r })

/-- Answer when the earlier requests of the standard's order have been made, else ERROR (log entry 21). -/
def State.spdmAfter (s : State) (ok : Bool) (r : Reply) : State :=
  s.answer (if ok then r else .spdmError)

/-- GET_VERSION (R373): SPDM 1.3; it begins the exchange afresh. -/
def execGetVersion (port : BitVec 1) (s : State) : Res :=
  .next (s.throughPort port (fun s => s.respond port { version := true, caps := false, algs := false } (.bytes [0x13])))

/-- GET_CAPABILITIES (R373). -/
def execGetCapabilities (port : BitVec 1) (s : State) : Res :=
  .next (s.throughPort port (fun s =>
    let x := s.spdmOf port
    if x.version then s.respond port { x with caps := true } (.bytes Config.spdmCaps) else s.answer .spdmError))

/-- NEGOTIATE_ALGORITHMS (R373): ECDSA over P-521 (bit 8 of the standard's asymmetric mask) with SHA-512 (bit 2 of its hash mask). -/
def execNegotiateAlgorithms (port : BitVec 1) (asym : BitVec 32) (hash : BitVec 32) (s : State) : Res :=
  .next (s.throughPort port (fun s =>
    let x := s.spdmOf port
    if x.caps && asym.getLsbD 8 && hash.getLsbD 2 then
      s.respond port { x with algs := true } (.bytes (bytesLe 4 (2^8) ++ bytesLe 4 (2^2)))
    else s.answer .spdmError))

/-- GET_DIGESTS (R373): slot 0's chain. -/
def execGetDigests (port : BitVec 1) (s : State) : Res :=
  .next (s.throughPort port (fun s =>
    s.spdmAfter (s.spdmOf port).algs (.bytes (digestBytes (Config.sha512 Config.certChain)))))

/-- GET_CERTIFICATE (R373): no slot but 0 is populated. -/
def execGetCertificate (port : BitVec 1) (slot : BitVec 4) (off : BitVec 16) (len : BitVec 16) (s : State) : Res :=
  .next (s.throughPort port (fun s =>
    s.spdmAfter ((s.spdmOf port).algs && slot == 0) (.bytes ((Config.certChain.drop off.toNat).take len.toNat))))

/-- The measurement registers as bytes. -/
def State.measBytes (s : State) : List Byte := s.host.meas.toList.flatMap digestBytes

/-- CHALLENGE (R373): signed by the device identity key. -/
def execChallenge (port : BitVec 1) (slot : BitVec 4) (nonce : BitVec 256) (s : State) : Res :=
  .next (s.throughPort port (fun s =>
    s.spdmAfter ((s.spdmOf port).algs && slot == 0)
      (.bytes (Config.deviceSign (bytesLe 32 nonce.toNat ++ digestBytes (Config.sha512 Config.certChain) ++ s.measBytes)))))

/-- The measurement blocks a request names: block i, from 1 to 8, is MEAS(i - 1); 0 asks for their number, 0xFF for all. -/
def State.measurement (s : State) (index : BitVec 8) : Option (List Byte) :=
  if index = 0 then some [8]
  else if index = 0xFF then some s.measBytes
  else if index.toNat ≤ 8 then some (digestBytes (s.host.meas.toList.getD (index.toNat - 1) 0))
  else none

/-- GET_MEASUREMENTS (R373). -/
def execGetMeasurements (port : BitVec 1) (index : BitVec 8) (sign : Bool) (nonce : BitVec 256) (s : State) : Res :=
  .next (s.throughPort port (fun s =>
    match s.measurement index with
    | none => s.answer .spdmError
    | some bs => s.spdmAfter (s.spdmOf port).algs
        (.bytes (if sign then bs ++ Config.deviceSign (bytesLe 32 nonce.toNat ++ bs) else bs))))

/-! ### Power (R374) -/

/-- Intrusive profiling is in effect: a hart holds it, or the records of its clearing are not all written (R363). -/
def State.profiled (s : State) : Bool :=
  s.harts.any Hart.intrusive || s.posted.any (fun p => nbits p.record.toNat 0 16 == 0x08)

/-- POWER_CAP (R374): one sixteenth down, or up as far as the rated clocks; intrusive profiling suspends it (R363). -/
def execPowerCap (raise : Bool) (s : State) : Res :=
  .next (if s.profiled then s
    else { s with ratio := if raise then Nat.min 16 (s.ratio + 1) else Nat.max 1 (s.ratio - 1) })

/-- THERMAL_STOP (R374): the package stops, and both host links go down. -/
def execThermalStop (s : State) : Res := .next { (s.portDown 0).portDown 1 with stopped := true }

end Sys2Proof.Machine
end

