-- ==== Sys2Proof/Machine/Dispatch.lean ====
section
/-!
DEFINITION. One arm per constructor of `Instr`: the meaning each instruction and event has.
-/

namespace Sys2Proof.Machine

def exec (i : Instr) (s : State) : Host.Outcome State Fault Refusal :=
  match i with
  | .add rd ra rb => Sys2Proof.Machine.execAdd rd ra rb s
  | .sub rd ra rb => Sys2Proof.Machine.execSub rd ra rb s
  | .mul rd ra rb => Sys2Proof.Machine.execMul rd ra rb s
  | .mulh rd ra rb => Sys2Proof.Machine.execMulh rd ra rb s
  | .mulhn rd ra rb => Sys2Proof.Machine.execMulhn rd ra rb s
  | .div rd ra rb => Sys2Proof.Machine.execDiv rd ra rb s
  | .divn rd ra rb => Sys2Proof.Machine.execDivn rd ra rb s
  | .rem rd ra rb => Sys2Proof.Machine.execRem rd ra rb s
  | .remn rd ra rb => Sys2Proof.Machine.execRemn rd ra rb s
  | .and rd ra rb => Sys2Proof.Machine.execAnd rd ra rb s
  | .or rd ra rb => Sys2Proof.Machine.execOr rd ra rb s
  | .xor rd ra rb => Sys2Proof.Machine.execXor rd ra rb s
  | .andn rd ra rb => Sys2Proof.Machine.execAndn rd ra rb s
  | .sll rd ra rb => Sys2Proof.Machine.execSll rd ra rb s
  | .srl rd ra rb => Sys2Proof.Machine.execSrl rd ra rb s
  | .sra rd ra rb => Sys2Proof.Machine.execSra rd ra rb s
  | .min rd ra rb => Sys2Proof.Machine.execMin rd ra rb s
  | .max rd ra rb => Sys2Proof.Machine.execMax rd ra rb s
  | .minn rd ra rb => Sys2Proof.Machine.execMinn rd ra rb s
  | .maxn rd ra rb => Sys2Proof.Machine.execMaxn rd ra rb s
  | .clz rd ra => Sys2Proof.Machine.execClz rd ra s
  | .ctz rd ra => Sys2Proof.Machine.execCtz rd ra s
  | .popc rd ra => Sys2Proof.Machine.execPopc rd ra s
  | .sext rd ra sz => Sys2Proof.Machine.execSext rd ra sz s
  | .zext rd ra sz => Sys2Proof.Machine.execZext rd ra sz s
  | .bswap rd ra sz => Sys2Proof.Machine.execBswap rd ra sz s
  | .cmp rd ra rb k => Sys2Proof.Machine.execCmp rd ra rb k s
  | .cand rd ra rb => Sys2Proof.Machine.execCand rd ra rb s
  | .cor rd ra rb => Sys2Proof.Machine.execCor rd ra rb s
  | .cxor rd ra rb => Sys2Proof.Machine.execCxor rd ra rb s
  | .cnot rd ra => Sys2Proof.Machine.execCnot rd ra s
  | .csel rd ra rb c => Sys2Proof.Machine.execCsel rd ra rb c s
  | .addi rd ra imm => Sys2Proof.Machine.execAddi rd ra imm s
  | .andi rd ra imm => Sys2Proof.Machine.execAndi rd ra imm s
  | .ori rd ra imm => Sys2Proof.Machine.execOri rd ra imm s
  | .xori rd ra imm => Sys2Proof.Machine.execXori rd ra imm s
  | .slli rd ra sh => Sys2Proof.Machine.execSlli rd ra sh s
  | .srli rd ra sh => Sys2Proof.Machine.execSrli rd ra sh s
  | .srai rd ra sh => Sys2Proof.Machine.execSrai rd ra sh s
  | .lui rd imm => Sys2Proof.Machine.execLui rd imm s
  | .addpc rd imm => Sys2Proof.Machine.execAddpc rd imm s
  | .cmpiEq rd ra imm => Sys2Proof.Machine.execCmpiEq rd ra imm s
  | .cmpiNe rd ra imm => Sys2Proof.Machine.execCmpiNe rd ra imm s
  | .cmpiLt rd ra imm => Sys2Proof.Machine.execCmpiLt rd ra imm s
  | .cmpiGe rd ra imm => Sys2Proof.Machine.execCmpiGe rd ra imm s
  | .cmpiLtn rd ra imm => Sys2Proof.Machine.execCmpiLtn rd ra imm s
  | .cmpiGen rd ra imm => Sys2Proof.Machine.execCmpiGen rd ra imm s
  | .bt c off => Sys2Proof.Machine.execBt c off s
  | .bf c off => Sys2Proof.Machine.execBf c off s
  | .j off => Sys2Proof.Machine.execJ off s
  | .jal off => Sys2Proof.Machine.execJal off s
  | .jalr rd ra imm => Sys2Proof.Machine.execJalr rd ra imm s
  | .ld rd ra v off => Sys2Proof.Machine.execLd rd ra v off s
  | .ldP rd ra v off => Sys2Proof.Machine.execLdP rd ra v off s
  | .st rd ra v off => Sys2Proof.Machine.execSt rd ra v off s
  | .ldx rd ra rb sh => Sys2Proof.Machine.execLdx rd ra rb sh s
  | .ldxP rd ra rb sh => Sys2Proof.Machine.execLdxP rd ra rb sh s
  | .stx rd ra rb sh => Sys2Proof.Machine.execStx rd ra rb sh s
  | .ldf rd ra => Sys2Proof.Machine.execLdf rd ra s
  | .ldfe rd ra => Sys2Proof.Machine.execLdfe rd ra s
  | .stf rd ra lv => Sys2Proof.Machine.execStf rd ra lv s
  | .ste ra => Sys2Proof.Machine.execSte ra s
  | .fetag rd ra => Sys2Proof.Machine.execFetag rd ra s
  | .amo rd ra rb wd lv rel acq op => Sys2Proof.Machine.execAmo rd ra rb wd lv rel acq op s
  | .cas rd ra rb wd lv rel acq => Sys2Proof.Machine.execCas rd ra rb wd lv rel acq s
  | .takenum rd n => Sys2Proof.Machine.execTakenum rd n s
  | .scalarHint h x => Sys2Proof.Machine.execScalarHint h x s
  | .illegal w => Sys2Proof.Machine.execIllegal w s
  | .setvl rd ra => Sys2Proof.Machine.execSetvl rd ra s
  | .settype rd ra => Sys2Proof.Machine.execSettype rd ra s
  | .slip n => Sys2Proof.Machine.execSlip n s
  | .vsync => Sys2Proof.Machine.execVsync s
  | .vtest rd ra c => Sys2Proof.Machine.execVtest rd ra c s
  | .vget rd wd => Sys2Proof.Machine.execVget rd wd s
  | .gang g => Sys2Proof.Machine.execGang g s
  | .ungang => Sys2Proof.Machine.execUngang s
  | .vfetch rd ra imm => Sys2Proof.Machine.execVfetch rd ra imm s
  | .sbind rd ra => Sys2Proof.Machine.execSbind rd ra s
  | .sdrop ra => Sys2Proof.Machine.execSdrop ra s
  | .spos rd ra => Sys2Proof.Machine.execSpos rd ra s
  | .sposW ra rb => Sys2Proof.Machine.execSposW ra rb s
  | .mma rd ra t => Sys2Proof.Machine.execMma rd ra t s
  | .mslide rd ra t => Sys2Proof.Machine.execMslide rd ra t s
  | .mzero rd t => Sys2Proof.Machine.execMzero rd t s
  | .mfill rd ra t => Sys2Proof.Machine.execMfill rd ra t s
  | .mdrain rd ra lv t => Sys2Proof.Machine.execMdrain rd ra lv t s
  | .mconst rd ra k t => Sys2Proof.Machine.execMconst rd ra k t s
  | .dmov rd ra lv => Sys2Proof.Machine.execDmov rd ra lv s
  | .dmovMx rd ra lv => Sys2Proof.Machine.execDmovMx rd ra lv s
  | .dconv rd ra lv => Sys2Proof.Machine.execDconv rd ra lv s
  | .turn ra rb lv => Sys2Proof.Machine.execTurn ra rb lv s
  | .turnA rd ra rb lv => Sys2Proof.Machine.execTurnA rd ra rb lv s
  | .turnAll lv => Sys2Proof.Machine.execTurnAll lv s
  | .turnAAll rd lv => Sys2Proof.Machine.execTurnAAll rd lv s
  | .tstate rd ra => Sys2Proof.Machine.execTstate rd ra s
  | .twait ra t => Sys2Proof.Machine.execTwait ra t s
  | .tread rd t => Sys2Proof.Machine.execTread rd t s
  | .kvtrunc rd ra rb => Sys2Proof.Machine.execKvtrunc rd ra rb s
  | .stepbuild rd ra rb => Sys2Proof.Machine.execStepbuild rd ra rb s
  | .curset rd ra c => Sys2Proof.Machine.execCurset rd ra c s
  | .cursetW ra rb c => Sys2Proof.Machine.execCursetW ra rb c s
  | .frameq rd ra => Sys2Proof.Machine.execFrameq rd ra s
  | .frameqW ra rb => Sys2Proof.Machine.execFrameqW ra rb s
  | .tspawn ra => Sys2Proof.Machine.execTspawn ra s
  | .tdone lv => Sys2Proof.Machine.execTdone lv s
  | .tarm ra => Sys2Proof.Machine.execTarm ra s
  | .tarmR ra => Sys2Proof.Machine.execTarmR ra s
  | .tyield => Sys2Proof.Machine.execTyield s
  | .tcancel ra => Sys2Proof.Machine.execTcancel ra s
  | .tcancelC ra => Sys2Proof.Machine.execTcancelC ra s
  | .evread rd => Sys2Proof.Machine.execEvread rd s
  | .evwait rd => Sys2Proof.Machine.execEvwait rd s
  | .lquery rd => Sys2Proof.Machine.execLquery rd s
  | .trap n => Sys2Proof.Machine.execTrap n s
  | .brk n => Sys2Proof.Machine.execBrk n s
  | .eret => Sys2Proof.Machine.execEret s
  | .ctxsave ra => Sys2Proof.Machine.execCtxsave ra s
  | .ctxload ra rb => Sys2Proof.Machine.execCtxload ra rb s
  | .cnsave ra m => Sys2Proof.Machine.execCnsave ra m s
  | .cnload ra m => Sys2Proof.Machine.execCnload ra m s
  | .cnclose m => Sys2Proof.Machine.execCnclose m s
  | .cnopen m => Sys2Proof.Machine.execCnopen m s
  | .rstop ra rb => Sys2Proof.Machine.execRstop ra rb s
  | .csrr rd c => Sys2Proof.Machine.execCsrr rd c s
  | .csrw rd ra c => Sys2Proof.Machine.execCsrw rd ra c s
  | .csrs rd ra c => Sys2Proof.Machine.execCsrs rd ra c s
  | .csrc rd ra c => Sys2Proof.Machine.execCsrc rd ra c s
  | .vadd e => Sys2Proof.Machine.execVadd e s
  | .vsub e => Sys2Proof.Machine.execVsub e s
  | .vadc e => Sys2Proof.Machine.execVadc e s
  | .vsbc e => Sys2Proof.Machine.execVsbc e s
  | .vmul e => Sys2Proof.Machine.execVmul e s
  | .vmulh e => Sys2Proof.Machine.execVmulh e s
  | .vmac e => Sys2Proof.Machine.execVmac e s
  | .vand e => Sys2Proof.Machine.execVand e s
  | .vor e => Sys2Proof.Machine.execVor e s
  | .vxor e => Sys2Proof.Machine.execVxor e s
  | .vandn e => Sys2Proof.Machine.execVandn e s
  | .vsll e => Sys2Proof.Machine.execVsll e s
  | .vsrl e => Sys2Proof.Machine.execVsrl e s
  | .vsra e => Sys2Proof.Machine.execVsra e s
  | .vmin e => Sys2Proof.Machine.execVmin e s
  | .vmax e => Sys2Proof.Machine.execVmax e s
  | .vminn e => Sys2Proof.Machine.execVminn e s
  | .vmaxn e => Sys2Proof.Machine.execVmaxn e s
  | .vabs e => Sys2Proof.Machine.execVabs e s
  | .vneg e => Sys2Proof.Machine.execVneg e s
  | .vcmp e => Sys2Proof.Machine.execVcmp e s
  | .vclass e => Sys2Proof.Machine.execVclass e s
  | .vfadd e => Sys2Proof.Machine.execVfadd e s
  | .vfsub e => Sys2Proof.Machine.execVfsub e s
  | .vfmul e => Sys2Proof.Machine.execVfmul e s
  | .vfma e => Sys2Proof.Machine.execVfma e s
  | .vfdiv e => Sys2Proof.Machine.execVfdiv e s
  | .vfsqrt e => Sys2Proof.Machine.execVfsqrt e s
  | .vfmin e => Sys2Proof.Machine.execVfmin e s
  | .vfmax e => Sys2Proof.Machine.execVfmax e s
  | .vfexp2 e => Sys2Proof.Machine.execVfexp2 e s
  | .vfabs e => Sys2Proof.Machine.execVfabs e s
  | .vfneg e => Sys2Proof.Machine.execVfneg e s
  | .vcvt e => Sys2Proof.Machine.execVcvt e s
  | .kand e => Sys2Proof.Machine.execKand e s
  | .kor e => Sys2Proof.Machine.execKor e s
  | .kxor e => Sys2Proof.Machine.execKxor e s
  | .kandn e => Sys2Proof.Machine.execKandn e s
  | .knot e => Sys2Proof.Machine.execKnot e s
  | .kmov e => Sys2Proof.Machine.execKmov e s
  | .kshup e => Sys2Proof.Machine.execKshup e s
  | .kshdn e => Sys2Proof.Machine.execKshdn e s
  | .kset e => Sys2Proof.Machine.execKset e s
  | .kpopc e => Sys2Proof.Machine.execKpopc e s
  | .kfirst e => Sys2Proof.Machine.execKfirst e s
  | .klast e => Sys2Proof.Machine.execKlast e s
  | .vredsum e => Sys2Proof.Machine.execVredsum e s
  | .vredmax e => Sys2Proof.Machine.execVredmax e s
  | .vredmin e => Sys2Proof.Machine.execVredmin e s
  | .vmerge e => Sys2Proof.Machine.execVmerge e s
  | .vosm e => Sys2Proof.Machine.execVosm e s
  | .vfnorm e => Sys2Proof.Machine.execVfnorm e s
  | .vld e => Sys2Proof.Machine.execVld e s
  | .vlds e => Sys2Proof.Machine.execVlds e s
  | .vldx e => Sys2Proof.Machine.execVldx e s
  | .vst e => Sys2Proof.Machine.execVst e s
  | .vsts e => Sys2Proof.Machine.execVsts e s
  | .vstx e => Sys2Proof.Machine.execVstx e s
  | .vamo e => Sys2Proof.Machine.execVamo e s
  | .vwait e => Sys2Proof.Machine.execVwait e s
  | .vxlate e => Sys2Proof.Machine.execVxlate e s
  | .kvput e => Sys2Proof.Machine.execKvput e s
  | .kvflush e => Sys2Proof.Machine.execKvflush e s
  | .vbcast e => Sys2Proof.Machine.execVbcast e s
  | .viota e => Sys2Proof.Machine.execViota e s
  | .vslideup e => Sys2Proof.Machine.execVslideup e s
  | .vslidedn e => Sys2Proof.Machine.execVslidedn e s
  | .vperm e => Sys2Proof.Machine.execVperm e s
  | .vcompress e => Sys2Proof.Machine.execVcompress e s
  | .vexpand e => Sys2Proof.Machine.execVexpand e s
  | .vextract e => Sys2Proof.Machine.execVextract e s
  | .vnop e => Sys2Proof.Machine.execVnop e s
  | .stop e => Sys2Proof.Machine.execStop e s
  | .elementHint op bits => Sys2Proof.Machine.execElementHint op bits s
  | .streamRead r => Sys2Proof.Machine.execStreamRead r s
  | .storeArrival k => Sys2Proof.Machine.execStoreArrival k s
  | .obsRecordWrite core => Sys2Proof.Machine.execObsRecordWrite core s
  | .sampleTick hart => Sys2Proof.Machine.execSampleTick hart s
  | .stripLimitExpiry hart => Sys2Proof.Machine.execStripLimitExpiry hart s
  | .vwaitSatisfied hart => Sys2Proof.Machine.execVwaitSatisfied hart s
  | .vwaitTimeout hart => Sys2Proof.Machine.execVwaitTimeout hart s
  | .tokenExit net k hops => Sys2Proof.Machine.execTokenExit net k hops s
  | .engineCommandComplete k => Sys2Proof.Machine.execEngineCommandComplete k s
  | .dmovMxFollowOn k => Sys2Proof.Machine.execDmovMxFollowOn k s
  | .taskDispatch die => Sys2Proof.Machine.execTaskDispatch die s
  | .workQueueTake q => Sys2Proof.Machine.execWorkQueueTake q s
  | .hartStart k => Sys2Proof.Machine.execHartStart k s
  | .eventRecordWrite k => Sys2Proof.Machine.execEventRecordWrite k s
  | .preemptionRequest hart => Sys2Proof.Machine.execPreemptionRequest hart s
  | .preemptWaitExpiry hart => Sys2Proof.Machine.execPreemptWaitExpiry hart s
  | .evictSession => Sys2Proof.Machine.execEvictSession s
  | .evictPage => Sys2Proof.Machine.execEvictPage s
  | .fetchSession => Sys2Proof.Machine.execFetchSession s
  | .nvmeCompletion k ok => Sys2Proof.Machine.execNvmeCompletion k ok s
  | .swapRelease => Sys2Proof.Machine.execSwapRelease s
  | .swapFetchStart k => Sys2Proof.Machine.execSwapFetchStart k s
  | .swapFetchComplete k => Sys2Proof.Machine.execSwapFetchComplete k s
  | .skimScrub place correctable => Sys2Proof.Machine.execSkimScrub place correctable s
  | .uncorrectableError site => Sys2Proof.Machine.execUncorrectableError site s
  | .framedb port req v => Sys2Proof.Machine.execFramedb port req v s
  | .wqtail port req q v => Sys2Proof.Machine.execWqtail port req q v s
  | .wqConfigWrite q ctl v => Sys2Proof.Machine.execWqConfigWrite q ctl v s
  | .syncdb port req v => Sys2Proof.Machine.execSyncdb port req v s
  | .syncdbRead port req => Sys2Proof.Machine.execSyncdbRead port req s
  | .semRead port k => Sys2Proof.Machine.execSemRead port k s
  | .semWrite port k v => Sys2Proof.Machine.execSemWrite port k v s
  | .warm v => Sys2Proof.Machine.execWarm v s
  | .regiontab v => Sys2Proof.Machine.execRegiontab v s
  | .sesstab v => Sys2Proof.Machine.execSesstab v s
  | .swapcb v => Sys2Proof.Machine.execSwapcb v s
  | .crctlWrite r v => Sys2Proof.Machine.execCrctlWrite r v s
  | .crheadWrite r v => Sys2Proof.Machine.execCrheadWrite r v s
  | .crtailRead r => Sys2Proof.Machine.execCrtailRead r s
  | .hostRegisterWrite off v => Sys2Proof.Machine.execHostRegisterWrite off v s
  | .hostPostedWrite port req off bytes => Sys2Proof.Machine.execHostPostedWrite port req off bytes s
  | .hostMemoryRead place len => Sys2Proof.Machine.execHostMemoryRead place len s
  | .getVersion port => Sys2Proof.Machine.execGetVersion port s
  | .getCapabilities port => Sys2Proof.Machine.execGetCapabilities port s
  | .negotiateAlgorithms port asym hash => Sys2Proof.Machine.execNegotiateAlgorithms port asym hash s
  | .getDigests port => Sys2Proof.Machine.execGetDigests port s
  | .getCertificate port slot off len => Sys2Proof.Machine.execGetCertificate port slot off len s
  | .challenge port slot nonce => Sys2Proof.Machine.execChallenge port slot nonce s
  | .getMeasurements port index sign nonce => Sys2Proof.Machine.execGetMeasurements port index sign nonce s
  | .powerOn => Sys2Proof.Machine.execPowerOn s
  | .hostLinkDown port => Sys2Proof.Machine.execHostLinkDown port s
  | .linkFault link lost => Sys2Proof.Machine.execLinkFault link lost s
  | .dieLinkError site correctable => Sys2Proof.Machine.execDieLinkError site correctable s
  | .remoteAccessTimeout hart => Sys2Proof.Machine.execRemoteAccessTimeout hart s
  | .powerCap raise => Sys2Proof.Machine.execPowerCap raise s
  | .thermalStop => Sys2Proof.Machine.execThermalStop s
  | .hostLinkUp port => Sys2Proof.Machine.execHostLinkUp port s
  | .spanLinkUp link => Sys2Proof.Machine.execSpanLinkUp link s

end Sys2Proof.Machine
end

