-- ==== Sys2Proof/Machine/Turns.lean ====
section
/-!
DEFINITION. Who acts when the agenda names nobody (log entry 1), what an agent does by parts (R230, R231), and what the hardware does
after every step.
-/

namespace Sys2Proof.Machine

/-- An event for each place of a list that passes a test. -/
def places {A : Type} (l : List A) (p : A → Bool) (f : Nat → Instr) : List Instr :=
  (l.zipIdx.filter (fun x => p x.1)).map (fun x => f x.2)

/-- Commands, copies and tokens that can finish. -/
def State.engineWork (s : State) : List Instr :=
  places s.cmds (fun _ => true) .engineCommandComplete
  ++ places s.cmds (fun c => match c.kind with
      | .follow _ _ false => true
      | _ => false) .dmovMxFollowOn
  ++ places s.nets.toList (fun n => !n.tokens.isEmpty) (fun m => .tokenExit (BitVec.ofNat 4 m) 0 10)

/-- Records on their way, and starts, tasks and queues that wait. -/
def State.launchWork (s : State) : List Instr :=
  places s.posted (fun _ => true) .eventRecordWrite
  ++ (s.queues.filter (fun q => q.2.enable && q.2.head != q.2.tail)).map (fun q => .workQueueTake (BitVec.ofNat 12 q.1))
  ++ places s.starts (fun _ => true) .hartStart
  ++ (([0, 1] : List (BitVec 1)).filter (fun d => s.tasks.any (fun t => match t.pool with
      | some p => p.2 == d
      | none => false))).map .taskDispatch

/-- What the swap engine has to do. -/
def State.swapWork (s : State) : List Instr :=
  places s.nvme (fun _ => true) (fun k => .nvmeCompletion k true)
  ++ places s.fetches (fun f => f.started.isNone) .swapFetchStart
  ++ places s.fetches (fun f => f.landed) .swapFetchComplete
  ++ (if s.evict.isSome then [.swapRelease] else [])
  ++ (match s.nextRequest with
      | none => if s.toResume.isSome then [.fetchSession] else []
      | some q => if q.kind = 3 then [.evictPage] else if q.kind = 2 then [.fetchSession] else [.evictSession])

/-- Writes on their way, satisfied waits and records in the observation units. -/
def State.homeWork (s : State) : List Instr :=
  (if s.flight.isEmpty then [] else [.storeArrival 0])
  ++ (s.harts.filter (fun h => match h.wait with
      | .cells _ _ _ _ cs => cs.all (fun c => c.2.2.2.2)
      | _ => false)).map (fun h => .vwaitSatisfied h.id)
  ++ (s.cores.filter (fun c => !c.2.obs.isEmpty)).map (fun c => .obsRecordWrite (BitVec.ofNat 10 c.1))

/-- Everything that can act: the harts that can run, and the work of the other agents. -/
def State.agents (s : State) : List Agent :=
  s.ready.map (fun h => .hart h.id) ++ ((s.hartsById.filter (fun h => !h.queue.isEmpty)).map (fun h => .words h.id))
    ++ (s.homeWork ++ s.engineWork ++ s.launchWork ++ s.swapWork).map .event

/-- Who acts when the agenda is empty: those that can, by turns (log entry 1). -/
def State.pending (s : State) : Option Agent := s.agents[s.clock % s.agents.length]?

/-! ### Parts of an action (R230, R231) -/

/-- The instructions that close the strip before anything else they do (R90, R172). -/
def closesFirst : Instr → Bool
  | .turn .. | .turnAll .. | .turnA .. | .turnAAll .. | .stf .. | .ste .. | .ldf .. | .ldfe .. | .fetag .. | .amo .. | .cas ..
  | .takenum .. | .tspawn .. | .tdone .. | .vamo .. => true
  | _ => false

/-- The word that the selected hart runs next; none while its queues hold blocks that its scalar core has passed. -/
def State.nextWord (s : State) : Option Instr :=
  if !s.h.queue.isEmpty then none
  else match s.h.blk with
  | some b => b.next.toOption
  | none => if s.h.eix = 0 then s.fetchScalar.toOption else (s.fetchScalar.toOption).filter isLong

/-- An address that a home operation reaches (R108). -/
def State.homeReaches (s : State) (va : Word) (al : Nat) (acc : Access) : Bool :=
  va.toNat % al == 0 && (match s.translate s.h va acc with
    | .ok x => x.level != 5
    | .error _ => false)

/-- The level of the `TurnAll` that an instruction is about to perform, its strip closed (R110, R113, R152, R193). -/
def State.releaseLevel (s : State) : Instr → Option Nat
  | .stf _ ra lv => if s.homeReaches (s.h.r.readS ra) 8 .feWrite then some lv.toNat else none
  | .amo _ ra _ w lv rel _ _ => if rel = 1 ∧ s.homeReaches (s.h.r.readS ra) (atomicBits w / 8) .atomic then some lv.toNat else none
  | .cas _ ra _ w lv rel _ => if rel = 1 ∧ s.homeReaches (s.h.r.readS ra) (atomicBits w / 8) .atomic then some lv.toNat else none
  | .vamo e =>
    match s.feed (.vamo e) with
    | .ok s1 => if e.rnd.getLsbD 1 && !(s1.activeIdx (.vamo e) e).isEmpty then some (nbits e.imm.toNat 10 3) else none
    | .error _ => none
  | .tdone lv => if s.h.isEnding || s.hasCommands s.h.id || !s.h.reports.isEmpty then none else some lv.toNat
  | _ => none

/-- Pass 1 of a `vamo` alone: it stands before the first element of pass 2. Under record and replay the elements act together (R152, R351,
R352). -/
def State.amoBegin (s : State) (e : EWord) : State :=
  if s.h.replay ≠ 0 then s
  else match s.feed (.vamo e) with
    | .error _ => s
    | .ok s1 => match s1.amoProbe (.vamo e) e with
      | .error _ => s
      | .ok a => if a.rest.isEmpty then s else s1.setAmo (some a)

/-- One part of a `vamo`, its strip closed: of its `TurnAll`, its pass 1, or one element of pass 2 (R152, R230). -/
def State.vamoPart (s : State) (e : EWord) : State :=
  if s.h.amo.isSome then s.amoPart
  else s.splitThen (fun s => match s.releaseLevel (.vamo e) with
    | some lv => if s.writeSets.isEmpty && !(s.groutMeets s.h (fun _ => true)) then s.amoBegin e else s.turnPart lv
    | none => s.amoBegin e)

/-- One part of the irrevocable instruction at the selected hart's position: the close of its strip, one part of its `TurnAll` or of the
turn of a TCB, or of a `vamo` one element; nothing where it has none (R230). -/
def State.partNow (s : State) : State :=
  match s.nextWord with
  | none => s
  | some i =>
    if s.h.stripOpen then (if closesFirst i then s.closeThen true id else s)
    else match i with
      | .tspawn ra => s.splitThen (fun s => s.spawnPart ra)
      | .vamo e => s.vamoPart e
      | _ => match s.releaseLevel i with
        | none => s
        | some lv => s.splitThen (fun s => s.turnPart lv)

/-- The selected hart's read of `n` bytes at a location is performed now, and what a load of them is to deliver is fixed. -/
def State.performEarly (s : State) (loc n : Nat) : State :=
  let keep := fun (s : State) (v : Option Nat) =>
    s.modH (fun h => { h with early := h.keptEarly loc n ++ [{ loc := loc, n := n, value := v, at_ := s.clock }] })
  match s.loadBytes s.h loc n with
  | .ok x => keep (s.fillAs (some s.h.id) s.h.reader loc) (some x)
  | .error c => if c = causeUnturned then keep s none else s

/-- The selected hart performs a load of `n` bytes at a location before earlier accesses of its program (R231): what is delivered is
fixed now. Bytes in its strip store buffer are forwarded at the load's place. In a gang, whose elements reach one byte in their order, the
harts before it in the gang perform theirs with it, and those after it have none before it. -/
def State.loadEarly (s : State) (loc n : Nat) : State :=
  if s.buffers s.h loc n then s
  else
    let s := s.settle s.h.id loc n
    let before := ((s.h.gang.map Gang.ids).getD []).takeWhile (fun m => m ≠ s.h.id)
    let s := s.dropEarly loc n
    (s.onHarts before (fun s => s.performEarly loc n)).performEarly loc n

/-- Trowel turns the next sector of a `turn.a` (R190, R230). -/
def State.sectorNow (s : State) (k : Nat) : State :=
  match s.cmds[k]? with
  | none => s
  | some c =>
    match c.kind with
    | .turn (sec :: rest) lv =>
      if s.writesHeld c.hart then s else
      let s := s.trowel c lv sec
      { s with cmds := s.cmds.set k { c with kind := .turn rest lv } }
    | _ => s

/-! ### The queues and the scalar core (R204) -/

/-- A word that the scalar core may leave in the queues: any but one at which the strip splits, where it waits (R200, R204). -/
def runsAhead (i : Instr) : Bool :=
  match i with
  | .vwait .. | .vamo .. | .kvput .. | .kvflush .. => false
  | _ => (wordInfo i).isSome

/-- The instructions that a block still has to run. -/
def Block.left (b : Block) : List Instr := (b.words.drop b.word).filterMap (fun w => (decodeElement w).toOption)

/-- The words that a hart's scalar core has passed. -/
def Hart.queued (h : Hart) : List Instr := h.queue.flatMap Block.left

/-- The scalar core may pass a block: it runs once, and at none of the words that are left the strip splits. -/
def Block.ahead (b : Block) : Bool := decide (b.reps ≤ 1) && b.left.all runsAhead

/-- A store word of the SQ. -/
def storesWord (i : Instr) : Bool := (wordInfo i).any (fun x => x.queue == .sq)

/-- The stores that stand in the queues, with those of some more words, fit the store budget of every hart of the gang, so that none of them
closes the strip (R105, R150; log entry 49). -/
def State.storesFit (s : State) (more : List Instr) : Bool :=
  let n := 8 * s.vl * ((s.h.queued ++ more).filter storesWord).length
  n == 0 || (s.h.gangIds.filterMap s.hart?).all (fun h => decide (h.used + n ≤ h.limit))

/-- The vector registers that a word names. -/
def wordRegs (i : Instr) : List (BitVec 5) :=
  match wordInfo i with
  | some x => x.reads.map Prod.fst ++ x.writes.map Prod.fst ++ x.seed.toList
  | none => []

/-- A word accesses memory: one of the LQ or the SQ, or one that reads a bound register (R106, R181). -/
def Hart.touches (h : Hart) (i : Instr) : Bool :=
  (wordInfo i).any (fun x => x.queue == .lq || x.queue == .sq) || (wordRegs i).any (fun r => (h.r.bind r).isSome)

/-- No word in the queues accesses memory, so that none can overlap a scalar access (R106; log entry 49). -/
def Hart.untouched (h : Hart) : Bool := !(h.queued.any h.touches)

/-- A word may still trim VL (R160). -/
def trimsWord : Instr → Bool
  | .vxlate e => e.rnd != 0
  | _ => false

/-- No trim of VL is outstanding (R160, R195). -/
def Hart.untrimmed (h : Hart) : Bool := !(h.queued.any trimsWord)

/-- The scalar register that a word writes (R123, R168). -/
def wordScalar : Instr → Option (BitVec 5)
  | .kpopc e | .kfirst e | .klast e | .vextract e => if e.vd = 0 then none else some e.vd
  | _ => none

/-- The scalar registers that words may read from the snapshot: operand B, and the group of a memory word (R123; log entry 49). -/
def snapRegs (i : Instr) : List (BitVec 5) :=
  match wordFields i, wordInfo i with
  | some e, some x => (if e.opsel = 2 then [e.vb] else []) ++
      (if x.queue = .aq then [] else (List.range 7).map (fun k => e.sreg + BitVec.ofNat 5 k))
  | _, _ => []

/-- No word in the queues is still to write one of these scalar registers (R123, R168). -/
def Hart.settled (h : Hart) (rs : List (BitVec 5)) : Bool := !(h.queued.any (fun i => (wordScalar i).any rs.contains))

/-- The scalar registers that an instruction reads or writes, of those that may pass the queues. -/
def scalarRegs : Instr → List (BitVec 5)
  | .add rd ra rb | .sub rd ra rb | .mul rd ra rb | .mulh rd ra rb | .mulhn rd ra rb | .div rd ra rb | .divn rd ra rb | .rem rd ra rb
  | .remn rd ra rb | .and rd ra rb | .or rd ra rb | .xor rd ra rb | .andn rd ra rb | .sll rd ra rb | .srl rd ra rb | .sra rd ra rb
  | .min rd ra rb | .max rd ra rb | .minn rd ra rb | .maxn rd ra rb | .csel rd ra rb _ | .ldx rd ra rb _ | .ldxP rd ra rb _
  | .stx rd ra rb _ => [rd, ra, rb]
  | .clz rd ra | .ctz rd ra | .popc rd ra | .sext rd ra _ | .zext rd ra _ | .bswap rd ra _ | .addi rd ra _ | .andi rd ra _
  | .ori rd ra _ | .xori rd ra _ | .slli rd ra _ | .srli rd ra _ | .srai rd ra _ | .jalr rd ra _ | .ld rd ra .. | .ldP rd ra ..
  | .st rd ra .. | .settype rd ra | .vfetch rd ra _ | .tstate rd ra | .curset rd ra _ | .frameq rd ra | .csrw rd ra _
  | .csrs rd ra _ | .csrc rd ra _ => [rd, ra]
  | .lui rd _ | .addpc rd _ | .tread rd _ | .lquery rd | .csrr rd _ | .spos rd _ => [rd]
  | .cmp _ ra rb _ => [ra, rb]
  | .cmpiEq _ ra _ | .cmpiNe _ ra _ | .cmpiLt _ ra _ | .cmpiGe _ ra _ | .cmpiLtn _ ra _ | .cmpiGen _ ra _ | .twait ra _
  | .sbind _ ra => [ra]
  | .sposW _ rb => [rb]
  | .jal _ => [31]
  | _ => []

/-- The selected hart's scalar core goes on past the block at its PC; the queues hold eight at most (R176, R204). -/
def State.goAhead (s : State) : State :=
  match s.h.blk with
  | none => s
  | some b =>
    if b.ahead && decide (s.h.queue.length < 8) && s.storesFit b.left then
      s.modH (fun h => { h with queue := h.queue ++ [b], instPend := h.instPend + 1, place := h.place + 2 }.leaveBlock)
    else s

/-- A `vfetch` finds no problem in its block and begins no wait: the queues have room, no trim is outstanding, and no word in them is still to
write a scalar that the block names (R123, R168, R176, R195). -/
def State.fetchPasses (s : State) (rd ra : BitVec 5) (imm : BitVec 15) : Bool :=
  let base := if ra = 0 then s.h.pc else s.h.r.readS ra
  let addr := base + imm.signExtend 64 * 8
  s.h.eix == 0 && decide (s.h.queue.length < 8) && s.h.untrimmed && addr.toNat % 8 == 0 &&
    decide (repeats rd (s.h.r.readS rd) ≤ 65535) &&
    (match s.predecode addr (s.h.stripctl.getLsbD 0) Block.one [] [] 0 65 with
     | .ok ws _ => s.h.settled (({ Block.one with words := ws } : Block).left.flatMap snapRegs)
     | .abort _ | .split .. => false)

/-- A value of VTYPE leaves VL as it is (R27). -/
def Hart.keepsVl (h : Hart) (x : Word) : Bool := (h.setVtype x).r.vl == h.r.vl

/-- A CSR form passes, with the value that it writes, if it writes one: it traps nothing, waits for nothing, and its write changes nothing that
the words in the queues go by (R123, R195). STOREBUDGET waits for the stores in the queues (log entry 49). -/
def State.csrPasses (s : State) (n : Nat) (new : Option Nat) : Bool :=
  (match csrLevels n, new with
   | some (r, _), none => decide (r ≤ s.h.cur.toNat)
   | some (_, some w), some _ => decide (w ≤ s.h.cur.toNat)
   | _, _ => false) && !(waitsForBlocks n) && (s.h.untrimmed || !(n == 0x000 || n == 0x001 || n == 0x005)) &&
  (n != 0x013 || !(s.h.queued.any storesWord)) &&
  (match new with
   | none => true
   | some x => !(n == 0x012 || n == 0x040 || n == 0x180 || n == 0x181) && (n != 0x002 || s.h.keepsVl (wd x)))

/-- The record that an `sbind` reads can be bound, or its read traps, which aborts the strip (R180). -/
def State.bindPasses (s : State) (va : Word) : Bool :=
  va.toNat % 64 ≠ 0 || (match s.translate s.h va .read with
    | .error _ => true
    | .ok x => match (s.settle s.h.id x.loc 64).loadBytes s.h x.loc 64 with
      | .error _ => true
      | .ok d => ({ record := BitVec.ofNat 512 d, addr := va, pos := 0, slice := 0 } : Binding).recordOk)

/-- A store finds room in the store budget (R105). -/
def Hart.storePasses (h : Hart) : Bool := h.used == 0 || decide (h.used + 8 ≤ h.limit)

/-- What else an instruction waits for, beside the scalars that it names (R106, R123, R174, R175, R177, R180, R189, R195, R204). -/
def State.passesFor (s : State) (i : Instr) : Bool :=
  let h := s.h
  let apart := fun (r : BitVec 5) => !(h.queued.any (fun w => (wordRegs w).contains r))
  match i with
  | .add .. | .sub .. | .mul .. | .mulh .. | .mulhn .. | .div .. | .divn .. | .rem .. | .remn .. | .and .. | .or .. | .xor ..
  | .andn .. | .sll .. | .srl .. | .sra .. | .min .. | .max .. | .minn .. | .maxn .. | .clz .. | .ctz .. | .popc .. | .sext ..
  | .zext .. | .bswap .. | .cmp .. | .cand .. | .cor .. | .cxor .. | .cnot .. | .csel .. | .addi .. | .andi .. | .ori .. | .xori ..
  | .slli .. | .srli .. | .srai .. | .lui .. | .addpc .. | .cmpiEq .. | .cmpiNe .. | .cmpiLt .. | .cmpiGe .. | .cmpiLtn ..
  | .cmpiGen .. | .bt .. | .bf .. | .j .. | .jal .. | .jalr .. | .scalarHint .. | .slip .. | .tread .. | .lquery .. | .tstate .. => true
  | .ld .. | .ldx .. | .ldP .. | .ldxP .. => h.untouched
  | .st .. | .stx .. => h.untouched && h.storePasses
  | .settype _ ra => h.keepsVl (h.r.readS ra)
  | .vtest _ ra _ => h.untrimmed && !(h.queued.any (fun w => (wordInfo w).any (fun x => x.kwrites.contains ra)))
  | .twait ra t => h.reports.isEmpty && decide ((h.issued.get (timelineOf t).idx).toNat < (h.r.readS ra).toNat ∨
      (h.r.readS ra).toNat ≤ (h.tl.get (timelineOf t).idx).toNat)
  | .curset .. | .frameq .. => decide (1 ≤ h.cur.toNat)
  | .sbind rd ra => h.untouched && apart rd && s.bindPasses (h.r.readS ra)
  | .sdrop ra | .spos _ ra | .sposW ra _ => apart ra
  | .csrr _ c => s.csrPasses c.toNat none
  | .csrw _ ra c => s.csrPasses c.toNat (some (h.r.readS ra).toNat)
  | .csrs _ ra c => s.csrPasses c.toNat (some (s.csrValue c.toNat ||| (h.r.readS ra).toNat))
  | .csrc _ ra c => s.csrPasses c.toNat (some (s.csrValue c.toNat &&& (~~~(h.r.readS ra)).toNat))
  | .vfetch rd ra imm => s.fetchPasses rd ra imm
  | _ => false

/-- The scalar instruction does not wait for the blocks in the queues: no word in them is still to write a scalar register that it names
(R123, R168), and it begins no other wait (R204; DESIGN CHOICE, log entry 49: what the model takes as a wait that R106 and R123 state). -/
def State.passes (s : State) (i : Instr) : Bool := s.h.settled (scalarRegs i) && s.passesFor i

/-- The selected hart runs a word of its queues before anything else: the block at its PC comes behind those in the queues, and a scalar
instruction that does not pass waits for them. -/
def State.drains (s : State) : Bool :=
  !s.h.queue.isEmpty && (s.h.blk.isSome || (match s.fetchScalar with
    | .ok i => !(s.passes i)
    | .error _ => true))

/-! ### What waits at a home (R152, R287) -/

/-- A write to a sector is on its way, or in a strip store buffer. -/
def State.incoming (s : State) (sec : Nat) : Bool :=
  s.flight.any (fun o => o.bytes.any (fun b => sectorOf b.1 == sec)) || s.harts.any (fun h => h.buf.any (fun b => sectorOf b.1 == sec))

/-- An event may have writes arrive other than those on their way or in a strip store buffer. -/
def Agent.writes : Agent → Bool
  | .event (.storeArrival _) => false
  | .event _ => true
  | .hart _ | .part _ | .ahead _ | .words _ | .early .. | .sector _ | .bell .. | .promo _ => false

/-- Before an agent acts: the home of a sector that a `vamo` in pass 2 holds lets no plain write arrive there, so that its elements act
first (R152). -/
def State.beforeAct (s : State) (a : Agent) : State :=
  (s.harts.filter (fun h => h.amo.isSome)).foldl (fun s h => s.amoSome h.id (fun x => a.writes || s.incoming (sectorOf x.loc))) s

/-- After every step: the harts of ended regions that have left their cores are freed (R349), log records that waited for room are appended
(R351), replayed arrivals go on (R352), every home tests the words that harts wait
on (R155), the swap engine that is enabled sets its queues up (R370), and a warm reset whose engines have finished ends (R365). -/
def State.settleStep (s : State) : State := s.reap.writeLogs.replayArrivals.latch.adminSetup.warmOn

end Sys2Proof.Machine
end

