-- ==== Sys2Proof/Machine/Step.lean ====
section
/-!
DEFINITION. One step of the package: the agent whose turn it is acts once.
-/

namespace Sys2Proof.Machine

/-- Change the state that an action answers. -/
def onNext (f : State → State) (o : Host.Outcome State Fault Refusal) : Host.Outcome State Fault Refusal :=
  match o with
  | .next s => .next (f s)
  | .fault f => .fault f
  | .refused r => .refused r

/-- The queues of the selected hart run one word of their oldest block (R204). -/
def State.runWord (s : State) : Host.Outcome State Fault Refusal :=
  match s.h.queue with
  | [] => .next s
  | b :: rest =>
    if b.atStop then .next (s.modH (fun h => { h with queue := rest }))
    else match b.next with
      | .ok i => onNext (fun t => t.leaveOldest s.h) (exec i s.enterOldest)
      | .error t => .next (s.abortTrap t)

/-- The selected hart runs one scalar instruction, or one word of the block it is in (R13, R76, R298). At a progress index other than 0,
an instruction that is not long traps as R298 has it, also where R71 would trap it by its word (DESIGN CHOICE, log entry 70: no rule
says which of the two comes first). -/
def State.runNext (s : State) : Host.Outcome State Fault Refusal :=
  match s.h.blk with
  | some b =>
    match b.next with
    | .ok i => exec i s
    | .error t => .next (s.splitTrap t)
  | none =>
    match s.fetchScalar with
    | .error t => .next (s.abortTrap t)
    | .ok i =>
      let s := s.fetched
      if s.h.eix ≠ 0 && !(isLong i) then
        .next ((s.modH (fun h => { h with eix := 0, ckBlk := none })).illegal s.h.eix)
      else exec i s

/-- The selected hart takes a turn: a stalled instruction is tried again, a hart that only waits to write its last record ends (R287), and
the queues go first where the scalar core waits for them (R204). -/
def runHart (s0 : State) : Host.Outcome State Fault Refusal :=
  let s := s0.modH Hart.tryAgain
  match s.h.origin with
  | .ending t e => .next (s.endWith t e)
  | .none | .start .. | .task _ => if s.drains then s.runWord else s.runNext

/-- A hart acts, when it can: one whose writes wait at a home that holds an earlier record waits with them (R287). -/
def State.hartActs (s : State) (id : BitVec 11) (k : State → Host.Outcome State Fault Refusal) : Host.Outcome State Fault Refusal :=
  let s := (s.select id).switchIn
  if s.mayAct s.h && !(s.writesHeld id) then k s else .next s

/-- The agent that acts next, and the state in which it does: the head of the agenda, else one that can act (log entry 1). -/
def State.turnOf (s : State) : Option Agent × State :=
  match s.agenda with
  | a :: rest => (some a, { s with agenda := rest })
  | [] => (s.pending, s)

/-- The next agent acts. -/
def State.act (s0 : State) : Host.Outcome State Fault Refusal :=
  match s0.turnOf with
  | (none, s) => .next s
  | (some a, s) =>
    let s := s.beforeAct a
    match a with
    | .event i => exec i s
    | .hart id => s.hartActs id runHart
    | .words id => s.hartActs id (fun s => (s.modH Hart.tryAgain).runWord)
    | .part id => .next (s.onHart id (fun s => if s.mayAct s.h && !(s.writesHeld id) then s.partNow else s))
    | .ahead id => .next (s.onHart id (fun s => if s.mayAct s.h then s.goAhead else s))
    | .early id loc n => .next (s.onHart id (fun s => if s.writesHeld id then s else s.loadEarly loc n))
    | .sector k => .next (s.sectorNow k)
    | .bell port req => .next (s.bellPart port req)
    | .promo die => .next (s.promoPart die)

/-- What follows an action. -/
def settled (o : Host.Outcome State Fault Refusal) : Host.Outcome State Fault Refusal := onNext State.settleStep o

/-- The agenda names the power-on that starts a stopped package again (R372). -/
def State.powersOn (s : State) : Bool :=
  match s.agenda with
  | .event .powerOn :: _ => true
  | _ => false

/-- One step; a stopped package takes none until it is powered on (R374, log entry 52). -/
def step (s : State) : Host.Outcome State Fault Refusal :=
  if s.stopped && !s.powersOn then .fault .packageStopped else settled ({ s with clock := s.clock + 1 } : State).act

/-- A state in which the next step fetches the instruction with these bits: a scalar word at the PC, an element word as the one
word of a block that the hart has fetched. -/
def State.withFetchWord (s : State) (nbits w : Nat) : State :=
  let s := { s with agenda := [.hart s.h.id], stopped := false }
  let s := s.modH (fun h => { h with st := .running, wait := .none, eix := 0, blk := none, queue := [], amo := none, building := none,
                                      origin := if h.isEnding then .none else h.origin })
  if nbits ≤ 32 then
    match s.translate s.h s.h.pc .fetch with
    | .error _ => s
    | .ok x =>
      let sec := sectorOf x.loc
      { (s.putBytes (spread x.loc 4 (w % 2^32))).setEntry sec 5 with poison := s.poison.filter (fun p => p.sector ≠ sec) }
  else
    s.modH (fun h => { h with blk := some { Block.one with
      words := [BitVec.ofNat 64 w, stopWord], snapS := h.r.s, snapC1 := h.r.readC 1, snapVt := h.r.vtype } })

end Sys2Proof.Machine
end

