-- ==== Sys2Proof/Safety.lean ====
section
/-!
DEFINITION. The terms in which claims speak: the canonical form of the sparse maps, the undisturbed close of a strip, and
the shapes of next states.
-/

namespace Sys2Proof.Machine

/-! ### The canonical form -/

/-- Memory is in its one form: locations strictly rising, no byte listed that an unlisted location reads as (zero). -/
def Memory.wf (m : List Host.Cell) : Bool := canonical 0 m

/-- Every sparse map of the package that has a default is in its one form. -/
structure State.Canonical (s : State) : Prop where
  mem : Memory.wf s.mem = true
  turn : canonical 5 s.turn = true
  flash : canonical 0 s.flash = true

/-! ### Slots -/

/-- Every hart that is not selected stands in `others` under its own HARTID[10:0], rising; none of them is FREE, and the
selected slot is not among them. -/
structure State.Slots (s : State) : Prop where
  rising : risingFrom 0 s.others = true
  named : ∀ p ∈ s.others, p.2.id.toNat = p.1 ∧ p.2.st ≠ .free
  selected : ∀ p ∈ s.others, p.1 ≠ s.h.id.toNat

/-! ### A strip that closes undisturbed -/

/-- Nothing is due when the open strip closes, no pre-emption is pending, and the hart does not stop at its next ordinal:
an irrevocable instruction then runs to its end (R28, R203, R303, R360, R361). -/
structure State.Quiet (s : State) : Prop where
  slots : s.Slots
  running : s.h.st = .running
  due : s.h.stripOpen = true → s.due = []
  owed : s.h.owed = []
  preempt : s.h.preempt = false
  stop : s.h.stopDue = false

/-- The open strip has closed as at a split, and every earlier write of the hart and its gang has arrived (R90, R199, R231). -/
def State.closed (s : State) : State := s.splitThen id

/-- The open strip has committed as at a split; its stores are on their way (R199). -/
def State.commitSplit (s : State) : State := s.closeThen true id

/-- An operation at the home goes through: aligned, mapped with the permissions it needs, not in host memory; and in the state `d`
in which the home acts (after a release turn) its sector is sound and turned to the home level, and a recording region's
log has room (R91, R108, R292, R349, R351). -/
structure State.HomeAt (c : State) (va : Word) (al : Nat) (acc : Access) (x : Xlat) (d : State) : Prop where
  aligned : va.toNat % al = 0
  mapped : c.translate c.h va acc = .ok x
  notHost : x.level ≠ 5
  sound : d.poisoned (sectorOf x.loc) = false
  turned : d.homeReady x.level (sectorOf x.loc) = true
  free : d.h.replay = 0 ∨ (d.h.replay = 1 ∧ d.logRoom d.h.region 1 = true)

/-- The home has let an operation of `n` bytes act: no load of the word stays performed early (R231), the core keeps what the translation
read (R293), and the strip may be watched (R361). -/
def State.acting (d : State) (va : Word) (n : Nat) (x : Xlat) : State := (d.dropEarly (x.loc / 8 * 8) 8).accessed 2 va.toNat n

/-- The address names a TCB that a task instruction can reach: aligned, writable, in package memory and sound (R193, R279). -/
structure State.TcbAt (c : State) (va : Word) (x : Xlat) : Prop where
  aligned : va.toNat % 128 = 0
  mapped : c.translate c.h va .write = .ok x
  here : c.isLocal x.loc = true
  sound : ∀ i < 4, c.poisoned (sectorOf x.loc + i) = false

/-! ### A turn -/

/-- The package as an agent of the agenda finds it when it acts. -/
def State.begun (s : State) (a : Agent) (rest : List Agent) : State :=
  ({ s with clock := s.clock + 1, agenda := rest } : State).beforeAct a

/-- A hart as it acts: selected, switched to where its core is idle, a stalled instruction tried again. -/
def State.asActor (u : State) (id : BitVec 11) : State := (u.select id).switchIn.modH Hart.tryAgain

/-- The selected hart acts when its turn comes: it stands RUNNING with its gang and does not only wait, no log record of its waits for room
(R351), and no write of its own waits at a home (R287). -/
structure State.Acts (u : State) (id : BitVec 11) : Prop where
  runs : (u.select id).switchIn.mayAct (u.select id).switchIn.h = true
  free : (u.select id).switchIn.writesHeld id = false

/-! ### Gangs and elements -/

/-- The selected hart is in its slot, and so is every other hart of its gang; the gang lists each once, the selected one among them. -/
structure State.GangOk (s : State) : Prop where
  held : s.h.st ≠ .free
  within : ∀ g, s.h.gang = some g → s.h.id ∈ g.ids ∧ g.ids.Nodup ∧ ∀ i ∈ g.ids, (s.hart? i).isSome = true

/-- What the registers that a word writes hold before it writes them (R208). -/
def State.olds (s : State) (i : Instr) : List (ERef × Nat) :=
  match wordInfo i with
  | some x => s.oldValues x
  | none => []

/-- An exact integer as `w` bits: saturated to the type's range where asked, then modulo 2^w (R35, R125). -/
def fitInt (w : Nat) (signed sat : Bool) (x : Int) : Nat :=
  let lo : Int := if signed then -(2 ^ (w - 1)) else 0
  let hi : Int := if signed then 2 ^ (w - 1) - 1 else 2 ^ w - 1
  (BitVec.ofInt w (if sat then max lo (min hi x) else x)).toNat

/-- `w` bits as an integer of a type. -/
def asInt (w : Nat) (signed : Bool) (x : Nat) : Int := if signed then (BitVec.ofNat w x).toInt else (BitVec.ofNat w x).toNat

/-! ### Rounding -/

/-- A finite value as a rational number. -/
def FVal.rat : FVal → Rat
  | .fin neg m e => (if neg then -1 else 1) * (m : Rat) * (2 : Rat) ^ e
  | _ => 0

/-- A bit pattern of a format stands for a finite number. -/
def Fmt.finite (f : Fmt) (x : Nat) : Bool :=
  match FVal.ofBits f x with
  | .fin _ _ _ => true
  | _ => false

/-- The number a bit pattern of a format stands for. -/
def Fmt.num (f : Fmt) (x : Nat) : Rat := (FVal.ofBits f x).rat

/-- A result is a real number other than zero, rounded to a format in a mode (R40, R41, R43). The number is given by what lies
`below` it (at most as large) and `above` it (at least as large). Without OF the result is a finite number of the format: the
number itself, without a flag, or the neighbour that the mode names, with NX, and with UF where the number is smaller than
every normal one. With OF the number lies beyond every finite one of the format; and a number that the mode rounds beyond the
largest finite one, as if the exponent were unbounded, has OF. -/
structure Rounds (f : Fmt) (rm : Rm) (neg : Bool) (below above : Rat → Prop) (r : Rounded) : Prop where
  exactly : r.2 = 0 → f.finite r.1 = true ∧ below (f.num r.1) ∧ above (f.num r.1)
  flagged : r.2 ≠ 0 → r.2 = flagNX ∨ r.2 = flagUF ||| flagNX ∨ r.2 = flagOF ||| flagNX
  inexact : r.2 = flagNX ∨ r.2 = flagUF ||| flagNX → f.finite r.1 = true ∧ ¬ (below (f.num r.1) ∧ above (f.num r.1))
  tiny : r.2 = flagUF ||| flagNX → if neg then ¬ above (-(2 : Rat) ^ (f.qmin + f.mb)) else ¬ below ((2 : Rat) ^ (f.qmin + f.mb))
  normal : r.2 = flagNX → if neg then above (-(2 : Rat) ^ (f.qmin + f.mb)) else below ((2 : Rat) ^ (f.qmin + f.mb))
  down : r.2 = flagNX ∨ r.2 = flagUF ||| flagNX → (rm = .rdn ∨ (rm = .rtz ∧ neg = false)) →
    below (f.num r.1) ∧ ∀ z, f.finite z = true → below (f.num z) → f.num z ≤ f.num r.1
  up : r.2 = flagNX ∨ r.2 = flagUF ||| flagNX → (rm = .rup ∨ (rm = .rtz ∧ neg = true)) →
    above (f.num r.1) ∧ ∀ z, f.finite z = true → above (f.num z) → f.num r.1 ≤ f.num z
  nearest : r.2 = flagNX ∨ r.2 = flagUF ||| flagNX → rm = .rne → ∀ z, f.finite z = true →
    (f.num z < f.num r.1 → below ((f.num z + f.num r.1) / 2) ∧ (above ((f.num z + f.num r.1) / 2) → r.1 % 2 = 0)) ∧
    (f.num r.1 < f.num z → above ((f.num r.1 + f.num z) / 2) ∧ (below ((f.num r.1 + f.num z) / 2) → r.1 % 2 = 0))
  overflow : r.2 = flagOF ||| flagNX → r.1 = overflowBits f rm neg ∧
    ∀ z, f.finite z = true → if neg then ¬ below (f.num z) else ¬ above (f.num z)
  beyond : let big := f.num (f.top - 1)
    let next := big + (big - f.num (f.top - 2))
    let half := (big + next) / 2
    (match rm with
     | .rne => (if neg then ¬ below (-half) else ¬ above half) ∨ ((f.top - 1) % 2 = 1 ∧ if neg then above (-half) else below half)
     | .rtz => if neg then above (-next) else below next
     | .rdn => if neg then ¬ below (-big) else below next
     | .rup => if neg then above (-next) else ¬ above big) → r.2 = flagOF ||| flagNX

/-! ### Shapes of next states -/

/-- A scalar instruction that leaves the strip open: new registers and PC, the strip counts it; nothing else changes (R89). -/
def State.ran (s : State) (r : Regs) (pc : Word) : State :=
  { s with h := { s.h with r := r, pc := pc, eix := 0, instPend := s.h.instPend + 1 } }

/-- The same going on at PC + 4. -/
def State.ranOn (s : State) (r : Regs) : State := s.ran r (s.h.pc + 4)

/-- An irrevocable instruction has completed: new registers, PC + 4, INSTRET counts it, the next strip is open (R26, R172, R199). -/
def State.completed (s : State) (r : Regs) : State :=
  ({ s with h := { s.h with r := r, pc := s.h.pc + 4, eix := 0, instret := s.h.instret + 1, wait := .none } }).openRaw

/-- A trap has been delivered through the vector (R295); a gang's members follow their leader's level (R178). -/
def State.trapped (s : State) (code : BitVec 8) (val : Word) (rolled : Bool) : State :=
  (s.modH (fun h => h.enter code val rolled)).sameLevel.openRaw

/-- A hart whose vector is set, that is not pre-empted and does not stop at either of its next two ordinals: delivery goes to
the handler and nowhere else. -/
structure Hart.Steady (h : Hart) : Prop where
  vec : nbits h.trapvec.toNat 2 62 ≠ 0
  preempt : h.preempt = false
  stop : h.trace = false

end Sys2Proof.Machine
end

