-- ==== Sys2Proof/Certificates/Slice0/Obligations.lean ====
section
/-!
DEFINITION. The statements for the provers. Each docstring names the rules of spec/ that the statement formalises.
-/

open Sys2Proof Sys2Proof.Machine


/-! ### Reset, the step, and encodings -/

/-- What power-on leaves where the manual gives a value (R16, R19, R20, R23, R26, R336, R365, Tables state.3, state.4, state.6,
region.2, host.2): every sector turned to L5 with POS and OWNER 0, memory zero, every network closed, every queue and ring
disabled, the CSRs at their reset column, and the first stage at hypervisor level. The register values that only the model chooses
(log entry 3) are not claimed. That host memory and other packages' memory read as zero too is the model's choice (log entry 4),
and so is the level at which Primer leaves the first stage (log entry 5). The maps of the reset state are in canonical form, and
no slot but the first holds a hart. -/
def Obligations.ResetState : Prop :=
  ((∀ sec, State.reset.entry sec = mkEntry 5 0 0) ∧
  (∀ loc, State.reset.homeByte loc = 0) ∧
  (∀ m, (State.reset.net m).closed = true ∧ (State.reset.net m).bal = 0 ∧ (State.reset.net m).base = 0 ∧
    (State.reset.net m).hwm = 0 ∧ (State.reset.net m).tokens = []) ∧
  State.reset.queues = [] ∧ WorkQueue.reset.enable = false ∧ WorkQueue.reset.log2n = 4 ∧
  State.reset.rings = [] ∧ Ring.reset.enable = false ∧ Ring.reset.log2n = 4 ∧
  State.reset.h.cur = 2 ∧ State.reset.h.expert = false ∧ State.reset.h.trapvec = 0 ∧
  State.reset.h.r.fflags = 0 ∧ State.reset.h.r.vtype = 8 ∧ State.reset.h.r.osmax = 0xFF800000 ∧
  State.reset.h.r.ossum = 0 ∧ State.reset.h.r.oscale = 0x3F800000 ∧ State.reset.h.budget = 131072 ∧
  (∀ c : BitVec 3, State.reset.h.r.readC c = (c == 0)) ∧
  (∀ k : BitVec 3, k ≠ 0 → State.reset.h.r.readK k = 0) ∧
  (∀ v, State.reset.h.r.bind v = none)) ∧
  (State.reset.Canonical ∧ State.reset.Slots)

/-- Whatever acts, and from whatever state with canonical maps, memory, the turn-state entries and flash stay in their one form:
strictly rising, nothing listed that equals what an unlisted place reads as. -/
def Obligations.CanonicalKept : Prop :=
  ∀ s t : State, s.Canonical → step s = .next t → t.Canonical

/-- Whatever acts, and from whatever state whose slots are in order, every hart stays in its own slot: the slots that are not
selected stand rising under their HARTID[10:0], none of them FREE, and the selected one is not among them. -/
def Obligations.SlotsKept : Prop :=
  ∀ s t : State, s.Slots → step s = .next t → t.Slots

/-- A hart's step runs the scalar instruction that the four bytes at its PC decode to (R58, R76): on the state in which the word
has been fetched, with the hart of the agenda selected and a stalled instruction tried again (the model's choice, log entry 50). The
hart's own writes to the word arrive before it is read (log entry 37). Bytes that decode to nothing run as ILLEGAL (R71). A resumed
long instruction goes on where its progress index says; at any other instruction a progress index other than 0 traps ILLEGAL with
that index in EVAL (R13, R298), also where the word is unassigned or above the hart's level, for which R71 and R74 name traps of their
own: that the progress index comes first is the model's choice (log entry 70). Inside a block a hart's step runs the word at the
block's position (R76, R170, R176). The queues run one word of the oldest block that the scalar core has passed, as a turn of their
own or while the core waits for them (R204); which blocks the core passes, and when, is the model's choice (log entry 49). A hart that
only waits to write its last record ends when it can (R287), and one that stands still, or whose writes wait at a home, does nothing.
A hart may also act by one part of its instruction (R152, R230): the close of the strip of an instruction that closes it first, one part
of a release turn or of the turn of a TCB, or one element of a `vamo`; pass a block; perform a load ahead of earlier accesses (R231, log
entry 57); and Trowel, a doorbell and a promotion may turn one sector alone. An event that the agenda names happens; with an empty
agenda the turn decides among those that can act (the model's choice, log entry 1); a stopped package takes no step (R374) until it is
powered on (the model's choice, log entry 52). -/
def Obligations.StepRunsDecoded : Prop :=
  (∀ (s : State) (rest : List Agent) (id : BitVec 11) (x : Xlat) (w : Nat),
    s.stopped = false → s.agenda = .hart id :: rest →
    let u := s.begun (.hart id) rest
    let v := u.asActor id
    u.Acts id → v.h.isEnding = false → v.drains = false → v.h.blk = none → v.h.eix = 0 → v.h.pc.toNat % 4 = 0 →
    v.translate v.h v.h.pc .fetch = .ok x →
    (v.settle v.h.id x.loc 4).loadBytes v.h.unbuffered x.loc 4 = .ok w →
    (∀ i, decodeScalar (BitVec.ofNat 32 w) = .ok i → step s = settled (exec i v.fetched)) ∧
    (∀ e, decodeScalar (BitVec.ofNat 32 w) = .error e → step s = settled (exec (.illegal (BitVec.ofNat 32 w)) v.fetched))) ∧
  (∀ (s : State) (rest : List Agent) (id : BitVec 11) (i : Instr),
    s.stopped = false → s.agenda = .hart id :: rest →
    let u := s.begun (.hart id) rest
    let v := u.asActor id
    u.Acts id → v.h.isEnding = false → v.drains = false → v.h.blk = none → v.fetchScalar = .ok i → v.h.eix ≠ 0 →
    (isLong i = true → step s = settled (exec i v.fetched)) ∧
    (isLong i = false → step s = settled (.next
      (({ v.fetched with h := { v.fetched.h with eix := 0, ckBlk := none } } : State).splitTrap (trapOf causeIllegal v.h.eix))))) ∧
  (∀ (s : State) (rest : List Agent) (id : BitVec 11) (b : Block) (w : BitVec 64) (i : Instr),
    s.stopped = false →
    let u := s.begun (.hart id) rest
    let v := u.asActor id
    (s.agenda = .hart id :: rest → u.Acts id → v.h.isEnding = false → v.h.queue = [] → v.h.blk = some b → b.words[b.word]? = some w →
      decodeElement w = .ok i → step s = settled (exec i v)) ∧
    (∀ q, (s.agenda = .hart id :: rest ∧ u.Acts id ∧ v.h.isEnding = false ∧ v.drains = true) ∨
        (s.agenda = .words id :: rest ∧ u.Acts id) → v.h.queue = b :: q →
      (b.atStop = true → step s = settled (.next { v with h := { v.h with queue := q } })) ∧
      (b.atStop = false → b.words[b.word]? = some w → decodeElement w = .ok i →
        step s = settled (onNext (fun t => t.leaveOldest v.h) (exec i { v with
          h := { v.h with blk := some b, queue := q, place := v.h.place - 2 * (q.length + 1) + 1 } })))) ∧
    (∀ t e, s.agenda = .hart id :: rest → u.Acts id → v.h.origin = .ending t e → step s = settled (.next (v.endWith t e))) ∧
    (s.agenda = .hart id :: rest → ¬ u.Acts id → step s = settled (.next (u.select id).switchIn))) ∧
  ((∀ (s : State) (rest : List Agent) (i : Instr), s.stopped = false → s.agenda = .event i :: rest →
    step s = settled (exec i (s.begun (.event i) rest))) ∧
  (∀ (s : State) (a : Agent), s.stopped = false → s.agenda = [] →
    ({ s with clock := s.clock + 1 } : State).pending = some a → step s = step { s with agenda := [a] }) ∧
  (∀ s : State, s.stopped = true → s.agenda.head? ≠ some (.event .powerOn) → step s = .fault .packageStopped) ∧
  (∀ (s : State) (rest : List Agent), s.agenda = .event .powerOn :: rest →
    step s = settled (exec .powerOn (s.begun (.event .powerOn) rest))) ∧
  (∀ (s : State) (a : Agent) (rest : List Agent), (∀ h ∈ s.harts, h.amo = none) →
    s.begun a rest = { s with clock := s.clock + 1, agenda := rest })) ∧
  (∀ (s : State) (rest : List Agent) (id : BitVec 11) (i : Instr), s.stopped = false → s.agenda = .part id :: rest →
    let u := s.begun (.part id) rest
    let v := u.select id
    let next := fun (t : State) => step s = .next (t.select u.h.id).settleStep
    (∀ h, u.hart? id = some h → v.mayAct v.h = true → v.writesHeld id = false → v.nextWord = some i →
      (h.stripOpen = true → closesFirst i = true → next (v.closeThen true (fun t => t))) ∧
      (h.stripOpen = true → closesFirst i = false → next v) ∧
      (h.stripOpen = false →
        (∀ e, i = .vamo e → next (v.vamoPart e)) ∧ (∀ ra, i = .tspawn ra → next (v.splitThen (fun t => t.spawnPart ra))) ∧
        (∀ lv, (∀ e, i ≠ .vamo e) → v.releaseLevel i = some lv → next (v.splitThen (fun t => t.turnPart lv))))) ∧
    (u.hart? id = none → step s = .next u.settleStep)) ∧
  (∀ (s : State) (rest : List Agent) (id : BitVec 11) (loc n k : Nat) (port : BitVec 1) (req : BitVec 16), s.stopped = false →
    (let u := s.begun (.early id loc n) rest
     s.agenda = .early id loc n :: rest → (u.hart? id).isSome = true → (u.select id).writesHeld id = false →
      step s = .next (((u.select id).loadEarly loc n).select u.h.id).settleStep) ∧
    (let u := s.begun (.ahead id) rest
     s.agenda = .ahead id :: rest → (u.hart? id).isSome = true → (u.select id).mayAct (u.select id).h = true →
      step s = .next ((u.select id).goAhead.select u.h.id).settleStep) ∧
    (s.agenda = .sector k :: rest → step s = .next ((s.begun (.sector k) rest).sectorNow k).settleStep) ∧
    (s.agenda = .bell port req :: rest → step s = .next ((s.begun (.bell port req) rest).bellPart port req).settleStep) ∧
    (∀ die, s.agenda = .promo die :: rest → step s = .next ((s.begun (.promo die) rest).promoPart die).settleStep))

/-- Words printed in the manual decode to the instructions it prints beside them (Tables scalar.9, scalar.10, ctrl.11, lath.4,
strips.6). -/
def Obligations.DecodeWords : Prop :=
  decodeScalar 0x4090E008 = .ok (.ld 9 1 6 8) ∧ decodeScalar 0x44E5A000 = .ok (.st 14 11 2 0) ∧
  decodeScalar 0x06219010 = .ok (.cmp 2 3 4 2) ∧ decodeScalar 0x307FFFFD = .ok (.bt 1 0x1FFFFD) ∧
  decodeScalar 0x1E920000 = .ok (.lui 9 0x20000) ∧ decodeScalar 0x50E5801A = .ok (.stf 14 11 3) ∧
  decodeScalar 0x52531C10 = .ok (.amo 5 6 7 0 0 0 1 0) ∧ decodeScalar 0x55184810 = .ok (.cas 17 16 18 0 0 0 1) ∧
  decodeScalar 0x60D60000 = .ok (.setvl 13 12) ∧ decodeScalar 0x665A0010 = .ok (.mma 5 20 1) ∧
  decodeScalar 0x6A54A890 = .ok (.turnA 5 9 10 2) ∧ decodeScalar 0x70048035 = .ok (.cnsave 9 3) ∧
  decodeScalar 0x72531012 = .ok (.csrw 5 6 0x012) ∧
  decodeElement 0x420A00000100000B = .ok (.vst ⟨5, 0, 0, 0, 0, 0, 0, 2, 0, 0, 11⟩)

/-- Every well-formed scalar instruction decodes from the word it encodes to, with each operand as it stood. Every well-formed
element instruction decodes from the word it encodes to, with each field as it stood. -/
def Obligations.RoundTrip : Prop :=
  (∀ (i : Instr) (n : Nat), i.wf = true → scalarNumber i = some n →
    n < 2^32 ∧ decodeScalar (BitVec.ofNat 32 n) = .ok i) ∧
  (∀ (i : Instr) (n : Nat), i.wf = true → elementNumber i = some n →
    n < 2^64 ∧ decodeElement (BitVec.ofNat 64 n) = .ok i)

/-- A word that decodes is the encoding of what it decodes to: no bit of an accepted word is ignored, so two words never stand
for one instruction (R58 to R70). -/
def Obligations.DecodeInjective : Prop :=
  (∀ (w : BitVec 32) (i : Instr), decodeScalar w = .ok i → i.wf = true ∧ encodeScalar i = w) ∧
  (∀ (w : BitVec 64) (i : Instr), decodeElement w = .ok i → i.wf = true ∧ encodeElement i = w)

/-- s0 reads as zero, c0 as true and k0 as all ones, and a write to any of the three is discarded; every other register reads
back what was written, and the others stay. -/
def Obligations.HardWiredRegisters : Prop :=
  ∀ (r : Regs),
    (r.readS 0 = 0 ∧ ∀ x, r.writeS 0 x = r) ∧ (r.readC 0 = true ∧ ∀ x, r.writeC 0 x = r) ∧
    (r.readK 0 = BitVec.allOnes 2048 ∧ ∀ x, r.writeK 0 x = r) ∧
    (∀ (i j : BitVec 5) (x : Word), (r.writeS i x).readS j = if j = i ∧ i ≠ 0 then x else r.readS j) ∧
    (∀ (i j : BitVec 3) (x : Bool), (r.writeC i x).readC j = if j = i ∧ i ≠ 0 then x else r.readC j) ∧
    (∀ (i j : BitVec 3) (x : KReg), (r.writeK i x).readK j = if j = i ∧ i ≠ 0 then x else r.readK j) ∧
    (∀ (i j : BitVec 5) (x : VReg), (r.writeV i x).readV j = if j = i then x else r.readV j)

/-! ### Scalar arithmetic -/

/-- Sums, differences, logic, shifts and selections of two registers (R92), written over the integers or the bits that the
operands hold; the strip goes on at PC + 4 and nothing but rd changes. The shift amount is the low six bits of b. `mul` gives
the low half of the product, `mulh` the high half of the signed and `mulhn` of the unsigned one: put together they are the whole
128-bit product (R92). Nothing but rd and the PC changes. Division (R92, R93) never traps. For a divisor other than zero,
quotient and remainder make the dividend again, the remainder is smaller than the divisor and has the sign of the dividend; a
divisor of zero gives all ones and the dividend; the most negative number by −1 gives itself and 0. Nothing but rd and the PC
changes. -/
def Obligations.ScalarArithmetic : Prop :=
  (∀ (s : State) (rd ra rb : BitVec 5),
    let a := s.h.r.readS ra
    let b := s.h.r.readS rb
    let n := b.toNat % 64
    let put := fun (x : Word) => (Host.Outcome.next (s.ranOn (s.h.r.writeS rd x)) : Res)
    exec (.add rd ra rb) s = put (BitVec.ofNat 64 (a.toNat + b.toNat)) ∧
    exec (.sub rd ra rb) s = put (BitVec.ofInt 64 (a.toInt - b.toInt)) ∧
    (∃ y : Word, exec (.and rd ra rb) s = put y ∧ ∀ i < 64, y.getLsbD i = (a.getLsbD i && b.getLsbD i)) ∧
    (∃ y : Word, exec (.or rd ra rb) s = put y ∧ ∀ i < 64, y.getLsbD i = (a.getLsbD i || b.getLsbD i)) ∧
    (∃ y : Word, exec (.xor rd ra rb) s = put y ∧ ∀ i < 64, y.getLsbD i = (a.getLsbD i ^^ b.getLsbD i)) ∧
    (∃ y : Word, exec (.andn rd ra rb) s = put y ∧ ∀ i < 64, y.getLsbD i = (a.getLsbD i && !(b.getLsbD i))) ∧
    exec (.sll rd ra rb) s = put (BitVec.ofNat 64 (a.toNat * 2^n)) ∧
    exec (.srl rd ra rb) s = put (BitVec.ofNat 64 (a.toNat / 2^n)) ∧
    exec (.sra rd ra rb) s = put (BitVec.ofInt 64 (a.toInt / 2^n)) ∧
    exec (.min rd ra rb) s = put (BitVec.ofInt 64 (min a.toInt b.toInt)) ∧
    exec (.max rd ra rb) s = put (BitVec.ofInt 64 (max a.toInt b.toInt)) ∧
    exec (.minn rd ra rb) s = put (BitVec.ofNat 64 (min a.toNat b.toNat)) ∧
    exec (.maxn rd ra rb) s = put (BitVec.ofNat 64 (max a.toNat b.toNat))) ∧
  (∀ (s : State) (rd ra rb : BitVec 5),
    let a := s.h.r.readS ra
    let b := s.h.r.readS rb
    ∃ lo hi hin : Word,
      hi.toInt * 2^64 + lo.toNat = a.toInt * b.toInt ∧ hin.toNat * 2^64 + lo.toNat = a.toNat * b.toNat ∧
      exec (.mul rd ra rb) s = .next (s.ranOn (s.h.r.writeS rd lo)) ∧
      exec (.mulh rd ra rb) s = .next (s.ranOn (s.h.r.writeS rd hi)) ∧
      exec (.mulhn rd ra rb) s = .next (s.ranOn (s.h.r.writeS rd hin))) ∧
  (∀ (s : State) (rd ra rb : BitVec 5),
    let a := s.h.r.readS ra
    let b := s.h.r.readS rb
    ∃ q r qn rn : Word,
      exec (.div rd ra rb) s = .next (s.ranOn (s.h.r.writeS rd q)) ∧
      exec (.rem rd ra rb) s = .next (s.ranOn (s.h.r.writeS rd r)) ∧
      exec (.divn rd ra rb) s = .next (s.ranOn (s.h.r.writeS rd qn)) ∧
      exec (.remn rd ra rb) s = .next (s.ranOn (s.h.r.writeS rd rn)) ∧
      (b = 0 → q = 0xFFFFFFFFFFFFFFFF ∧ qn = 0xFFFFFFFFFFFFFFFF ∧ r = a ∧ rn = a) ∧
      (a = 0x8000000000000000 → b = 0xFFFFFFFFFFFFFFFF → q = 0x8000000000000000 ∧ r = 0) ∧
      (b ≠ 0 → qn.toNat * b.toNat + rn.toNat = a.toNat ∧ rn.toNat < b.toNat) ∧
      (b ≠ 0 → ¬(a = 0x8000000000000000 ∧ b = 0xFFFFFFFFFFFFFFFF) →
        q.toInt * b.toInt + r.toInt = a.toInt ∧ r.toInt.natAbs < b.toInt.natAbs ∧ (r = 0 ∨ (r.toInt < 0 ↔ a.toInt < 0))))

/-- Immediate forms (R94): `addi` sign-extends its 15 bits, the logic forms zero-extend them; `lui` and `addpc` shift a
sign-extended 20-bit immediate left by 12. Nothing but rd and the PC changes. Counts, extensions and byte reversal of one
register (R95): the leading zeros are those above the highest one bit, the trailing ones those below the lowest, the count that
of the one bits; 64 for zero. A size 0 to 3 names the low 8, 16, 32 or 64 bits. Nothing but rd and the PC changes. -/
def Obligations.ImmediatesAndBits : Prop :=
  (∀ (s : State) (rd ra : BitVec 5) (imm : BitVec 15) (sh : BitVec 6) (up : BitVec 20),
    let a := s.h.r.readS ra
    let put := fun (x : Word) => (Host.Outcome.next (s.ranOn (s.h.r.writeS rd x)) : Res)
    exec (.addi rd ra imm) s = put (BitVec.ofInt 64 (a.toInt + imm.toInt)) ∧
    exec (.andi rd ra imm) s = put (BitVec.ofNat 64 (a.toNat &&& imm.toNat)) ∧
    exec (.ori rd ra imm) s = put (BitVec.ofNat 64 (a.toNat ||| imm.toNat)) ∧
    exec (.xori rd ra imm) s = put (BitVec.ofNat 64 (a.toNat ^^^ imm.toNat)) ∧
    exec (.slli rd ra sh) s = put (BitVec.ofNat 64 (a.toNat * 2 ^ sh.toNat)) ∧
    exec (.srli rd ra sh) s = put (BitVec.ofNat 64 (a.toNat / 2 ^ sh.toNat)) ∧
    exec (.srai rd ra sh) s = put (BitVec.ofInt 64 (a.toInt / 2 ^ sh.toNat)) ∧
    exec (.lui rd up) s = put (BitVec.ofInt 64 (up.toInt * 4096)) ∧
    exec (.addpc rd up) s = put (BitVec.ofInt 64 (s.h.pc.toInt + up.toInt * 4096))) ∧
  (∀ (s : State) (rd ra : BitVec 5) (sz : BitVec 2),
    let x := s.h.r.readS ra
    let put := fun (y : Word) => (Host.Outcome.next (s.ranOn (s.h.r.writeS rd y)) : Res)
    let w := 8 * 2 ^ sz.toNat
    (∃ n ≤ 64, exec (.clz rd ra) s = put (BitVec.ofNat 64 n) ∧ x.toNat < 2^(64 - n) ∧ (n < 64 → 2^(63 - n) ≤ x.toNat)) ∧
    (∃ n ≤ 64, exec (.ctz rd ra) s = put (BitVec.ofNat 64 n) ∧ x.toNat % 2^n = 0 ∧ (n < 64 → x.getLsbD n = true)) ∧
    exec (.popc rd ra) s = put (BitVec.ofNat 64 ((List.range 64).countP (fun i => x.getLsbD i))) ∧
    exec (.sext rd ra sz) s = put ((x.setWidth w).signExtend 64) ∧
    exec (.zext rd ra sz) s = put ((x.setWidth w).setWidth 64) ∧
    (∃ y : Word, exec (.bswap rd ra sz) s = put y ∧ ∀ i < 8,
      y.extractLsb' (8 * i) 8 = if i < 2 ^ sz.toNat then x.extractLsb' (8 * (2 ^ sz.toNat - 1 - i)) 8 else 0))

/-- Comparisons write one condition bit (R96): `cmp` under each assigned condition, and the immediate forms with the immediate
sign-extended first; nothing is written where cd is c0. Condition bits combine (R97), and `csel` chooses between two registers;
nothing else but the PC changes. -/
def Obligations.ComparesAndConditions : Prop :=
  (∀ (s : State) (cd : BitVec 3) (ra rb : BitVec 5) (imm : BitVec 15),
    let a := s.h.r.readS ra
    let b := s.h.r.readS rb
    let i : Word := BitVec.ofInt 64 imm.toInt
    let put := fun (p : Prop) [Decidable p] => (Host.Outcome.next (s.ranOn (s.h.r.writeC cd (decide p))) : Res)
    exec (.cmp cd ra rb 0) s = put (a = b) ∧ exec (.cmp cd ra rb 1) s = put (a ≠ b) ∧
    exec (.cmp cd ra rb 2) s = put (a.toInt < b.toInt) ∧ exec (.cmp cd ra rb 3) s = put (a.toInt ≥ b.toInt) ∧
    exec (.cmp cd ra rb 4) s = put (a.toNat < b.toNat) ∧ exec (.cmp cd ra rb 5) s = put (a.toNat ≥ b.toNat) ∧
    exec (.cmpiEq cd ra imm) s = put (a = i) ∧ exec (.cmpiNe cd ra imm) s = put (a ≠ i) ∧
    exec (.cmpiLt cd ra imm) s = put (a.toInt < imm.toInt) ∧ exec (.cmpiGe cd ra imm) s = put (a.toInt ≥ imm.toInt) ∧
    exec (.cmpiLtn cd ra imm) s = put (a.toNat < i.toNat) ∧ exec (.cmpiGen cd ra imm) s = put (a.toNat ≥ i.toNat) ∧
    (∀ m : BitVec 3, m.toNat < 6 →
      decodeScalar ((0x03 : BitVec 7) ++ (0 : BitVec 2) ++ cd ++ ra ++ rb ++ (0 : BitVec 4) ++ m ++ (0 : BitVec 3)) = .ok (.cmp cd ra rb m)) ∧
    (let word := fun (major : BitVec 7) => major ++ (0 : BitVec 2) ++ cd ++ ra ++ imm
     decodeScalar (word 0x11) = .ok (.cmpiEq cd ra imm) ∧ decodeScalar (word 0x12) = .ok (.cmpiNe cd ra imm) ∧
     decodeScalar (word 0x13) = .ok (.cmpiLt cd ra imm) ∧ decodeScalar (word 0x14) = .ok (.cmpiGe cd ra imm) ∧
     decodeScalar (word 0x15) = .ok (.cmpiLtn cd ra imm) ∧ decodeScalar (word 0x16) = .ok (.cmpiGen cd ra imm))) ∧
  (∀ (s : State) (cd ca cb : BitVec 3) (rd ra rb : BitVec 5),
    let x := s.h.r.readC ca
    let y := s.h.r.readC cb
    exec (.cand cd ca cb) s = .next (s.ranOn (s.h.r.writeC cd (x && y))) ∧
    exec (.cor cd ca cb) s = .next (s.ranOn (s.h.r.writeC cd (x || y))) ∧
    exec (.cxor cd ca cb) s = .next (s.ranOn (s.h.r.writeC cd (x ^^ y))) ∧
    exec (.cnot cd ca) s = .next (s.ranOn (s.h.r.writeC cd (!x))) ∧
    (x = true → exec (.csel rd ra rb ca) s = .next (s.ranOn (s.h.r.writeS rd (s.h.r.readS ra)))) ∧
    (x = false → exec (.csel rd ra rb ca) s = .next (s.ranOn (s.h.r.writeS rd (s.h.r.readS rb)))) ∧
    (let word := fun (d x y : BitVec 5) (f : BitVec 10) => (0x03 : BitVec 7) ++ d ++ x ++ y ++ f
     let c := fun (k : BitVec 3) => (0 : BitVec 2) ++ k
     decodeScalar (word (c cd) (c ca) (c cb) 1) = .ok (.cand cd ca cb) ∧ decodeScalar (word (c cd) (c ca) (c cb) 2) = .ok (.cor cd ca cb) ∧
     decodeScalar (word (c cd) (c ca) (c cb) 3) = .ok (.cxor cd ca cb) ∧ decodeScalar (word (c cd) (c ca) 0 4) = .ok (.cnot cd ca) ∧
     decodeScalar (word rd ra rb ((0 : BitVec 1) ++ ca ++ (5 : BitVec 6))) = .ok (.csel rd ra rb ca)))

/-- Branches and jumps (R98, R99): a target is PC plus four times the signed offset; `jal` writes PC + 4 to s31 and `jalr` to
rd, after its target has been formed; a branch not taken goes on at PC + 4. A `jalr` to a target that is not a multiple of 4
traps MISALIGN, with the target in EVAL, and writes no register. -/
def Obligations.Branches : Prop :=
  ∀ (s : State) (c : BitVec 3) (off : BitVec 21) (far : BitVec 25) (rd ra : BitVec 5) (imm : BitVec 15),
    let near := BitVec.ofInt 64 (s.h.pc.toInt + 4 * off.toInt)
    let there := BitVec.ofInt 64 (s.h.pc.toInt + 4 * far.toInt)
    let at_ := BitVec.ofInt 64 ((s.h.r.readS ra).toInt + imm.toInt)
    (s.h.r.readC c = true → exec (.bt c off) s = .next (s.ran s.h.r near) ∧ exec (.bf c off) s = .next (s.ranOn s.h.r)) ∧
    (s.h.r.readC c = false → exec (.bt c off) s = .next (s.ranOn s.h.r) ∧ exec (.bf c off) s = .next (s.ran s.h.r near)) ∧
    exec (.j far) s = .next (s.ran s.h.r there) ∧
    exec (.jal far) s = .next (s.ran (s.h.r.writeS 31 (s.h.pc + 4)) there) ∧
    (at_.toNat % 4 = 0 → exec (.jalr rd ra imm) s = .next (s.ran (s.h.r.writeS rd (s.h.pc + 4)) at_)) ∧
    (at_.toNat % 4 ≠ 0 → exec (.jalr rd ra imm) s = .next (s.abortTrap (trapOf causeMisalign at_)))

/-! ### Loads, stores and traps -/

/-- A load (R101, R102) at an aligned, readable address: each byte is the one the strip's stores left last (of a gang, whichever
member stored it), else what the inbound path delivers; rd is the sign-extended value, or the zero-extended one for the `.z`
sizes. A load that was performed early (R231, the model's choice of when: log entry 57) takes the value it had then. Beyond rd and
the PC it may only mark the strip watched, let the hart's own earlier writes to these bytes arrive (log entry 37), and keep copies
of what it and its translation read (log entry 35); with none of those writes in flight no memory, turn state, tag or buffered
store changes. A probe load (R103) never traps UNTURNED, in its own sector or in its translation's: where a plain load would, it
writes 0 and clears c1; otherwise it writes what the plain load writes and sets c1. -/
def Obligations.LoadsAndProbes : Prop :=
  (∀ (s : State) (rd ra rb : BitVec 5) (v : BitVec 3) (off : BitVec 12) (va : Word) (x : Xlat) (d : Nat) (i : Instr),
    (i = .ld rd ra v off ∧ va = s.h.r.readS ra + off.signExtend 64) ∨
      (i = .ldx rd ra rb v ∧ va = s.h.r.readS ra + s.h.r.readS rb) →
    i.wf = true →
    let n := 2 ^ (v.toNat % 4)
    let u := (s.accessed 0 va.toNat n).settle s.h.id x.loc n
    let hit := s.buffers s.h x.loc n
    let early := s.h.early.find? (fun e => e.loc == x.loc && e.n == n)
    va.toNat % n = 0 → s.translate s.h va .read = .ok x → u.loadValue u.h x.loc n 0 = .ok d →
    let y : Word := if v.toNat < 4 then (BitVec.ofNat (8 * n) d).signExtend 64 else (BitVec.ofNat (8 * n) d).setWidth 64
    exec i s = .next (((u.delivered x.loc n).fill u.h.reader x.loc).ranOn (s.h.r.writeS rd y)) ∧
    (hit = true ∨ early = none → ∀ k < n, (match s.bufByte s.h (x.loc + k) with
      | some b => (Except.ok b : Except (BitVec 8) Byte)
      | none => u.visible u.h.reader (x.loc + k)) = .ok (BitVec.ofNat 8 (d / 256^k))) ∧
    (∀ a, hit = false → early = some a → a.value = some d) ∧
    (s.h.gang = none → ∀ l, s.bufByte s.h l = sfind s.h.buf l) ∧
    ((∀ o ∈ s.flight, s.isOwn s.h.id o = true → ∀ b ∈ o.bytes, b.1 < x.loc ∨ x.loc + n ≤ b.1) →
      ∃ t, exec i s = .next t ∧ t.mem = s.mem ∧ t.turn = s.turn ∧ t.full = s.full ∧ t.flight = s.flight ∧ t.h.buf = s.h.buf)) ∧
  (∀ (s : State) (rd ra rb : BitVec 5) (v : BitVec 3) (off : BitVec 12) (va : Word) (x : Xlat) (i : Instr),
    (i = .ldP rd ra v off ∧ va = s.h.r.readS ra + off.signExtend 64) ∨
      (i = .ldxP rd ra rb v ∧ va = s.h.r.readS ra + s.h.r.readS rb) →
    i.wf = true →
    let n := 2 ^ (v.toNat % 4)
    let u := (s.accessed 0 va.toNat n).settle s.h.id x.loc n
    (∀ ms, va.toNat % n = 0 → s.translate s.h va .read = .error (causeUnturned, ms) →
      exec i s = .next (s.ranOn ((s.h.r.writeS rd 0).writeC 1 false))) ∧
    (va.toNat % n = 0 → s.translate s.h va .read = .ok x →
      (∀ d, u.loadValue u.h x.loc n 0 = .ok d →
        exec i s = .next (((u.delivered x.loc n).fill u.h.reader x.loc).ranOn ((s.h.r.writeS rd (if v.toNat < 4 then
          (BitVec.ofNat (8 * n) d).signExtend 64 else (BitVec.ofNat (8 * n) d).setWidth 64)).writeC 1 true))) ∧
      (u.loadValue u.h x.loc n 0 = .error causeUnturned →
        exec i s = .next ((u.dropEarly x.loc n).ranOn ((s.h.r.writeS rd 0).writeC 1 false))) ∧
      (∀ c, u.loadValue u.h x.loc n 0 = .error c → c ≠ causeUnturned → exec i s = .next (u.abortTrap (readTrap c va x)))) ∧
    (∀ (ra' : BitVec 5) (off' : BitVec 12) (rb' : BitVec 5) (v' : BitVec 3),
      let at_ := s.h.r.readS ra' + off'.signExtend 64
      let sum := s.h.r.readS ra' + s.h.r.readS rb'
      let m := 2 ^ (v'.toNat % 4)
      (at_.toNat % m ≠ 0 ∨ (∃ f, s.translate s.h at_ .read = .error f ∧ f.1 ≠ causeUnturned) →
        exec (.ldP rd ra' v' off') s = exec (.ld rd ra' v' off') s) ∧
      (sum.toNat % m ≠ 0 ∨ (∃ f, s.translate s.h sum .read = .error f ∧ f.1 ≠ causeUnturned) →
        exec (.ldxP rd ra' rb' v') s = exec (.ldx rd ra' rb' v') s)))

/-- A store (R101, R104) within the store budget puts its bytes into the strip store buffer and nowhere else: those locations
hold the low bytes of the register, every other buffered byte stays, and memory, turn state and what is in flight stay until the
strip closes. A store that needs no new word of the buffer is within it whatever the budget says (DEDUCED, log entry 43). What
the hart notes for later may change: the watched mark, the address it stored through, loads performed early of these bytes, the
copies its translation read, and in a gang which buffered byte is the last. -/
def Obligations.Stores : Prop :=
  ∀ (s : State) (rd ra rb : BitVec 5) (v : BitVec 2) (off : BitVec 12) (va : Word) (x : Xlat) (i : Instr),
    (i = .st rd ra v off ∧ va = s.h.r.readS ra + off.signExtend 64) ∨
      (i = .stx rd ra rb v ∧ va = s.h.r.readS ra + s.h.r.readS rb) →
    let n := 2 ^ v.toNat
    (s.h.gang ≠ none → s.Slots) → va.toNat % n = 0 → s.translate s.h va .write = .ok x →
    (s.h.buf = [] ∨ (∀ k < n, (bufWords s.h.buf).contains ((x.loc + k) / 8) = true) ∨
      s.h.used + 8 * newWords s.h.buf (spread x.loc n 0) ≤ s.h.limit) →
    ∃ t, exec i s = .next t ∧ t = ({ s with
        h := { s.h with buf := t.h.buf, stale := t.h.stale, watched := t.h.watched, watchedAt := t.h.watchedAt, early := t.h.early
                        wva := sput s.h.wva (sectorOf x.loc) (va.toNat, s.h.region) }
        others := t.others, copies := t.copies } : State).ranOn s.h.r ∧
      (s.h.gang = none → t.others = s.others ∧ t.h.stale = s.h.stale) ∧
      (∀ k < n, sfind t.h.buf (x.loc + k) = some ((s.h.r.readS rd).extractLsb' (8 * k) 8)) ∧
      (∀ l, (l < x.loc ∨ x.loc + n ≤ l) → sfind t.h.buf l = sfind s.h.buf l)

/-- Where a plain access stops (R105, R107): a misaligned address, a failed translation or an unreadable byte aborts the strip
with the address in EVAL, in every form; a store that needs more than what is left of a started budget closes the strip and traps
STRIPOVF. A translation fails UNTURNED where an entry that it reads is not turned far enough, for a store as for a load (R293; R104 says
that a store never traps UNTURNED, which is taken of its own sector: DEDUCED, log entry 58). EVAL of the PROT of a failed read of host
memory is the physical address read, also where that read is of a page-table or range entry (R368, DEDUCED: log entry 74).
Where an operation at the home stops, after its split and behind its release turn (R91, R108, R109): misaligned, not mapped with the
permission it needs, in host memory, on a poisoned sector, or on a sector that is not turned to its home level: UNTURNED; nothing
is read or written there. -/
def Obligations.AccessTraps : Prop :=
  (∀ (s : State) (rd ra rb : BitVec 5) (v : BitVec 3) (off : BitVec 12) (va : Word) (load probe store : Instr),
    (load = .ld rd ra v off ∧ probe = .ldP rd ra v off ∧ store = .st rd ra (v.setWidth 2) off ∧
        va = s.h.r.readS ra + off.signExtend 64) ∨
      (load = .ldx rd ra rb v ∧ probe = .ldxP rd ra rb v ∧ store = .stx rd ra rb (v.setWidth 2) ∧
        va = s.h.r.readS ra + s.h.r.readS rb) →
    let n := 2 ^ (v.toNat % 4)
    (va.toNat % n ≠ 0 → exec load s = .next (s.abortTrap (trapOf causeMisalign va)) ∧
      exec probe s = .next (s.abortTrap (trapOf causeMisalign va)) ∧
      exec store s = .next (s.abortTrap (trapOf causeMisalign va))) ∧
    (∀ f, va.toNat % n = 0 → (f.1 = causeProt → f.2 = []) →
      let t : Trap := { code := f.1, val := va, missing := f.2 }
      (s.translate s.h va .read = .error f → exec load s = .next (s.abortTrap t) ∧
        (f.1 ≠ causeUnturned → exec probe s = .next (s.abortTrap t))) ∧
      (s.translate s.h va .write = .error f → exec store s = .next (s.abortTrap t))) ∧
    (∀ m ms, va.toNat % n = 0 →
      (s.translate s.h va .read = .error (causeProt, m :: ms) → exec load s = .next (s.abortTrap (trapOf causeProt m.entry)) ∧
        exec probe s = .next (s.abortTrap (trapOf causeProt m.entry))) ∧
      (s.translate s.h va .write = .error (causeProt, m :: ms) → exec store s = .next (s.abortTrap (trapOf causeProt m.entry)))) ∧
    (∀ x c, va.toNat % n = 0 → s.translate s.h va .read = .ok x →
      let u := (s.accessed 0 va.toNat n).settle s.h.id x.loc n
      u.loadValue u.h x.loc n 0 = .error c →
      (isHost x.loc = false ∨ c ≠ causeProt → exec load s = .next (u.abortTrap (trapOf c va)) ∧
        (c ≠ causeUnturned → exec probe s = .next (u.abortTrap (trapOf c va)))) ∧
      (isHost x.loc = true → c = causeProt → exec load s = .next (u.abortTrap (trapOf c (BitVec.ofNat 64 x.pa))) ∧
        exec probe s = .next (u.abortTrap (trapOf c (BitVec.ofNat 64 x.pa))))) ∧
    (∀ x, va.toNat % n = 0 → s.translate s.h va .write = .ok x → s.h.buf ≠ [] →
      (∀ k < n, (bufWords s.h.buf).contains ((x.loc + k) / 8) = false) →
      s.h.limit < s.h.used + 8 * newWords s.h.buf (spread x.loc n 0) →
      exec store s = .next (s.splitTrap (trapOf causeStripovf va)))) ∧
  (∀ (s : State) (rd ra rb : BitVec 5) (wd rel acq : BitVec 1) (lv : BitVec 3) (op : BitVec 4), s.Quiet →
    let c := s.closed
    let va := s.h.r.readS ra
    let stops := fun (i : Instr) (al : Nat) (acc : Access) (d : State) =>
      (va.toNat % al ≠ 0 → exec i s = .next (c.deliver (trapOf causeMisalign va) false)) ∧
      (∀ f, va.toNat % al = 0 → c.translate c.h va acc = .error f → (f.1 = causeProt → f.2 = []) →
        exec i s = .next (c.deliver { code := f.1, val := va, missing := f.2 } false)) ∧
      (∀ m ms, va.toNat % al = 0 → c.translate c.h va acc = .error (causeProt, m :: ms) →
        exec i s = .next (c.deliver (trapOf causeProt m.entry) false)) ∧
      (∀ x, va.toNat % al = 0 → c.translate c.h va acc = .ok x →
        (x.level = 5 → exec i s = .next (c.deliver (trapOf causeProt va) false)) ∧
        (x.level ≠ 5 → d.poisoned (sectorOf x.loc) = true → exec i s = .next (d.deliver (trapOf causeProt va) false)) ∧
        (x.level ≠ 5 → d.poisoned (sectorOf x.loc) = false →
          (entryState (d.entry (sectorOf x.loc)) = 6 ∨ entryState (d.entry (sectorOf x.loc)) < x.level) →
          exec i s = .next (d.deliver (trapOf causeUnturned va) false)))
    let w := if wd = 1 then 4 else 8
    stops (.fetag rd ra) 8 .feRead c ∧ stops (.ldf rd ra) 8 .feRead c ∧ stops (.ste ra) 8 .feWrite c ∧ stops (.ldfe rd ra) 8 .feBoth c ∧
    stops (.stf rd ra lv) 8 .feWrite (c.turnAllNow lv.toNat) ∧
    stops (.amo rd ra rb wd lv rel acq op) w .atomic (if rel = 1 then c.turnAllNow lv.toNat else c) ∧
    stops (.cas rd ra rb wd lv rel acq) w .atomic (if rel = 1 then c.turnAllNow lv.toNat else c))

/-- Delivery of a trap through the vector (R295, R296): ECAUSE, EVAL, EPC, EIX and PRIV as the rule writes them, the handler's
strip opened at TRAPVEC; the scalar, vector and mask registers, memory and every other register of the hart stay. A trap whose
vector is 0 frees the slot of a hart that nothing started; that the FREE slot then holds the reset values of a hart is the
model's choice where the manual gives none (log entry 3). -/
def Obligations.TrapEntry : Prop :=
  ∀ (s : State) (code : BitVec 8) (val : Word) (rolled : Bool), s.Slots →
    (s.h.Steady →
      let t := s.vector code val rolled
      t.h.ecause = BitVec.ofNat 9 (bnat rolled * 256 + code.toNat) ∧ t.h.eval = val ∧ t.h.epc = s.h.pc ∧
      t.h.eixCsr = s.h.posEix ∧ t.h.eix = 0 ∧ t.h.blk = none ∧ t.h.prev = s.h.cur ∧
      t.h.cur = (if s.h.cur = 0 then 1 else s.h.cur) ∧
      t.h.pc.toNat = s.h.trapvec.toNat / 4 * 4 ∧ t.h.stripn = s.h.stripn + 1 ∧ t.h.strippc = t.h.pc ∧ t.h.stripOpen = true ∧
      t.h.ck = s.h.r ∧ t.h.r = s.h.r ∧ t.h.tl = s.h.tl ∧ t.h.instret = s.h.instret ∧ t.h.trapvec = s.h.trapvec ∧
      t.mem = s.mem ∧ t.turn = s.turn ∧ t.full = s.full ∧ t.cores = s.cores ∧ t.flight = s.flight) ∧
    (nbits s.h.trapvec.toNat 2 62 = 0 → s.h.origin = .none → s.h.gang = none → s.h.tracectl = 0 → s.others = [] →
      (s.vector code val rolled).h = Hart.blank s.h.id)

/-- A strip abort (R33, R107, R201): the reverting state returns to the checkpoint, FFLAGS keeping what engines delivered;
buffered stores go; the hart stands at STRIPPC with the same ordinal; memory, accumulators, timelines and the other registers
stay. A gang's members return to their checkpoints likewise, and keep the flags that engines delivered to them (R45). The trap
that aborted it is then delivered with ROLLED = 1. -/
def Obligations.AbortRestores : Prop :=
  ∀ (s : State) (t : Trap), s.h.stripOpen = true → s.Slots →
    let u := s.rollback false
    u.h.r = { s.h.ck with fflags := s.h.ck.fflags ||| s.h.delivered.setWidth 13 } ∧ u.h.buf = [] ∧ u.h.pc = s.h.strippc ∧
    u.h.eix = s.h.ckEix ∧ u.h.blk = none ∧ u.h.stripn = s.h.stripn ∧ u.h.strippc = s.h.strippc ∧ u.h.instret = s.h.instret ∧
    u.h.tl = s.h.tl ∧ u.h.issued = s.h.issued ∧ u.h.trapvec = s.h.trapvec ∧ u.h.cur = s.h.cur ∧
    u.mem = s.mem ∧ u.turn = s.turn ∧ u.full = s.full ∧ u.flight = s.flight ∧
    (s.h.trace = false → u.cores = s.cores) ∧ (s.h.gang = none → u.others = s.others) ∧
    (∀ m ∈ s.h.members, ∀ y, s.hart? m = some y → ∃ z, u.hart? m = some z ∧ z.buf = [] ∧
      z.r = { y.ck with fflags := y.ck.fflags ||| y.delivered.setWidth 13 }) ∧
    (t.code ≠ waitNoPath → s.abortTrap t = u.deliver t true) ∧
    (t.code ≠ waitNoPath → t.code ≠ causePage → t.code ≠ causeKvmiss → u.deliver t true = u.vector t.code t.val true)

/-- A strip that closes as at a split (R90, R104, R199, R231): the registers stay, INSTRET takes what the strip counted, the
buffer is empty, its sectors are in the write set, and every write of the hart and its gang has reached its home and marked its
sector pending; the buffered bytes stand in memory, and every byte that they neither buffered nor had in flight reads as before.
Of a gang's stores to one byte the last leaves (R149, R217). The next strip opens (R33, R199): the ordinal rises by 1, STRIPPC and
the checkpoint take the position and the registers as they stand, and nothing outside the hart changes. -/
def Obligations.StripBoundaries : Prop :=
  (∀ (s : State), s.Quiet → s.Canonical → s.h.stripOpen = true → risingFrom 0 s.h.buf = true →
    let t := s.closed
    let sent := fun (ids : List (BitVec 11)) (l : Nat) =>
      (∃ i ∈ ids, ∃ y, s.hart? i = some y ∧ l ∉ y.stale ∧ ∃ b, (l, b) ∈ y.buf) ∨
        (∃ o ∈ s.flight, ∃ i ∈ ids, o.src.hart = some i ∧ ∃ b ∈ o.bytes, b.1 = l)
    t.h = { s.h with
      buf := [], stale := [], queue := [], instPend := 0, instret := s.h.instret + BitVec.ofNat 64 s.h.instPend, stripOpen := false
      raised := 0, delivered := 0, watched := none, ckWatched := none, overLimit := false, owed := [], writeSet := t.h.writeSet } ∧
    (∀ o ∈ t.flight, ∀ i ∈ s.h.gangIds, o.src.hart ≠ some i) ∧
    (∀ l b, (l, b) ∈ s.h.buf → l ∉ s.h.stale → entryState (t.entry (sectorOf l)) = 6 ∧ sectorOf l ∈ t.h.writeSet ∧
      (¬ sent s.h.members l → t.homeByte l = b)) ∧
    (∀ l, ¬ sent s.h.gangIds l → t.homeByte l = s.homeByte l) ∧
    (∀ c, (∀ l, sent s.h.gangIds l → sectorOf l ≠ c) → t.entry c = s.entry c)) ∧
  (∀ (s : State), s.Slots →
    let t := s.openRaw
    t = { s with h := t.h, others := t.others } ∧ (s.h.gang = none → t.others = s.others) ∧ t.h.stripn = s.h.stripn + 1 ∧
      t.h.strippc = s.h.pc ∧ t.h.ck = s.h.r ∧ t.h.ckEix = s.h.posEix ∧
      t.h.stripOpen = true ∧ t.h.r = s.h.r ∧ t.h.pc = s.h.pc ∧ t.h.eix = s.h.eix ∧ t.h.instret = s.h.instret ∧ t.h.buf = s.h.buf ∧
      t.h.cur = s.h.cur ∧ t.h.tl = s.h.tl ∧ t.h.leasePref = s.h.pref ∧ t.h.leaseMin = s.h.min)

/-- Hints run as `nop` (R72). An unassigned word closes the strip and traps ILLEGAL with the word in EVAL at every level (R71,
R74). The words that compute nothing (R72, R170, R176): `vnop` and hints take their place; `stop` ends a single run and goes on
behind the `vfetch`, or ends a repeat, where the strip commits and the next repeat or PC + 4 follows. The scalar core goes on past a
block while the queues hold fewer than eight (R176, R204). The model's choice (log entry 49): it passes a block that runs once, at none
of whose words the strip splits (R200), and whose stores fit the store budget with those queued already. Behind the blocks it has passed
it goes on: it waits before an instruction that names a scalar register which a queued word is still to write (R123, R168), and before a
load while a queued word accesses memory (R106). -/
def Obligations.HintsStopIllegal : Prop :=
  (∀ (s : State) (h : BitVec 3) (x : BitVec 25) (w : BitVec 32),
    exec (.scalarHint h x) s = .next (s.ranOn s.h.r) ∧
    (s.Quiet → exec (.illegal w) s = .next (s.commitSplit.vector causeIllegal (w.setWidth 64) false))) ∧
  (∀ (s : State) (e : EWord) (op : BitVec 4) (bits : BitVec 54) (b : Block), s.h.blk = some b → s.h.slices = [] →
    (∃ t c, exec (.vnop e) s = .next t ∧ t = { s with h := { s.h with blk := some c, perf := 0 } } ∧ c.word = b.word + 1 ∧
      c.spacing = b.spacing + e.stall.toNat ∧ c.words = b.words) ∧
    (∃ t c, exec (.elementHint op bits) s = .next t ∧ t = { s with h := { s.h with blk := some c, perf := 0 } } ∧ c.word = b.word + 1 ∧
      c.spacing = b.spacing ∧ c.words = b.words) ∧
    (b.atStop = true → b.reps ≤ 1 → b.rep + 1 = b.reps → exec (.stop e) s = .next { s with
      h := { s.h with blk := none, pc := s.h.pc + 4, eix := 0, instPend := s.h.instPend + 1 } }) ∧
    (b.atStop = true → 1 < b.reps → s.Quiet → s.h.stripOpen = true →
      ∃ t, exec (.stop e) s = .next t ∧ t.h.stripn = s.h.stripn + 1 ∧ t.h.buf = [] ∧ t.h.r = s.h.r ∧ t.h.ck = s.h.r ∧
        (b.rep + 1 < b.reps → t.h.blk = some b.nextRepeat ∧ t.h.pc = s.h.pc ∧ t.h.ckEix = BitVec.ofNat 64 (b.rep + 1)) ∧
        (b.rep + 1 = b.reps → t.h.blk = none ∧ t.h.pc = s.h.pc + 4 ∧ t.h.ckEix = 0)) ∧
    (b.ahead = true → s.storesFit b.left = true → s.h.queue.length < 8 → s.goAhead = { s with
      h := { s.h with blk := none, pc := s.h.pc + 4, eix := 0, instPend := s.h.instPend + 1, queue := s.h.queue ++ [b]
                      place := s.h.place + 2 } }) ∧
    (b.ahead = false ∨ s.storesFit b.left = false ∨ 8 ≤ s.h.queue.length → s.goAhead = s)) ∧
  (∀ (s : State) (i : Instr), s.h.queue ≠ [] → s.h.blk = none → s.fetchScalar = .ok i →
    let due := fun (rs : List (BitVec 5)) => ∃ b ∈ s.h.queue, ∃ w ∈ b.left, ∃ r ∈ rs, wordScalar w = some r
    (∀ rd ra rb sh x, i = .add rd ra rb ∨ i = .mul rd ra rb ∨ i = .csel rd ra rb sh ∨ (rb = ra ∧ i = .addi rd ra x) →
      (s.drains = true ↔ due [rd, ra, rb])) ∧
    (∀ rd ra v off, i = .ld rd ra v off ∨ i = .ldP rd ra v off →
      (s.drains = true ↔ due [rd, ra] ∨ ∃ b ∈ s.h.queue, ∃ w ∈ b.left, s.h.touches w = true)))

/-! ### Operations at the home -/

/-- Full/empty operations that do not wait (R109, R110): `fetag` reads the tag; `ste` clears it and leaves the data; `stf` turns
the hart's writes, stores the register, sets the tag and releases the waiters, once every recording region's log has room (R351);
`ldf` and `ldfe` on a full word without waiters read it, and `ldfe` clears the tag. Registers but rd stay. `ldf` and `ldfe` on
an empty word park the hart behind the earlier waiters, with no strip open (R111). -/
def Obligations.FullEmpty : Prop :=
  (∀ (s : State) (rd ra : BitVec 5) (lv : BitVec 3) (x : Xlat), s.Quiet →
    let c := s.closed
    let va := s.h.r.readS ra
    let m := c.acting va 8 x
    let old := c.homeNat x.loc 8
    let at_ := physFor s.myCore x.loc
    let tag := decide (x.loc / 8 ∈ c.full)
    (c.HomeAt va 8 .feRead x c →
      exec (.fetag rd ra) s = .next ((m.logged 6 at_ (bnat tag)).completed (s.h.r.writeS rd (if tag then 1 else 0)))) ∧
    (c.HomeAt va 8 .feWrite x c →
      exec (.ste ra) s = .next ((((m.logged 6 at_ old).homeMark c.myCore s.h.region x.level (sectorOf x.loc)).setTag x.loc false).completed
        s.h.r)) ∧
    (c.HomeAt va 8 .feRead x c → tag = true → (∀ w ∈ c.waiters, w.1 ≠ x.loc) →
      exec (.ldf rd ra) s = .next ((m.logged 6 at_ old).ordered.completed (s.h.r.writeS rd (BitVec.ofNat 64 old)))) ∧
    (c.HomeAt va 8 .feBoth x c → tag = true → (∀ w ∈ c.waiters, w.1 ≠ x.loc) →
      exec (.ldfe rd ra) s = .next ((((m.setTag x.loc false).homeMark c.myCore s.h.region x.level (sectorOf x.loc)).logged 6 at_
        old).ordered.completed (s.h.r.writeS rd (BitVec.ofNat 64 old)))) ∧
    (let d := c.turnAllNow lv.toNat
     let a := d.acting va 8 x
     let e := a.logged 6 at_ (d.homeNat x.loc 8)
     let room := a.logsRoom (a.h :: (a.freedBy x.loc).filterMap a.hart?)
     c.HomeAt va 8 .feWrite x d →
      (room = true → exec (.stf rd ra lv) s = .next ((((e.homeWrite x 8 (s.h.r.readS rd).toNat).setTag x.loc true).completed
        d.h.r).wordFilled x (s.h.r.readS rd).toNat)) ∧
      (room = false → exec (.stf rd ra lv) s = .next (a.stall .retry)))) ∧
  (∀ (s : State) (rd ra : BitVec 5) (x : Xlat), s.Quiet →
    (∀ m ∈ s.h.gangIds, ∀ o, s.hart? (otherSlot m) = some o → o.st ≠ .ready) →
    let c := s.closed
    let va := s.h.r.readS ra
    x.loc / 8 ∉ c.full →
    (c.HomeAt va 8 .feRead x c → ∃ t, exec (.ldf rd ra) s = .next t ∧ t.h.st = .parked ∧ t.h.wait = .word x.loc x.level false rd ∧
      t.waiters = c.waiters ++ [(x.loc, s.h.id)] ∧ t.h.stripOpen = false ∧ t.h.r = s.h.r ∧ t.h.pc = s.h.pc ∧ t.mem = c.mem) ∧
    (c.HomeAt va 8 .feBoth x c → ∃ t, exec (.ldfe rd ra) s = .next t ∧ t.h.st = .parked ∧ t.h.wait = .word x.loc x.level true rd ∧
      t.waiters = c.waiters ++ [(x.loc, s.h.id)] ∧ t.h.stripOpen = false ∧ t.h.r = s.h.r ∧ t.h.pc = s.h.pc ∧ t.mem = c.mem))

/-- What the home actions leave (R108, R109): after a write of n bytes those bytes read as written and every other byte as
before, the sector is turned to the home level and no other entry changes; a tag is set or cleared for one word alone. -/
def Obligations.HomeActions : Prop :=
  ∀ (s : State) (x : Xlat) (n v : Nat), s.Canonical → x.level ≤ 4 →
    let t := s.homeWrite x n v
    (∀ k < n, t.homeByte (x.loc + k) = BitVec.ofNat 8 (v / 256^k)) ∧
    (∀ l, (l < x.loc ∨ x.loc + n ≤ l) → t.homeByte l = s.homeByte l) ∧
    entryState (t.entry (sectorOf x.loc)) = x.level ∧ entryPos (t.entry (sectorOf x.loc)) = (if isRemote x.loc then posForeign else posCore s.myCore) ∧
    entryOwner (t.entry (sectorOf x.loc)) = s.h.region ∧
    (∀ c, c ≠ sectorOf x.loc → t.entry c = s.entry c) ∧ t.h = s.h ∧ t.full = s.full ∧
    (∀ w b, (s.setTag x.loc b).full.contains w = if w = x.loc / 8 then b else s.full.contains w) ∧
    (s.setTag x.loc true).mem = s.mem

/-- Atomics (R112 to R114, Table scalar.8): the word at the home takes the operation's value, `cas` swaps only where the word
equals the expected value, and rd takes the old value sign-extended; `.rel` turns the hart's writes first, and behind `.acq` no later
load counts as performed before it (R231; which loads were is the model's choice, log entry 57). -/
def Obligations.Atomics : Prop :=
  ∀ (s : State) (rd ra rb : BitVec 5) (wd rel acq : BitVec 1) (lv : BitVec 3) (op : BitVec 4) (x : Xlat), s.Quiet →
    (Instr.amo rd ra rb wd lv rel acq op).wf = true →
    let w := if wd = 1 then 32 else 64
    let n := w / 8
    let va := s.h.r.readS ra
    let c := if rel = 1 then s.closed.turnAllNow lv.toNat else s.closed
    let old : BitVec w := BitVec.ofNat w (c.homeNat x.loc n)
    let b : BitVec w := (s.h.r.readS rb).setWidth w
    let e := (c.acting va n x).logged 6 (physFor s.myCore x.loc) old.toNat
    let fin := fun (z : State) (r : Regs) => (Host.Outcome.next ((if acq = 1 then z.ordered else z).completed r) : Res)
    let new : BitVec w := match op.toNat with
      | 0 => old + b
      | 1 => old &&& b
      | 2 => old ||| b
      | 3 => old ^^^ b
      | 4 => if old.toInt ≤ b.toInt then old else b
      | 5 => if old.toInt ≤ b.toInt then b else old
      | 6 => if old.toNat ≤ b.toNat then old else b
      | 7 => if old.toNat ≤ b.toNat then b else old
      | _ => b
    s.closed.HomeAt va n .atomic x c →
    exec (.amo rd ra rb wd lv rel acq op) s = fin (e.homeWrite x n new.toNat) (s.h.r.writeS rd (old.signExtend 64)) ∧
    (old = (s.h.r.readS rd).setWidth w →
      exec (.cas rd ra rb wd lv rel acq) s = fin (e.homeWrite x n b.toNat) (s.h.r.writeS rd (old.signExtend 64))) ∧
    (old ≠ (s.h.r.readS rd).setWidth w →
      exec (.cas rd ra rb wd lv rel acq) s = fin e (s.h.r.writeS rd (old.signExtend 64)))

/-- `takenum` (R117 and R118 of 05_scalar_instructions.md, R331 and R333 of 20_counting_network.md): at an open network a token
enters on the wire of the hart's core, and the hart stands stalled until it leaves; at a closed one the hart waits at the entry.
When the token leaves, the number is written and the instruction is done (TOKEN_EXIT, R333; a stalled hart's instruction begins
again at its next turn, log entry 50); a token that has not yet come to an exit only travels. A token on any entry wire passes ten
balancers and then stands at one of the sixteen exits (R331), and the draw there is BASE + w + 16 · c_w; the counter counts up, or
at its last value the network closes and is TORN (R117, R118). -/
def Obligations.NetworkDraw : Prop :=
  (∀ (s : State) (rd : BitVec 5) (n : BitVec 4),
    (s.Quiet → (s.closed.h.replay = 0 ∨ (s.closed.h.replay = 1 ∧ s.closed.logRoom s.h.region 1 = true)) →
      let c := s.closed
      let w := s.h.id.toNat / 2 % 16
      ((c.net n).closed = false → exec (.takenum rd n) s = .next ((c.setNet n { c.net n with tokens := (c.net n).tokens ++
        [{ hart := s.h.id, rd := rd, entry := w, wire := w, layer := 0 }] }).stall (.token n rd))) ∧
      ((c.net n).closed = true → exec (.takenum rd n) s = .next (c.stall .retry))) ∧
    (∀ k hops x t v, s.Slots → (s.net n).travel k hops = (x, some (t, v)) → t.hart = s.h.id → s.h.st ≠ .free → s.h.preempt = false →
      s.h.stopDue = false → (s.h.replay ≠ 1 ∨ s.logRoom s.h.region 1 = true) →
      exec (.tokenExit n k hops) s = .next (((s.setNet n x).logged 3 v.toNat n.toNat).completed (s.h.r.writeS t.rd v))) ∧
    (∀ k hops x, (s.net n).travel k hops = (x, none) → exec (.tokenExit n k hops) s = .next (s.setNet n x))) ∧
  (∀ (x : Net) (t : Token), t.wire < 16 →
    ∃ w, ∃ hw : w < 16, (x.hops t 10).2.exit = some w ∧ (x.hops t 10).2.layer = t.layer + 10 ∧
      (∀ y : Net, (y.draw w).1 = y.base + BitVec.ofNat 64 w + 16 * (y.cnt[w].setWidth 64) ∧
        (y.draw w).2.hwm = (if y.hwm.toNat < ((y.draw w).1 + 1).toNat then (y.draw w).1 + 1 else y.hwm) ∧
        (y.cnt[w] ≠ BitVec.allOnes 48 → (y.draw w).2.cnt = y.cnt.set w (y.cnt[w] + 1) hw ∧ (y.draw w).2.closed = y.closed ∧
          (y.draw w).2.torn = y.torn) ∧
        (y.cnt[w] = BitVec.allOnes 48 → (y.draw w).2.cnt = y.cnt ∧ (y.draw w).2.closed = true ∧ (y.draw w).2.torn = true)))

/-! ### Vector control, streams, blocks and gangs -/

/-- `setvl` (R174, R199): the open strip commits, the lane grants are taken, VL is the smallest of the request, VLMAX and a VLCEIL
other than 0, rd takes it, and the next strip opens at the `setvl` with these registers as its checkpoint. When the strip that it
opened has rolled back to it, it opens that strip again under the same ordinal (how the ordinal counts a rerun `setvl` is DEDUCED,
log entry 39). Vector state set and read by scalar instructions (R175, R177, Tables state.2, state.4): `settype` keeps a field
whose code is reserved, trims VL to the new VLMAX when the width changes, and returns VLMAX; `slip` sets the depth; `vsync` and
`vget` find every earlier block completed; `vtest` reads the mask's bits below VL; `vget` reads a soft-maximum register
zero-extended. Nothing else but the PC changes. -/
def Obligations.VectorControl : Prop :=
  (∀ (s : State) (rd ra : BitVec 5), s.Quiet →
    let n := (s.h.r.readS ra).toNat
    ∃ t, exec (.setvl rd ra) s = .next t ∧
      t.h.r.vl = (if t.h.vlceil = 0 then min n t.h.vlmaxNow else min (min n t.h.vlmaxNow) t.h.vlceil.toNat) ∧
      t.h.r = { s.h.r.writeS rd (BitVec.ofNat 64 t.h.r.vl) with vl := t.h.r.vl } ∧ t.h.ck = t.h.r ∧
      t.h.strippc = s.h.pc ∧ t.h.pc = s.h.pc + 4 ∧ t.h.stripOpen = true ∧ t.h.byVl = true ∧ t.h.rerun = false ∧
      t.h.leasePref = s.h.pref ∧ t.h.leaseMin = s.h.min ∧ t.h.cur = s.h.cur ∧ t.h.tl = s.h.tl ∧
      t.mem = s.mem ∧ t.turn = s.turn ∧ t.full = s.full ∧
      (s.h.rerun = true → t.h.stripn = s.h.stripn ∧ t.flight = s.flight) ∧
      (s.h.rerun = false → t.h.stripn = s.h.stripn + 1 ∧ (s.h.stripOpen = true → t.h.buf = [] ∧
        t.h.instret = s.h.instret + BitVec.ofNat 64 s.h.instPend ∧ t.h.instPend = 1))) ∧
  (∀ (s : State) (rd ra : BitVec 5) (cd k : BitVec 3) (n : BitVec 3),
    let x := (s.h.r.readS ra).toNat
    let old := s.h.r.vtype.toNat
    let vt : BitVec 7 := BitVec.ofNat 7 ((if x % 16 ≤ 12 then x % 16 else old % 16) + 16 * (if x / 16 % 8 ≤ 3 then x / 16 % 8 else old / 16))
    let vmax := 16384 / vtWidth vt * s.h.width
    let vl := if vtWidth vt = vtWidth s.h.r.vtype then s.h.r.vl else min s.h.r.vl vmax
    exec (.settype rd ra) s = .next (s.ranOn (({ s.h.r with vtype := vt, vl := vl } : Regs).writeS rd (BitVec.ofNat 64 vmax))) ∧
    exec (.slip n) s = .next (s.ranOn { s.h.r with slip := n }) ∧ exec .vsync s = .next (s.ranOn s.h.r) ∧
    exec (.vtest cd k 0) s = .next (s.ranOn (s.h.r.writeC cd (decide (∃ i < s.vl, nbit (s.readKN k) i = true)))) ∧
    exec (.vtest cd k 1) s = .next (s.ranOn (s.h.r.writeC cd (decide (∀ i < s.vl, nbit (s.readKN k) i = true)))) ∧
    exec (.vtest cd k 2) s = .next (s.ranOn (s.h.r.writeC cd (decide (∀ i < s.vl, nbit (s.readKN k) i = false)))) ∧
    exec (.vget rd 0) s = .next (s.ranOn (s.h.r.writeS rd (s.h.r.osmax.setWidth 64))) ∧
    exec (.vget rd 1) s = .next (s.ranOn (s.h.r.writeS rd (s.h.r.ossum.setWidth 64))) ∧
    exec (.vget rd 2) s = .next (s.ranOn (s.h.r.writeS rd (s.h.r.oscale.setWidth 64))))

/-- Stream bindings (R179, R180): `sbind` reads its record as a load reads and binds the register at position 0, or traps ILLEGAL
with the address where the record is not one the table allows; `sdrop` removes the binding; `spos` reads the position, 0 for an
unbound register; `spos.w` sets it and is ignored for an unbound one. Own writes on their way to the record arrive first (log
entry 37), and only the fields that Table ctrl.4 prints as reserved are held to be zero (log entry 42). STREAM_READ (R181): ahead
of the word that reads it, in the oldest block of the queues (R204), the next slice of a bound register is read; each element of the
slice is the value at its address, some of them possibly performed before other loads (R231; when is the model's choice, log entry 57),
and the word then takes it and advances the position. -/
def Obligations.Streams : Prop :=
  (∀ (s : State) (rd ra rb : BitVec 5) (x : Xlat) (d : Nat),
    let va := s.h.r.readS ra
    let u := ((s.accessed 0 va.toNat 64).dropEarly x.loc 64).settle s.h.id x.loc 64
    let b : Binding := { record := BitVec.ofNat 512 d, addr := va, pos := 0, slice := 0 }
    (va.toNat % 64 = 0 → s.translate s.h va .read = .ok x → u.loadBytes u.h x.loc 64 = .ok d →
      (b.recordOk = true → exec (.sbind rd ra) s =
        .next (((u.fill u.h.reader x.loc).fill u.h.reader (x.loc + 32)).ranOn (s.h.r.setBind rd (some b)))) ∧
      (b.recordOk = false → exec (.sbind rd ra) s = .next (u.splitTrap (trapOf causeIllegal va)))) ∧
    (va.toNat % 64 ≠ 0 → exec (.sbind rd ra) s = .next (s.abortTrap (trapOf causeMisalign va))) ∧
    exec (.sdrop ra) s = .next (s.ranOn (s.h.r.setBind ra none)) ∧
    (s.h.r.bind ra = none → exec (.spos rd ra) s = .next (s.ranOn (s.h.r.writeS rd 0)) ∧ exec (.sposW ra rb) s = .next (s.ranOn s.h.r)) ∧
    (∀ c, s.h.r.bind ra = some c → exec (.spos rd ra) s = .next (s.ranOn (s.h.r.writeS rd c.pos)) ∧
      exec (.sposW ra rb) s = .next (s.ranOn (s.h.r.setBind ra (some { c with pos := s.h.r.readS rb }))))) ∧
  (∀ (s : State) (r : BitVec 5) (b : Block) (i : Instr) (c : Binding) (els : List Nat) (v : Nat) (ts : List Touch),
    let o := s.enterOldest
    s.Slots → o.h.blk = some b → b.next = .ok i → (o.streamReads i).find? (fun x => x.1 == r) = some (r, els) →
    s.h.r.bind r = some c → s.h.slices = [] → o.slice (some (o.selectedAt i)) c els = .ok (v, ts) →
    let t := (o.touchAll ts).modH (fun h => { h with slices := [(r, v)] })
    exec (.streamRead r) s = .next (t.leaveOldest s.h) ∧ t.h.slices = [(r, v)] ∧ t.h.r = s.h.r ∧ t.h.pc = s.h.pc ∧ t.h.blk = some b ∧
      t.src i r = v ∧ t.h.advance.r.bind r = some { c with pos := c.pos + 1, slice := c.pos } ∧
    (s.h.queue = [] → o = s ∧ t.leaveOldest s.h = t) ∧ (∀ q rest, s.h.queue = q :: rest → b = q) ∧ (c.ended = true → v = 0))

/-- `vfetch` (R76, R176): an aligned block whose words pass predecoding is fetched and snapshot, and its words run next, once
where rd is s0 and otherwise as often as rd says; a count of 0 only passes; a count above 65,535 traps ILLEGAL; a misaligned
block, or one of which a word cannot be read, aborts, and a word that predecoding refuses closes the strip (R378). Resumed with a
progress index, the kept copy goes on at the repeat and word that the index names, and a count above 65,535 traps as at a first run. -/
def Obligations.Vfetch : Prop :=
  ∀ (s : State) (rd ra : BitVec 5) (imm : BitVec 15) (ws : List (BitVec 64)) (ts : List Touch),
    let addr := (if ra = 0 then s.h.pc else s.h.r.readS ra) + imm.signExtend 64 * 8
    let n := if rd = 0 then 1 else (s.h.r.readS rd).toNat
    (s.h.eix = 0 → addr.toNat % 8 ≠ 0 → exec (.vfetch rd ra imm) s = .next (s.abortTrap (trapOf causeMisalign addr))) ∧
    (s.h.eix = 0 → addr.toNat % 8 = 0 → 65535 < n →
      exec (.vfetch rd ra imm) s = .next (s.splitTrap (trapOf causeIllegal (BitVec.ofNat 64 n)))) ∧
    (s.h.eix = 0 → addr.toNat % 8 = 0 → n ≤ 65535 → s.predecode addr (s.h.stripctl.getLsbD 0) Block.one [] [] 0 65 = .ok ws ts →
      (n = 0 → exec (.vfetch rd ra imm) s = .next ((s.wordsRead ts).ranOn (s.wordsRead ts).h.r)) ∧
      (n ≠ 0 → ∃ t b, exec (.vfetch rd ra imm) s = .next t ∧ t = (s.wordsRead ts).modH (fun h => { h with blk := some b }) ∧
        b.pc = t.h.pc ∧ b.addr = addr ∧ b.words = ws ∧ b.word = 0 ∧ b.rep = 0 ∧ b.reps = n ∧ b.snapS = t.h.r.s ∧
        b.snapC1 = t.h.r.readC 1 ∧ b.snapVt = t.h.r.vtype)) ∧
    (∀ t, s.h.eix = 0 → addr.toNat % 8 = 0 → n ≤ 65535 →
      (s.predecode addr (s.h.stripctl.getLsbD 0) Block.one [] [] 0 65 = .abort t → exec (.vfetch rd ra imm) s = .next (s.abortTrap t)) ∧
      (s.predecode addr (s.h.stripctl.getLsbD 0) Block.one [] [] 0 65 = .split ts t →
        exec (.vfetch rd ra imm) s = .next ((s.wordsRead ts).splitTrap t))) ∧
    (∀ b : Block, s.h.ckBlk = some b → s.h.eix ≠ 0 → b.pc = s.h.pc →
      let m := if rd = 0 then 1 else (s.h.r.readS rd).toNat
      let rep := s.h.eix.toNat % 2^16
      let word := s.h.eix.toNat / 2^16 % 2^7
      (65535 < m → exec (.vfetch rd ra imm) s = .next (s.splitTrap (trapOf causeIllegal (BitVec.ofNat 64 m)))) ∧
      (m ≤ 65535 → s.h.eix.toNat < 2^23 → rep < m → word + 1 < b.words.length →
      ∃ t c, exec (.vfetch rd ra imm) s = .next t ∧ t = { s with h := { s.h with blk := some c, eix := 0 } } ∧ c.rep = rep ∧
        c.word = word ∧ c.reps = m ∧ c.words = b.words ∧ c.snapS = b.snapS ∧ c.snapC1 = b.snapC1 ∧ c.snapVt = b.snapVt))

/-- Gangs (R178): a `gang` whose partners have not all arrived leaves the hart stalled at its entry; the last arrival forms the
gang, whose leader goes on at PC + 4 with its index 0; `ungang` by the leader, or without a gang, returns the width to 1 and
trims VL; a member's traps ILLEGAL with the instruction word in EVAL (DEDUCED, log entry 33). -/
def Obligations.Gangs : Prop :=
  ∀ (s : State) (g : BitVec 2), s.Quiet →
    let c := s.closed
    let w := 2 ^ g.toNat
    let ids := gangSlots s.h.id w
    let there := (c.gangWaiting ids).filter (fun h => h.gangWait == some w)
    (s.h.gang = none → (∀ h ∈ c.gangWaiting (gangSlots s.h.id 4), h.gangWait = some w) →
      (∀ h ∈ there, h.region = s.h.region ∧ h.cur = s.h.cur) →
      (there.length + 1 ≠ w → exec (.gang g) s = .next (c.stall (.gang w))) ∧
      (there.length + 1 = w → exec (.gang g) s = .next (c.formGang ids w) ∧
        (ids.head? = some s.h.id → (∀ p ∈ ids.zipIdx, p.1 = s.h.id → p.2 = 0) →
          (c.formGang ids w).h.gang = some { width := w, member := 0, ids := ids, started := false } ∧
          (c.formGang ids w).h.pc = s.h.pc + 4 ∧ (c.formGang ids w).h.instret = c.h.instret + 1))) ∧
    (s.h.gang = none → exec .ungang s = .next (c.completed s.h.r)) ∧
    (∀ q, s.h.gang = some q → q.member = 0 →
      ∃ t, exec .ungang s = .next t ∧ t.h.gang = none ∧ t.h.pc = s.h.pc + 4 ∧
        t.h.r = { s.h.r with vl := min s.h.r.vl (16384 / vtWidth s.h.r.vtype) }) ∧
    (∀ q, s.h.gang = some q → q.member ≠ 0 →
      exec .ungang s = .next (c.deliver (trapOf causeIllegal ((encodeScalar .ungang).setWidth 64)) false))

/-! ### Engine commands and turns -/

/-- Matrix commands are issued (R182 to R184, R187): where no register of the operand group breaks a limit and the array takes
another command, the ticket is the next of TLMX, rd receives it, and one command with the captured group waits behind the earlier
ones; memory and the tiles stay. A register that breaks a limit traps ILLEGAL with its index; a pair of formats that the array
does not take is register 6's. `mconst` below supervisor level traps PRIV. The limits of an `mconst` operand are DEDUCED (log
entry 13). -/
def Obligations.MatrixIssue : Prop :=
  ∀ (s : State) (rd ra : BitVec 5) (lv : BitVec 3) (q : BitVec 2) (tile : BitVec 1), s.Quiet →
    let c := s.closed
    let g := fun (n : Nat) => (List.range n).map (fun i => s.h.r.readS (ra + BitVec.ofNat 5 i))
    let n := s.h.issued.get 0 + 1
    let ok := fun (i : Instr) (bad : List Bool) (kind : CmdKind) =>
      (bad.all (fun b => !b) = true → c.mxPending c.myCore < 8 → c.mxAllow = true →
        ∃ t, exec i s = .next t ∧
          t.cmds = c.cmds ++ [{ hart := s.h.id, tl := .mx, ticket := n, kind := kind, vtype := s.h.r.vtype, seq := c.clock,
                                region := s.h.region, cur := s.h.cur, strict := s.h.strict, orphan := false, done := 0, flags := 0
                                reads := [], writes := [], out := [], fwd := [] }] ∧
          t = (({ c with cmds := t.cmds } : State).modH (fun h =>
            { h with issued := h.issued.set 0 n, tiles := h.tiles ||| (if tile = 0 then 1 else 2) })).completed (s.h.r.writeS rd n)) ∧
      (∀ j, bad.findIdx? id = some j → exec i s = .next (c.deliver (trapOf causeIllegal (BitVec.ofNat 64 j)) false)) ∧
      (bad.all (fun b => !b) = true → (8 ≤ c.mxPending c.myCore ∨ c.mxAllow = false) → exec i s = .next (c.stall .retry))
    ok (.mma rd ra tile) (mmaBad (g 7) false) (.mma (g 7) tile) ∧ ok (.mslide rd ra tile) (mmaBad (g 7) true) (.mslide (g 7) tile) ∧
    ok (.mzero rd tile) [] (.mzero tile) ∧ ok (.mfill rd ra tile) (fillBad (g 3) false) (.mfill (g 3) tile) ∧
    ok (.mdrain rd ra lv tile) (fillBad (g 3) true) (.mdrain (g 3) tile lv.toNat) ∧
    (s.h.cur ≠ 0 → ok (.mconst rd ra q tile) (constBad (g 5)) (.mconst q (g 5) tile)) ∧
    (s.h.cur = 0 → exec (.mconst rd ra q tile) s =
      .next (s.splitTrap (trapOf causePriv ((encodeScalar (.mconst rd ra q tile)).setWidth 64))))

/-- Copies and asynchronous turns are issued (R185 to R187, R190): the ticket is the next of TLDM or TLTN and rd receives it;
`dmov.mx` takes a TLDM and a TLMX ticket, and its product waits for the copy; an asynchronous turn is handed the sectors of its
range that have a mapping, or those of the write set whose addresses still have one, and the write set begins afresh. -/
def Obligations.CopyAndTurnIssue : Prop :=
  ∀ (s : State) (rd ra rb : BitVec 5) (lv : BitVec 3), s.Quiet →
    let c := s.closed
    let g := fun (n : Nat) => (List.range n).map (fun i => s.h.r.readS (ra + BitVec.ofNat 5 i))
    let cmd := fun (tl : Timeline) (n : Word) (kind : CmdKind) =>
      ({ hart := s.h.id, tl := tl, ticket := n, kind := kind, vtype := s.h.r.vtype, seq := c.clock, region := s.h.region,
         cur := s.h.cur, strict := s.h.strict, orphan := false, done := 0, flags := 0, reads := [], writes := [], out := [], fwd := [] } : Cmd)
    let m := s.h.issued.get 0 + 1
    let d := s.h.issued.get 1 + 1
    let n := s.h.issued.get 2 + 1
    let put := fun (u : State) (cs : List Cmd) (f : Vector Word 4 → Vector Word 4) =>
      ({ u with cmds := u.cmds ++ cs } : State).modH (fun h => { h with issued := f h.issued })
    ((copyBad (g 4) false).all (fun b => !b) = true → exec (.dmov rd ra lv) s =
      .next ((put c [cmd .dm d (.dmov (g 4) lv.toNat)] (fun v => v.set 1 d)).completed (s.h.r.writeS rd d))) ∧
    ((copyBad (g 5) true).all (fun b => !b) = true → exec (.dconv rd ra lv) s =
      .next ((put c [cmd .dm d (.dconv (g 5) lv.toNat)] (fun v => v.set 1 d)).completed (s.h.r.writeS rd d))) ∧
    (let tile := (opnd (g 11) 10).extractLsb' 8 1
     (copyMxBad (g 11)).all (fun b => !b) = true → c.mxPending c.myCore < 8 → c.mxAllow = true →
      exec (.dmovMx rd ra lv) s = .next (((put c [cmd .dm d (.dmov ((g 11).take 4) lv.toNat), cmd .mx m (.follow ((g 11).drop 4) tile false)]
        (fun v => (v.set 1 d).set 0 m)).modH (fun h => { h with tiles := h.tiles ||| (if tile = 0 then 1 else 2) })).completed
          (s.h.r.writeS rd m))) ∧
    (let secs := c.mappedSectors (s.h.r.readS ra).toNat (s.h.r.readS rb).toNat
     let u := c.groutFirst (fun sec => secs.contains sec)
     exec (.turnA rd ra rb lv) s = .next ((put u [cmd .tn n (.turn secs lv.toNat)] (fun v => v.set 2 n)).completed (s.h.r.writeS rd n))) ∧
    (let u := c.groutFirst (fun _ => true)
     exec (.turnAAll rd lv) s =
      .next ((put u.clearWriteSets [cmd .tn n (.turn (u.writeSets.filter u.stillMapped) lv.toNat)] (fun v => v.set 2 n)).completed (s.h.r.writeS rd n)))

/-- Synchronous turns (R13, R190): one sector a step, PC and registers standing while sectors remain, with the progress index
and TURNPROG counting them; after the last the instruction is done, TURNPROG is 0, and no later load counts as performed before it
(R231). An empty range or write set is done at once; a sector whose address has a mapping no more is skipped. What turning one
sector leaves (R190, R213, R219): the hart's writes to it have arrived; a sector that was pending or turned to a lower level is
turned to this one, under the same POS and OWNER (that a lower level is raised is DEDUCED, log entry 10); no inbound copy of it is
left in the level's scope; and `tstate` then reads that state. -/
def Obligations.SynchronousTurns : Prop :=
  (∀ (s : State) (ra rb : BitVec 5) (lv : BitVec 3), s.Quiet →
    let c := s.closed
    let a := (s.h.r.readS ra).toNat
    let n := (s.h.r.readS rb).toNat
    let total := if n = 0 then 0 else (a + n - 1) / 32 - a / 32 + 1
    let i := s.h.eix.toNat
    let finish := fun (v : State) (r : Regs) => ({ v.ordered with h := { v.ordered.h with turnprog := 0 } } : State).completed r
    let go := fun (u v : State) (total bytes : Nat) =>
      if i + 1 = total then finish v u.h.r
      else { u with h := { u.h with eix := BitVec.ofNat 64 (i + 1), turnprog := BitVec.ofNat 64 bytes, wait := .none } }
    (total = 0 → i = 0 → exec (.turn ra rb lv) s = .next (finish c s.h.r)) ∧
    (let u := c.groutFirst (fun sec => (c.mappedSectors a n).contains sec)
     i < total → (∀ sec, u.rangeSector a i = .ok sec →
        exec (.turn ra rb lv) s = .next (go (u.turnOne lv.toNat sec) (u.turnOne lv.toNat sec) total (min n ((a / 32 + i + 1) * 32 - a)))) ∧
      (∀ f, u.rangeSector a i = .error f →
        exec (.turn ra rb lv) s = .next (go u u total (min n ((a / 32 + i + 1) * 32 - a))))) ∧
    (let u := c.groutFirst (fun _ => true)
     (u.writeSets = [] → i = 0 → exec (.turnAll lv) s = .next (finish u.clearWriteSets s.h.r)) ∧
      (∀ sec, u.writeSets[i]? = some sec → i ≤ s.writeSets.length →
        exec (.turnAll lv) s = .next (go (u.turnMine lv.toNat sec) (u.turnMine lv.toNat sec).clearWriteSets u.writeSets.length
          (32 * (i + 1)))))) ∧
  (∀ (s : State) (lv sec : Nat), s.Canonical → lv ≤ 5 →
    let d := s.drainSector sec
    let t := s.turnOne lv sec
    (∀ o ∈ t.flight, ∀ i ∈ s.h.gangIds, o.src.hart = some i → ∀ b ∈ o.bytes, sectorOf b.1 ≠ sec) ∧
    (entryState (d.entry sec) = 6 ∨ entryState (d.entry sec) < lv → entryState (t.entry sec) = lv) ∧
    (entryState (d.entry sec) ≠ 6 → lv ≤ entryState (d.entry sec) → t.entry sec = d.entry sec) ∧
    entryPos (t.entry sec) = entryPos (d.entry sec) ∧ entryOwner (t.entry sec) = entryOwner (d.entry sec) ∧
    (∀ c, c ≠ sec → t.entry c = d.entry c) ∧ t.mem = d.mem ∧ t.h = s.h ∧
    (∀ x ∈ t.copies, x.sector = sec → inScope lv s.myCore x.place = false) ∧
    (s.stillMapped sec = true → s.turnMine lv sec = t) ∧ (s.stillMapped sec = false → s.turnMine lv sec = s))

/-- `tstate` reads a sector's STATE at its home whatever it is, and never traps UNTURNED (R191): where an entry that its translation reads
is not turned far enough, it goes by what the entries' homes hold (DEDUCED, log entry 92). It traps PROT where a load does, on a
poisoned sector (R349); own writes on their way to the byte arrive first (log entry 37). `tread` reads a timeline counter; `twait` on a ticket
that has been reached sets c1, on one not issued clears it, and on any other parks, and a report that an engine left is taken
first (R188, R189). -/
def Obligations.Waiting : Prop :=
  ∀ (s : State) (rd ra : BitVec 5) (q : BitVec 2) (x : Xlat),
    let va := s.h.r.readS ra
    let u := s.settle s.h.id x.loc 1
    let k := (timelineOf q).idx
    let n := va.toNat
    (s.translate s.h va .read = .ok x → s.translateHome va = .ok x) ∧ (∀ f, s.translateHome va = .error f → f.1 ≠ causeUnturned) ∧
    (s.translateHome va = .ok x → u.poisoned (sectorOf x.loc) = false → exec (.tstate rd ra) s =
      .next (u.ranOn (s.h.r.writeS rd (BitVec.ofNat 64 (entryState (u.entry (sectorOf x.loc))))))) ∧
    (s.translateHome va = .ok x → u.poisoned (sectorOf x.loc) = true → exec (.tstate rd ra) s =
      .next (u.abortTrap (trapOf causeProt va))) ∧
    (∀ f, s.translateHome va = .error f → (f.1 = causeProt → f.2 = []) →
      exec (.tstate rd ra) s = .next (s.abortTrap { code := f.1, val := va, missing := f.2 })) ∧
    (∀ m ms, s.translateHome va = .error (causeProt, m :: ms) →
      exec (.tstate rd ra) s = .next (s.abortTrap (trapOf causeProt m.entry))) ∧
    exec (.tread rd q) s = .next (s.ranOn (s.h.r.writeS rd (s.h.tl.get k))) ∧
    (s.h.reports = [] →
      ((s.h.issued.get k).toNat < n → exec (.twait ra q) s = .next (s.ranOn (s.h.r.writeC 1 false))) ∧
      (n ≤ (s.h.issued.get k).toNat → n ≤ (s.h.tl.get k).toNat →
        exec (.twait ra q) s = .next (s.ordered.ranOn (s.ordered.h.r.writeC 1 true))) ∧
      (n ≤ (s.h.issued.get k).toNat → (s.h.tl.get k).toNat < n →
        exec (.twait ra q) s = .next (s.parkOn (.ticket (timelineOf q) va)))) ∧
    (∀ j c a rest, s.Quiet → s.h.reports = (j, c, a) :: rest →
      exec (.twait ra q) s = .next (({ s.commitSplit with h := { s.commitSplit.h with reports := rest } } : State).deliver (trapOf c a) false))

/-- ENGINE_COMMAND_COMPLETE (R184, R187, R188): a command acts as a whole when it completes (the model's choice, log entry 36),
from its progress on. Until it may complete nothing happens, nor while a write of its hart waits at a home (R287); where nothing
stops it, or a fault that it reports does, it leaves its unit's queue with what it has done; a missing page is asked for and a
lost path waited for, and it stays with its progress. What the commands leave: `mzero` makes every element of its tile +0; `mfill`
reads FP32 rows; `mma`, `mslide`, the product of a `dmov.mx` and `mconst` accumulate chunk by chunk (R51, R182, R183; a
permutation place at or beyond K adds nothing, log entry 13); `mdrain`, `dmov` and `dconv` write row by row (R183, R185), where no
home holds a record for which the write must wait (R287); a queued `turn.a` drains, invalidates and marks its sectors, and no
write that its hart made later (R190). Behind a completion the tile, the flags, the report and the counter stand, and what was
written is turned to the command's level, also what was turned to a lower one before (log entry 10). DMOV_MX_FOLLOW_ON hands the
product over once no copy of its core stands before it (R186, R256); where its own copy stopped on a report there is no product to hand
over (log entry 60). -/
def Obligations.EngineCompletion : Prop :=
  (∀ (s : State) (k : Nat) (c : Cmd), s.cmds[k]? = some c →
    ((s.mayComplete k c = true → s.writesHeld c.hart = false → (s.runCmd c).stop = none →
      exec (.engineCommandComplete k) s = .next (s.finishCmd k c (s.runCmd c))) ∧
     (s.mayComplete k c = false ∨ s.writesHeld c.hart = true → exec (.engineCommandComplete k) s = .next s)) ∧
    (∀ t, s.mayComplete k c = true → s.writesHeld c.hart = false → (s.runCmd c).stop = some t →
      (t.code ≠ causePage → t.code ≠ waitNoPath → exec (.engineCommandComplete k) s = .next (s.finishCmd k c (s.runCmd c))) ∧
      (t.code = causePage → exec (.engineCommandComplete k) s =
        .next (t.missing.foldl (fun u m => u.askFetch [] c.region m) (s.keepProgress k c (s.runCmd c)))) ∧
      (t.code = waitNoPath → exec (.engineCommandComplete k) s = .next (s.keepProgress k c (s.runCmd c))) ∧
      (s.keepProgress k c (s.runCmd c)).cmds = s.cmds.set k { c with
        done := (s.runCmd c).done, flags := (s.runCmd c).flags, reads := (s.runCmd c).reads, writes := (s.runCmd c).writes
        out := (s.runCmd c).out }) ∧
    (∀ tile, c.kind = .mzero tile → c.hart = s.h.id → c.orphan = false → s.h.st = .running → s.h.wait = .none → c.flags = 0 →
      s.mayComplete k c = true → s.writesHeld c.hart = false →
      ∃ t, exec (.engineCommandComplete k) s = .next t ∧ (∀ i j, accAt ((t.core (coreOf c.hart)).tile tile) i j = 0) ∧
        (t.core (coreOf c.hart)).tile (1 - tile) = (s.core (coreOf c.hart)).tile (1 - tile) ∧ t.cmds = s.cmds.eraseIdx k ∧
        t.mem = s.mem ∧ t.h.r = s.h.r ∧ t.h.pc = s.h.pc ∧ t.h.tl.get c.tl.idx = t.counter t.h c.tl) ∧
    (∀ g tile, c.kind = .follow g tile false →
      (s.cmds.take k).any (fun x => coreOf x.hart == coreOf c.hart && x.tl == .dm) = false →
      exec (.dmovMxFollowOn k) s = .next { s with cmds := s.cmds.set k { c with kind := .follow g tile true } }) ∧
    (∀ r : EngRun, r.s.h.id = c.hart → r.s.h.st = .running → r.s.h.wait = .none → c.orphan = false → r.s.Canonical →
      let t := s.finishCmd k c r
      (∀ tile, c.kind.tile = some tile → (t.core (coreOf c.hart)).tile tile = r.tile ∧
        (t.core (coreOf c.hart)).tile (1 - tile) = (r.s.core (coreOf c.hart)).tile (1 - tile)) ∧
      (∀ w ∈ r.writes, entryState (t.entry w.1) ≠ 6 ∧ (c.kind.level ≤ 5 → c.kind.level ≤ entryState (t.entry w.1))) ∧
      t.mem = r.s.mem ∧ t.h.pc = r.s.h.pc ∧ t.h.tl.get c.tl.idx = t.counter t.h c.tl ∧
      t.h.r = { r.s.h.r with fflags := r.s.h.r.fflags ||| r.flags.setWidth 13 } ∧
      (r.stop = none → t.h.reports = r.s.h.reports) ∧
      (∀ x, r.stop = some x → (c.seq, x.code, x.val) ∈ t.h.reports) ∧
      (∀ g lv x, c.kind = .dmov g lv → r.stop = some x → ∀ f ∈ t.cmds, f.hart = c.hart → f.seq = c.seq → ∀ q tile b,
        f.kind ≠ .follow q tile b))) ∧
  (∀ (s : State) (c : Cmd) (g : List Word) (tile : BitVec 1), c.done = 0 →
    let h := c.asHart
    let run := s.runCmd c
    let before := (s.core (coreOf c.hart)).tile tile
    let field := fun (i lo len : Nat) => (g.getD i 0).toNat / 2^lo % 2^len
    let at_ := fun (x : Word) (o : Int) => x + BitVec.ofInt 64 o
    canonical 0 before = true →
    (c.kind = .mfill g tile →
      let n := field 2 32 9
      let m := field 2 16 8
      n ≤ 256 → ∀ x : Nat → Nat → Nat × List Nat,
      (∀ i < m, ∀ j < n, s.engElt h (g.getD 0 0 + BitVec.ofNat 64 i * g.getD 1 0 + BitVec.ofNat 64 (4 * j)) 4 = .ok (x i j)) →
      run.stop = none ∧ run.s = s ∧ run.done = m ∧ run.flags = c.flags ∧ ∀ i, ∀ j < 256,
        accAt run.tile i j = if i < m ∧ j < n then (x i j).1 % 2^32 else accAt before i j) ∧
    (∀ slide, (slide = false ∧ (c.kind = .mma g tile ∨ ∃ b, c.kind = .follow g tile b)) ∨ (slide = true ∧ c.kind = .mslide g tile) →
      let bf := decide (field 6 2 2 = 2)
      let e : Nat := if bf then 2 else 1
      let k := field 3 32 32
      let n := field 3 16 9
      let m := field 3 0 8
      let cs := (k + 127) / 128
      let str := fun (lo : Nat) => (BitVec.ofNat 32 (field 2 lo 32)).toInt
      let fmt := fun (lo : Nat) => match field 6 lo 2 with
        | 0 => Fmt.e4m3
        | 1 => Fmt.e5m2
        | _ => Fmt.bf16
      n ≤ 256 → ∀ (a b : Nat → Nat → Nat × List Nat) (sa sb : Nat → Nat → Nat × List Nat),
      (∀ i < m, ∀ x < k, s.engElt h (if slide then at_ (g.getD 0 0) ((i + x) * e : Nat) else at_ (g.getD 0 0) (str 0 * i + (x * e : Nat))) e =
        .ok (a i x)) →
      (∀ j < n, ∀ x < k, s.engElt h (at_ (g.getD 1 0) (str 32 * j + (x * e : Nat))) e = .ok (b j x)) →
      (∀ i < m, ∀ q < cs, if bf ∨ slide ∨ g.getD 4 0 = 0 then (sa i q).1 = 0x3F800000
        else s.engElt h (at_ (g.getD 4 0) (4 * (i * cs + q))) 4 = .ok (sa i q)) →
      (∀ j < n, ∀ q < cs, if bf ∨ g.getD 5 0 = 0 then (sb j q).1 = 0x3F800000
        else s.engElt h (at_ (g.getD 5 0) (4 * ((if field 6 4 1 = 1 then j / 128 else j) * cs + q))) 4 = .ok (sb j q)) →
      run.stop = none ∧ run.s = s ∧ run.done = cs ∧ ∀ i, ∀ j < 256, accAt run.tile i j =
        if i < m ∧ j < n then (List.range cs).foldl (fun acc q => (chunkStep acc (sa i q).1 (sb j q).1
          ((List.range (min 128 (k - 128 * q))).map (fun x =>
            (FVal.ofBits (fmt 0) (a i (128 * q + x)).1, FVal.ofBits (fmt 2) (b j (128 * q + x)).1)))).1) (accAt before i j)
        else accAt before i j) ∧
    (∀ kind, c.kind = .mconst kind g tile →
      let k := field 2 32 32
      let n := field 2 16 9
      let m := field 2 0 8
      let f := match field 4 0 2 with
        | 0 => Fmt.e4m3
        | 1 => Fmt.e5m2
        | _ => Fmt.bf16
      let e := f.width / 8
      let add := fun (acc : Nat) (vs : List Nat) => (chunkStep acc 0x3F800000 0x3F800000 (vs.map (fun v =>
        ((.fin false 1 0 : FVal), FVal.ofBits f v)))).1
      n ≤ 256 → ∀ (x : Nat → Nat → Nat × List Nat) (p : Nat → Nat × List Nat),
      (∀ j < n, ∀ q < k, s.engElt h (g.getD 0 0 + BitVec.ofNat 64 j * g.getD 1 0 + BitVec.ofNat 64 (q * e)) e = .ok (x j q)) →
      (kind = 0 → run.stop = none ∧ run.s = s ∧ ∀ i, ∀ j < 256, accAt run.tile i j =
        if i < min k m ∧ j < n then add (accAt before i j) [(x j i).1] else accAt before i j) ∧
      (kind = 1 → (∀ i < m, s.engElt h (g.getD 3 0 + BitVec.ofNat 64 i) 1 = .ok (p i)) →
        run.stop = none ∧ run.s = s ∧ ∀ i, ∀ j < 256, accAt run.tile i j =
          if i < m ∧ j < n then add (accAt before i j) (if (p i).1 < k then [(x j (p i).1).1] else []) else accAt before i j) ∧
      (kind = 2 → run.stop = none ∧ run.s = s ∧ ∀ i, ∀ j < 256, accAt run.tile i j =
        if i = 0 ∧ j < n then (List.range ((k + 127) / 128)).foldl (fun acc q =>
          add acc ((List.range (min 128 (k - 128 * q))).map (fun y => (x j (128 * q + y)).1))) (accAt before i j)
        else accAt before i j))) ∧
  (∀ (s : State) (c : Cmd) (g : List Word) (tile : BitVec 1) (lv : Nat),
    let h := c.asHart
    let field := fun (i lo len : Nat) => (g.getD i 0).toNat / 2^lo % 2^len
    let t0 := fun (l : List (Nat × BitVec 32)) => ({ s := s, tile := l, flags := c.flags, reads := c.reads, writes := c.writes
                                                     out := c.out, done := c.done, stop := none } : EngRun)
    (c.kind = .dmov g lv → s.runCmd c = (t0 []).going (EngRun.copyRow h g) (field 2 32 32)) ∧
    (c.kind = .dconv g lv → s.runCmd c = (t0 []).going (EngRun.convRow h g c.vtype) (field 2 32 32)) ∧
    (c.kind = .mdrain g tile lv → s.runCmd c = (t0 ((s.core (coreOf c.hart)).tile tile)).going (EngRun.drainRow h g) (field 2 16 8)) ∧
    (∀ (r : EngRun) (f : EngRun → Nat → EngRun) (total : Nat),
      (total ≤ r.done → r.going f total = r) ∧
      (r.done < total → r.stop = none → (f r r.done).stop ≠ none → r.going f total = f r r.done) ∧
      (r.done < total → r.stop = none → (f r r.done).stop = none →
        r.going f total = { f r r.done with done := r.done + 1 }.going f total)) ∧
    (∀ (r : EngRun) (i : Nat) (loc : Nat → Nat → Nat), r.s.Canonical → (∀ o, r.s.heldUp o = false) →
      let left := fun (t : EngRun) (n e : Nat) (v : Nat → Nat) =>
        t.stop = r.stop ∧ t.tile = r.tile ∧
        (∀ j < n, ∀ b < e, t.s.homeByte (loc j b) = BitVec.ofNat 8 (v j / 256^b) ∧ sectorOf (loc j b) ∈ t.writes.map Prod.fst ∧
          entryState (t.s.entry (sectorOf (loc j b))) = 6) ∧
        (∀ l, (∀ j < n, ∀ b < e, loc j b ≠ l) → t.s.homeByte l = r.s.homeByte l)
      let apart := fun (n e : Nat) => ∀ j < n, ∀ b < e, ∀ j' < n, ∀ b' < e, loc j b = loc j' b' → j = j' ∧ b = b'
      let row := fun (x : Word) (lo : Nat) => x + BitVec.ofInt 64 ((BitVec.ofNat 32 (field 3 lo 32)).toInt * i)
      let dest := fun (x : Word) (n e : Nat) => ∀ j < n, (x + BitVec.ofNat 64 (j * e)).toNat % e = 0 ∧ ∀ b < e, ∃ y,
        r.s.translate h (x + BitVec.ofNat 64 (j * e) + BitVec.ofNat 64 b) .write = .ok y ∧ y.loc = loc j b
      (∀ (bs : List Byte) (secs : List Nat),
        r.s.engBytes h (row (g.getD 0 0) 0) (field 2 0 32) 1 = .ok (bs, secs) → dest (row (g.getD 1 0) 32) (field 2 0 32) 1 →
        apart (field 2 0 32) 1 →
        left (EngRun.copyRow h g r i) (field 2 0 32) 1 (fun j => (bs.getD j 0).toNat) ∧ (EngRun.copyRow h g r i).flags = r.flags) ∧
      (let src := etypeOf (field 4 4 4)
       let dst := etypeOf (field 4 0 4)
       let rm := vtRm c.vtype
       ∀ x : Nat → Nat × List Nat,
        (∀ j < field 2 0 32, r.s.engElt h (row (g.getD 0 0) 0 + BitVec.ofNat 64 (j * (src.width / 8))) (src.width / 8) = .ok (x j)) →
        dest (row (g.getD 1 0) 32) (field 2 0 32) (dst.width / 8) → apart (field 2 0 32) (dst.width / 8) →
        left (EngRun.convRow h g c.vtype r i) (field 2 0 32) (dst.width / 8) (fun j => (convert src dst rm (x j).1).1) ∧
        (EngRun.convRow h g c.vtype r i).flags =
          ((List.range (field 2 0 32)).foldr (fun j fl => (convert src dst rm (x j).1).2 ||| fl) r.flags)) ∧
      (let dst := etypeOf (field 2 0 4)
       let v := fun (j : Nat) => convert (.flt Fmt.f32) dst .rtz (accAt r.tile i j)
       dest (g.getD 0 0 + BitVec.ofNat 64 i * g.getD 1 0) (field 2 32 9) (dst.width / 8) → apart (field 2 32 9) (dst.width / 8) →
        left (EngRun.drainRow h g r i) (field 2 32 9) (dst.width / 8) (fun j => (v j).1) ∧
        (EngRun.drainRow h g r i).flags = (List.range (field 2 32 9)).foldr (fun j fl => (v j).2 ||| fl) r.flags)) ∧
    (∀ secs, c.kind = .turn secs lv → (s.runCmd c).stop = none ∧ (s.runCmd c).s = secs.foldl (fun u sec => u.trowel c lv sec) s) ∧
    (∀ (u : State) (sec : Nat), u.Canonical → lv ≤ 5 →
      let t := u.trowel c lv sec
      (∀ o, o ∈ t.flight ↔ o ∈ u.flight ∧ ¬(o.src.hart = some c.hart ∧ o.sent ≤ c.seq ∧ ∃ b ∈ o.bytes, sectorOf b.1 = sec)) ∧
      entryState (t.entry sec) ≠ 6 ∧ lv ≤ entryState (t.entry sec) ∧ t.h = u.h ∧
      (∀ x ∈ t.copies, x.sector = sec → inScope lv (coreOf c.hart) x.place = false))) ∧
  (∀ ps : List (FVal × FVal),
    ((∀ p ∈ ps, (∃ n m e, p.1 = .fin n m e) ∧ ∃ n m e, p.2 = .fin n m e) →
      (∃ n m e, (chunkSum ps).1 = .fin n m e) ∧ (chunkSum ps).2 = 0 ∧
        (chunkSum ps).1.rat = (ps.map (fun p => p.1.rat * p.2.rat)).foldr (fun x y => x + y) 0) ∧
    ((∃ p ∈ ps, p.1.isNan = true ∨ p.2.isNan = true) → (chunkSum ps).1 = .nan false) ∧
    ((∃ p ∈ ps, ((∃ n, p.1 = .inf n) ∧ p.2.isZero = true) ∨ (p.1.isZero = true ∧ ∃ n, p.2 = .inf n)) →
      (chunkSum ps).1 = .nan false ∧ (chunkSum ps).2 &&& flagNV = flagNV) ∧
    ((∃ p ∈ ps, (fprod p.1 p.2).1 = .inf false) → (∃ p ∈ ps, (fprod p.1 p.2).1 = .inf true) →
      (chunkSum ps).1 = .nan false ∧ (chunkSum ps).2 &&& flagNV = flagNV) ∧
    (∀ n, (∃ p ∈ ps, (fprod p.1 p.2).1 = .inf n) → (∀ p ∈ ps, (fprod p.1 p.2).1.isNan = false ∧ (fprod p.1 p.2).1 ≠ .inf (!n)) →
      (chunkSum ps).1 = .inf n) ∧
    (∀ acc sa sb, ∃ t1 t2 t3 : Rounded,
      t1 = rne32 (fprod (chunkSum ps).1 (FVal.ofBits Fmt.f32 sa)).1 ∧
      t2 = rne32 (fprod (FVal.ofBits Fmt.f32 t1.1) (FVal.ofBits Fmt.f32 sb)).1 ∧
      t3 = rne32 (fsum .rne (FVal.ofBits Fmt.f32 acc) (FVal.ofBits Fmt.f32 t2.1)).1 ∧ (chunkStep acc sa sb ps).1 = t3.1))

/-! ### Sessions -/

/-- Cursors and I/O pages (R192, R316): `curset` and `frameq` read the record's field, into which the hart's own writes on their
way to the record have arrived first (log entry 37); `curset.w` writes one cursor where F ≤ P ≤ G still holds after it and sets
c1, and changes nothing and clears c1 where it would not or the value is no 48-bit position (log entry 38); `frameq.w` writes the
page pointer. A session outside the hart's regions traps PROT with the ID, user level PRIV, in all four forms; the forms that
write trap behind their split. A session record written back reads as it was meant (Table session.1): a cursor or a page pointer
takes the new value, and every other field of it stays; the bytes outside the record's 64 stay too. -/
def Obligations.SessionCursors : Prop :=
  (∀ (s : State) (rd ra rb : BitVec 5) (q : BitVec 2),
    let id := s.h.r.readS ra
    let u := s.settle s.h.id (s.sessLoc id.toNat) 64
    let c := s.closed
    let v := (s.h.r.readS rb).toNat
    let y := (c.sess id.toNat).setCursor q v
    (s.h.cur ≠ 0 → s.sessOk id = true →
      exec (.curset rd ra q) s = .next (u.ranOn (s.h.r.writeS rd (BitVec.ofNat 64 ((u.sess id.toNat).cursor q)))) ∧
      exec (.frameq rd ra) s = .next (u.ranOn (s.h.r.writeS rd (BitVec.ofNat 64 (u.sess id.toNat).fq)))) ∧
    (s.h.cur ≠ 0 → s.sessOk id = false → exec (.curset rd ra q) s = .next (s.abortTrap (trapOf causeProt id)) ∧
      exec (.frameq rd ra) s = .next (s.abortTrap (trapOf causeProt id))) ∧
    (s.Quiet → s.h.cur ≠ 0 → c.sessOk id = false → exec (.cursetW ra rb q) s = .next (c.deliver (trapOf causeProt id) false) ∧
      exec (.frameqW ra rb) s = .next (c.deliver (trapOf causeProt id) false)) ∧
    (s.Quiet → s.h.cur ≠ 0 → c.sessOk id = true →
      (y.f ≤ y.p ∧ y.p ≤ y.g ∧ v < 2^48 → exec (.cursetW ra rb q) s = .next ((c.putSess y).completed (s.h.r.writeC 1 true))) ∧
      (¬(y.f ≤ y.p ∧ y.p ≤ y.g ∧ v < 2^48) → exec (.cursetW ra rb q) s = .next (c.completed (s.h.r.writeC 1 false))) ∧
      exec (.frameqW ra rb) s = .next ((c.putSess { c.sess id.toNat with fq := v }).completed s.h.r)) ∧
    (s.h.cur = 0 → exec (.curset rd ra q) s = .next (s.splitTrap (trapOf causePriv ((encodeScalar (.curset rd ra q)).setWidth 64))) ∧
      exec (.cursetW ra rb q) s = .next (s.splitTrap (trapOf causePriv ((encodeScalar (.cursetW ra rb q)).setWidth 64))) ∧
      exec (.frameq rd ra) s = .next (s.splitTrap (trapOf causePriv ((encodeScalar (.frameq rd ra)).setWidth 64))) ∧
      exec (.frameqW ra rb) s = .next (s.splitTrap (trapOf causePriv ((encodeScalar (.frameqW ra rb)).setWidth 64))))) ∧
  (∀ (s : State) (id v : Nat) (q : BitVec 2), s.Canonical →
    let x := s.sess id
    (v < 2^48 → (s.putSess (x.setCursor q v)).sess id = x.setCursor q v) ∧
    (v < 2^64 → (s.putSess { x with fq := v }).sess id = { x with fq := v }) ∧
    (∀ y : Sess, y.id = id → ∀ l, (l < s.sessLoc id ∨ s.sessLoc id + 64 ≤ l) → (s.putSess y).homeByte l = s.homeByte l))

/-- `kvtrunc` (R192, R325) one block a step: each block from the cut up to G is freed and counted; after the last the tile
behind the cut is zeroed, the record cut, later samples revoked, and rd takes the count with c1 set. A position at or beyond G,
or below F, cuts nothing. `stepbuild` (R192, R322): a build begins only where no other hart's is under way, the pages of its manifest can be
written (R323) and no block that it will free or zero is away; it raises STEPNO by 1. Then it takes one posted frame a turn; while a late
frame's record still waits it stands (R287). With no frame left it schedules, writes the number of entries, and is done. That a build
takes several turns, and that it begins, is the model's choice (log entry 11). -/
def Obligations.SessionWork : Prop :=
  (∀ (s : State) (rd ra rb : BitVec 5), s.Quiet →
    let c := s.closed
    let id := s.h.r.readS ra
    let h := (s.h.r.readS rb).toNat
    let x := c.sess id.toNat
    let i := s.h.eix.toNat
    let total := (x.g + 15) / 16 - (h + 15) / 16
    let u := if i = 0 then { c with h := { c.h with freed := 0 } } else c
    let b := (h + 15) / 16 + i
    (c.sessOk id = true →
      (i = 0 → (h < x.f ∨ x.g ≤ h) →
        exec (.kvtrunc rd ra rb) s = .next (c.completed ((s.h.r.writeS rd 0).writeC 1 (decide (x.g ≤ h))))) ∧
      (x.f ≤ h → h < x.g → i < total → blockState (c.btEntry x b) ≠ 9 →
        let w := (u.freeBlock x b).1
        exec (.kvtrunc rd ra rb) s = .next { w with h := { w.h with
          eix := BitVec.ofNat 64 (i + 1), freed := u.h.freed + (if (u.freeBlock x b).2 then 1 else 0), wait := .none } }) ∧
      (x.f ≤ h → h < x.g → i = total → (h % 16 = 0 ∨ (blockState (c.btEntry x (h / 16)) ≠ 8 ∧ blockState (c.btEntry x (h / 16)) ≠ 9)) →
        exec (.kvtrunc rd ra rb) s = .next ((((u.zeroTile x h).revoke x h (u.stepno.toNat + 1)).putSess (x.cut h)).doneSplit
          (fun r => (r.writeS rd (BitVec.ofNat 64 u.h.freed)).writeC 1 true))))) ∧
  (∀ (s : State) (rd ra rb : BitVec 5), s.Quiet →
    let c := s.closed
    let budget := (s.h.r.readS ra).toNat
    let va := s.h.r.readS rb
    (s.h.building = none → budget ≤ 2^20 → va.toNat % 32 = 0 → c.manifestProbe va budget = none →
      (c.sequencing = true → exec (.stepbuild rd ra rb) s = .next (c.stall .retry)) ∧
      (c.sequencing = false → c.buildSessions.flatMap c.buildNeeds = [] → ∃ t w, exec (.stepbuild rd ra rb) s = .next t ∧
        t = { c with h := { c.h with building := some w }, stepno := s.stepno + 1 } ∧ w.step = (s.stepno + 1).toNat ∧ w.changed = [] ∧
        (∀ i, i ∈ w.ids ↔ i ∈ c.sessIds ∧ c.under (c.sess i).region s.h.region = true ∧ (c.sess i).state ≠ 5 ∧ (c.sess i).state ≠ 6) ∧
        (s.h.replay ≠ 2 → ∀ i q, (i, q) ∈ w.left ↔ i ∈ w.ids ∧ q = c.ftail (c.sess i).fq ∧ c.framesPosted (c.sess i).fq ≠ 0))) ∧
    (∀ w, s.h.building = some w →
      (c.holdsRecord (0x07, 0) = true → exec (.stepbuild rd ra rb) s = .next (c.stall .retry)) ∧
      (∀ id tail rest, c.holdsRecord (0x07, 0) = false → w.left = (id, tail) :: rest →
        exec (.stepbuild rd ra rb) s = .next (c.buildFrame w id tail rest)) ∧
      (c.holdsRecord (0x07, 0) = false → w.left = [] → exec (.stepbuild rd ra rb) s = .next
        ((c.buildEnd w budget va).1.doneSplit (fun r => r.writeS rd (BitVec.ofNat 64 (c.buildEnd w budget va).2))))))

/-! ### Tasks, events and the end of a hart -/

/-- Tasks (R193, R279, R281): `tspawn` turns the TCB, refuses one that is waiting, ready, running or faulted, and registers any
other; `tarm` registers a DONE one again; `tarm.r` queues a FAULTED one again, also one that was refused; `tcancel` cancels one
that is neither RUNNING nor DONE, and `tcancel.c` its successors with it, also those of one that stays (log entry 66). c1 says
whether it was done. Each of the five traps MISALIGN for an address that is not a multiple of 128, as a store does where the address
has no mapping that may be written, and PROT for a TCB of a valid region that is neither the hart's nor below it; where the region is
not valid, `tspawn` and `tarm` go on and find the TCB invalid, while the others trap PROT (log entry 16, as for a TCB outside package
memory). All of these are taken behind the split, and nothing is done. Operand words are translated as the hart that registers the TCB
(log entry 25), a page of theirs that is on flash is met before anything is turned, and a TCB that was never registered is taken by its
fields as they stand (log entry 26). A refusal waits while the unit that reports it still holds a record (R287). Sectors that parts of the
`tspawn` have turned already are not turned again (R230). -/
def Obligations.TaskInstructions : Prop :=
  ∀ (s : State) (ra : BitVec 5), s.Quiet →
    let c := s.closed
    let va := s.h.r.readS ra
    let all := fun (t : Trap) =>
      exec (.tspawn ra) s = .next (c.deliver t false) ∧ exec (.tarm ra) s = .next (c.deliver t false) ∧
      (s.h.cur ≠ 0 → exec (.tarmR ra) s = .next (c.deliver t false) ∧ exec (.tcancel ra) s = .next (c.deliver t false) ∧
        exec (.tcancelC ra) s = .next (c.deliver t false))
    let priv := fun (i : Instr) => exec i s = .next (s.splitTrap (trapOf causePriv ((encodeScalar i).setWidth 64)))
    (va.toNat % 128 ≠ 0 → all (trapOf causeMisalign va)) ∧
    (∀ f, va.toNat % 128 = 0 → c.translate c.h va .write = .error f → (f.1 = causeProt → f.2 = []) →
      all { code := f.1, val := va, missing := f.2 }) ∧
    (∀ x, va.toNat % 128 = 0 → c.translate c.h va .write = .ok x →
      (c.isLocal x.loc = false ∨ ∃ i < 4, c.poisoned (sectorOf x.loc + i) = true) → all (trapOf causeProt va)) ∧
    (s.h.cur = 0 → priv (.tarmR ra) ∧ priv (.tcancel ra) ∧ priv (.tcancelC ra)) ∧
    (∀ x, c.TcbAt va x →
      let tcb := x.loc
      let st := c.taskSt tcb
      let secs := [sectorOf tcb, sectorOf tcb + 1, sectorOf tcb + 2, sectorOf tcb + 3]
      let u := (secs.filter (fun y => !(s.h.turned.contains y))).foldl (fun s sec => s.turnOne 3 sec) (c.groutFirst (fun y => secs.contains y))
      let ust := u.taskSt tcb
      let busy := ust = 1 ∨ ust = 2 ∨ ust = 3 ∨ ust = 5
      let valid := c.regionValid (c.tcbRegion tcb)
      let owned := c.under (c.tcbRegion tcb) s.h.region
      (owned = false →
        (valid = true → all (trapOf causeProt va)) ∧
        (s.h.cur ≠ 0 → exec (.tarmR ra) s = .next (c.deliver (trapOf causeProt va) false) ∧
          exec (.tcancel ra) s = .next (c.deliver (trapOf causeProt va) false) ∧
          exec (.tcancelC ra) s = .next (c.deliver (trapOf causeProt va) false))) ∧
      ((valid = true → owned = true) →
        (busy → exec (.tspawn ra) s = .next (u.completed (s.h.r.writeC 1 false))) ∧
        (¬ busy → u.refusalHeld tcb = false → u.operandPage tcb = none →
          let v := u.registerTcb tcb (u.homeNat (tcb + (if ust = 0 then 20 else 24)) 4)
          exec (.tspawn ra) s = .next (v.1.completed (s.h.r.writeC 1 v.2)) ∧ v.2 = (u.readTask tcb).isSome ∧
          (v.2 = true → (v.1.heldTask tcb).isSome = true)) ∧
        (¬ busy → u.refusalHeld tcb = true → exec (.tspawn ra) s = .next (c.stall .retry)) ∧
        (∀ t, ¬ busy → u.refusalHeld tcb = false → u.operandPage tcb = some t → exec (.tspawn ra) s = .next (c.deliver t false)) ∧
        (st ≠ 4 → exec (.tarm ra) s = .next (c.completed (s.h.r.writeC 1 false))) ∧
        (st = 4 → c.refusalHeld tcb = false → c.operandPage tcb = none →
          let v := c.registerTcb tcb (c.homeNat (tcb + 24) 4)
          exec (.tarm ra) s = .next (v.1.completed (s.h.r.writeC 1 v.2)) ∧ v.2 = (c.readTask tcb).isSome ∧
          (v.2 = true → (v.1.heldTask tcb).isSome = true)) ∧
        (st = 4 → c.refusalHeld tcb = true → exec (.tarm ra) s = .next (c.stall .retry)) ∧
        (∀ t, st = 4 → c.refusalHeld tcb = false → c.operandPage tcb = some t → exec (.tarm ra) s = .next (c.deliver t false))) ∧
      (s.h.cur ≠ 0 → owned = true →
        (st = 5 →
          ∃ t, exec (.tarmR ra) s = .next t ∧ t.h.r = s.h.r.writeC 1 true ∧ t.h.pc = s.h.pc + 4 ∧ (∃ k ∈ t.tasks, k.tcb = tcb) ∧
            (∀ k ∈ t.tasks, k.tcb = tcb → k.pool = some (c.clock, dieOf c.myCore)) ∧ t.mem = (c.tcbState tcb 2).mem) ∧
        (st ≠ 5 → exec (.tarmR ra) s = .next (c.completed (s.h.r.writeC 1 false))) ∧
        (st = 3 ∨ st = 4 → exec (.tcancel ra) s = .next (c.completed (s.h.r.writeC 1 false))) ∧
        (st ≠ 3 → st ≠ 4 → exec (.tcancel ra) s = .next ((c.cancelOne tcb).1.completed (s.h.r.writeC 1 true)) ∧
          (c.cancelOne tcb).1.mem = (c.tcbState tcb 6).mem) ∧
        exec (.tcancelC ra) s = .next (((c.cancelOne tcb).1.cancelAll [tcb] (2^64) ((c.cancelOne tcb).1.succsOf tcb)).completed
          (s.h.r.writeC 1 (decide (st ≠ 3 ∧ st ≠ 4))))))

/-- `tdone` (R193, R274, R285, R287): with no command outstanding and no report held, every write is turned to the level, and a
hart that nothing started leaves its slot FREE; one from a start record first writes its completion record, and one running a
task makes the task DONE, counts its successors down and reports where it is told to. The records of intrusive profiling that ends with
the hart go before (R363). With commands outstanding it waits. -/
def Obligations.HartEnd : Prop :=
  ∀ (s : State) (lv : BitVec 3), s.Quiet → s.h.isEnding = false →
    let c := s.closed
    let g := c.groutFirst (fun _ => true)
    let d := (g.turnAllNow lv.toNat).modH (fun h => { h with instret := h.instret + 1 })
    (c.hasCommands s.h.id = true → exec (.tdone lv) s = .next (c.stall .retry)) ∧
    (c.hasCommands s.h.id = false → s.h.reports = [] →
      (s.h.origin = .none → exec (.tdone lv) s = .next (d.endWith noTarget 0) ∧
        (s.h.intrusive = false → d.endWith noTarget 0 = d.freeSlot) ∧ (s.h.gang = none → d.freeSlot.hart? s.h.id = none)) ∧
      (∀ q t w, s.h.origin = .start q t w → exec (.tdone lv) s = .next (d.endWith t (startRecord q s.h.region 0 0 w))) ∧
      (∀ tcb, s.h.origin = .task tcb →
        let e := d.taskDone tcb lv.toNat (g.h.turned.foldl (fun l x => ninsert x l) g.writeSets)
        (∀ k, d.tasks.find? (fun t => t.tcb == tcb && t.notify) = some k →
          exec (.tdone lv) s = .next (e.endWith k.target (mkEvent 0x02 0 s.h.region lv.toNat tcb))) ∧
        (d.tasks.find? (fun t => t.tcb == tcb && t.notify) = none → exec (.tdone lv) s = .next (e.endWith noTarget 0) ∧
          (s.h.intrusive = false → e.endWith noTarget 0 = e.freeSlot))))

/-- The event queue and the core's other slot (R193, R275, R301): `evread` and `evwait` take the oldest record into two registers
and set c1, and no later load stays performed before that (R231); on an empty queue `evread` gives zeros and clears c1, and
`evwait` parks; `lquery` gives the lanes held, free and granted next; `tyield` hands the core to a READY hart in the other slot,
and otherwise, or where a hart of its gang is profiled intrusively (R363), only passes. -/
def Obligations.EventsAndYield : Prop :=
  ∀ (s : State) (rd : BitVec 5),
    let c := s.closed
    let k := c.core c.myCore
    exec (.lquery rd) s = .next (s.ranOn (s.h.r.writeS rd (BitVec.ofNat 64 (s.h.granted.toNat + 16 * s.freeLanes (clusterOf s.myCore) +
      256 * s.leaseNow.nextGrant s.leaseNow.h)))) ∧
    (s.Quiet →
      (∀ loc, k.evHead ≠ k.evTail → c.evqLoc c.myCore k.evHead = some loc → c.poisoned (sectorOf loc) = false →
        let t := (c.setCore c.myCore { k with evHead := k.evHead + 1 }).ordered.completed
          (((s.h.r.writeS rd (BitVec.ofNat 64 (c.homeNat loc 8))).writeS (rd + 1) (BitVec.ofNat 64 (c.homeNat (loc + 8) 8))).writeC 1 true)
        exec (.evread rd) s = .next t ∧ exec (.evwait rd) s = .next t) ∧
      (k.evHead = k.evTail →
        exec (.evread rd) s = .next (c.completed (((s.h.r.writeS rd 0).writeS (rd + 1) 0).writeC 1 false)) ∧
        exec (.evwait rd) s = .next (c.parkOn .retry)) ∧
      ((∀ o, c.hart? (otherSlot s.h.id) = some o → c.mayRun o = false) → exec .tyield s = .next (c.completed s.h.r)) ∧
      (c.gangProfiled c.h = true → exec .tyield s = .next (c.completed s.h.r)) ∧
      (∀ o, c.hart? (otherSlot s.h.id) = some o → c.mayRun o = true → c.gangProfiled c.h = false →
        exec .tyield s = .next (((c.completed s.h.r).setSt .ready).yieldCore)))

/-! ### Traps by instruction, CSRs, contexts, networks and region stops -/

/-- `trap` and `brk` (R194): behind the split, SYSCALL or BREAK is delivered with n in EVAL, ROLLED 0, and the position after
the instruction in EPC. `eret` returns PRIV, PC and the progress index from PREV, EPC and EIX, and opens the next strip there;
below supervisor level it traps PRIV. -/
def Obligations.TrapAndReturn : Prop :=
  ∀ (s : State) (n : BitVec 6), s.Quiet →
    let c := s.closed
    (s.h.Steady →
      (∃ t, exec (.trap n) s = .next t ∧ t.h.ecause = 0x018 ∧ t.h.eval = n.setWidth 64 ∧ t.h.epc = s.h.pc + 4 ∧
        t.h.pc.toNat = s.h.trapvec.toNat / 4 * 4 ∧ t.h.prev = s.h.cur ∧ t.h.cur = (if s.h.cur = 0 then 1 else s.h.cur) ∧
        t.h.r = s.h.r ∧ t.h.instret = c.h.instret + 1 ∧ t.h.stripn = s.h.stripn + 1 ∧ t.mem = c.mem) ∧
      (∃ t, exec (.brk n) s = .next t ∧ t.h.ecause = 0x019 ∧ t.h.eval = n.setWidth 64 ∧ t.h.epc = s.h.pc + 4 ∧
        t.h.pc.toNat = s.h.trapvec.toNat / 4 * 4 ∧ t.h.prev = s.h.cur ∧ t.h.cur = (if s.h.cur = 0 then 1 else s.h.cur) ∧
        t.h.r = s.h.r ∧ t.h.instret = c.h.instret + 1 ∧ t.h.stripn = s.h.stripn + 1 ∧ t.mem = c.mem)) ∧
    (s.h.cur ≠ 0 → s.h.trace = false →
      ∃ t, exec .eret s = .next t ∧ t.h.cur = s.h.prev ∧ t.h.prev = 0 ∧ t.h.pc = s.h.epc ∧ t.h.eix = s.h.eixCsr ∧
        t.h.strippc = s.h.epc ∧ t.h.ckEix = s.h.eixCsr ∧ t.h.r = s.h.r ∧ t.h.ck = s.h.r ∧ t.h.stripn = s.h.stripn + 1 ∧
        t.h.instret = c.h.instret + 1 ∧ t.h.epc = s.h.epc ∧ t.h.ecause = s.h.ecause ∧ t.mem = c.mem) ∧
    (s.h.cur = 0 → exec .eret s = .next (s.splitTrap (trapOf causePriv ((encodeScalar .eret).setWidth 64))))

/-- CSR instructions (R25, R74, R123, R195): the old value goes to rd, and `csrw`, `csrs` and `csrc` write the operand, its bits
set or its bits cleared, read-only bits keeping what they held. An unassigned number, or a write of a register that cannot be
written, traps ILLEGAL with the word in EVAL (log entry 33); a level too low traps PRIV with it. CYCLE moves on by a free amount
at each read (log entry 6), and SLIPD.QUEUED counts the blocks in the queues (R204); a write of EVQ that finds its queue empty
starts it afresh (log entry 17). A write of a hart's own register that does not change INTRUSIVE touches nothing outside the hart.
-/
def Obligations.CsrAccess : Prop :=
  ∀ (s : State) (rd ra : BitVec 5) (n : BitVec 12),
    let k := n.toNat
    let v := s.csrValue k
    let x := (s.h.r.readS ra).toNat
    let wrote := fun (y : Nat) => s.modH (fun h => h.putCsr k y)
    let plain := fun (y : Nat) => k ≠ 0x040 ∧ k ≠ 0x181 ∧ (s.h.putCsr k y).intrusive = s.h.intrusive
    (∀ r w, csrLevels k = some (r, w) → r ≤ s.h.cur.toNat → k ≠ 0x182 →
      exec (.csrr rd n) s = .next (s.ranOn (s.h.r.writeS rd (BitVec.ofNat 64 v)))) ∧
    (∀ r w, csrLevels k = some (r, some w) → w ≤ s.h.cur.toNat →
      (plain x → exec (.csrw rd ra n) s = .next ((wrote x).ranOn ((wrote x).h.r.writeS rd (BitVec.ofNat 64 v)))) ∧
      (plain (v ||| x) → exec (.csrs rd ra n) s = .next ((wrote (v ||| x)).ranOn ((wrote (v ||| x)).h.r.writeS rd (BitVec.ofNat 64 v)))) ∧
      (plain (v &&& (2^64 - 1 - x)) → exec (.csrc rd ra n) s =
        .next ((wrote (v &&& (2^64 - 1 - x))).ranOn ((wrote (v &&& (2^64 - 1 - x))).h.r.writeS rd (BitVec.ofNat 64 v))))) ∧
    (∀ r w, csrLevels k = some (r, some w) → w ≤ s.h.cur.toNat →
      exec (.csrw rd ra n) s = .next (s.csrWrite k x (fun u => u.ranOn (u.h.r.writeS rd (BitVec.ofNat 64 v))))) ∧
    (k = 0x182 → exec (.csrr rd n) s = .next (s.tickCycle.ranOn (s.h.r.writeS rd (s.tickCycle.core s.myCore).cycle))) ∧
    (k = 0x040 → s.h.cur ≠ 0 → (s.core s.myCore).evHead = (s.core s.myCore).evTail →
      exec (.csrw rd ra n) s = .next ((s.setCore s.myCore { s.core s.myCore with evq := BitVec.ofNat 64 (x / 256 * 256), evHead := 0, evTail := 0 }).ranOn
        (s.h.r.writeS rd (BitVec.ofNat 64 v)))) ∧
    (let traps := fun (i : Instr) (c : BitVec 8) => exec i s = .next (s.splitTrap (trapOf c ((encodeScalar i).setWidth 64)))
     let writes := fun (c : BitVec 8) => traps (.csrw rd ra n) c ∧ traps (.csrs rd ra n) c ∧ traps (.csrc rd ra n) c
     (csrLevels k = none → traps (.csrr rd n) causeIllegal ∧ writes causeIllegal) ∧
     (∀ r, csrLevels k = some (r, none) → writes causeIllegal) ∧
     (∀ r w, csrLevels k = some (r, w) → s.h.cur.toNat < r → traps (.csrr rd n) causePriv) ∧
     (∀ r w, csrLevels k = some (r, some w) → s.h.cur.toNat < w → writes causePriv))

/-- What a CSR write leaves (R25, Tables state.3 to state.10): the exception registers, the vector and the save area read back
as written but for their fixed low bits; PREV keeps its reserved code out; FAULTREC.VALID is cleared by a 1; TE and PREEMPTWAIT
are written only by an expert region and from supervisor level on; MIN never exceeds PREF and both stay 1 to 8. -/
def Obligations.CsrWrites : Prop :=
  ∀ (h : Hart) (x : Nat), x < 2^64 →
    (h.putCsr 0x004 x).eixCsr.toNat = x ∧ (h.putCsr 0x101 x).epc.toNat = x ∧ (h.putCsr 0x103 x).eval.toNat = x ∧
    (h.putCsr 0x102 x).ecause.toNat = x % 2^9 ∧ (h.putCsr 0x104 x).trapvec.toNat = x / 4 * 4 ∧
    (h.putCsr 0x105 x).savearea.toNat = x / 4096 * 4096 ∧
    (h.putCsr 0x100 x).prev.toNat = (if x / 4 % 4 = 3 then h.prev.toNat else x / 4 % 4) ∧ (h.putCsr 0x100 x).cur = h.cur ∧
    (h.putCsr 0x020 x).faultrec.toNat = x / 256 * 256 + (if x % 2 = 1 then 0 else h.faultrec.toNat % 2) ∧
    (h.putCsr 0x003 x).r.fflags.toNat % 32 = x % 32 ∧
    (h.expert = false → (h.putCsr 0x003 x).r.fflags.toNat / 256 = h.r.fflags.toNat / 256 ∧
      (h.putCsr 0x012 x).stripctl.toNat / 2^8 % 2^32 = h.stripctl.toNat / 2^8 % 2^32) ∧
    (h.cur = 0 → (h.putCsr 0x012 x).stripctl.toNat / 2^40 = h.stripctl.toNat / 2^40) ∧
    (1 ≤ h.min.toNat → h.min.toNat ≤ h.pref.toNat → h.pref.toNat ≤ 8 →
      let g := h.putCsr 0x053 x
      1 ≤ g.min.toNat ∧ g.min.toNat ≤ g.pref.toNat ∧ g.pref.toNat ≤ 8 ∧ g.granted = h.granted ∧ g.vlceil = h.vlceil)

/-- `ctxsave` (R196, R306, R308) writes the image of the other slot's hart one unit a step and, after the last, leaves the slot
FREE with c1 set; what the image does not hold is kept by its place (log entry 12). A fault of a store, that of TLSW among them, ends the
save as R308 says. While a record of the hart's INTRUSIVE has no room it waits (R363). `ctxload` (R13, R196, R304, R309) reads one
unit a step, the progress index counting them, and after the last reads TLSW and fills the FREE slot (log entry 30). Either
refuses a slot it may not touch with ILLEGAL, and below supervisor level traps PRIV. -/
def Obligations.ContextSwitch : Prop :=
  ∀ (s : State) (ra rb : BitVec 5), s.Quiet →
    let c := s.closed
    let n := s.h.r.readS ra
    let m := s.h.r.readS rb
    let slot := fun (z : Word) => s.h.id.extractLsb' 1 10 ++ z.extractLsb' 0 1
    let other := slot n
    let i := s.h.eix.toNat
    let r := if i = 0 then c.readyToSave other else c
    (s.h.cur = 0 → i ≤ imageUnits →
      exec (.ctxsave ra) s = .next (s.splitTrap (trapOf causePriv ((encodeScalar (.ctxsave ra)).setWidth 64))) ∧
      exec (.ctxload ra rb) s = .next (s.splitTrap (trapOf causePriv ((encodeScalar (.ctxload ra rb)).setWidth 64)))) ∧
    (s.h.cur ≠ 0 →
      (c.hart? other = none → i ≤ imageUnits → exec (.ctxsave ra) s = .next (c.deliver (trapOf causeIllegal n) false)) ∧
      (∀ t, c.hart? other = some t → other ≠ s.h.id → t.st ≠ .running → t.gang = none → c.hasCommands other = false →
        c.holdsRecord (0x06, other.toNat) = false → t.reports = [] → t.intrusive = false → r.groutMeets t (fun _ => true) = false →
        ∀ y, r.hart? other = some y →
        let area := nbits y.savearea.toNat 12 52 * 4096 + 4096 * i
        let sent := fun (x : Xlat) =>
          let z := r.send s.h.id [(List.range 32).flatMap (fun k =>
            spread (r.imageLoc x.pa (128 * k)) 128 (nbits (r.imageUnit y i) (1024 * k) 1024))]
          (List.range 32).foldl (fun z k =>
            z.modH (fun h => h.storedOver y.region (z.imageLoc x.pa (128 * k)) (area + 128 * k) 128)) z
        (∀ x, i + 1 < imageUnits → r.saveXlat y i = .ok x → exec (.ctxsave ra) s = .next
          ((sent x).modH (fun h => { h with eix := BitVec.ofNat 64 (i + 1), wait := .none }))) ∧
        (∀ x z, i + 1 = imageUnits → r.saveXlat y i = .ok x → (sent x).saveXlat y 0 = .ok z →
          ∃ v, exec (.ctxsave ra) s = .next v ∧ v = (sent x).saveAll y ((sent x).imageLoc z.pa tlswOff) ∧
            v.hart? other = none ∧ v.h.r = s.h.r.writeC 1 true ∧ v.h.pc = s.h.pc + 4) ∧
        (∀ f, i < imageUnits → r.saveXlat y i = .error f → f.1 ≠ waitNoPath → exec (.ctxsave ra) s = .next (r.saveFault y i)) ∧
        (∀ f, i = imageUnits → r.saveXlat y 0 = .error f → f.1 ≠ waitNoPath → exec (.ctxsave ra) s = .next (r.saveFault y 0))) ∧
      (∀ t, c.hart? other = some t → other ≠ s.h.id → t.st ≠ .running → t.gang = none → c.hasCommands other = false →
        c.holdsRecord (0x06, other.toNat) = false → t.reports = [] → i ≤ imageUnits → (c.select other).unprofile = none →
        exec (.ctxsave ra) s = .next (c.stall .retry)) ∧
      ((c.hart? (slot m)).isSome = true → i ≤ imageUnits → exec (.ctxload ra rb) s = .next (c.deliver (trapOf causeIllegal m) false)) ∧
      (c.hart? (slot m) = none → i ≤ imageUnits → n.toNat % 4096 = 0 →
        let done := (((sfind c.loads (slot m).toNat).getD []).take i).take 82
        let k := done.length
        (∀ t, c.loadUnit (n + BitVec.ofNat 64 (4096 * k)) = .error t → exec (.ctxload ra rb) s =
          .next ((c.modH (fun h => { h with eix := BitVec.ofNat 64 k })).deliver t false)) ∧
        (∀ unit, c.loadUnit (n + BitVec.ofNat 64 (4096 * k)) = .ok unit →
          let us := done ++ [unit]
          let x := us.getD 0 0
          let region := BitVec.ofNat 16 (headField x 4 2)
          (headField x 0 4 ≠ imageMagic → exec (.ctxload ra rb) s = .next (c.deliver (trapOf causeIllegal n) false)) ∧
          (headField x 0 4 = imageMagic → c.under region s.h.region = false →
            exec (.ctxload ra rb) s = .next (c.deliver (trapOf causeProt n) false)) ∧
          (headField x 0 4 = imageMagic → c.under region s.h.region = true → c.regionEvq region = c.regionEvq s.h.region →
            nbits (imageCsr x 19).toNat 8 4 ≤ c.freeLanes (clusterOf s.myCore) →
            let w := c.touchAll ((List.range 128).filterMap (fun j =>
              (c.loadOne c.h (n + BitVec.ofNat 64 (4096 * k + 32 * j)) 32).toOption.map Prod.snd))
            (k + 1 < imageUnits → exec (.ctxload ra rb) s = .next (({ w with loads := sput w.loads (slot m).toNat us } : State).modH (fun h =>
              { h with eix := BitVec.ofNat 64 (k + 1), wait := .none }))) ∧
            (∀ sw y, k + 1 = imageUnits → w.loadOne w.h (n + BitVec.ofNat 64 tlswOff) 8 = .ok (sw, y) →
              exec (.ctxload ra rb) s = .next ((({ w with loads := serase w.loads (slot m).toNat } : State).loadImage
                (nput x (8 * tlswOff) 64 sw :: us.drop 1) y.x.loc (slot m)).doneSplit id))))))

/-- The supervisor forms of the counting networks (R197, R335): `cnclose` closes the network and is done when it has drained;
`cnopen` opens it and sets c1, but leaves a TORN one closed and clears c1; `cnsave` writes one doubleword of a drained network's
image a step; `cnload` takes a network from a valid image, closed and not TORN. On an open network the last two only clear c1;
they check the address first and set c1 when they succeed (log entry 40).
An image that `cnsave` writes is one that `cnload` takes, and it gives the same network back but for TORN and what had not
drained (R334, R335, Table lath.3). -/
def Obligations.Networks : Prop :=
  (∀ (s : State) (ra : BitVec 5) (m : BitVec 4), s.Quiet → s.h.cur ≠ 0 →
    let c := s.closed
    let n := c.net m
    let va := s.h.r.readS ra
    let i := s.h.eix.toNat
    let shut := c.setNet m { n with closed := true }
    (n.tokens = [] → exec (.cnclose m) s = .next (shut.completed s.h.r)) ∧
      (n.tokens ≠ [] → exec (.cnclose m) s = .next (shut.stall .retry)) ∧
    (n.torn = false → exec (.cnopen m) s = .next ((c.setNet m { n with closed := false }).completed (s.h.r.writeC 1 true))) ∧
    (n.torn = true → exec (.cnopen m) s = .next (c.completed (s.h.r.writeC 1 false))) ∧
    (va.toNat % 256 = 0 → i ≤ 32 →
      (n.closed = false → exec (.cnsave ra m) s = .next (c.completed (s.h.r.writeC 1 false)) ∧
        exec (.cnload ra m) s = .next (c.completed (s.h.r.writeC 1 false))) ∧
      (∀ x, n.closed = true → n.tokens = [] → i < 32 → c.translate c.h (va + BitVec.ofNat 64 (8 * i)) .write = .ok x →
        let u := c.sendVia s.h.id x.loc (va + BitVec.ofNat 64 (8 * i)).toNat (spread x.loc 8 (nbits (n.image m) (64 * i) 64))
        (i < 31 → exec (.cnsave ra m) s = .next { u with h := { u.h with eix := BitVec.ofNat 64 (i + 1), wait := .none } }) ∧
        (i = 31 → exec (.cnsave ra m) s = .next (u.completed (s.h.r.writeC 1 true)))) ∧
      (n.closed = true → n.tokens = [] →
        let ws := (List.range 32).map (fun k => c.loadOne c.h (va + BitVec.ofNat 64 (8 * k)) 8)
        let x := pack 64 ((goods ws).map Prod.fst)
        fails ws = [] → netImageOk x = true →
          exec (.cnload ra m) s = .next (((c.touchAll ((goods ws).map Prod.snd)).setNet m (imageNet x)).completed (s.h.r.writeC 1 true)))) ∧
    (va.toNat % 256 ≠ 0 → i ≤ 32 → exec (.cnsave ra m) s = .next (c.deliver (trapOf causeMisalign va) false) ∧
      exec (.cnload ra m) s = .next (c.deliver (trapOf causeMisalign va) false))) ∧
  (∀ (n : Net) (m : BitVec 4), netImageOk (n.image m) = true ∧
    imageNet (n.image m) = { n with closed := true, torn := false, tokens := [] })

/-- `rstop` (R198): a region that is the hart's own, or not below it, traps PROT; otherwise the region and its descendants are
stopped, and the hart goes on when nothing of them runs or is in flight; with bit 0 of rb it releases them (log entry 34), also
where it was a region above that had been stopped, but for one that has ended. -/
def Obligations.RegionStop : Prop :=
  ∀ (s : State) (ra rb : BitVec 5), s.Quiet →
    let c := s.closed
    let r := (s.h.r.readS ra).setWidth 16
    (s.h.cur ≠ 0 →
      (r = s.h.region ∨ c.under r s.h.region = false → exec (.rstop ra rb) s = .next (c.deliver (trapOf causeProt (r.setWidth 64)) false)) ∧
      (r ≠ s.h.region → c.under r s.h.region = true →
        ((s.h.r.readS rb).getLsbD 0 = true → exec (.rstop ra rb) s = .next ((c.releaseRegion r).doneSplit id) ∧
          let w := c.releaseRegion r
          ((∀ a ∈ w.ended, w.under r a = false) → w.regionStopped r = false)) ∧
        ((s.h.r.readS rb).getLsbD 0 = false → (c.stopRegion r).quiet r = true →
          exec (.rstop ra rb) s = .next ((c.stopRegion r).doneSplit id)) ∧
        ((s.h.r.readS rb).getLsbD 0 = false → (c.stopRegion r).quiet r = false →
          exec (.rstop ra rb) s = .next ((c.stopRegion r).stall .retry)))) ∧
    (s.h.cur = 0 → exec (.rstop ra rb) s = .next (s.splitTrap (trapOf causePriv ((encodeScalar (.rstop ra rb)).setWidth 64))))

/-! ### Element instructions -/

/-- Elements and mask bits (R17 to R19): after a word has written elements of width w, each given element reads back, the others
and every element behind them stay, and no other register or mask of the gang changes; the same for mask bits, where k0 keeps
all ones. A source is the slice read for its register, else the register; while an earlier word of the block has not had its
latency, it is what stood before that word, unless STRIPCTL.CHK makes the words wait (R207, R208). -/
def Obligations.RegisterElements : Prop :=
  ∀ (s : State) (r : BitVec 5) (k : BitVec 3) (w : Nat), s.Slots → s.GangOk → w ∈ [8, 16, 32, 64] →
    (∀ es : List (Option Nat), w * es.length ≤ 16384 * s.gangHarts.length →
      let t := s.putElts r w es
      (∀ j, elt w (t.readVN r) j = (match es[j]? with
        | some (some x) => x % 2^w
        | _ => elt w (s.readVN r) j)) ∧
      (∀ q, q ≠ r → t.readVN q = s.readVN q) ∧ (∀ q, t.readKN q = s.readKN q) ∧
      t = { s with h := { s.h with r := { s.h.r with v := t.h.r.v } }, others := t.others } ∧ (s.h.gang = none → t.others = s.others)) ∧
    (∀ bs : List (Option Bool), bs.length ≤ 2048 * s.gangHarts.length →
      let t := s.putBits k bs
      (k ≠ 0 → ∀ j, nbit (t.readKN k) j = (match bs[j]? with
        | some (some x) => x
        | _ => nbit (s.readKN k) j)) ∧
      (∀ q, q ≠ k ∨ q = 0 → t.readKN q = s.readKN q) ∧ (∀ q, t.readVN q = s.readVN q)) ∧
    (∀ (i : Instr) (x : Nat), s.h.slices.find? (fun p => p.1 == r) = some (r, x) → s.src i r = x) ∧
    (∀ (i : Instr) (b : Block) (y : WordInfo), s.h.slices = [] → s.h.blk = some b → wordInfo i = some y →
      (b.writers.find? (fun p => p.ref == .v r) = none ∨ y.queue ≠ .aq ∨ s.h.stripctl.getLsbD 0 = true → s.src i r = s.readVN r) ∧
      (∀ p, b.writers.find? (fun p => p.ref == .v r) = some p → y.queue = .aq → s.h.stripctl.getLsbD 0 = false →
        s.src i r = if b.spacing + wordSpacing i - p.at_ < p.latency then p.old else s.readVN r))

/-- Integer element instructions (R124 to R126, Table arith.3): for each active element the exact result of the operation on the
typed values, wrapped or with `.sat` saturated; the other elements stay. `vadc` and `vsbc` act below VL, with the carry from the
mask field and the carry out in vc's mask. The slices of bound sources have been read and advance. -/
def Obligations.ElementInteger : Prop :=
  ∀ (s u : State) (e : EWord) (w : Nat) (sg : Bool), e.tI = .int w sg →
    let sat := decide (e.rnd = 1)
    let run := fun (i : Instr) (f : Nat → Nat → Nat → Int) =>
      let a := fun (k : Nat) => elt w (u.src i e.va) k
      let b := fun (k : Nat) => if e.opsel = 0 then elt w (u.src i e.vb) k
        else if e.opsel = 1 then (if sg then (BitVec.ofInt w e.imm.toInt).toNat else e.imm.toNat % 2^w)
        else (u.snapS e.sreg).toNat % 2^w
      let c := fun (k : Nat) => elt w (u.src i e.vc) k
      s.feed i = .ok u →
        exec i s = .next ((u.putElts e.vd w ((List.range u.vl).map (fun k =>
          if u.maskBit i e k then some (fitInt w sg sat (f (a k) (b k) (c k))) else none))).wordDone i (s.olds i))
    let v := asInt w sg
    let sv := fun (x : Nat) => (BitVec.ofNat w x).toInt
    run (.vadd e) (fun a b _ => v a + v b) ∧ run (.vsub e) (fun a b _ => v a - v b) ∧
    run (.vmul e) (fun a b _ => v a * v b) ∧ run (.vmulh e) (fun a b _ => v a * v b / 2^w) ∧
    run (.vmac e) (fun a b c => v a * v b + v c) ∧
    run (.vand e) (fun a b _ => ((a &&& b : Nat) : Int)) ∧ run (.vor e) (fun a b _ => ((a ||| b : Nat) : Int)) ∧
    run (.vxor e) (fun a b _ => ((a ^^^ b : Nat) : Int)) ∧ run (.vandn e) (fun a b _ => ((a &&& (2^w - 1 - b) : Nat) : Int)) ∧
    run (.vsll e) (fun a b _ => v a * 2^(b % w)) ∧ run (.vsrl e) (fun a b _ => ((a / 2^(b % w) : Nat) : Int)) ∧
    run (.vsra e) (fun a b _ => sv a / 2^(b % w)) ∧ run (.vmin e) (fun a b _ => min (sv a) (sv b)) ∧
    run (.vmax e) (fun a b _ => max (sv a) (sv b)) ∧ run (.vminn e) (fun a b _ => ((min a b : Nat) : Int)) ∧
    run (.vmaxn e) (fun a b _ => ((max a b : Nat) : Int)) ∧ run (.vabs e) (fun a _ _ => ((v a).natAbs : Int)) ∧
    run (.vneg e) (fun a _ _ => - v a) ∧
    (let carry := fun (i : Instr) (invert : Bool) =>
      let b := fun (k : Nat) => if e.opsel = 0 then elt w (u.src i e.vb) k
        else if e.opsel = 1 then (if sg then (BitVec.ofInt w e.imm.toInt).toNat else e.imm.toNat % 2^w)
        else (u.snapS e.sreg).toNat % 2^w
      let x := fun (k : Nat) => elt w (u.src i e.va) k + (if invert then 2^w - 1 - b k else b k) + (if u.maskBit i e k then 1 else 0)
      s.feed i = .ok u →
        exec i s = .next (((u.putElts e.vd w ((List.range u.vl).map (fun k => some (x k % 2^w)))).putBits (kOf e.vc)
          ((List.range u.vl).map (fun k => some (decide (2^w ≤ x k))))).wordDone i (s.olds i))
     carry (.vadc e) false ∧ carry (.vsbc e) true)

/-- Floating element instructions (R41, R47, R127 to R133, Table arith.6): each active element takes the rounded result in the
effective mode, the flags of all are raised together, the other elements stay. `vcmp` writes mask bits, over integers and
floating numbers; `vclass` raises no flag; `vcvt` goes between the two types its immediate names. -/
def Obligations.ElementFloat : Prop :=
  ∀ (s u : State) (e : EWord),
    let f := e.fF
    let rm : Rm := match e.rnd.toNat with
      | 1 => .rne
      | 2 => .rtz
      | 3 => .rdn
      | 4 => .rup
      | _ => vtRm u.snapVt
    let put := fun (i : Instr) (wd ws : Nat) (g : Nat → Nat → Nat → Rounded) (b : Nat → Nat) =>
      s.feed i = .ok u →
        let x := fun (k : Nat) => g (elt ws (u.src i e.va) k) (b k) (elt ws (u.src i e.vc) k)
        exec i s = .next (((u.putElts e.vd wd ((List.range u.vl).map (fun k =>
          if u.maskBit i e k then some (x k).1 else none))).modH (fun h =>
            h.raise (((List.range u.vl).filter (u.maskBit i e)).foldr (fun k fl => (x k).2 ||| fl) 0))).wordDone i (s.olds i))
    let bF := fun (i : Instr) (k : Nat) => if e.opsel = 0 then elt f.width (u.src i e.vb) k
      else if e.opsel = 1 then bf16Imm f e.imm.toNat else (u.snapS e.sreg).toNat % 2^f.width
    let run := fun (i : Instr) (g : Nat → Nat → Nat → Rounded) => put i f.width f.width g (bF i)
    run (.vfadd e) (fun a b _ => fadd f rm a b) ∧ run (.vfsub e) (fun a b _ => fsub f rm a b) ∧
    run (.vfmul e) (fun a b _ => fmul f rm a b) ∧ run (.vfma e) (fun a b c => ffma f rm e.f10 a b c) ∧
    run (.vfdiv e) (fun a b _ => fdiv f rm a b) ∧ run (.vfsqrt e) (fun a _ _ => fsqrt f rm a) ∧
    run (.vfmin e) (fun a b _ => fminmax f false a b) ∧ run (.vfmax e) (fun a b _ => fminmax f true a b) ∧
    run (.vfexp2 e) (fun a _ _ => fexp2 rm a) ∧ run (.vfabs e) (fun a _ _ => fsign f true a) ∧
    run (.vfneg e) (fun a _ _ => fsign f false a) ∧ run (.vclass e) (fun a _ _ => (fclass f a, 0)) ∧
    (let src := etypeOf (nbits e.imm.toNat 4 4)
     let dst := etypeOf (nbits e.imm.toNat 0 4)
     put (.vcvt e) dst.width src.width (fun a _ _ => convert src dst rm a) (fun _ => 0)) ∧
    (let i : Instr := .vcmp e
     s.feed i = .ok u →
      (e.isF = true →
        let x := fun (k : Nat) => fcmp f e.rnd.toNat (elt f.width (u.src i e.va) k) (bF i k)
        exec i s = .next (((u.putBits (kOf e.vd) ((List.range u.vl).map (fun k => if u.maskBit i e k then some (x k).1 else none))).modH
          (fun h => h.raise (((List.range u.vl).filter (u.maskBit i e)).foldr (fun k fl => (x k).2 ||| fl) 0))).wordDone i (s.olds i))) ∧
      (∀ w sg, e.isF = false → e.tI = .int w sg → e.rnd.toNat ≤ 5 →
        let a := fun (k : Nat) => asInt w sg (elt w (u.src i e.va) k)
        let b := fun (k : Nat) => asInt w sg (u.bI i e k)
        let x := fun (k : Nat) => match e.rnd.toNat with
          | 0 => decide (a k = b k)
          | 1 => decide (a k ≠ b k)
          | 2 => decide (a k < b k)
          | 3 => decide (b k ≤ a k)
          | 4 => decide (a k ≤ b k)
          | _ => decide (b k < a k)
        exec i s = .next ((u.putBits (kOf e.vd) ((List.range u.vl).map (fun k => if u.maskBit i e k then some (x k) else none))).wordDone
          i (s.olds i))))

/-- Floating arithmetic on finite numbers (R40, R41, R43, R129, R130): the sum, difference, product, fused product and sum,
quotient and square root of the numbers that the bit patterns stand for, rounded once in the mode, with OF where the mode rounds
them beyond the largest finite number; a result that is exactly zero raises nothing. -/
def Obligations.FloatArithmetic : Prop :=
  ∀ (f : Fmt) (rm : Rm) (a b c : Nat), f ∈ [Fmt.f32, Fmt.bf16, Fmt.f16, Fmt.e4m3, Fmt.e5m2] →
    f.finite a = true → f.finite b = true → f.finite c = true →
    let ok := fun (v : Rat) (r : Rounded) =>
      (v ≠ 0 → Rounds f rm (decide (v < 0)) (fun z => z ≤ v) (fun z => v ≤ z) r) ∧
      (v = 0 → r.2 = 0 ∧ f.finite r.1 = true ∧ f.num r.1 = 0)
    let p := f.num a * f.num b
    ok (f.num a + f.num b) (fadd f rm a b) ∧ ok (f.num a - f.num b) (fsub f rm a b) ∧ ok p (fmul f rm a b) ∧
    ok (p + f.num c) (ffma f rm 0 a b c) ∧ ok (-p + f.num c) (ffma f rm 1 a b c) ∧
    ok (p - f.num c) (ffma f rm 2 a b c) ∧ ok (-p - f.num c) (ffma f rm 3 a b c) ∧
    (f.num b ≠ 0 → ok (f.num a / f.num b) (fdiv f rm a b)) ∧
    (0 < f.num a → Rounds f rm false (fun z => z ≤ 0 ∨ z * z ≤ f.num a) (fun z => 0 ≤ z ∧ f.num a ≤ z * z) (fsqrt f rm a))

/-- Mask instructions and `vmerge` (R134 to R137, R139, Table arith.8): a bit for each active element from the two source masks;
`kshup` and `kshdn` move bits by one place, with the snapshot's c1 or zero entering; `kset` sets the bits below its bound;
`kpopc`, `kfirst` and `klast` write a scalar register, all ones where no bit is set; `vmerge` chooses for every element below
VL. -/
def Obligations.MaskWords : Prop :=
  ∀ (s u : State) (e : EWord),
    let x := fun (i : Instr) (k : Nat) => nbit (u.srcK i (kOf e.va)) k
    let y := fun (i : Instr) (k : Nat) => nbit (u.srcK i (kOf e.vb)) k
    let run := fun (i : Instr) (f : Nat → Bool) => s.feed i = .ok u →
      exec i s = .next ((u.putBits (kOf e.vd) ((List.range u.vl).map (fun k => if u.maskBit i e k then some (f k) else none))).wordDone
        i (s.olds i))
    run (.kand e) (fun k => x (.kand e) k && y (.kand e) k) ∧ run (.kor e) (fun k => x (.kor e) k || y (.kor e) k) ∧
    run (.kxor e) (fun k => x (.kxor e) k ^^ y (.kxor e) k) ∧ run (.kandn e) (fun k => x (.kandn e) k && !(y (.kandn e) k)) ∧
    run (.knot e) (fun k => !(x (.knot e) k)) ∧ run (.kmov e) (fun k => x (.kmov e) k) ∧
    run (.kshup e) (fun k => if k = 0 then decide (e.rnd = 1) && u.snapC1 else x (.kshup e) (k - 1)) ∧
    run (.kshdn e) (fun k => if k + 1 < u.vl then x (.kshdn e) (k + 1) else false) ∧
    run (.kset e) (fun k => decide (k < if e.opsel = 1 then e.imm.toNat else (u.snapS e.sreg).toNat)) ∧
    (let count := fun (i : Instr) (f : Word) => s.feed i = .ok u →
       exec i s = .next ((u.modR (fun r => r.writeS e.vd f)).wordDone i (s.olds i))
     let p := fun (i : Instr) (k : Nat) => decide (k < u.vl) && (u.maskBit i e k && x i k)
     count (.kpopc e) (BitVec.ofNat 64 ((List.range u.vl).countP (p (.kpopc e)))) ∧
     (∀ k, p (.kfirst e) k = true → (∀ j < k, p (.kfirst e) j = false) → count (.kfirst e) (BitVec.ofNat 64 k)) ∧
     ((∀ k, p (.kfirst e) k = false) → count (.kfirst e) 0xFFFFFFFFFFFFFFFF) ∧
     (∀ k, p (.klast e) k = true → (∀ j, k < j → p (.klast e) j = false) → count (.klast e) (BitVec.ofNat 64 k)) ∧
     ((∀ k, p (.klast e) k = false) → count (.klast e) 0xFFFFFFFFFFFFFFFF)) ∧
    (let i : Instr := .vmerge e
     s.feed i = .ok u →
      exec i s = .next ((u.putElts e.vd e.wW ((List.range u.vl).map (fun k => some (if u.maskBit i e k then elt e.wW (u.src i e.va) k
        else if e.opsel = 0 then elt e.wW (u.src i e.vb) k
        else if e.opsel = 1 then (BitVec.ofInt e.wW e.imm.toInt).toNat
        else (u.snapS e.sreg).toNat % 2^e.wW)))).wordDone i (s.olds i)))

/-- Movement between elements (R167, R168): broadcast, steps, slides, permutation, compression, expansion and extraction;
elements that no rule names stay. A position beyond VL gives zero. -/
def Obligations.Movement : Prop :=
  ∀ (s u : State) (e : EWord),
    let w := e.wW
    let a := fun (i : Instr) (k : Nat) => elt w (u.src i e.va) k
    let n := fun (i : Instr) => if e.opsel = 0 then elt w (u.src i e.vb) 0 else if e.opsel = 1 then e.imm.toNat else (u.snapS e.sreg).toNat
    let run := fun (i : Instr) (f : Nat → Option Nat) => s.feed i = .ok u →
      exec i s = .next ((u.putElts e.vd w ((List.range u.vl).map (fun k => if u.maskBit i e k then f k else none))).wordDone i (s.olds i))
    let before := fun (i : Instr) (k : Nat) => ((List.range k).filter (u.maskBit i e)).length
    run (.vbcast e) (fun _ => some (if e.opsel = 0 then elt w (u.src (.vbcast e) e.vb) 0
      else if e.opsel = 1 then (BitVec.ofInt w e.imm.toInt).toNat else (u.snapS e.sreg).toNat % 2^w)) ∧
    run (.viota e) (fun k => some (BitVec.ofInt w ((e.imm.toNat : Int) + k * (e.vb ++ e.vc).toInt)).toNat) ∧
    run (.vslideup e) (fun k => if k < n (.vslideup e) then none else some (a (.vslideup e) (k - n (.vslideup e)))) ∧
    run (.vslidedn e) (fun k => some (if k + n (.vslidedn e) < u.vl then a (.vslidedn e) (k + n (.vslidedn e)) else 0)) ∧
    run (.vperm e) (fun k =>
      let j := elt w (u.src (.vperm e) e.vb) k
      some (if j < u.vl then a (.vperm e) j else 0)) ∧
    run (.vexpand e) (fun k => some (a (.vexpand e) (before (.vexpand e) k))) ∧
    (let i : Instr := .vcompress e
     s.feed i = .ok u →
      exec i s = .next ((u.putElts e.vd w (((List.range u.vl).filter (u.maskBit i e)).map (fun k => some (a i k)))).wordDone i (s.olds i))) ∧
    (let i : Instr := .vextract e
     s.feed i = .ok u →
      exec i s = .next ((u.modR (fun r => r.writeS e.vd (BitVec.ofNat 64 (if n i < u.vl then a i (n i) else 0)))).wordDone i (s.olds i)))

/-- Reductions and the online soft-maximum (R49, R138, R140, R141): element 0 takes the wrapped sum of the seed and the active
elements, or the largest or smallest of them; in floating point it takes the seed combined with the tree of the active elements,
or the seed alone. `vosm` without an active element only sets OSCALE to 1, and otherwise writes the weights and the three
registers; `vfnorm` divides by OSSUM, or gives zero where that is zero. -/
def Obligations.Reductions : Prop :=
  ∀ (s u : State) (e : EWord),
    let act := fun (i : Instr) => (List.range u.vl).filter (u.maskBit i e)
    (∀ w sg, e.isF = false → e.tI = .int w sg →
      let v := fun (i : Instr) (k : Nat) => asInt w sg (elt w (u.src i e.va) k)
      let seed := fun (i : Instr) => asInt w sg (u.bI i e 0)
      let put := fun (i : Instr) (x : Int) => exec i s = .next ((u.putElts e.vd w [some (fitInt w sg false x)]).wordDone i (s.olds i))
      let best := fun (i : Instr) (le : Int → Int → Prop) => s.feed i = .ok u →
        ∃ x, put i x ∧ (x = seed i ∨ ∃ k ∈ act i, x = v i k) ∧ le (seed i) x ∧ ∀ k ∈ act i, le (v i k) x
      (s.feed (.vredsum e) = .ok u →
        put (.vredsum e) (((act (.vredsum e)).map (v (.vredsum e))).foldr (· + ·) (seed (.vredsum e)))) ∧
      best (.vredmax e) (fun x y => x ≤ y) ∧ best (.vredmin e) (fun x y => y ≤ x)) ∧
    (e.isF = true →
      let f := e.fF
      let red := fun (i : Instr) (comb : Nat → Nat → Rounded) => s.feed i = .ok u →
        let es := (List.range u.vl).map (fun k => if u.maskBit i e k then some (elt f.width (u.src i e.va) k) else none)
        let r := match tree comb es with
          | (none, _) => ((u.bF i e 0, 0) : Rounded)
          | (some x, fl) => ((comb (u.bF i e 0) x).1, fl ||| (comb (u.bF i e 0) x).2)
        exec i s = .next (((u.putElts e.vd f.width [some r.1]).modH (fun h => h.raise r.2)).wordDone i (s.olds i))
      red (.vredsum e) (fun a b => fadd f (u.rm e) a b) ∧ red (.vredmax e) (fun a b => fminmax f true a b) ∧
      red (.vredmin e) (fun a b => fminmax f false a b)) ∧
    (∀ (comb : Nat → Nat → Rounded) (x y : Nat), tree comb [] = (none, 0) ∧ tree comb [some x] = (some x, 0) ∧
      tree comb [some x, none] = (some x, 0) ∧ tree comb [none, some y] = (some y, 0) ∧
      tree comb [some x, some y] = (some (comb x y).1, (comb x y).2)) ∧
    (let i : Instr := .vosm e
     s.feed i = .ok u →
      (act i = [] → exec i s = .next ((u.modR (fun r => { r with oscale := 0x3F800000 })).wordDone i (s.olds i))) ∧
      (act i ≠ [] →
        let z := softMax u.h.r.osmax.toNat u.h.r.ossum.toNat
          ((List.range u.vl).map (fun k => if u.maskBit i e k then some (elt 32 (u.src i e.va) k) else none))
        ∃ t : State, exec i s = .next (t.wordDone i (s.olds i)) ∧
          t = ((u.putElts e.vd 32 (z.1.map some)).modH (fun h => { h with r := { h.r with
            osmax := BitVec.ofNat 32 z.2.1, ossum := BitVec.ofNat 32 z.2.2.1, oscale := BitVec.ofNat 32 z.2.2.2.1 } })).modH (fun h => h.raise z.2.2.2.2))) ∧
    (let i : Instr := .vfnorm e
     s.feed i = .ok u →
      let x := fun (k : Nat) => if (BitVec.ofNat 31 u.h.r.ossum.toNat) = 0 then ((0, 0) : Rounded)
        else fdiv Fmt.f32 .rne (elt 32 (u.src i e.va) k) u.h.r.ossum.toNat
      exec i s = .next (((u.putElts e.vd 32 ((List.range u.vl).map (fun k => if u.maskBit i e k then some (x k).1 else none))).modH
        (fun h => h.raise ((act i).foldr (fun k fl => (x k).2 ||| fl) 0))).wordDone i (s.olds i)))

/-- Element loads and stores (R145, R148 to R150, R231, Table mem.2): contiguous, strided and indexed addresses; a load delivers every
active element or takes one trap and delivers none; an element may have been performed earlier, behind the loads that feed the word
(log entry 57); a store within the budget buffers every active element in element order, each in the buffer of the hart that holds it, and
changes neither registers nor memory; in a gang only the last store of a byte will leave (R149, R217). -/
def Obligations.ElementMemory : Prop :=
  ∀ (s u : State) (e : EWord),
    let n := e.wW / 8
    let base := u.snapS e.sreg
    let addrC := fun (k : Nat) => base + BitVec.ofNat 64 (k * n)
    let addrS := fun (k : Nat) => base + BitVec.ofNat 64 k * u.snapS e.sreg2
    let addrX := fun (i : Instr) (k : Nat) => base + BitVec.ofInt 64 (asInt e.wW true (elt e.wW (u.src i e.vb) k) * n)
    let act := fun (i : Instr) => (List.range u.vl).filter (u.maskBit i e)
    let load := fun (i : Instr) (addr : Nat → Word) => s.feed i = .ok u →
      (∀ (val : Nat → Nat) (t : Nat → Touch), (∀ k ∈ act i, u.loadOneAs (some (u.fedSince i)) (u.lane e.wW k) (addr k) n = .ok (val k, t k)) →
        exec i s = .next (((u.touchAll ((act i).map t)).putElts e.vd e.wW ((List.range u.vl).map (fun k =>
          if u.maskBit i e k then some (val k) else none))).wordDone i (s.olds i))) ∧
      (∀ k ∈ act i, ∀ t, u.loadOneAs (some (u.fedSince i)) (u.lane e.wW k) (addr k) n = .error t → ∃ x, exec i s = .next (s.abortTrap x) ∧
        failRank x.code ≤ failRank t.code ∧
        ∃ j ∈ act i, ∃ y, u.loadOneAs (some (u.fedSince i)) (u.lane e.wW j) (addr j) n = .error y ∧ y.code = x.code ∧ y.val = x.val)
    let store := fun (i : Instr) (addr : Nat → Word) => s.feed i = .ok u → u.Slots → u.GangOk →
      ∀ loc : Nat → Nat, (∀ k ∈ act i, ∃ x, u.storeOne (u.lane e.wW k) (addr k) n = .ok x ∧ x.loc = loc k) →
      let piece := fun (k : Nat) => spread (loc k) n (elt e.wW (u.src i e.vd) k)
      let bytes := fun (slot : BitVec 11) => ((act i).filter (fun k => (u.lane e.wW k).id == slot)).flatMap piece
      let order := (act i).flatMap (fun k => (piece k).map (fun b => (b.1, (u.lane e.wW k).id)))
      (∀ h ∈ u.gangHarts, h.used = 0 ∨ h.used + 8 * newWords h.buf (bytes h.id) ≤ h.limit) →
        ∃ t : State, exec i s = .next (t.wordDone i []) ∧ t = { u with h := t.h, others := t.others, copies := t.copies } ∧
          t.h = { u.h with
            buf := bufPut u.h.buf (bytes u.h.id), stale := t.h.stale, early := t.h.early, wva := t.h.wva, watched := t.h.watched
            watchedAt := t.h.watchedAt } ∧
          (u.h.gang = none → t.others = u.others ∧ t.h.stale = u.h.stale) ∧
          (∀ slot ∈ u.h.members, ∃ h y, u.hart? slot = some h ∧ t.hart? slot = some y ∧ y = { h with
            buf := bufPut h.buf (bytes slot), stale := y.stale, early := y.early, wva := y.wva }) ∧
          (∀ g, u.h.gang = some g → act i ≠ [] → ∀ slot ∈ g.ids, ∃ h y, u.hart? slot = some h ∧ t.hart? slot = some y ∧
            y.stale = ({ h with buf := y.buf } : Hart).shadowed order)
    load (.vld e) addrC ∧ load (.vlds e) addrS ∧ load (.vldx e) (addrX (.vldx e)) ∧
    store (.vst e) addrC ∧ store (.vsts e) addrS ∧ store (.vstx e) (addrX (.vstx e)) ∧
    (∀ (m bs : List (Nat × Byte)) (l : Nat), sfind (bufPut m bs) l = (match bs.reverse.find? (fun b => b.1 == l) with
      | some b => some b.2
      | none => sfind m l)) ∧
    (∀ (h : Hart) (ws : List (Nat × BitVec 11)) (l : Nat), l ∈ h.shadowed ws ↔ l ∈ h.buf.map Prod.fst ∧
      (match ws.reverse.find? (fun x => x.1 == l) with
       | some x => x.2 ≠ h.id
       | none => l ∈ h.stale))

/-- Element words that act between strips (R151 to R166, R231): `vamo` makes its pass over its active elements, which for one element
is that of an atomic, and delivers the old values, turning the writes before it where it releases and has an active element; `vwait`
goes on with c1 set when every word already meets its condition, or none is active, with c1 clear and the failing bits in kC at a
zero timeout, and otherwise parks; `vxlate` delivers an address for each active position; `kvput` sends the row and the scale and
keeps the column in Grout, beside those accumulated for the same tile; `kvflush` writes the tile back. -/
def Obligations.HomeWords : Prop :=
  ∀ (s u : State) (e : EWord), s.Quiet → s.h.replay = 0 →
    let c := s.closed
    let w := e.wW
    let act := fun (i : Instr) => (List.range u.vl).filter (u.maskBit i e)
    (let i : Instr := .vamo e
     c.feed i = .ok u →
      let put := fun (z : State) (olds : List (Nat × Nat)) =>
        let y := (if e.rnd.getLsbD 0 then z.ordered else z).putElts e.vd w ((List.range z.vl).map (fun k =>
          (olds.find? (fun o => o.1 == k)).map Prod.snd))
        (Host.Outcome.next ((y.modH (fun h => { h with amo := none })).wordSplitDone i (c.olds i)) : Res)
      let d := if e.rnd.getLsbD 1 && !(u.activeIdx i e).isEmpty then u.turnAllNow (nbits e.imm.toNat 10 3) else u
      (∀ es, u.h.amo = none → d.h.replay = 0 →
        allOrTrap ((d.activeIdx i e).map (fun k => d.homeProbe k (d.lane w k) (d.addrX i e k) (w / 8) .atomic true)) = .ok es →
        let r := d.amoPass w e.func.toNat (es.map (fun x =>
          { k := x.k, hart := x.hart.id, va := x.va, loc := x.x.loc, level := x.x.level, operand := elt w (d.src i e.va) x.k }))
        exec i s = put r.1 r.2) ∧
      (∀ a, u.h.amo = some a →
        let r := u.amoPass a.width a.op a.rest
        exec i s = put r.1 (a.olds ++ r.2)) ∧
      (∀ (x : AmoElt) (op : Nat), d.Canonical → d.h.replay = 0 →
        let old := d.homeNat x.loc (w / 8)
        (d.amoPass w op [x]).2 = [(x.k, old)] ∧
        ∀ j < w / 8, (d.amoPass w op [x]).1.homeByte (x.loc + j) = BitVec.ofNat 8 (atomicOp op w old x.operand / 256^j))) ∧
    (let i : Instr := .vwait e
     c.feed i = .ok u → u.h.replay = 0 →
      let fin := fun (z : State) => (Host.Outcome.next (z.wordSplitDone i (c.olds i)) : Res)
      let t := u.snapS e.sreg
      (act i = [] → exec i s = fin (u.ordered.modR (fun r => r.writeC 1 true))) ∧
      (∀ x : Nat → Xlat, act i ≠ [] →
        (∀ k ∈ act i, u.homeProbe k (u.lane w k) (BitVec.ofNat 64 (elt 64 (u.src i e.vd) k)) (w / 8) .read false =
          .ok { k := k, hart := u.lane w k, va := BitVec.ofNat 64 (elt 64 (u.src i e.vd) k), x := x k }) → u.h.trace = false →
        let met := fun (k : Nat) => u.homeReady (x k).level (sectorOf (x k).loc) &&
          waitCond e.f10.toNat (u.homeNat (x k).loc (w / 8)) (elt w (u.src i e.va) k)
        ((∀ k ∈ act i, met k = true) → exec i s = .next (((u.ordered.modR (fun r => r.writeC 1 true)).putBits (kOf e.vc) ((List.range u.vl).map
          (fun k => if u.maskBit i e k then some false else none))).wordSplitDone i [])) ∧
        ((∃ k ∈ act i, met k = false) → t = 0 → exec i s = .next (((u.ordered.modR (fun r => r.writeC 1 false)).putBits (kOf e.vc)
          ((List.range u.vl).map (fun k => if u.maskBit i e k then some (!(met k)) else none))).wordSplitDone i [])) ∧
        ((∃ k ∈ act i, met k = false) → t ≠ 0 → exec i s = .next (u.parkOn (.cells w e.f10 (kOf e.vc) (t ≠ BitVec.allOnes 64)
          ((act i).map (fun k => (k, (x k).loc, (x k).level, elt w (u.src i e.va) k, met k))))))) ) ∧
    (let i : Instr := .vxlate e
     ∀ (z : State), s.feed i = .ok z → ∀ (a : Nat → Word) (t : Nat → Touch),
      (∀ k < z.vl, z.maskBit i e k = true → z.xlateOne i e (z.lane 64 k) (BitVec.ofNat 64 (elt 64 (z.src i e.va) k)) =
        (.ok (a k), some (t k))) →
      exec i s = .next ((((z.touchAll (((List.range z.vl).filter (z.maskBit i e)).map t)).putElts e.vd 64 ((List.range z.vl).map (fun k =>
        if z.maskBit i e k then some (a k).toNat else none))).putBits (kOf e.vc) ((List.range z.vl).map (fun k =>
          if z.maskBit i e k then some false else none))).wordDone i (s.olds i))) ∧
    (let i : Instr := .kvput e
     c.feed i = .ok u →
      let p := BitVec.ofNat 64 (nbits (u.group e 4).toNat 0 48)
      let sh := nbits (u.group e 1).toNat 0 6
      (act i = [] → exec i s = .next (u.wordSplitDone i (c.olds i))) ∧
      (∀ q, act i ≠ [] → u.kvProbe i e p = .ok q →
        let at_ := fun (z : State) (k : KvElt) =>
          ({ hart := k.hart, va := p, x := { loc := k.loc, level := 3, pa := 0 }, n := w / 8, at_ := z.clock } : Touch)
        let begun := (q.elts.foldl (fun z k => z.inPlace (at_ z k)) (u.touch q.entry)).dropEarly q.scale 4
        let sent := (q.elts.foldl (fun z k => z.sendVia k.hart k.loc k.va.toNat (spread k.loc (w / 8) (elt w (u.src i e.va) k.k))) begun).sendVia
          u.h.id q.scale q.scaleVa.toNat (spread q.scale 4 ((u.group e 6).toNat % 2^32))
        let old := ((sent.core u.myCore).grout).filter (fun g => g.pa == q.tile && g.owner == u.h.id && g.live)
        let y := if old.isSome then sent else sent.writeBack u.myCore
        ∃ (z : State) (g : Grout),
          z = ({ y with
            h := { y.h with early := z.h.early, watched := z.h.watched, watchedAt := z.h.watchedAt }
            others := z.others } : State).setCore u.myCore { y.core u.myCore with grout := some g } ∧
          (u.h.gang = none → z.others = y.others) ∧
          (∀ m ∈ u.h.members, ∀ h, y.hart? m = some h → ∃ l, z.hart? m = some { h with early := l }) ∧
          (u.h.trace = false → z.h.watched = y.h.watched ∧ z.h.watchedAt = y.h.watchedAt) ∧
          (∀ x ∈ z.h.early, ∀ j < 16, z.tileLoc u.myCore g (128 * j) + 128 ≤ x.loc ∨ x.loc + x.n ≤ z.tileLoc u.myCore g (128 * j)) ∧
          g.pa = q.tile ∧ g.owner = u.h.id ∧ g.live = true ∧ g.mask = (old.map Grout.mask).getD 0 ||| BitVec.ofNat 16 (2^q.row) ∧
          (q.row < 2^sh → ∀ m < 2048 / (2^sh * (w / 8)), ∀ j < 2^sh, elt w g.tile.toNat (m * 2^sh + j) =
            if j = q.row then (if decide (m < u.vl) && u.maskBit i e m then elt w (u.src i e.vb) m else 0)
            else (old.map (fun x => elt w x.tile.toNat (m * 2^sh + j))).getD 0) ∧
          exec i s = .next ((if nbit (u.group e 4).toNat 63 && decide (q.row + 1 ≠ 2^sh) then z else z.writeBack u.myCore).wordSplitDone
            i (c.olds i)))) ∧
    (let i : Instr := .kvflush e
     c.feed i = .ok u → exec i s = .next ((u.writeBack u.myCore).wordSplitDone i (c.olds i)) ∧
      (∀ g, (u.core u.myCore).grout = some g → ((u.writeBack u.myCore).core u.myCore).grout = some { g with mask := 0 }) ∧
      (∀ g, (u.core u.myCore).grout = some g → g.mask ≠ 0 → ∀ j < 2048, ∃ o ∈ (u.writeBack u.myCore).flight,
        ∃ b ∈ o.bytes, b.1 = u.tileLoc u.myCore g j))

/-! ### What happens to the package -/

/-- Host registers (R264, R268, R313, R364, R366, Tables region.2, host.1, host.2): REGIONTAB and SESSTAB take their first write
alone; a work queue is configured only while it is empty; a reserved LOG2N leaves its field (log entry 42: R25 says so of
CSRs); a semaphore that is free is taken
by the port that reads it, and freed only by its holder's write of 0; WQSTAT clears its error by a 1, CRBASE takes a new base, the
network save area and the error counts store what is written, and a read-only offset ignores a write. A port whose link is down
reaches nothing. -/
def Obligations.HostRegisters : Prop :=
  ∀ (s : State) (port : BitVec 1) (i : BitVec 4) (q r : BitVec 12) (off : BitVec 20) (v : BitVec 64),
    let n := v.toNat
    let host := fun (h : HostRegs) => (Host.Outcome.next { s with host := h } : Res)
    let held : Word := BitVec.ofNat 64 (port.toNat + 1)
    (exec (.regiontab v) s = host (if s.host.regiontabSet then s.host
      else { s.host with regiontab := BitVec.ofNat 64 (n / 4096 * 4096), regiontabSet := true })) ∧
    (exec (.sesstab v) s = host (if s.host.sesstabSet then s.host
      else { s.host with sesstab := BitVec.ofNat 64 (n / 4096 * 4096), sesstabSet := true })) ∧
    (exec (.swapcb v) s = host { s.host with swapcb := BitVec.ofNat 64 (n / 128 * 128 + n % 2) }) ∧
    (s.portUp port = false → exec (.semRead port i) s = .next s ∧ exec (.semWrite port i v) s = .next s) ∧
    (s.portUp port = true →
      ((s.host.semOf i).toNat % 4 = 0 → ∃ t, exec (.semRead port i) s = .next t ∧ t = { s with host := t.host } ∧
        t.host.semOf i = held ∧ t.host.reply = .value held ∧ ∀ j, j ≠ i → t.host.semOf j = s.host.semOf j) ∧
      ((s.host.semOf i).toNat % 4 ≠ 0 → exec (.semRead port i) s = host { s.host with reply := .value (s.host.semOf i) }) ∧
      (v = 0 → s.host.semOf i = held → ∃ t, exec (.semWrite port i v) s = .next t ∧ t = { s with host := t.host } ∧
        t.host.semOf i = 0 ∧ ∀ j, j ≠ i → t.host.semOf j = s.host.semOf j) ∧
      (v ≠ 0 ∨ s.host.semOf i ≠ held → exec (.semWrite port i v) s = .next s)) ∧
    (let x := s.queue q.toNat
     (x.head ≠ x.tail → ∀ ctl, exec (.wqConfigWrite q ctl v) s = .next s) ∧
     (x.head = x.tail → ∃ t y, exec (.wqConfigWrite q true v) s = .next t ∧ t = { s with queues := t.queues } ∧ t.queue q.toNat = y ∧
        y.enable = v.getLsbD 20 ∧ y.root.toNat = n % 2^16 ∧ y.base = x.base ∧ y.head = y.tail ∧
        y.log2n.toNat = (if 4 ≤ n / 2^16 % 16 then n / 2^16 % 16 else x.log2n.toNat)) ∧
     (x.head = x.tail → ∃ t, exec (.wqConfigWrite q false v) s = .next t ∧ t = { s with queues := t.queues } ∧
        t.queue q.toNat = { x with base := BitVec.ofNat 64 (n / 64 * 64) })) ∧
    (let x := s.ring r.toNat
     (∃ t, exec (.crctlWrite r v) s = .next t ∧ t = { s with rings := t.rings } ∧ t.ring r.toNat = { x with
        enable := v.getLsbD 24, port := v.extractLsb' 23 1, vector := v.extractLsb' 0 11
        log2n := if 4 ≤ n / 2^16 % 32 ∧ n / 2^16 % 32 ≤ 20 then BitVec.ofNat 5 (n / 2^16 % 32) else x.log2n }) ∧
     (∃ t, exec (.crheadWrite r v) s = .next t ∧ t = { s with rings := t.rings } ∧
        t.ring r.toNat = { x with head := BitVec.ofNat 32 n }) ∧
     exec (.crtailRead r) s = host { s.host with reply := .value (x.tail.setWidth 64) }) ∧
    (exec (.hostRegisterWrite 0x218 v) s = host { s.host with cnsavea := BitVec.ofNat 64 (n / 4096 * 4096) }) ∧
    (exec (.hostRegisterWrite 0x220 v) s = host { s.host with cecnt := v }) ∧
    (exec (.hostRegisterWrite 0x228 v) s = host { s.host with uecnt := v }) ∧
    (off.toNat = 0x10000 + 64 * q.toNat + 32 → ∃ t, exec (.hostRegisterWrite off v) s = .next t ∧ t = { s with queues := t.queues } ∧
      t.queue q.toNat = { s.queue q.toNat with err := (s.queue q.toNat).err && !(v.getLsbD 7) } ∧
      ∀ j, j ≠ q.toNat → t.queue j = s.queue j) ∧
    (off.toNat = 0x80000 + 32 * r.toNat → ∃ t, exec (.hostRegisterWrite off v) s = .next t ∧ t = { s with rings := t.rings } ∧
      t.ring r.toNat = { s.ring r.toNat with base := BitVec.ofNat 64 (n / 16 * 16) } ∧ ∀ j, j ≠ r.toNat → t.ring j = s.ring j) ∧
    (off.toNat = 0 ∨ off.toNat = 0x010 ∨ off.toNat = 0x230 ∨ (0x400 ≤ off.toNat ∧ off.toNat < 0x600) ∨
      (0x10000 ≤ off.toNat ∧ off.toNat < 0x50000 ∧ off.toNat % 64 = 24) ∨
      (0x80000 ≤ off.toNat ∧ off.toNat < 0xA0000 ∧ off.toNat % 32 = 16) → exec (.hostRegisterWrite off v) s = .next s)

/-- What reaches the package through a port and on the outbound path (R217, R269, R318, R364, R367, R368): a posted write is on
its way by sector and changes no byte yet; a write in flight arrives whole, after the earlier ones of its writer to its bytes, and
leaves its sectors pending; a doorbell completes when every earlier posted write of its requester has arrived and been turned to
L3; a tail beyond the ring is reported with reason 7 (the bits of its value above the low 16 are ignored, log entry 94); a frame
doorbell that reaches a package in a warm reset is ignored (R365); a read passes no posted write of its port (log entry 24), and
answers bytes only where every sector is turned to L5, or a register's value. Own writes arrive before a hart's own reads, and a
write in flight arrives when the agenda names it (log entry 37). Of LINKST the die-to-die bit reads 0 on a one-die part (log entry
3). -/
def Obligations.HostTraffic : Prop :=
  ∀ (s : State) (port : BitVec 1) (req : BitVec 16) (off : BitVec 40) (len : BitVec 12) (q : BitVec 12) (v : BitVec 64)
    (bytes : List (BitVec 8)) (k : Nat),
    (s.portUp port = false → exec (.hostPostedWrite port req off bytes) s = .next s ∧ exec (.syncdb port req v) s = .next s ∧
      exec (.syncdbRead port req) s = .next s ∧ exec (.framedb port req v) s = .next s ∧ exec (.wqtail port req q v) s = .next s) ∧
    (s.portUp port = true →
      (s.memBytes < off.toNat + bytes.length → exec (.hostPostedWrite port req off bytes) s = .next (s.answer .unsupported)) ∧
      (off.toNat + bytes.length ≤ s.memBytes →
        ∃ t os, exec (.hostPostedWrite port req off bytes) s = .next t ∧ t = { s with flight := s.flight ++ os, host := t.host } ∧
          (∀ o ∈ os, o.src.host = some (port, req) ∧ o.src.pos = posUnit ∧ ∃ c, ∀ b ∈ o.bytes, sectorOf b.1 = c) ∧
          (∀ l b, (∃ o ∈ os, (l, b) ∈ o.bytes) ↔ ∃ j, bytes[j]? = some b ∧ l = off.toNat + j)) ∧
      (∃ t, exec (.syncdb port req v) s = .next t ∧ t = s.doorbell port req ∧ (∀ o ∈ t.flight, o.src.host ≠ some (port, req)) ∧
        (∀ u ∈ t.host.uncovered, ¬(u.1 = port ∧ u.2.1 = req)) ∧
        (s.Canonical → ∀ u ∈ s.host.uncovered, u.1 = port → u.2.1 = req →
          entryState (t.entry u.2.2) ≠ 6 ∧ 3 ≤ entryState (t.entry u.2.2))) ∧
      exec (.syncdbRead port req) s = .next (s.answer (.value 0)) ∧
      (let d := s.doorbell port req
       let id := v.toNat / 2^16 % 2^24
       let x := d.sess id
       (s.host.warmBusy = true → exec (.framedb port req v) s = .next d) ∧
       (s.host.warmBusy = false →
         (x.state = 0 → d.holdsRecord (0x07, 0) = false → exec (.framedb port req v) s = .next (d.lateFrame x 3 0)) ∧
         (x.state = 0 → d.holdsRecord (0x07, 0) = true → exec (.framedb port req v) s = .next d) ∧
         (1 ≤ x.state → x.state ≤ 5 → exec (.framedb port req v) s = .next (d.putCount x 8 (v.toNat % 2^16))) ∧
         (x.state = 6 → exec (.framedb port req v) s = .next ((d.putCount x 8 (v.toNat % 2^16)).resume id))) ∧
       (s.Canonical → (d.putCount x 8 (v.toNat % 2^16)).ftail x.fq = v.toNat % 2^16)) ∧
      (let d := s.doorbell port req
       let x := d.queue q.toNat
       let n := 2 ^ x.log2n.toNat
       let w := v.toNat % 2^16
       let ahead := fun (a : Nat) => (a + n - x.head.toNat) % n
       ∃ t, exec (.wqtail port req q v) s = .next t ∧ t = { d with queues := t.queues } ∧
         (w < n → ahead x.tail.toNat < ahead w → (t.queue q.toNat).tail.toNat = w ∧ (t.queue q.toNat).head = x.head ∧
           (t.queue q.toNat).err = x.err) ∧
         (n ≤ w ∨ ahead w < ahead x.tail.toNat → t.queue q.toNat = { x with err := true, reason := 7 }))) ∧
    (s.portUp port = false → ∀ bar0, exec (.hostMemoryRead ⟨port, bar0, off⟩ len) s = .next s) ∧
    (s.portUp port = true → ∀ bar0, exec (.hostMemoryRead ⟨port, bar0, off⟩ len) s =
      exec (.hostMemoryRead ⟨port, bar0, off⟩ len) (s.arriveIf (fun o => (o.src.host.map Prod.fst) == some port))) ∧
    (s.portUp port = true → (∀ o ∈ s.flight, (o.src.host.map Prod.fst) ≠ some port) →
      let secs := fun (c : Nat) => off.toNat / 32 ≤ c ∧ c ≤ (off.toNat + len.toNat - 1) / 32
      let reg := off.toNat % 2^20
      let value := fun (x : Word) => exec (.hostMemoryRead ⟨port, true, off⟩ len) s = .next (s.answer (.value x))
      (s.memBytes < off.toNat + len.toNat → exec (.hostMemoryRead ⟨port, false, off⟩ len) s = .next (s.answer .unsupported)) ∧
      (off.toNat + len.toNat ≤ s.memBytes → 0 < len.toNat →
        ((∀ c, secs c → s.poisoned c = false ∧ entryState (s.entry c) = 5) →
          exec (.hostMemoryRead ⟨port, false, off⟩ len) s =
            .next (s.answer (.bytes ((List.range len.toNat).map (fun i => s.homeByte (off.toNat + i)))))) ∧
        ((∃ c, secs c ∧ (s.poisoned c = true ∨ entryState (s.entry c) = 6 ∨ entryState (s.entry c) < 5)) →
          exec (.hostMemoryRead ⟨port, false, off⟩ len) s = .next (s.answer .completerAbort))) ∧
      (∀ i : BitVec 4, reg = 0x100 + 8 * i.toNat → exec (.hostMemoryRead ⟨port, true, off⟩ len) s = exec (.semRead port i) s) ∧
      (reg = 0x200 → value s.host.regiontab) ∧ (reg = 0x208 → value s.host.sesstab) ∧ (reg = 0x210 → value s.host.swapcb) ∧
      (reg = 0x218 → value s.host.cnsavea) ∧ (reg = 0x220 → value s.host.cecnt) ∧ (reg = 0x228 → value s.host.uecnt) ∧
      (reg = 0x230 → value ((if s.twoDie then s.host.linkst else s.host.linkst &&& 0x3FFFF).setWidth 64)) ∧
      (reg = 0x000 → value (BitVec.ofNat 64 ((if s.twoDie then 0xB602 else 0xB601) * 2^48 + port.toNat)))) ∧
    (∀ o, s.flight[k]? = some o →
      ((∃ p ∈ s.flight.take k, p.src.same o.src = true ∧ ∃ b ∈ p.bytes, ∃ c ∈ o.bytes, b.1 = c.1) →
        exec (.storeArrival k) s = .next s) ∧
      (s.heldUp o = true → exec (.storeArrival k) s = .next s) ∧
      (s.Canonical → s.heldUp o = false → (∀ p ∈ s.flight.take k, p.src.same o.src = true → ∀ b ∈ p.bytes, ∀ c ∈ o.bytes, b.1 ≠ c.1) →
        ∃ t, exec (.storeArrival k) s = .next t ∧ t.flight = s.flight.eraseIdx k ∧ t.h = s.h ∧
          (∀ l b, (l, b) ∈ o.bytes → (∀ c, (l, c) ∈ o.bytes → c = b) → t.homeByte l = b ∧ entryState (t.entry (sectorOf l)) = 6 ∧
            entryPos (t.entry (sectorOf l)) = o.src.pos) ∧
          (∀ l, (∀ b, (l, b) ∉ o.bytes) → t.homeByte l = s.homeByte l) ∧
          (∀ c, (∀ b ∈ o.bytes, sectorOf b.1 ≠ c) → t.entry c = s.entry c)))

/-- Records and starts (R267, R269 to R273, R282, R286, R287): an event record reaches its target behind the earlier ones sent there and
the earlier ones of its producer (log entries 45 and 63), and stays where there is no room; the record at a queue's head is rejected
with its reason, the lowest (log entry 61), or held, one for each queue (log entry 44); a held record starts a hart with its ARG in
s1 at its entry; the head of a die's pool is dispatched, and its TCB says RUNNING. Where the region's control block is not turned
far enough the start is rejected and the task FAULTED (log entry 64). A warm reset takes no record and dispatches no task (R365). -/
def Obligations.Launching : Prop :=
  ∀ (s : State) (k : Nat) (q : BitVec 12) (die : BitVec 1), s.Canonical → s.Slots →
    (∀ p, s.posted[k]? = some p →
      let behind := (s.posted.take k).any (fun x => x.target == p.target || producer x.record == producer p.record)
      (behind = true → exec (.eventRecordWrite k) s = .next s) ∧
      (behind = false →
        (p.target.getLsbD 31 = false →
          let c : BitVec 10 := p.target.extractLsb' 1 10
          let room := 2 ^ ((s.core c).evq.toNat / 256 % 16 + 8)
          (room ≤ (s.core c).evTail - (s.core c).evHead → exec (.eventRecordWrite k) s = .next s) ∧
          (∀ loc, (s.core c).evTail - (s.core c).evHead < room → s.evqLoc c (s.core c).evTail = some loc →
            ∃ t, exec (.eventRecordWrite k) s = .next t ∧ (t.core c).evTail = (s.core c).evTail + 1 ∧
              t.homeNat loc 16 = p.record.toNat ∧ t.posted = s.posted.eraseIdx k)) ∧
        (p.target.getLsbD 31 = true →
          let n := p.target.toNat % 2^12
          let r := sget Ring.reset s.rings n
          let room := 2 ^ r.log2n.toNat
          (r.enable = false ∨ room ≤ (r.tail - r.head).toNat → exec (.eventRecordWrite k) s = .next s) ∧
          (r.enable = true → (r.tail - r.head).toNat < room →
            ∃ t, exec (.eventRecordWrite k) s = .next t ∧ sget Ring.reset t.rings n = { r with tail := r.tail + 1 } ∧ t.h = s.h ∧
              t.homeNat (hostLoc r.port (r.base.toNat + 16 * (r.tail.toNat % room))) 16 = p.record.toNat ∧
              t.posted = s.posted.eraseIdx k ∧ (r.tail = r.head → t.host.msix = s.host.msix ++ [(r.port, r.vector)]) ∧
              (r.tail ≠ r.head → t.host.msix = s.host.msix))))) ∧
    (let x := s.queue q.toNat
     let loc := x.base.toNat + 64 * x.head.toNat
     let r := BitVec.ofNat 512 (s.homeNat loc 64)
     let held := s.starts.any (fun h => h.queue == q) || s.holdsRecord (0x01, q.toNat)
     (s.host.warmBusy = true ∨ x.enable = false ∨ x.head = x.tail ∨ held = true → exec (.workQueueTake q) s = .next s) ∧
     (s.host.warmBusy = false → x.enable = true → x.head ≠ x.tail → held = false →
       (s.unitReadable loc 64 = false → exec (.workQueueTake q) s = .next (s.rejectHead q.toNat 8 none)) ∧
       (s.unitReadable loc 64 = true →
         (s.startReason x.root r = 0 → exec (.workQueueTake q) s =
           .next { s with starts := s.starts ++ [{ queue := q, record := r, time := x.bellTime }] }) ∧
         (s.startReason x.root r ≠ 0 → exec (.workQueueTake q) s = .next (s.rejectHead q.toNat (s.startReason x.root r) (some r))) ∧
         (s.startReason x.root r = 0 → startField r 0 8 % 4 = 0 ∧ s.regionValid (BitVec.ofNat 16 (startField r 16 2)) = true ∧
           x.root ∈ (s.chain (BitVec.ofNat 16 (startField r 16 2))).getD [] ∧
           1 ≤ startField r 18 1 % 16 ∧ startField r 18 1 % 16 ≤ startField r 18 1 / 16 % 16 ∧ startField r 18 1 / 16 % 16 ≤ 8)))) ∧
    (∀ h, s.starts[k]? = some h → s.replayOf h.region = 0 → firstBy s.startBefore (s.starts.filter s.startNow) = some h →
      s.regionValid h.region = false → exec (.hartStart k) s =
        .next (({ s with starts := s.starts.filter (fun x => x.queue ≠ h.queue) } : State).rejectHead h.queue.toNat 2 (some h.record))) ∧
    (∀ h id, s.starts[k]? = some h → s.replayOf h.region = 0 → firstBy s.startBefore (s.starts.filter s.startNow) = some h →
      s.regionValid h.region = true → s.startSlot h = some id → exec (.hartStart k) s = .next (s.start h id) ∧
      (startGang h.record = 1 → ∃ y, (s.start h id).hart? id = some y ∧ y.pc.toNat = startField h.record 0 8 ∧
        (y.r.readS 1).toNat = startField h.record 8 8 ∧ (∀ j, j ≠ 1 → y.r.readS j = 0) ∧ y.region = h.region ∧ y.cur = 0 ∧
        y.min.toNat = startField h.record 18 1 % 16 ∧ y.pref.toNat = startField h.record 18 1 / 16 % 16 ∧ y.stripn = 0 ∧
        (y.st = .ready ∨ y.st = .running))) ∧
    ((s.starts[k]? = none → exec (.hartStart k) s = .next s) ∧
     (s.poolTasks die = [] ∨ s.host.warmBusy = true → exec (.taskDispatch die) s = .next s)) ∧
    (∀ t, s.host.warmBusy = false → s.poolHead die = some t → (∀ x ∈ s.poolTasks die, s.replayOf x.region ≠ 2) →
      (s.regionValid t.region = false → s.holdsRecord (0x03, (homeDie t.tcb).toNat) = true → exec (.taskDispatch die) s = .next s) ∧
      (s.regionValid t.region = false → s.holdsRecord (0x03, (homeDie t.tcb).toNat) = false → ∃ y, exec (.taskDispatch die) s = .next y ∧
        y.homeNat (t.tcb + 19) 1 = 5 ∧ y.homeNat (t.tcb + 108) 1 = causeUnturned.toNat) ∧
      (∀ id, s.regionValid t.region = true → s.taskSlot die.toNat t = some id →
        exec (.taskDispatch die) s = .next (s.dispatch t id) ∧ (s.dispatch t id).homeNat (t.tcb + 19) 1 = 3 ∧
        ∃ y, (s.dispatch t id).hart? id = some y ∧ y.pc = t.entry ∧ y.r.readS 1 = t.arg ∧ y.region = t.region ∧ y.cur = 0 ∧
          y.prio = t.prio ∧ y.origin = .task t.tcb))

/-- The swap engine's requests (R340, R341, R345): one is taken at a time; one that breaks Table swap.2 ends with STATUS 0x04; an
eviction copies the resident blocks or the page to flash and changes no entry until it commits: beginning one writes nothing but
the slot map and the ring's HEAD; the commit needs an IDLE session without a posted frame, or an entry as it was copied; then
entries are released one at a time: an entry goes to flash with its slot first, and its PBN, once the return ring has room, to
that; a session that has begun its resume meanwhile goes on with it, as a session does whose resume began while the engine was
stopped. A fetch request that finds the supply ring empty ends with STATUS 0x03 (log entry 68). -/
def Obligations.SwapRequests : Prop :=
  ∀ (s : State),
    (s.nextRequest = none → exec .evictSession s = .next s ∧ exec .evictPage s = .next s ∧
      (s.toResume = none → exec .fetchSession s = .next s) ∧
      (∀ id, s.toResume = some id → exec .fetchSession s = .next (({ s with resumes := s.resumes.tail } : State).resumeDone id))) ∧
    (∀ q, s.nextRequest = some q →
      let u := s.takeRequest q
      let done := s.cbLoc + 12
      let map := s.cb 88 8
      (q.kind ≠ 2 → q.kind ≠ 3 → s.requestOk q = false → exec .evictSession s = .next (u.endRequest q 4)) ∧
      (q.kind = 1 → s.requestOk q = true →
        let x := s.sess q.object.toNat
        let c := u.copyBlocks x q.etype.toNat 0 x.blocks []
        (s.Canonical → (map + s.cb 80 4 / 8 < s.cbLoc ∨ s.cbLoc + 128 ≤ map) → ∃ t, exec .evictSession s = .next t ∧
          ∀ l, (l < done ∨ done + 4 ≤ l) → (l < map ∨ map + s.cb 80 4 / 8 < l) → t.homeByte l = s.homeByte l) ∧
        (c.2.2 = 0 → exec .evictSession s = .next { c.1 with evict := some { req := q, copied := c.2.1, committed := false } }) ∧
        (c.2.2 ≠ 0 → exec .evictSession s = .next (c.1.dropEviction q c.2.1 c.2.2))) ∧
      (q.kind = 3 → s.requestOk q = false → exec .evictPage s = .next (u.endRequest q 4)) ∧
      (∀ e p w slot, q.kind = 3 → s.requestOk q = true → q.object.toNat < 2^57 →
        u.pageEntry (u.resolved q.region 8 72 8) q.object.toNat 4 = some (e, p) → pteBad p = false → nbit p 0 = true → nbit p 8 = false →
        u.takeSlot q.region = some (w, slot) → w.unitReadable (u.unitLoc (nbits p 12 40 * 4096)) 4096 = true →
        exec .evictPage s = .next { w.flashWrite slot (pageSlot (w.cb 19 1) (q.object.toNat / 4096 * 4096)
          ((List.range 4096).map (fun i => w.homeByte (u.unitLoc (nbits p 12 40 * 4096) + i)))) with
            nvme := w.nvme ++ [{ object := e, op := .write, retried := false }]
            evict := some { req := q, copied := [(e, slot, p)], committed := false } }) ∧
      (q.kind = 2 → s.requestOk q = false → exec .fetchSession s = .next (u.endRequest q 4)) ∧
      (q.kind = 2 → s.requestOk q = true → (u.sess q.object.toNat).state ≠ 6 → exec .fetchSession s = .next (u.endRequest q 1)) ∧
      (q.kind = 2 → s.requestOk q = true → (u.sess q.object.toNat).state = 6 → u.supplyEmpty = true → (u.sess q.object.toNat).g ≠ 0 →
        exec .fetchSession s = .next (u.endRequest q 3)) ∧
      (q.kind = 2 → s.requestOk q = true → (u.sess q.object.toNat).state = 6 → u.supplyEmpty = false ∨ (u.sess q.object.toNat).g = 0 →
        exec .fetchSession s = .next (({ u with evict := some { req := q, copied := [], committed := true } } : State).resume q.object.toNat))) ∧
    (s.evict = none → exec .swapRelease s = .next s) ∧
    (∀ v, s.evict = some v → v.req.kind ≠ 2 →
      (v.committed = false →
        let busy := s.nvme.any (fun n => n.op == .write && v.copied.any (fun d => d.1 == n.object))
        let x := s.sess v.req.object.toNat
        (busy = true → exec .swapRelease s = .next s) ∧
        (busy = false → v.req.kind ≠ 3 → x.state = 1 → s.fhead x.fq = s.ftail x.fq →
          exec .swapRelease s = .next { s.putSess { x with state := 6 } with evict := some { v with committed := true } }) ∧
        (busy = false → v.req.kind ≠ 3 → ¬(x.state = 1 ∧ s.fhead x.fq = s.ftail x.fq) →
          exec .swapRelease s = .next (s.dropEviction v.req v.copied 1)) ∧
        (∀ e slot p rest, busy = false → v.req.kind = 3 → v.copied = (e, slot, p) :: rest →
          (s.homeNat e 8 = p → ∃ t, exec .swapRelease s = .next t ∧ t.evict = some { v with committed := true } ∧
            (s.Canonical → nbits (t.homeNat e 8) 0 1 = 0 ∧ nbits (t.homeNat e 8) 12 40 = slot % 2^40 ∧ nbits (t.homeNat e 8) 60 4 = 8)) ∧
          (s.homeNat e 8 ≠ p → exec .swapRelease s = .next (s.dropEviction v.req v.copied 4)))) ∧
      (∀ p, v.committed = true → v.pbn = some p →
        let r := if v.req.kind = 3 then v.req.region else (s.sess v.req.object.toNat).region
        (s.returnRoom = false → exec .swapRelease s = .next s) ∧
        (s.returnRoom = true → exec .swapRelease s = .next (({ s with evict := some { v with pbn := none } } : State).returnPbn r p))) ∧
      (v.committed = true → v.pbn = none → v.copied = [] →
        let t := s.endRequest v.req 0
        let id := v.req.object.toNat
        (v.req.kind = 3 ∨ (t.sess id).state ≠ 5 → exec .swapRelease s = .next t) ∧
        (v.req.kind = 1 → (t.sess id).state = 5 → t.swapOn = false ∨ t.lbaOk = false → exec .swapRelease s =
          .next { t.resumeFetches id with resumes := t.resumes ++ [id] }) ∧
        (v.req.kind = 1 → (t.sess id).state = 5 → t.swapOn = true → t.lbaOk = true →
          exec .swapRelease s = .next ((t.resumeFetches id).resumeDone id))) ∧
      (∀ d rest, v.committed = true → v.pbn = none → v.copied = d :: rest →
        exec .swapRelease s = .next (s.releaseOne v d rest) ∧
        (v.req.kind ≠ 3 → s.homeNat d.1 4 = d.2.2 →
          let w : Eviction := { v with copied := rest }
          let r := (s.sess v.req.object.toNat).region
          let z := ({ s with evict := some w } : State).unitPut r d.1 4 (d.2.1 + 8 * 2^28)
          (s.Canonical → d.2.1 < 2^28 → z.homeNat d.1 4 = d.2.1 + 8 * 2^28) ∧
          (z.returnRoom = true → s.releaseOne v d rest = z.returnPbn r (nbits d.2.2 0 28)) ∧
          (z.returnRoom = false → s.releaseOne v d rest = { z with evict := some { w with pbn := some (nbits d.2.2 0 28) } })) ∧
        (v.req.kind ≠ 3 → s.homeNat d.1 4 ≠ d.2.2 →
          s.releaseOne v d rest = ({ s with evict := some { v with copied := rest } } : State).freeFlash
            (s.sess v.req.object.toNat).region d.2.1)))

/-- Fetches and the flash device (R342 to R347, R370): the first fetch in priority marks its entry in flight and takes a PBN from
the ring, for which an empty ring makes it wait, and one of a block that a build under way frees or zeroes waits for that (R322);
when its slot has been read the data is written and the entry set resident; a command that fails is retried once, and at a second
failure the error is counted, a write that failed leaves its entry on flash (log entry 69), the request it serves ends with STATUS
0x05 and the owning region is ended. An admin command that completes is followed by the next, until the I/O queue pair stands (log
entry 77). A page written to a slot reads back from it. -/
def Obligations.SwapFetches : Prop :=
  ∀ (s : State) (k : Nat),
    (∀ f, s.fetches[k]? = some f → f.started = none →
      (s.entryAway f.entry f.page = false →
        (s.overRoom f = true → exec (.swapFetchStart k) s = .next (s.fetchOver f)) ∧
        (s.overRoom f = false → exec (.swapFetchStart k) s = .next s)) ∧
      (s.entryAway f.entry f.page = true → s.swapOn = false → s.fetchBegun f = false → exec (.swapFetchStart k) s = .next s) ∧
      (s.entryAway f.entry f.page = true → s.buildCut f.entry = true → exec (.swapFetchStart k) s = .next s) ∧
      (s.entryAway f.entry f.page = true → s.swapOn = true ∨ s.fetchBegun f = true → s.lbaOk = true →
        (firstBy fetchBefore s.startable).map Prod.fst = some k →
        let g : Fetch := { f with region := s.entryRegion f }
        let m := s.markInFlight g
        (s.Canonical → f.page = true → nbits (m.homeNat f.entry 8) 60 4 = 9) ∧
        (s.Canonical → f.page = false → blockState (m.homeNat f.entry 4) = 9) ∧
        (m.cb 48 4 = m.cb 52 4 → exec (.swapFetchStart k) s = .next m) ∧
        (m.cb 48 4 ≠ m.cb 52 4 → ∃ t, exec (.swapFetchStart k) s = .next t ∧
          t.fetches = s.fetches.set k { g with
            started := some (m.entrySlot f, m.homeNat (m.cb 40 8 + 4 * (m.cb 52 4 % 2 ^ m.cb 17 1)) 4) } ∧
          t.nvme = s.nvme ++ [{ object := f.entry, op := .read, retried := false }] ∧ t.h = s.h))) ∧
    (∀ f slot pbn, s.fetches[k]? = some f → f.started = some (slot, pbn) →
      (f.landed = false ∨ s.overRoom f = false → exec (.swapFetchComplete k) s = .next s) ∧
      (f.landed = true → s.overRoom f = true → s.entryAway f.entry f.page = true →
        (∀ d sc, s.slotData f.page slot = some (d, sc) →
          let t := ((({ s with landings := s.landings + 1 } : State).makeResident f slot pbn d sc)).fetchOver f
          exec (.swapFetchComplete k) s = .next t) ∧
        (s.slotData f.page slot = none → s.holdsRecord (0x05, 0) = true → exec (.swapFetchComplete k) s = .next s) ∧
        (s.slotData f.page slot = none → s.holdsRecord (0x05, 0) = false → exec (.swapFetchComplete k) s =
          .next ((({ s with fetches := s.fetches.eraseIdx k } : State).charge f.region false).flashFailed f.region f.entry
            (s.requestOf f))))) ∧
    (∀ n, s.nvme[k]? = some n →
      let rest : State := { s with nvme := s.nvme.eraseIdx k }
      (s.submitted k n = false → ∀ ok, exec (.nvmeCompletion k ok) s = .next s) ∧
      (s.submitted k n = true →
        (n.retried = false → exec (.nvmeCompletion k false) s = .next { s with nvme := s.nvme.set k { n with retried := true } }) ∧
        (n.op = .read → exec (.nvmeCompletion k true) s = .next { rest with
          fetches := s.fetches.map (fun g => if g.entry = n.object then { g with landed := true } else g) }) ∧
        (n.op = .write ∨ n.op = .deallocate → exec (.nvmeCompletion k true) s = .next rest) ∧
        (n.op.isAdmin = false → n.retried = true → s.holdsRecord (0x05, 0) = true → exec (.nvmeCompletion k false) s = .next s) ∧
        (∀ f, n.retried = true → n.op = .read → s.holdsRecord (0x05, 0) = false →
          s.fetches.find? (fun f => f.entry == n.object) = some f →
          exec (.nvmeCompletion k false) s = .next ((({ rest with
            fetches := s.fetches.filter (fun g => g.entry ≠ n.object) } : State).charge f.region false).flashFailed
              f.region n.object (s.requestOf f))) ∧
        (∀ v, n.retried = true → n.op = .write → s.holdsRecord (0x05, 0) = false → s.evict = some v →
          let r := if v.req.kind = 3 then v.req.region else (s.sess v.req.object.toNat).region
          exec (.nvmeCompletion k false) s = .next ((({ s with
            nvme := (s.nvme.eraseIdx k).filter (fun m => !(m.op == .write)) } : State).failedWrite v n.object r).flashFailed r n.object
              (some v.req))) ∧
        (let next := fun (op : NvmeOp) => ({ s with nvme := s.nvme.eraseIdx k ++ [{ object := n.object, op := op, retried := false }] } : State)
         (n.op = .identify → exec (.nvmeCompletion k true) s = .next (next .createCq)) ∧
         (n.op = .createCq → exec (.nvmeCompletion k true) s = .next (next .createSq)) ∧
         (n.op = .createSq → exec (.nvmeCompletion k true) s = .next { rest with pairs := s.pairs + 1 }) ∧
         (n.op = .getLogPage → exec (.nvmeCompletion k true) s = .next rest) ∧
         (n.retried = true → n.op ∈ [.identify, .createCq, .createSq] → exec (.nvmeCompletion k false) s = .next (next .getLogPage))))) ∧
    (∀ (region r : BitVec 16) (at_ : Nat) (q : Option SwapRequest) (v : Eviction),
      (s.flashFailed region at_ q).host.uecnt = s.host.uecnt + 1 ∧
      (∀ d, s.Canonical → v.copied.find? (fun d => d.1 == at_) = some d → d.2.1 < 2^28 → v.req.kind ≠ 3 → s.homeNat at_ 4 = d.2.2 →
        (s.failedWrite v at_ r).homeNat at_ 4 = d.2.1 + 8 * 2^28)) ∧
    (∀ (slot origin : Nat) (data : List Byte), canonical 0 s.flash = true → data.length = 4096 → (s.cb 19 1 = 9 ∨ s.cb 19 1 = 12) →
      (s.flashWrite slot (pageSlot (s.cb 19 1) origin data)).slotData true slot = some (data, []))

/-- Errors, links and power (R337, R348, R349, R363, R366, R371, R374): a corrected error is counted; an uncorrectable one is
counted, poisons its sector and ends the owning region, or, in what a hart holds, the hart's region (log entry 79; the address in
the event of an error that lies in a scratchpad is log entry 76), or, in a copy, only drops the copy; while the unit holds an
earlier record of an error it waits (log entry 63); the strip that met it aborts; on the die-to-die link the data may be homed
anywhere, and of host memory the accessing hart's region stands for its owner (the model's choice, log entry 101); a link that
fails shows in LINKST and may lose a token, whose network is then TORN and closed and whose `takenum` waits at its entry again
(log entry 71); an access without a path traps PROT at its timeout, a save stops as at a fault of a store of it (R308), and an
engine command's is reported; a port that goes down frees the semaphores it held; the cap moves the clock by one sixteenth, within
one and sixteen of them, but not under intrusive profiling; above 115 °C the package stops. -/
def Obligations.ErrorsAndLinks : Prop :=
  ∀ (s : State) (core : BitVec 10) (pa : BitVec 52) (link : BitVec 5) (port : BitVec 1),
    let counted : State := { s with host := { s.host with cecnt := s.host.cecnt + 1 } }
    let worse : HostRegs := { s.host with uecnt := s.host.uecnt + 1 }
    let free := !(s.holdsRecord (0x05, 0))
    (∀ loc, s.arrayLoc core pa = some loc →
      let sec := sectorOf loc
      let bad : State := { s with
        poison := if s.poisoned sec then s.poison else s.poison ++ [{ sector := sec, parts := [] }]
        host := worse }
      exec (.skimScrub ⟨core, pa⟩ true) s = .next counted ∧
      (free = true → exec (.skimScrub ⟨core, pa⟩ false) s = .next (bad.endRegion (entryOwner (s.entry sec)) (physOf (32 * sec)))) ∧
      (free = false → exec (.skimScrub ⟨core, pa⟩ false) s = .next s) ∧
      exec (.uncorrectableError ⟨⟨core, pa⟩, none, none, false⟩) s = exec (.skimScrub ⟨core, pa⟩ false) s ∧ bad.poisoned sec = true ∧
      (s.h.st ≠ .free → s.h.gang = none → free = true →
        (s.h.stripOpen = true → s.under s.h.region (entryOwner (s.entry sec)) = false →
          exec (.uncorrectableError ⟨⟨core, pa⟩, some s.h.id, none, false⟩) s = exec (.skimScrub ⟨core, pa⟩ false) (s.rollback false)) ∧
        (s.h.stripOpen = false ∨ s.under s.h.region (entryOwner (s.entry sec)) = true →
          exec (.uncorrectableError ⟨⟨core, pa⟩, some s.h.id, none, false⟩) s = exec (.skimScrub ⟨core, pa⟩ false) s)) ∧
      (∀ a, (∃ x ∈ s.copies, x.sector = sec) → exec (.uncorrectableError ⟨⟨core, pa⟩, a, none, true⟩) s =
        .next { counted with copies := s.copies.filter (fun x => x.sector ≠ sec) }) ∧
      (∀ a, (∀ x ∈ s.copies, x.sector ≠ sec) → exec (.uncorrectableError ⟨⟨core, pa⟩, a, none, true⟩) s = .next s)) ∧
    (s.twoDie = true → ∀ loc lv, s.locate 0 pa.toNat = some (loc, lv) →
      let sec := sectorOf loc
      let owner := entryOwner (s.entry sec)
      let ended := fun (u : State) (r : BitVec 16) => (Host.Outcome.next (({ u with
        poison := if u.poisoned sec then u.poison else u.poison ++ [{ sector := sec, parts := [] }]
        host := { u.host with uecnt := u.host.uecnt + 1 } } : State).endRegion r (physOf (32 * sec))) : Res)
      (free = false → ∀ a, exec (.dieLinkError ⟨pa, a⟩ false) s = .next s) ∧
      (free = true →
        exec (.dieLinkError ⟨pa, none⟩ false) s = ended s owner ∧
        (s.h.st ≠ .free → s.h.gang = none →
          (isHost loc = true → s.under s.h.region s.h.region = true → exec (.dieLinkError ⟨pa, some s.h.id⟩ false) s = ended s s.h.region) ∧
          (isHost loc = false →
            (s.h.stripOpen = true → s.under s.h.region owner = false →
              exec (.dieLinkError ⟨pa, some s.h.id⟩ false) s = ended (s.rollback false) owner) ∧
            (s.h.stripOpen = false ∨ s.under s.h.region owner = true → exec (.dieLinkError ⟨pa, some s.h.id⟩ false) s = ended s owner))))) ∧
    (s.arrayLoc core pa = none → ∀ a b, exec (.skimScrub ⟨core, pa⟩ b) s = .next s ∧
      exec (.uncorrectableError ⟨⟨core, pa⟩, a, none, b⟩) s = .next s) ∧
    (∀ a b id h, s.hart? id = some h →
      (free = true → exec (.uncorrectableError ⟨⟨core, pa⟩, a, some id, b⟩) s =
        .next (({ s with host := worse } : State).endRegion h.region pa.toNat)) ∧
      (free = false → exec (.uncorrectableError ⟨⟨core, pa⟩, a, some id, b⟩) s = .next s)) ∧
    (∀ a, (s.twoDie = true → exec (.dieLinkError ⟨pa, a⟩ true) s = .next counted) ∧
      (s.twoDie = true → s.locate 0 pa.toNat = none → exec (.dieLinkError ⟨pa, a⟩ false) s = .next s) ∧
      (s.twoDie = false → ∀ b, exec (.dieLinkError ⟨pa, a⟩ b) s = .next s)) ∧
    (link.toNat < 19 →
      (∃ t, exec (.linkFault link none) s = .next t ∧ t = { s with host := { s.host with linkst := t.host.linkst } } ∧
        ∀ j < 19, t.host.linkst.getLsbD j = (if j = link.toNat then false else s.host.linkst.getLsbD j)) ∧
      (∀ m k x, (s.net m).tokens[k]? = some x → x.hart = s.h.id → s.h.st ≠ .free → s.h.preempt = false →
        ∃ t, exec (.linkFault link (some (m, k))) s = .next t ∧ (t.net m).torn = true ∧ (t.net m).closed = true ∧
          (t.net m).tokens = (s.net m).tokens.eraseIdx k ∧ t.h = { s.h with wait := .retry } ∧
          t.host.linkst.getLsbD link.toNat = false)) ∧
    (link.toNat < 18 → ∃ t, exec (.spanLinkUp link) s = .next t ∧ t = { s with host := { s.host with linkst := t.host.linkst } } ∧
      ∀ j < 19, t.host.linkst.getLsbD j = (if j = link.toNat then true else s.host.linkst.getLsbD j)) ∧
    (∀ va, s.h.wait = .remote va → s.h.st ≠ .free →
      (s.linksDown = true → exec (.remoteAccessTimeout s.h.id) s =
        .next ((({ s with h := { s.h with wait := .none } } : State).abortTrap (trapOf causeProt va)).select s.h.id)) ∧
      (s.linksDown = false → exec (.remoteAccessTimeout s.h.id) s = .next s)) ∧
    (∀ va id u x, s.h.wait = .saving va id u → s.h.st ≠ .free → s.linksDown = true → s.hart? id = some x →
      exec (.remoteAccessTimeout s.h.id) s = .next ((({ s with h := { s.h with wait := .none } } : State).saveFault x u).select s.h.id)) ∧
    (∀ k c r t, (∀ va, s.h.wait ≠ .remote va) → (∀ va id u, s.h.wait ≠ .saving va id u) → s.h.st ≠ .free → s.linksDown = true →
      s.pathless s.h.id = some (k, c, r, t) →
      exec (.remoteAccessTimeout s.h.id) s = .next (s.finishCmd k c { r with stop := some { t with code := causeProt } })) ∧
    (∃ t, exec (.hostLinkDown port) s = .next t ∧ t = { s with host := t.host } ∧ t.portUp port = false ∧
      t.portUp (~~~port) = s.portUp (~~~port) ∧
      ∀ j, t.host.semOf j = (if s.host.semOf j = BitVec.ofNat 64 (port.toNat + 1) then 0 else s.host.semOf j)) ∧
    (∃ t, exec (.hostLinkUp port) s = .next t ∧ t = { s with host := t.host } ∧ t.portUp port = true ∧
      t.portUp (~~~port) = s.portUp (~~~port)) ∧
    (s.profiled = false → exec (.powerCap true) s = .next { s with ratio := min 16 (s.ratio + 1) } ∧
      exec (.powerCap false) s = .next { s with ratio := max 1 (s.ratio - 1) }) ∧
    (s.profiled = true → ∀ raise, exec (.powerCap raise) s = .next s) ∧
    (∃ t, exec .thermalStop s = .next t ∧ t = { s with host := t.host, stopped := true } ∧ t.portUp 0 = false ∧ t.portUp 1 = false ∧
      (s.agenda.head? ≠ some (.event .powerOn) → step t = .fault .packageStopped))

/-- Observation, the strip limit, pre-emption and waits as events (R155, R203, R302, R303, R354, R357, R358, R363): the unit
writes its oldest record behind WPTR where the buffer has room, and drops and counts it where it has none, or the slot no
translation (log entry 19); a sample is queued; a strip past its limit is marked; a request marks a hart whose strip is open,
unless intrusive profiling holds it, which it does not for a stopped region (R363 of 22_observation_and_debug.md speaks of
requests by priority; log entry 80), and at the end of the wait the strip aborts and the hart leaves its core; a parked `vwait`
ends when all its words are met, or at its timeout. -/
def Obligations.ObservationAndWaits : Prop :=
  ∀ (s : State) (c : BitVec 10),
    ((s.core c).obs = [] → exec (.obsRecordWrite c) s = .next s) ∧
    (∀ r rest hd, (s.core c).obs = r :: rest → s.bufferLoc r 0 = some hd → (s.core c).gap = 0 → r.lost = 0 → s.Canonical →
      let wptr := s.homeNat hd 8
      let rptr := s.homeNat (hd + 8) 8
      (r.slots ≤ wptr - rptr ∨ s.slotMapped r wptr = false → ∃ t, exec (.obsRecordWrite c) s = .next t ∧
        t = { s with cores := t.cores } ∧ (t.core c).obs = rest ∧
        (t.core c).gap = 1) ∧
      (∀ at_, wptr - rptr < r.slots → s.bufferLoc r (64 + 32 * (wptr % r.slots)) = some at_ → (at_ + 32 ≤ hd ∨ hd + 8 ≤ at_) →
        ∃ t, exec (.obsRecordWrite c) s = .next t ∧ (t.core c).obs = rest ∧ t.homeNat at_ 32 = r.record.toNat ∧
          t.homeNat hd 8 = (wptr + 1) % 2^64 ∧ t.h = s.h)) ∧
    (s.h.st ≠ .free → s.h.trace = true → s.h.tracectl.getLsbD 1 = true →
      (∀ o, s.hart? (otherSlot s.h.id) = some o → o.st ≠ .running) → (s.core (coreOf s.h.id)).obs.length < 8 →
      ∃ t x, exec (.sampleTick s.h.id) s = .next t ∧ (t.core (coreOf s.h.id)).obs = (s.core (coreOf s.h.id)).obs ++ [x] ∧ x.hart = s.h.id ∧
        (x.record.toNat / 2^64) % 2^64 = s.h.strippc.toNat ∧ (x.record.toNat / 2^128) % 2^64 = s.h.stripn.toNat ∧
        x.record.toNat / 2^192 = s.h.pc.toNat ∧ t = { s with cores := t.cores }) ∧
    (s.h.st ≠ .free →
      (s.h.expert = true → s.h.stripctl.toNat / 2^8 % 2^32 ≠ 0 → s.h.stripOpen = true →
        exec (.stripLimitExpiry s.h.id) s = .next { s with h := { s.h with overLimit := true } }) ∧
      (s.h.expert = false ∨ s.h.stripctl.toNat / 2^8 % 2^32 = 0 ∨ s.h.stripOpen = false → exec (.stripLimitExpiry s.h.id) s = .next s)) ∧
    (s.h.st = .running → s.h.gang = none → s.h.wait = .none → s.h.isEnding = false → s.h.stripOpen = true →
      (s.h.intrusive = false ∨ s.regionStopped s.h.region = true →
        exec (.preemptionRequest s.h.id) s = .next { s with h := { s.h with preempt := true } }) ∧
      (s.h.intrusive = true → s.regionStopped s.h.region = false → exec (.preemptionRequest s.h.id) s = .next s) ∧
      (s.h.preempt = false → exec (.preemptWaitExpiry s.h.id) s = .next s) ∧
      (s.h.preempt = true → s.h.amo = none → s.others = [] →
        ∃ t, exec (.preemptWaitExpiry s.h.id) s = .next t ∧ t.h.st = .ready ∧ t.h.preempt = false ∧ t.h.pc = s.h.strippc ∧ t.h.buf = [] ∧
          t.h.stripn = s.h.stripn ∧ t.h.r = { s.h.ck with fflags := s.h.ck.fflags ||| s.h.delivered.setWidth 13 } ∧ t.mem = s.mem)) ∧
    (∀ w cond kd lim cs, s.h.wait = .cells w cond kd lim cs → s.h.st = .parked → s.h.replay = 0 →
      let met := fun (x : Nat × Nat × Nat × Nat × Bool) => x.2.2.2.2 || (s.homeReady x.2.2.1 (sectorOf x.2.1) &&
        waitCond cond.toNat (s.homeNat x.2.1 (w / 8)) x.2.2.2.1)
      let ds := cs.map (fun x => (x.1, met x))
      let u : State := { s with
        h := { s.h with wait := .cells w cond kd lim (cs.map (fun x => (x.1, x.2.1, x.2.2.1, x.2.2.2.1, met x))) } }
      (cs.all met = true → exec (.vwaitSatisfied s.h.id) s =
        .next (((u.waitResult u.waitInstr kd ds false).wakeHere).select s.h.id)) ∧
      (cs.all met = false → exec (.vwaitSatisfied s.h.id) s = .next u) ∧
      (cs.all met = false → lim = true → exec (.vwaitTimeout s.h.id) s =
        .next (((u.waitResult u.waitInstr kd ds true).wakeHere).select s.h.id)) ∧
      (lim = false → exec (.vwaitTimeout s.h.id) s = .next u))

/-- Power-on, warm reset and the responder (R2, R336, R365, R372, R373): after power-on nothing of the package's own memory is left
and flash is, what stands in other packages stays, the die-to-die link trains where there is one (log entry 3), and the first stage
runs at its entry where Primer succeeds, or no hart where it fails (log entry 29); a warm reset stops admission, then harts and networks,
and after every step looks whether the builds and the engines have finished (log entry 22); when they have, it leaves
queues empty and disabled, networks at their reset state and scratchpads zero; the responder answers requests only after the earlier
ones of the standard's order (log entry 21). -/
def Obligations.PackageControl : Prop :=
  ∀ (s : State) (v : BitVec 64) (port : BitVec 1),
    (let b := primer Config.bootImage none (Config.clearFails s.clock)
     ∃ t, exec .powerOn s = .next t ∧ t.flash = s.flash ∧ t.twoDie = s.twoDie ∧ t.pkg = s.pkg ∧ t.others = [] ∧ t.cores = [] ∧
       (∀ c, isRemote (32 * c) = false → t.entry c = 5) ∧ t.host.linkst.getLsbD 18 = s.twoDie ∧
       t.flight = [] ∧ t.queues = [] ∧ (∀ l, isHost l = false → isRemote l = false → t.homeByte l = 0) ∧
       (s.Canonical → (∀ c ∈ s.held, isHost c.1 = true) → ∀ l, isRemote l = true → t.homeByte l = s.homeByte l) ∧
       t.host.stage.toNat = b.stage ∧ t.host.fail.toNat = b.fail ∧
       (b.fail = 0 → t.h.st = .running ∧ t.h.pc = BitVec.ofNat 64 b.entry ∧ t.h.cur = 2 ∧ t.h.region = 0) ∧
       (b.fail ≠ 0 → t.h.st = .free)) ∧
    (v.getLsbD 0 = false ∨ s.host.warmBusy = true → exec (.warm v) s = .next s) ∧
    (v.getLsbD 0 = true → s.host.warmBusy = false → ∃ t, exec (.warm v) s = .next t ∧ t = s.warmBegin.warmOn ∧ t.starts = [] ∧
      (∀ k ∈ t.tasks, k.pool = none) ∧ (∀ q ∈ t.queues, q.2.enable = false ∧ q.2.head = q.2.tail) ∧ s.warmBegin.host.warmBusy = true) ∧
    (s.host.warmBusy = true →
      let u := s.warmStop
      let t := s.warmOn
      let idle := u.cmds = [] ∧ u.evict = none ∧ ∀ f ∈ u.fetches, f.started = none ∧ u.inFlight f.entry f.page = false
      (s.Slots → (∀ h ∈ s.harts, s.warmKeeps h = false) → u.harts = []) ∧ (∀ m, (u.net m).closed = true ∧ (u.net m).tokens = []) ∧
      (∀ c ∈ u.cmds, c.orphan = true) ∧
      (¬(u.harts = [] ∧ idle) → t = u ∧ t.host.warmBusy = true) ∧
      (u.harts = [] → idle → t.host.warmBusy = false ∧ t.others = [] ∧ t.cmds = [] ∧ t.tasks = [] ∧ t.copies = [] ∧ t.waiters = [] ∧
        t.evict = none ∧ (∀ f ∈ t.fetches, f.started = none ∧ f.session.isSome = true) ∧ t.nvme = [] ∧ t.pairs = 0 ∧ t.unlogged = [] ∧
        (∀ r ∈ t.rings, r.2.enable = false) ∧ (∀ m, t.net m = Net.reset) ∧ (∀ l, 2^52 ≤ l → t.homeByte l = 0) ∧
        t.host.swapcb.getLsbD 0 = false ∧ ∀ j, t.host.semOf j = 0)) ∧
    (s.portUp port = true →
      let x := s.spdmOf port
      let next := fun (i : Instr) (y : Spdm) => ∃ t, exec i s = .next t ∧ t = { s with host := t.host } ∧ t.spdmOf port = y ∧
        t.spdmOf (~~~port) = s.spdmOf (~~~port)
      let refused := fun (i : Instr) => exec i s = .next (s.answer .spdmError)
      next (.getVersion port) { version := true, caps := false, algs := false } ∧
      (x.version = true → next (.getCapabilities port) { x with caps := true }) ∧ (x.version = false → refused (.getCapabilities port)) ∧
      (∀ a h, x.caps = true → a.getLsbD 8 = true → h.getLsbD 2 = true → next (.negotiateAlgorithms port a h) { x with algs := true }) ∧
      (∀ a h, x.caps = false ∨ a.getLsbD 8 = false ∨ h.getLsbD 2 = false → refused (.negotiateAlgorithms port a h)) ∧
      (x.algs = true →
        exec (.getDigests port) s = .next (s.answer (.bytes (digestBytes (Config.sha512 Config.certChain)))) ∧
        (∀ off len, exec (.getCertificate port 0 off len) s =
          .next (s.answer (.bytes ((Config.certChain.drop off.toNat).take len.toNat)))) ∧
        (∀ nonce, exec (.challenge port 0 nonce) s = .next (s.answer (.bytes (Config.deviceSign
          (bytesLe 32 nonce.toNat ++ digestBytes (Config.sha512 Config.certChain) ++ s.measBytes))))) ∧
        (∀ (index : BitVec 8) nonce, 1 ≤ index.toNat → index.toNat ≤ 8 →
          let m := digestBytes (s.host.meas.toList.getD (index.toNat - 1) 0)
          exec (.getMeasurements port index false nonce) s = .next (s.answer (.bytes m)) ∧
          exec (.getMeasurements port index true nonce) s =
            .next (s.answer (.bytes (m ++ Config.deviceSign (bytesLe 32 nonce.toNat ++ m)))))) ∧
      (x.algs = false → refused (.getDigests port) ∧ (∀ slot off len, refused (.getCertificate port slot off len)) ∧
        ∀ slot nonce, refused (.challenge port slot nonce)))
end

