-- ==== Sys2Proof/Laws/Maps.lean ====
section
/-!
SUPPORT. The sparse maps: what a read after a write gives, and that every operation keeps the canonical form.
-/

namespace Sys2Proof.Machine

variable {α : Type}

/-! ### Rising keys -/

theorem risingFrom_mono (m : List (Nat × α)) (a b : Nat) (h : a ≤ b) (r : risingFrom b m = true) : risingFrom a m = true := by
  cases m with
  | nil => rfl
  | cons p t =>
    simp only [risingFrom, Bool.and_eq_true, decide_eq_true_eq] at r ⊢
    exact ⟨by omega, r.2⟩

theorem risingFrom_mem (m : List (Nat × α)) (b : Nat) (r : risingFrom b m = true) : ∀ p ∈ m, b ≤ p.1 := by
  induction m generalizing b with
  | nil => simp
  | cons q t ih =>
    simp only [risingFrom, Bool.and_eq_true, decide_eq_true_eq] at r
    intro p hp
    rcases List.mem_cons.mp hp with rfl | hp
    · exact r.1
    · have := ih _ r.2 p hp
      omega

theorem risingFrom_filter (m : List (Nat × α)) (b : Nat) (p : Nat × α → Bool) (r : risingFrom b m = true) :
    risingFrom b (m.filter p) = true := by
  induction m generalizing b with
  | nil => rfl
  | cons q t ih =>
    simp only [risingFrom, Bool.and_eq_true, decide_eq_true_eq] at r
    by_cases hq : p q = true
    · simp only [List.filter_cons, hq, if_true, risingFrom, Bool.and_eq_true, decide_eq_true_eq]
      exact ⟨r.1, ih _ r.2⟩
    · simp only [List.filter_cons, hq]
      exact risingFrom_mono _ b (q.1 + 1) (by omega) (ih _ r.2)

/-! ### Maps with a default -/

/-- A key below every entry reads as the default. -/
theorem sget_below (d : α) (m : List (Nat × α)) (b k : Nat) (r : risingFrom b m = true) (h : k < b) : sget d m k = d := by
  induction m generalizing b with
  | nil => rfl
  | cons q t ih =>
    obtain ⟨k', v⟩ := q
    simp only [risingFrom, Bool.and_eq_true, decide_eq_true_eq] at r
    have hne : k' ≠ k := by omega
    simp only [sget, hne, if_false]
    exact ih _ r.2 (by omega)

/-- A read after a write: the value at its key, what stood before at every other. -/
theorem sget_sset [DecidableEq α] (d : α) (m : List (Nat × α)) (b k j : Nat) (v : α) (r : risingFrom b m = true) :
    sget d (sset d m k v) j = if j = k then v else sget d m j := by
  induction m generalizing b with
  | nil =>
    by_cases hv : v = d <;> by_cases hj : j = k
    · simp [sset, sget, hv, hj]
    · simp [sset, sget, hv, hj]
    · simp [sset, sget, hv, hj]
    · simp [sset, sget, hv, hj, Ne.symm hj]
  | cons q t ih =>
    obtain ⟨k', v'⟩ := q
    simp only [risingFrom, Bool.and_eq_true, decide_eq_true_eq] at r
    simp only [sset]
    by_cases h1 : k < k'
    · simp only [h1, if_true]
      by_cases hv : v = d
      · simp only [hv, if_true]
        by_cases hj : j = k
        · subst hj
          simp only [if_true]
          have hne : k' ≠ j := by omega
          simp only [sget, hne, if_false]
          exact sget_below d t _ j r.2 (by omega)
        · simp [hj]
      · simp only [hv, if_false]
        by_cases hj : j = k
        · simp [sget, hj]
        · simp [sget, hj, Ne.symm hj]
    · simp only [h1, if_false]
      by_cases h2 : k = k'
      · subst h2
        simp only [if_true]
        by_cases hv : v = d
        · simp only [hv, if_true]
          by_cases hj : j = k
          · subst hj
            simp only [if_true]
            exact sget_below d t _ j r.2 (by omega)
          · simp [sget, hj, Ne.symm hj]
        · simp only [hv, if_false]
          by_cases hj : j = k
          · simp [sget, hj]
          · simp [sget, hj, Ne.symm hj]
      · simp only [h2, if_false, sget]
        by_cases h3 : k' = j
        · subst h3
          simp [Ne.symm h2]
        · simp only [h3, if_false]
          exact ih _ r.2

theorem risingFrom_sset [DecidableEq α] (d : α) (m : List (Nat × α)) (b k : Nat) (v : α) (r : risingFrom b m = true) (h : b ≤ k) :
    risingFrom b (sset d m k v) = true := by
  induction m generalizing b with
  | nil => by_cases hv : v = d <;> simp [sset, hv, risingFrom, h]
  | cons q t ih =>
    obtain ⟨k', v'⟩ := q
    have r0 := r
    simp only [risingFrom, Bool.and_eq_true, decide_eq_true_eq] at r
    simp only [sset]
    by_cases h1 : k < k'
    · by_cases hv : v = d
      · simpa [h1, hv] using r0
      · simp only [h1, if_true, hv, if_false, risingFrom, Bool.and_eq_true, decide_eq_true_eq]
        exact ⟨h, by omega, r.2⟩
    · by_cases h2 : k = k'
      · subst h2
        by_cases hv : v = d
        · simp only [h1, if_false, if_true, hv]
          exact risingFrom_mono t b (k + 1) (by omega) r.2
        · simp only [h1, if_false, if_true, hv, risingFrom, Bool.and_eq_true, decide_eq_true_eq]
          exact r
      · simp only [h1, if_false, h2, risingFrom, Bool.and_eq_true, decide_eq_true_eq]
        exact ⟨r.1, ih _ r.2 (by omega)⟩

theorem all_sset [DecidableEq α] (d : α) (m : List (Nat × α)) (k : Nat) (v : α) (h : m.all (fun e => decide (e.2 ≠ d)) = true) :
    (sset d m k v).all (fun e => decide (e.2 ≠ d)) = true := by
  induction m with
  | nil => by_cases hv : v = d <;> simp [sset, hv]
  | cons q t ih =>
    obtain ⟨k', v'⟩ := q
    simp only [List.all_cons, Bool.and_eq_true, decide_eq_true_eq] at h
    simp only [sset]
    split
    · split
      · simp only [List.all_cons, Bool.and_eq_true, decide_eq_true_eq]
        exact h
      · rename_i hv
        simp only [List.all_cons, Bool.and_eq_true, decide_eq_true_eq]
        exact ⟨hv, h⟩
    · split
      · split
        · exact h.2
        · rename_i hv
          simp only [List.all_cons, Bool.and_eq_true, decide_eq_true_eq]
          exact ⟨hv, h.2⟩
      · simp only [List.all_cons, Bool.and_eq_true, decide_eq_true_eq]
        exact ⟨h.1, ih h.2⟩

/-- A write keeps the canonical form. -/
theorem canonical_sset [DecidableEq α] (d : α) (m : List (Nat × α)) (k : Nat) (v : α) (h : canonical d m = true) :
    canonical d (sset d m k v) = true := by
  simp only [canonical, Bool.and_eq_true] at h ⊢
  exact ⟨risingFrom_sset d m 0 k v h.1 (by omega), all_sset d m k v h.2⟩

/-- Dropping entries keeps the canonical form. -/
theorem canonical_filter [DecidableEq α] (d : α) (m : List (Nat × α)) (p : Nat × α → Bool) (h : canonical d m = true) :
    canonical d (m.filter p) = true := by
  simp only [canonical, Bool.and_eq_true, List.all_eq_true] at h ⊢
  exact ⟨risingFrom_filter m 0 p h.1, fun e he => h.2 e (List.mem_filter.mp he).1⟩

/-! ### Maps without a default -/

theorem sfind_sput (m : List (Nat × α)) (k j : Nat) (v : α) : sfind (sput m k v) j = if j = k then some v else sfind m j := by
  induction m with
  | nil =>
    by_cases hj : j = k
    · simp [sput, sfind, hj]
    · simp [sput, sfind, hj, Ne.symm hj]
  | cons q t ih =>
    obtain ⟨k', v'⟩ := q
    simp only [sput]
    by_cases h1 : k < k'
    · by_cases hj : j = k
      · simp [h1, sfind, hj]
      · simp [h1, sfind, hj, Ne.symm hj]
    · by_cases h2 : k = k'
      · subst h2
        by_cases hj : j = k
        · simp [sfind, hj]
        · simp [sfind, hj, Ne.symm hj]
      · simp only [h1, if_false, h2, sfind]
        by_cases h3 : k' = j
        · subst h3
          simp [Ne.symm h2]
        · simp only [h3, if_false]
          exact ih

theorem sget_sput (d : α) (m : List (Nat × α)) (k j : Nat) (v : α) : sget d (sput m k v) j = if j = k then v else sget d m j := by
  induction m with
  | nil =>
    by_cases hj : j = k
    · simp [sput, sget, hj]
    · simp [sput, sget, hj, Ne.symm hj]
  | cons q t ih =>
    obtain ⟨k', v'⟩ := q
    simp only [sput]
    by_cases h1 : k < k'
    · by_cases hj : j = k
      · simp [h1, sget, hj]
      · simp [h1, sget, hj, Ne.symm hj]
    · by_cases h2 : k = k'
      · subst h2
        by_cases hj : j = k
        · simp [sget, hj]
        · simp [sget, hj, Ne.symm hj]
      · simp only [h1, if_false, h2, sget]
        by_cases h3 : k' = j
        · subst h3
          simp [Ne.symm h2]
        · simp only [h3, if_false]
          exact ih

theorem risingFrom_sput (m : List (Nat × α)) (b k : Nat) (v : α) (r : risingFrom b m = true) (h : b ≤ k) :
    risingFrom b (sput m k v) = true := by
  induction m generalizing b with
  | nil => simp [sput, risingFrom, h]
  | cons q t ih =>
    obtain ⟨k', v'⟩ := q
    simp only [risingFrom, Bool.and_eq_true, decide_eq_true_eq] at r
    simp only [sput]
    by_cases h1 : k < k'
    · simp only [h1, if_true, risingFrom, Bool.and_eq_true, decide_eq_true_eq]
      exact ⟨h, by omega, r.2⟩
    · by_cases h2 : k = k'
      · subst h2
        simp only [h1, if_false, if_true, risingFrom, Bool.and_eq_true, decide_eq_true_eq]
        exact r
      · simp only [h1, if_false, h2, risingFrom, Bool.and_eq_true, decide_eq_true_eq]
        exact ⟨r.1, ih _ r.2 (by omega)⟩

theorem mem_sput (m : List (Nat × α)) (k : Nat) (v : α) (p : Nat × α) (h : p ∈ sput m k v) : p = (k, v) ∨ p ∈ m := by
  induction m with
  | nil => simpa [sput] using h
  | cons q t ih =>
    obtain ⟨k', v'⟩ := q
    simp only [sput] at h
    split at h
    · simpa using h
    · split at h
      · rcases List.mem_cons.mp h with h | h
        · exact .inl h
        · exact .inr (List.mem_cons_of_mem _ h)
      · rcases List.mem_cons.mp h with h | h
        · exact .inr (h ▸ List.mem_cons_self)
        · rcases ih h with h | h
          · exact .inl h
          · exact .inr (List.mem_cons_of_mem _ h)

theorem risingFrom_serase (m : List (Nat × α)) (b k : Nat) (r : risingFrom b m = true) : risingFrom b (serase m k) = true :=
  risingFrom_filter m b _ r

theorem mem_serase (m : List (Nat × α)) (k : Nat) (p : Nat × α) (h : p ∈ serase m k) : p ∈ m ∧ p.1 ≠ k := by
  simpa [serase] using h

/-! ### Memory, turn state and flash -/

theorem putByte_canonical (s : State) (l : Nat) (b : Byte) (h : s.Canonical) : (s.putByte l b).Canonical :=
  ⟨canonical_sset 0 s.mem l b h.mem, h.turn, h.flash⟩

theorem putAll_canonical (bs : List (Nat × Byte)) (s : State) (h : s.Canonical) :
    (bs.foldl (fun s b => s.putByte b.1 b.2) s).Canonical := by
  induction bs generalizing s with
  | nil => exact h
  | cons b t ih => exact ih _ (putByte_canonical s b.1 b.2 h)

theorem putBytes_canonical (s : State) (bs : List (Nat × Byte)) (h : s.Canonical) : (s.putBytes bs).Canonical :=
  have hp := putAll_canonical bs s h
  ⟨hp.mem, hp.turn, hp.flash⟩

theorem setEntry_canonical (s : State) (k : Nat) (e : BitVec 30) (h : s.Canonical) : (s.setEntry k e).Canonical :=
  ⟨h.mem, canonical_sset 5 s.turn k e h.turn, h.flash⟩

theorem flashWrite_canonical (s : State) (slot : Nat) (bs : List Byte) (h : s.Canonical) : (s.flashWrite slot bs).Canonical := by
  refine ⟨h.mem, h.turn, ?_⟩
  have go : ∀ (l : List (Byte × Nat)) (m : List Host.Cell), canonical 0 m = true →
      canonical 0 (l.foldl (fun f (b : Byte × Nat) => sset 0 f (s.flashLoc slot + b.2) b.1) m) = true := by
    intro l
    induction l with
    | nil => intro m hm; exact hm
    | cons b t ih => intro m hm; exact ih _ (canonical_sset 0 m _ _ hm)
  exact go _ _ h.flash

/-- A byte written reads back; every other byte stays. -/
theorem homeByte_putByte (s : State) (l j : Nat) (b : Byte) (h : s.Canonical) :
    (s.putByte l b).homeByte j = if j = l then b else s.homeByte j := by
  have hm := h.mem
  simp only [Memory.wf, canonical, Bool.and_eq_true] at hm
  exact sget_sset 0 s.mem 0 l j b hm.1

/-- Bytes that no write names stay. -/
theorem homeByte_putBytes_of_not_mem (s : State) (bs : List (Nat × Byte)) (j : Nat) (h : s.Canonical) (hj : ∀ b ∈ bs, b.1 ≠ j) :
    (s.putBytes bs).homeByte j = s.homeByte j := by
  show (bs.foldl (fun s b => s.putByte b.1 b.2) s).homeByte j = s.homeByte j
  induction bs generalizing s with
  | nil => rfl
  | cons b t ih =>
    have h1 : (s.putByte b.1 b.2).homeByte j = s.homeByte j := by
      rw [homeByte_putByte s b.1 j b.2 h]
      simp [Ne.symm (hj b List.mem_cons_self)]
    rw [← h1]
    exact ih _ (putByte_canonical s b.1 b.2 h) (fun c hc => hj c (List.mem_cons_of_mem _ hc))

/-- The entry of a sector after it has been set; every other entry stays. -/
theorem entry_setEntry (s : State) (k j : Nat) (e : BitVec 30) (h : s.Canonical) :
    (s.setEntry k e).entry j = if j = k then e else s.entry j := by
  have hm := h.turn
  simp only [canonical, Bool.and_eq_true] at hm
  exact sget_sset 5 s.turn 0 k j e hm.1

@[simp] theorem core_setCore (s : State) (c d : BitVec 10) (x : Core) :
    (s.setCore c x).core d = if d.toNat = c.toNat then x else s.core d := sget_sput Core.reset s.cores c.toNat d.toNat x

end Sys2Proof.Machine
end

