-- ==== Sys2Proof/Laws/State.lean ====
section
/-!
SUPPORT. What the updates of the state leave alone: one lemma for each field and update, true by unfolding.
-/

namespace Sys2Proof.Machine

/-! ### The selected hart -/

@[simp] theorem State.modH_h (s : State) (f : Hart → Hart) : (s.modH f).h = f s.h := rfl
@[simp] theorem State.modR_h (s : State) (f : Regs → Regs) : (s.modR f).h = { s.h with r := f s.h.r } := rfl
@[simp] theorem State.ran_h (s : State) (r : Regs) (p : Word) :
    (s.ran r p).h = { s.h with r := r, pc := p, eix := 0, instPend := s.h.instPend + 1 } := rfl

/-! ### modH -/

@[simp] theorem State.modH_others (s : State) (f : Hart → Hart) : (s.modH f).others = s.others := rfl
@[simp] theorem State.modH_cores (s : State) (f : Hart → Hart) : (s.modH f).cores = s.cores := rfl
@[simp] theorem State.modH_mem (s : State) (f : Hart → Hart) : (s.modH f).mem = s.mem := rfl
@[simp] theorem State.modH_turn (s : State) (f : Hart → Hart) : (s.modH f).turn = s.turn := rfl
@[simp] theorem State.modH_full (s : State) (f : Hart → Hart) : (s.modH f).full = s.full := rfl
@[simp] theorem State.modH_poison (s : State) (f : Hart → Hart) : (s.modH f).poison = s.poison := rfl
@[simp] theorem State.modH_held (s : State) (f : Hart → Hart) : (s.modH f).held = s.held := rfl
@[simp] theorem State.modH_copies (s : State) (f : Hart → Hart) : (s.modH f).copies = s.copies := rfl
@[simp] theorem State.modH_flight (s : State) (f : Hart → Hart) : (s.modH f).flight = s.flight := rfl
@[simp] theorem State.modH_waiters (s : State) (f : Hart → Hart) : (s.modH f).waiters = s.waiters := rfl
@[simp] theorem State.modH_cmds (s : State) (f : Hart → Hart) : (s.modH f).cmds = s.cmds := rfl
@[simp] theorem State.modH_arrays (s : State) (f : Hart → Hart) : (s.modH f).arrays = s.arrays := rfl
@[simp] theorem State.modH_nets (s : State) (f : Hart → Hart) : (s.modH f).nets = s.nets := rfl
@[simp] theorem State.modH_queues (s : State) (f : Hart → Hart) : (s.modH f).queues = s.queues := rfl
@[simp] theorem State.modH_starts (s : State) (f : Hart → Hart) : (s.modH f).starts = s.starts := rfl
@[simp] theorem State.modH_rings (s : State) (f : Hart → Hart) : (s.modH f).rings = s.rings := rfl
@[simp] theorem State.modH_posted (s : State) (f : Hart → Hart) : (s.modH f).posted = s.posted := rfl
@[simp] theorem State.modH_regions (s : State) (f : Hart → Hart) : (s.modH f).regions = s.regions := rfl
@[simp] theorem State.modH_refs (s : State) (f : Hart → Hart) : (s.modH f).refs = s.refs := rfl
@[simp] theorem State.modH_stoppedRegions (s : State) (f : Hart → Hart) : (s.modH f).stoppedRegions = s.stoppedRegions := rfl
@[simp] theorem State.modH_ended (s : State) (f : Hart → Hart) : (s.modH f).ended = s.ended := rfl
@[simp] theorem State.modH_replayed (s : State) (f : Hart → Hart) : (s.modH f).replayed = s.replayed := rfl
@[simp] theorem State.modH_unlogged (s : State) (f : Hart → Hart) : (s.modH f).unlogged = s.unlogged := rfl
@[simp] theorem State.modH_tasks (s : State) (f : Hart → Hart) : (s.modH f).tasks = s.tasks := rfl
@[simp] theorem State.modH_promos (s : State) (f : Hart → Hart) : (s.modH f).promos = s.promos := rfl
@[simp] theorem State.modH_evict (s : State) (f : Hart → Hart) : (s.modH f).evict = s.evict := rfl
@[simp] theorem State.modH_fetches (s : State) (f : Hart → Hart) : (s.modH f).fetches = s.fetches := rfl
@[simp] theorem State.modH_nvme (s : State) (f : Hart → Hart) : (s.modH f).nvme = s.nvme := rfl
@[simp] theorem State.modH_pairs (s : State) (f : Hart → Hart) : (s.modH f).pairs = s.pairs := rfl
@[simp] theorem State.modH_resumes (s : State) (f : Hart → Hart) : (s.modH f).resumes = s.resumes := rfl
@[simp] theorem State.modH_namespaces (s : State) (f : Hart → Hart) : (s.modH f).namespaces = s.namespaces := rfl
@[simp] theorem State.modH_flash (s : State) (f : Hart → Hart) : (s.modH f).flash = s.flash := rfl
@[simp] theorem State.modH_charged (s : State) (f : Hart → Hart) : (s.modH f).charged = s.charged := rfl
@[simp] theorem State.modH_saved (s : State) (f : Hart → Hart) : (s.modH f).saved = s.saved := rfl
@[simp] theorem State.modH_loads (s : State) (f : Hart → Hart) : (s.modH f).loads = s.loads := rfl
@[simp] theorem State.modH_stepno (s : State) (f : Hart → Hart) : (s.modH f).stepno = s.stepno := rfl
@[simp] theorem State.modH_arrivals (s : State) (f : Hart → Hart) : (s.modH f).arrivals = s.arrivals := rfl
@[simp] theorem State.modH_landings (s : State) (f : Hart → Hart) : (s.modH f).landings = s.landings := rfl
@[simp] theorem State.modH_host (s : State) (f : Hart → Hart) : (s.modH f).host = s.host := rfl
@[simp] theorem State.modH_ratio (s : State) (f : Hart → Hart) : (s.modH f).ratio = s.ratio := rfl
@[simp] theorem State.modH_twoDie (s : State) (f : Hart → Hart) : (s.modH f).twoDie = s.twoDie := rfl
@[simp] theorem State.modH_pkg (s : State) (f : Hart → Hart) : (s.modH f).pkg = s.pkg := rfl
@[simp] theorem State.modH_domain (s : State) (f : Hart → Hart) : (s.modH f).domain = s.domain := rfl
@[simp] theorem State.modH_stopped (s : State) (f : Hart → Hart) : (s.modH f).stopped = s.stopped := rfl
@[simp] theorem State.modH_clock (s : State) (f : Hart → Hart) : (s.modH f).clock = s.clock := rfl
@[simp] theorem State.modH_agenda (s : State) (f : Hart → Hart) : (s.modH f).agenda = s.agenda := rfl

/-! ### modR -/

@[simp] theorem State.modR_others (s : State) (f : Regs → Regs) : (s.modR f).others = s.others := rfl
@[simp] theorem State.modR_cores (s : State) (f : Regs → Regs) : (s.modR f).cores = s.cores := rfl
@[simp] theorem State.modR_mem (s : State) (f : Regs → Regs) : (s.modR f).mem = s.mem := rfl
@[simp] theorem State.modR_turn (s : State) (f : Regs → Regs) : (s.modR f).turn = s.turn := rfl
@[simp] theorem State.modR_full (s : State) (f : Regs → Regs) : (s.modR f).full = s.full := rfl
@[simp] theorem State.modR_poison (s : State) (f : Regs → Regs) : (s.modR f).poison = s.poison := rfl
@[simp] theorem State.modR_held (s : State) (f : Regs → Regs) : (s.modR f).held = s.held := rfl
@[simp] theorem State.modR_copies (s : State) (f : Regs → Regs) : (s.modR f).copies = s.copies := rfl
@[simp] theorem State.modR_flight (s : State) (f : Regs → Regs) : (s.modR f).flight = s.flight := rfl
@[simp] theorem State.modR_waiters (s : State) (f : Regs → Regs) : (s.modR f).waiters = s.waiters := rfl
@[simp] theorem State.modR_cmds (s : State) (f : Regs → Regs) : (s.modR f).cmds = s.cmds := rfl
@[simp] theorem State.modR_arrays (s : State) (f : Regs → Regs) : (s.modR f).arrays = s.arrays := rfl
@[simp] theorem State.modR_nets (s : State) (f : Regs → Regs) : (s.modR f).nets = s.nets := rfl
@[simp] theorem State.modR_queues (s : State) (f : Regs → Regs) : (s.modR f).queues = s.queues := rfl
@[simp] theorem State.modR_starts (s : State) (f : Regs → Regs) : (s.modR f).starts = s.starts := rfl
@[simp] theorem State.modR_rings (s : State) (f : Regs → Regs) : (s.modR f).rings = s.rings := rfl
@[simp] theorem State.modR_posted (s : State) (f : Regs → Regs) : (s.modR f).posted = s.posted := rfl
@[simp] theorem State.modR_regions (s : State) (f : Regs → Regs) : (s.modR f).regions = s.regions := rfl
@[simp] theorem State.modR_refs (s : State) (f : Regs → Regs) : (s.modR f).refs = s.refs := rfl
@[simp] theorem State.modR_stoppedRegions (s : State) (f : Regs → Regs) : (s.modR f).stoppedRegions = s.stoppedRegions := rfl
@[simp] theorem State.modR_ended (s : State) (f : Regs → Regs) : (s.modR f).ended = s.ended := rfl
@[simp] theorem State.modR_replayed (s : State) (f : Regs → Regs) : (s.modR f).replayed = s.replayed := rfl
@[simp] theorem State.modR_unlogged (s : State) (f : Regs → Regs) : (s.modR f).unlogged = s.unlogged := rfl
@[simp] theorem State.modR_tasks (s : State) (f : Regs → Regs) : (s.modR f).tasks = s.tasks := rfl
@[simp] theorem State.modR_promos (s : State) (f : Regs → Regs) : (s.modR f).promos = s.promos := rfl
@[simp] theorem State.modR_evict (s : State) (f : Regs → Regs) : (s.modR f).evict = s.evict := rfl
@[simp] theorem State.modR_fetches (s : State) (f : Regs → Regs) : (s.modR f).fetches = s.fetches := rfl
@[simp] theorem State.modR_nvme (s : State) (f : Regs → Regs) : (s.modR f).nvme = s.nvme := rfl
@[simp] theorem State.modR_pairs (s : State) (f : Regs → Regs) : (s.modR f).pairs = s.pairs := rfl
@[simp] theorem State.modR_resumes (s : State) (f : Regs → Regs) : (s.modR f).resumes = s.resumes := rfl
@[simp] theorem State.modR_namespaces (s : State) (f : Regs → Regs) : (s.modR f).namespaces = s.namespaces := rfl
@[simp] theorem State.modR_flash (s : State) (f : Regs → Regs) : (s.modR f).flash = s.flash := rfl
@[simp] theorem State.modR_charged (s : State) (f : Regs → Regs) : (s.modR f).charged = s.charged := rfl
@[simp] theorem State.modR_saved (s : State) (f : Regs → Regs) : (s.modR f).saved = s.saved := rfl
@[simp] theorem State.modR_loads (s : State) (f : Regs → Regs) : (s.modR f).loads = s.loads := rfl
@[simp] theorem State.modR_stepno (s : State) (f : Regs → Regs) : (s.modR f).stepno = s.stepno := rfl
@[simp] theorem State.modR_arrivals (s : State) (f : Regs → Regs) : (s.modR f).arrivals = s.arrivals := rfl
@[simp] theorem State.modR_landings (s : State) (f : Regs → Regs) : (s.modR f).landings = s.landings := rfl
@[simp] theorem State.modR_host (s : State) (f : Regs → Regs) : (s.modR f).host = s.host := rfl
@[simp] theorem State.modR_ratio (s : State) (f : Regs → Regs) : (s.modR f).ratio = s.ratio := rfl
@[simp] theorem State.modR_twoDie (s : State) (f : Regs → Regs) : (s.modR f).twoDie = s.twoDie := rfl
@[simp] theorem State.modR_pkg (s : State) (f : Regs → Regs) : (s.modR f).pkg = s.pkg := rfl
@[simp] theorem State.modR_domain (s : State) (f : Regs → Regs) : (s.modR f).domain = s.domain := rfl
@[simp] theorem State.modR_stopped (s : State) (f : Regs → Regs) : (s.modR f).stopped = s.stopped := rfl
@[simp] theorem State.modR_clock (s : State) (f : Regs → Regs) : (s.modR f).clock = s.clock := rfl
@[simp] theorem State.modR_agenda (s : State) (f : Regs → Regs) : (s.modR f).agenda = s.agenda := rfl

/-! ### setCore -/

@[simp] theorem State.setCore_h (s : State) (c : BitVec 10) (x : Core) : (s.setCore c x).h = s.h := rfl
@[simp] theorem State.setCore_others (s : State) (c : BitVec 10) (x : Core) : (s.setCore c x).others = s.others := rfl
@[simp] theorem State.setCore_mem (s : State) (c : BitVec 10) (x : Core) : (s.setCore c x).mem = s.mem := rfl
@[simp] theorem State.setCore_turn (s : State) (c : BitVec 10) (x : Core) : (s.setCore c x).turn = s.turn := rfl
@[simp] theorem State.setCore_full (s : State) (c : BitVec 10) (x : Core) : (s.setCore c x).full = s.full := rfl
@[simp] theorem State.setCore_poison (s : State) (c : BitVec 10) (x : Core) : (s.setCore c x).poison = s.poison := rfl
@[simp] theorem State.setCore_held (s : State) (c : BitVec 10) (x : Core) : (s.setCore c x).held = s.held := rfl
@[simp] theorem State.setCore_copies (s : State) (c : BitVec 10) (x : Core) : (s.setCore c x).copies = s.copies := rfl
@[simp] theorem State.setCore_flight (s : State) (c : BitVec 10) (x : Core) : (s.setCore c x).flight = s.flight := rfl
@[simp] theorem State.setCore_waiters (s : State) (c : BitVec 10) (x : Core) : (s.setCore c x).waiters = s.waiters := rfl
@[simp] theorem State.setCore_cmds (s : State) (c : BitVec 10) (x : Core) : (s.setCore c x).cmds = s.cmds := rfl
@[simp] theorem State.setCore_arrays (s : State) (c : BitVec 10) (x : Core) : (s.setCore c x).arrays = s.arrays := rfl
@[simp] theorem State.setCore_nets (s : State) (c : BitVec 10) (x : Core) : (s.setCore c x).nets = s.nets := rfl
@[simp] theorem State.setCore_queues (s : State) (c : BitVec 10) (x : Core) : (s.setCore c x).queues = s.queues := rfl
@[simp] theorem State.setCore_starts (s : State) (c : BitVec 10) (x : Core) : (s.setCore c x).starts = s.starts := rfl
@[simp] theorem State.setCore_rings (s : State) (c : BitVec 10) (x : Core) : (s.setCore c x).rings = s.rings := rfl
@[simp] theorem State.setCore_posted (s : State) (c : BitVec 10) (x : Core) : (s.setCore c x).posted = s.posted := rfl
@[simp] theorem State.setCore_regions (s : State) (c : BitVec 10) (x : Core) : (s.setCore c x).regions = s.regions := rfl
@[simp] theorem State.setCore_refs (s : State) (c : BitVec 10) (x : Core) : (s.setCore c x).refs = s.refs := rfl
@[simp] theorem State.setCore_stoppedRegions (s : State) (c : BitVec 10) (x : Core) : (s.setCore c x).stoppedRegions = s.stoppedRegions := rfl
@[simp] theorem State.setCore_ended (s : State) (c : BitVec 10) (x : Core) : (s.setCore c x).ended = s.ended := rfl
@[simp] theorem State.setCore_replayed (s : State) (c : BitVec 10) (x : Core) : (s.setCore c x).replayed = s.replayed := rfl
@[simp] theorem State.setCore_unlogged (s : State) (c : BitVec 10) (x : Core) : (s.setCore c x).unlogged = s.unlogged := rfl
@[simp] theorem State.setCore_tasks (s : State) (c : BitVec 10) (x : Core) : (s.setCore c x).tasks = s.tasks := rfl
@[simp] theorem State.setCore_promos (s : State) (c : BitVec 10) (x : Core) : (s.setCore c x).promos = s.promos := rfl
@[simp] theorem State.setCore_evict (s : State) (c : BitVec 10) (x : Core) : (s.setCore c x).evict = s.evict := rfl
@[simp] theorem State.setCore_fetches (s : State) (c : BitVec 10) (x : Core) : (s.setCore c x).fetches = s.fetches := rfl
@[simp] theorem State.setCore_nvme (s : State) (c : BitVec 10) (x : Core) : (s.setCore c x).nvme = s.nvme := rfl
@[simp] theorem State.setCore_pairs (s : State) (c : BitVec 10) (x : Core) : (s.setCore c x).pairs = s.pairs := rfl
@[simp] theorem State.setCore_resumes (s : State) (c : BitVec 10) (x : Core) : (s.setCore c x).resumes = s.resumes := rfl
@[simp] theorem State.setCore_namespaces (s : State) (c : BitVec 10) (x : Core) : (s.setCore c x).namespaces = s.namespaces := rfl
@[simp] theorem State.setCore_flash (s : State) (c : BitVec 10) (x : Core) : (s.setCore c x).flash = s.flash := rfl
@[simp] theorem State.setCore_charged (s : State) (c : BitVec 10) (x : Core) : (s.setCore c x).charged = s.charged := rfl
@[simp] theorem State.setCore_saved (s : State) (c : BitVec 10) (x : Core) : (s.setCore c x).saved = s.saved := rfl
@[simp] theorem State.setCore_loads (s : State) (c : BitVec 10) (x : Core) : (s.setCore c x).loads = s.loads := rfl
@[simp] theorem State.setCore_stepno (s : State) (c : BitVec 10) (x : Core) : (s.setCore c x).stepno = s.stepno := rfl
@[simp] theorem State.setCore_arrivals (s : State) (c : BitVec 10) (x : Core) : (s.setCore c x).arrivals = s.arrivals := rfl
@[simp] theorem State.setCore_landings (s : State) (c : BitVec 10) (x : Core) : (s.setCore c x).landings = s.landings := rfl
@[simp] theorem State.setCore_host (s : State) (c : BitVec 10) (x : Core) : (s.setCore c x).host = s.host := rfl
@[simp] theorem State.setCore_ratio (s : State) (c : BitVec 10) (x : Core) : (s.setCore c x).ratio = s.ratio := rfl
@[simp] theorem State.setCore_twoDie (s : State) (c : BitVec 10) (x : Core) : (s.setCore c x).twoDie = s.twoDie := rfl
@[simp] theorem State.setCore_pkg (s : State) (c : BitVec 10) (x : Core) : (s.setCore c x).pkg = s.pkg := rfl
@[simp] theorem State.setCore_domain (s : State) (c : BitVec 10) (x : Core) : (s.setCore c x).domain = s.domain := rfl
@[simp] theorem State.setCore_stopped (s : State) (c : BitVec 10) (x : Core) : (s.setCore c x).stopped = s.stopped := rfl
@[simp] theorem State.setCore_clock (s : State) (c : BitVec 10) (x : Core) : (s.setCore c x).clock = s.clock := rfl
@[simp] theorem State.setCore_agenda (s : State) (c : BitVec 10) (x : Core) : (s.setCore c x).agenda = s.agenda := rfl

/-! ### setEntry -/

@[simp] theorem State.setEntry_h (s : State) (k : Nat) (e : BitVec 30) : (s.setEntry k e).h = s.h := rfl
@[simp] theorem State.setEntry_others (s : State) (k : Nat) (e : BitVec 30) : (s.setEntry k e).others = s.others := rfl
@[simp] theorem State.setEntry_cores (s : State) (k : Nat) (e : BitVec 30) : (s.setEntry k e).cores = s.cores := rfl
@[simp] theorem State.setEntry_mem (s : State) (k : Nat) (e : BitVec 30) : (s.setEntry k e).mem = s.mem := rfl
@[simp] theorem State.setEntry_full (s : State) (k : Nat) (e : BitVec 30) : (s.setEntry k e).full = s.full := rfl
@[simp] theorem State.setEntry_poison (s : State) (k : Nat) (e : BitVec 30) : (s.setEntry k e).poison = s.poison := rfl
@[simp] theorem State.setEntry_held (s : State) (k : Nat) (e : BitVec 30) : (s.setEntry k e).held = s.held := rfl
@[simp] theorem State.setEntry_copies (s : State) (k : Nat) (e : BitVec 30) : (s.setEntry k e).copies = s.copies := rfl
@[simp] theorem State.setEntry_flight (s : State) (k : Nat) (e : BitVec 30) : (s.setEntry k e).flight = s.flight := rfl
@[simp] theorem State.setEntry_waiters (s : State) (k : Nat) (e : BitVec 30) : (s.setEntry k e).waiters = s.waiters := rfl
@[simp] theorem State.setEntry_cmds (s : State) (k : Nat) (e : BitVec 30) : (s.setEntry k e).cmds = s.cmds := rfl
@[simp] theorem State.setEntry_arrays (s : State) (k : Nat) (e : BitVec 30) : (s.setEntry k e).arrays = s.arrays := rfl
@[simp] theorem State.setEntry_nets (s : State) (k : Nat) (e : BitVec 30) : (s.setEntry k e).nets = s.nets := rfl
@[simp] theorem State.setEntry_queues (s : State) (k : Nat) (e : BitVec 30) : (s.setEntry k e).queues = s.queues := rfl
@[simp] theorem State.setEntry_starts (s : State) (k : Nat) (e : BitVec 30) : (s.setEntry k e).starts = s.starts := rfl
@[simp] theorem State.setEntry_rings (s : State) (k : Nat) (e : BitVec 30) : (s.setEntry k e).rings = s.rings := rfl
@[simp] theorem State.setEntry_posted (s : State) (k : Nat) (e : BitVec 30) : (s.setEntry k e).posted = s.posted := rfl
@[simp] theorem State.setEntry_regions (s : State) (k : Nat) (e : BitVec 30) : (s.setEntry k e).regions = s.regions := rfl
@[simp] theorem State.setEntry_refs (s : State) (k : Nat) (e : BitVec 30) : (s.setEntry k e).refs = s.refs := rfl
@[simp] theorem State.setEntry_stoppedRegions (s : State) (k : Nat) (e : BitVec 30) : (s.setEntry k e).stoppedRegions = s.stoppedRegions := rfl
@[simp] theorem State.setEntry_ended (s : State) (k : Nat) (e : BitVec 30) : (s.setEntry k e).ended = s.ended := rfl
@[simp] theorem State.setEntry_replayed (s : State) (k : Nat) (e : BitVec 30) : (s.setEntry k e).replayed = s.replayed := rfl
@[simp] theorem State.setEntry_unlogged (s : State) (k : Nat) (e : BitVec 30) : (s.setEntry k e).unlogged = s.unlogged := rfl
@[simp] theorem State.setEntry_tasks (s : State) (k : Nat) (e : BitVec 30) : (s.setEntry k e).tasks = s.tasks := rfl
@[simp] theorem State.setEntry_promos (s : State) (k : Nat) (e : BitVec 30) : (s.setEntry k e).promos = s.promos := rfl
@[simp] theorem State.setEntry_evict (s : State) (k : Nat) (e : BitVec 30) : (s.setEntry k e).evict = s.evict := rfl
@[simp] theorem State.setEntry_fetches (s : State) (k : Nat) (e : BitVec 30) : (s.setEntry k e).fetches = s.fetches := rfl
@[simp] theorem State.setEntry_nvme (s : State) (k : Nat) (e : BitVec 30) : (s.setEntry k e).nvme = s.nvme := rfl
@[simp] theorem State.setEntry_pairs (s : State) (k : Nat) (e : BitVec 30) : (s.setEntry k e).pairs = s.pairs := rfl
@[simp] theorem State.setEntry_resumes (s : State) (k : Nat) (e : BitVec 30) : (s.setEntry k e).resumes = s.resumes := rfl
@[simp] theorem State.setEntry_namespaces (s : State) (k : Nat) (e : BitVec 30) : (s.setEntry k e).namespaces = s.namespaces := rfl
@[simp] theorem State.setEntry_flash (s : State) (k : Nat) (e : BitVec 30) : (s.setEntry k e).flash = s.flash := rfl
@[simp] theorem State.setEntry_charged (s : State) (k : Nat) (e : BitVec 30) : (s.setEntry k e).charged = s.charged := rfl
@[simp] theorem State.setEntry_saved (s : State) (k : Nat) (e : BitVec 30) : (s.setEntry k e).saved = s.saved := rfl
@[simp] theorem State.setEntry_loads (s : State) (k : Nat) (e : BitVec 30) : (s.setEntry k e).loads = s.loads := rfl
@[simp] theorem State.setEntry_stepno (s : State) (k : Nat) (e : BitVec 30) : (s.setEntry k e).stepno = s.stepno := rfl
@[simp] theorem State.setEntry_arrivals (s : State) (k : Nat) (e : BitVec 30) : (s.setEntry k e).arrivals = s.arrivals := rfl
@[simp] theorem State.setEntry_landings (s : State) (k : Nat) (e : BitVec 30) : (s.setEntry k e).landings = s.landings := rfl
@[simp] theorem State.setEntry_host (s : State) (k : Nat) (e : BitVec 30) : (s.setEntry k e).host = s.host := rfl
@[simp] theorem State.setEntry_ratio (s : State) (k : Nat) (e : BitVec 30) : (s.setEntry k e).ratio = s.ratio := rfl
@[simp] theorem State.setEntry_twoDie (s : State) (k : Nat) (e : BitVec 30) : (s.setEntry k e).twoDie = s.twoDie := rfl
@[simp] theorem State.setEntry_pkg (s : State) (k : Nat) (e : BitVec 30) : (s.setEntry k e).pkg = s.pkg := rfl
@[simp] theorem State.setEntry_domain (s : State) (k : Nat) (e : BitVec 30) : (s.setEntry k e).domain = s.domain := rfl
@[simp] theorem State.setEntry_stopped (s : State) (k : Nat) (e : BitVec 30) : (s.setEntry k e).stopped = s.stopped := rfl
@[simp] theorem State.setEntry_clock (s : State) (k : Nat) (e : BitVec 30) : (s.setEntry k e).clock = s.clock := rfl
@[simp] theorem State.setEntry_agenda (s : State) (k : Nat) (e : BitVec 30) : (s.setEntry k e).agenda = s.agenda := rfl

/-! ### setNet -/

@[simp] theorem State.setNet_h (s : State) (n : BitVec 4) (x : Net) : (s.setNet n x).h = s.h := rfl
@[simp] theorem State.setNet_others (s : State) (n : BitVec 4) (x : Net) : (s.setNet n x).others = s.others := rfl
@[simp] theorem State.setNet_cores (s : State) (n : BitVec 4) (x : Net) : (s.setNet n x).cores = s.cores := rfl
@[simp] theorem State.setNet_mem (s : State) (n : BitVec 4) (x : Net) : (s.setNet n x).mem = s.mem := rfl
@[simp] theorem State.setNet_turn (s : State) (n : BitVec 4) (x : Net) : (s.setNet n x).turn = s.turn := rfl
@[simp] theorem State.setNet_full (s : State) (n : BitVec 4) (x : Net) : (s.setNet n x).full = s.full := rfl
@[simp] theorem State.setNet_poison (s : State) (n : BitVec 4) (x : Net) : (s.setNet n x).poison = s.poison := rfl
@[simp] theorem State.setNet_held (s : State) (n : BitVec 4) (x : Net) : (s.setNet n x).held = s.held := rfl
@[simp] theorem State.setNet_copies (s : State) (n : BitVec 4) (x : Net) : (s.setNet n x).copies = s.copies := rfl
@[simp] theorem State.setNet_flight (s : State) (n : BitVec 4) (x : Net) : (s.setNet n x).flight = s.flight := rfl
@[simp] theorem State.setNet_waiters (s : State) (n : BitVec 4) (x : Net) : (s.setNet n x).waiters = s.waiters := rfl
@[simp] theorem State.setNet_cmds (s : State) (n : BitVec 4) (x : Net) : (s.setNet n x).cmds = s.cmds := rfl
@[simp] theorem State.setNet_arrays (s : State) (n : BitVec 4) (x : Net) : (s.setNet n x).arrays = s.arrays := rfl
@[simp] theorem State.setNet_queues (s : State) (n : BitVec 4) (x : Net) : (s.setNet n x).queues = s.queues := rfl
@[simp] theorem State.setNet_starts (s : State) (n : BitVec 4) (x : Net) : (s.setNet n x).starts = s.starts := rfl
@[simp] theorem State.setNet_rings (s : State) (n : BitVec 4) (x : Net) : (s.setNet n x).rings = s.rings := rfl
@[simp] theorem State.setNet_posted (s : State) (n : BitVec 4) (x : Net) : (s.setNet n x).posted = s.posted := rfl
@[simp] theorem State.setNet_regions (s : State) (n : BitVec 4) (x : Net) : (s.setNet n x).regions = s.regions := rfl
@[simp] theorem State.setNet_refs (s : State) (n : BitVec 4) (x : Net) : (s.setNet n x).refs = s.refs := rfl
@[simp] theorem State.setNet_stoppedRegions (s : State) (n : BitVec 4) (x : Net) : (s.setNet n x).stoppedRegions = s.stoppedRegions := rfl
@[simp] theorem State.setNet_ended (s : State) (n : BitVec 4) (x : Net) : (s.setNet n x).ended = s.ended := rfl
@[simp] theorem State.setNet_replayed (s : State) (n : BitVec 4) (x : Net) : (s.setNet n x).replayed = s.replayed := rfl
@[simp] theorem State.setNet_unlogged (s : State) (n : BitVec 4) (x : Net) : (s.setNet n x).unlogged = s.unlogged := rfl
@[simp] theorem State.setNet_tasks (s : State) (n : BitVec 4) (x : Net) : (s.setNet n x).tasks = s.tasks := rfl
@[simp] theorem State.setNet_promos (s : State) (n : BitVec 4) (x : Net) : (s.setNet n x).promos = s.promos := rfl
@[simp] theorem State.setNet_evict (s : State) (n : BitVec 4) (x : Net) : (s.setNet n x).evict = s.evict := rfl
@[simp] theorem State.setNet_fetches (s : State) (n : BitVec 4) (x : Net) : (s.setNet n x).fetches = s.fetches := rfl
@[simp] theorem State.setNet_nvme (s : State) (n : BitVec 4) (x : Net) : (s.setNet n x).nvme = s.nvme := rfl
@[simp] theorem State.setNet_pairs (s : State) (n : BitVec 4) (x : Net) : (s.setNet n x).pairs = s.pairs := rfl
@[simp] theorem State.setNet_resumes (s : State) (n : BitVec 4) (x : Net) : (s.setNet n x).resumes = s.resumes := rfl
@[simp] theorem State.setNet_namespaces (s : State) (n : BitVec 4) (x : Net) : (s.setNet n x).namespaces = s.namespaces := rfl
@[simp] theorem State.setNet_flash (s : State) (n : BitVec 4) (x : Net) : (s.setNet n x).flash = s.flash := rfl
@[simp] theorem State.setNet_charged (s : State) (n : BitVec 4) (x : Net) : (s.setNet n x).charged = s.charged := rfl
@[simp] theorem State.setNet_saved (s : State) (n : BitVec 4) (x : Net) : (s.setNet n x).saved = s.saved := rfl
@[simp] theorem State.setNet_loads (s : State) (n : BitVec 4) (x : Net) : (s.setNet n x).loads = s.loads := rfl
@[simp] theorem State.setNet_stepno (s : State) (n : BitVec 4) (x : Net) : (s.setNet n x).stepno = s.stepno := rfl
@[simp] theorem State.setNet_arrivals (s : State) (n : BitVec 4) (x : Net) : (s.setNet n x).arrivals = s.arrivals := rfl
@[simp] theorem State.setNet_landings (s : State) (n : BitVec 4) (x : Net) : (s.setNet n x).landings = s.landings := rfl
@[simp] theorem State.setNet_host (s : State) (n : BitVec 4) (x : Net) : (s.setNet n x).host = s.host := rfl
@[simp] theorem State.setNet_ratio (s : State) (n : BitVec 4) (x : Net) : (s.setNet n x).ratio = s.ratio := rfl
@[simp] theorem State.setNet_twoDie (s : State) (n : BitVec 4) (x : Net) : (s.setNet n x).twoDie = s.twoDie := rfl
@[simp] theorem State.setNet_pkg (s : State) (n : BitVec 4) (x : Net) : (s.setNet n x).pkg = s.pkg := rfl
@[simp] theorem State.setNet_domain (s : State) (n : BitVec 4) (x : Net) : (s.setNet n x).domain = s.domain := rfl
@[simp] theorem State.setNet_stopped (s : State) (n : BitVec 4) (x : Net) : (s.setNet n x).stopped = s.stopped := rfl
@[simp] theorem State.setNet_clock (s : State) (n : BitVec 4) (x : Net) : (s.setNet n x).clock = s.clock := rfl
@[simp] theorem State.setNet_agenda (s : State) (n : BitVec 4) (x : Net) : (s.setNet n x).agenda = s.agenda := rfl

/-! ### setQueue -/

@[simp] theorem State.setQueue_h (s : State) (q : Nat) (x : WorkQueue) : (s.setQueue q x).h = s.h := rfl
@[simp] theorem State.setQueue_others (s : State) (q : Nat) (x : WorkQueue) : (s.setQueue q x).others = s.others := rfl
@[simp] theorem State.setQueue_cores (s : State) (q : Nat) (x : WorkQueue) : (s.setQueue q x).cores = s.cores := rfl
@[simp] theorem State.setQueue_mem (s : State) (q : Nat) (x : WorkQueue) : (s.setQueue q x).mem = s.mem := rfl
@[simp] theorem State.setQueue_turn (s : State) (q : Nat) (x : WorkQueue) : (s.setQueue q x).turn = s.turn := rfl
@[simp] theorem State.setQueue_full (s : State) (q : Nat) (x : WorkQueue) : (s.setQueue q x).full = s.full := rfl
@[simp] theorem State.setQueue_poison (s : State) (q : Nat) (x : WorkQueue) : (s.setQueue q x).poison = s.poison := rfl
@[simp] theorem State.setQueue_held (s : State) (q : Nat) (x : WorkQueue) : (s.setQueue q x).held = s.held := rfl
@[simp] theorem State.setQueue_copies (s : State) (q : Nat) (x : WorkQueue) : (s.setQueue q x).copies = s.copies := rfl
@[simp] theorem State.setQueue_flight (s : State) (q : Nat) (x : WorkQueue) : (s.setQueue q x).flight = s.flight := rfl
@[simp] theorem State.setQueue_waiters (s : State) (q : Nat) (x : WorkQueue) : (s.setQueue q x).waiters = s.waiters := rfl
@[simp] theorem State.setQueue_cmds (s : State) (q : Nat) (x : WorkQueue) : (s.setQueue q x).cmds = s.cmds := rfl
@[simp] theorem State.setQueue_arrays (s : State) (q : Nat) (x : WorkQueue) : (s.setQueue q x).arrays = s.arrays := rfl
@[simp] theorem State.setQueue_nets (s : State) (q : Nat) (x : WorkQueue) : (s.setQueue q x).nets = s.nets := rfl
@[simp] theorem State.setQueue_starts (s : State) (q : Nat) (x : WorkQueue) : (s.setQueue q x).starts = s.starts := rfl
@[simp] theorem State.setQueue_rings (s : State) (q : Nat) (x : WorkQueue) : (s.setQueue q x).rings = s.rings := rfl
@[simp] theorem State.setQueue_posted (s : State) (q : Nat) (x : WorkQueue) : (s.setQueue q x).posted = s.posted := rfl
@[simp] theorem State.setQueue_regions (s : State) (q : Nat) (x : WorkQueue) : (s.setQueue q x).regions = s.regions := rfl
@[simp] theorem State.setQueue_refs (s : State) (q : Nat) (x : WorkQueue) : (s.setQueue q x).refs = s.refs := rfl
@[simp] theorem State.setQueue_stoppedRegions (s : State) (q : Nat) (x : WorkQueue) : (s.setQueue q x).stoppedRegions = s.stoppedRegions := rfl
@[simp] theorem State.setQueue_ended (s : State) (q : Nat) (x : WorkQueue) : (s.setQueue q x).ended = s.ended := rfl
@[simp] theorem State.setQueue_replayed (s : State) (q : Nat) (x : WorkQueue) : (s.setQueue q x).replayed = s.replayed := rfl
@[simp] theorem State.setQueue_unlogged (s : State) (q : Nat) (x : WorkQueue) : (s.setQueue q x).unlogged = s.unlogged := rfl
@[simp] theorem State.setQueue_tasks (s : State) (q : Nat) (x : WorkQueue) : (s.setQueue q x).tasks = s.tasks := rfl
@[simp] theorem State.setQueue_promos (s : State) (q : Nat) (x : WorkQueue) : (s.setQueue q x).promos = s.promos := rfl
@[simp] theorem State.setQueue_evict (s : State) (q : Nat) (x : WorkQueue) : (s.setQueue q x).evict = s.evict := rfl
@[simp] theorem State.setQueue_fetches (s : State) (q : Nat) (x : WorkQueue) : (s.setQueue q x).fetches = s.fetches := rfl
@[simp] theorem State.setQueue_nvme (s : State) (q : Nat) (x : WorkQueue) : (s.setQueue q x).nvme = s.nvme := rfl
@[simp] theorem State.setQueue_pairs (s : State) (q : Nat) (x : WorkQueue) : (s.setQueue q x).pairs = s.pairs := rfl
@[simp] theorem State.setQueue_resumes (s : State) (q : Nat) (x : WorkQueue) : (s.setQueue q x).resumes = s.resumes := rfl
@[simp] theorem State.setQueue_namespaces (s : State) (q : Nat) (x : WorkQueue) : (s.setQueue q x).namespaces = s.namespaces := rfl
@[simp] theorem State.setQueue_flash (s : State) (q : Nat) (x : WorkQueue) : (s.setQueue q x).flash = s.flash := rfl
@[simp] theorem State.setQueue_charged (s : State) (q : Nat) (x : WorkQueue) : (s.setQueue q x).charged = s.charged := rfl
@[simp] theorem State.setQueue_saved (s : State) (q : Nat) (x : WorkQueue) : (s.setQueue q x).saved = s.saved := rfl
@[simp] theorem State.setQueue_loads (s : State) (q : Nat) (x : WorkQueue) : (s.setQueue q x).loads = s.loads := rfl
@[simp] theorem State.setQueue_stepno (s : State) (q : Nat) (x : WorkQueue) : (s.setQueue q x).stepno = s.stepno := rfl
@[simp] theorem State.setQueue_arrivals (s : State) (q : Nat) (x : WorkQueue) : (s.setQueue q x).arrivals = s.arrivals := rfl
@[simp] theorem State.setQueue_landings (s : State) (q : Nat) (x : WorkQueue) : (s.setQueue q x).landings = s.landings := rfl
@[simp] theorem State.setQueue_host (s : State) (q : Nat) (x : WorkQueue) : (s.setQueue q x).host = s.host := rfl
@[simp] theorem State.setQueue_ratio (s : State) (q : Nat) (x : WorkQueue) : (s.setQueue q x).ratio = s.ratio := rfl
@[simp] theorem State.setQueue_twoDie (s : State) (q : Nat) (x : WorkQueue) : (s.setQueue q x).twoDie = s.twoDie := rfl
@[simp] theorem State.setQueue_pkg (s : State) (q : Nat) (x : WorkQueue) : (s.setQueue q x).pkg = s.pkg := rfl
@[simp] theorem State.setQueue_domain (s : State) (q : Nat) (x : WorkQueue) : (s.setQueue q x).domain = s.domain := rfl
@[simp] theorem State.setQueue_stopped (s : State) (q : Nat) (x : WorkQueue) : (s.setQueue q x).stopped = s.stopped := rfl
@[simp] theorem State.setQueue_clock (s : State) (q : Nat) (x : WorkQueue) : (s.setQueue q x).clock = s.clock := rfl
@[simp] theorem State.setQueue_agenda (s : State) (q : Nat) (x : WorkQueue) : (s.setQueue q x).agenda = s.agenda := rfl

/-! ### setRing -/

@[simp] theorem State.setRing_h (s : State) (r : Nat) (x : Ring) : (s.setRing r x).h = s.h := rfl
@[simp] theorem State.setRing_others (s : State) (r : Nat) (x : Ring) : (s.setRing r x).others = s.others := rfl
@[simp] theorem State.setRing_cores (s : State) (r : Nat) (x : Ring) : (s.setRing r x).cores = s.cores := rfl
@[simp] theorem State.setRing_mem (s : State) (r : Nat) (x : Ring) : (s.setRing r x).mem = s.mem := rfl
@[simp] theorem State.setRing_turn (s : State) (r : Nat) (x : Ring) : (s.setRing r x).turn = s.turn := rfl
@[simp] theorem State.setRing_full (s : State) (r : Nat) (x : Ring) : (s.setRing r x).full = s.full := rfl
@[simp] theorem State.setRing_poison (s : State) (r : Nat) (x : Ring) : (s.setRing r x).poison = s.poison := rfl
@[simp] theorem State.setRing_held (s : State) (r : Nat) (x : Ring) : (s.setRing r x).held = s.held := rfl
@[simp] theorem State.setRing_copies (s : State) (r : Nat) (x : Ring) : (s.setRing r x).copies = s.copies := rfl
@[simp] theorem State.setRing_flight (s : State) (r : Nat) (x : Ring) : (s.setRing r x).flight = s.flight := rfl
@[simp] theorem State.setRing_waiters (s : State) (r : Nat) (x : Ring) : (s.setRing r x).waiters = s.waiters := rfl
@[simp] theorem State.setRing_cmds (s : State) (r : Nat) (x : Ring) : (s.setRing r x).cmds = s.cmds := rfl
@[simp] theorem State.setRing_arrays (s : State) (r : Nat) (x : Ring) : (s.setRing r x).arrays = s.arrays := rfl
@[simp] theorem State.setRing_nets (s : State) (r : Nat) (x : Ring) : (s.setRing r x).nets = s.nets := rfl
@[simp] theorem State.setRing_queues (s : State) (r : Nat) (x : Ring) : (s.setRing r x).queues = s.queues := rfl
@[simp] theorem State.setRing_starts (s : State) (r : Nat) (x : Ring) : (s.setRing r x).starts = s.starts := rfl
@[simp] theorem State.setRing_posted (s : State) (r : Nat) (x : Ring) : (s.setRing r x).posted = s.posted := rfl
@[simp] theorem State.setRing_regions (s : State) (r : Nat) (x : Ring) : (s.setRing r x).regions = s.regions := rfl
@[simp] theorem State.setRing_refs (s : State) (r : Nat) (x : Ring) : (s.setRing r x).refs = s.refs := rfl
@[simp] theorem State.setRing_stoppedRegions (s : State) (r : Nat) (x : Ring) : (s.setRing r x).stoppedRegions = s.stoppedRegions := rfl
@[simp] theorem State.setRing_ended (s : State) (r : Nat) (x : Ring) : (s.setRing r x).ended = s.ended := rfl
@[simp] theorem State.setRing_replayed (s : State) (r : Nat) (x : Ring) : (s.setRing r x).replayed = s.replayed := rfl
@[simp] theorem State.setRing_unlogged (s : State) (r : Nat) (x : Ring) : (s.setRing r x).unlogged = s.unlogged := rfl
@[simp] theorem State.setRing_tasks (s : State) (r : Nat) (x : Ring) : (s.setRing r x).tasks = s.tasks := rfl
@[simp] theorem State.setRing_promos (s : State) (r : Nat) (x : Ring) : (s.setRing r x).promos = s.promos := rfl
@[simp] theorem State.setRing_evict (s : State) (r : Nat) (x : Ring) : (s.setRing r x).evict = s.evict := rfl
@[simp] theorem State.setRing_fetches (s : State) (r : Nat) (x : Ring) : (s.setRing r x).fetches = s.fetches := rfl
@[simp] theorem State.setRing_nvme (s : State) (r : Nat) (x : Ring) : (s.setRing r x).nvme = s.nvme := rfl
@[simp] theorem State.setRing_pairs (s : State) (r : Nat) (x : Ring) : (s.setRing r x).pairs = s.pairs := rfl
@[simp] theorem State.setRing_resumes (s : State) (r : Nat) (x : Ring) : (s.setRing r x).resumes = s.resumes := rfl
@[simp] theorem State.setRing_namespaces (s : State) (r : Nat) (x : Ring) : (s.setRing r x).namespaces = s.namespaces := rfl
@[simp] theorem State.setRing_flash (s : State) (r : Nat) (x : Ring) : (s.setRing r x).flash = s.flash := rfl
@[simp] theorem State.setRing_charged (s : State) (r : Nat) (x : Ring) : (s.setRing r x).charged = s.charged := rfl
@[simp] theorem State.setRing_saved (s : State) (r : Nat) (x : Ring) : (s.setRing r x).saved = s.saved := rfl
@[simp] theorem State.setRing_loads (s : State) (r : Nat) (x : Ring) : (s.setRing r x).loads = s.loads := rfl
@[simp] theorem State.setRing_stepno (s : State) (r : Nat) (x : Ring) : (s.setRing r x).stepno = s.stepno := rfl
@[simp] theorem State.setRing_arrivals (s : State) (r : Nat) (x : Ring) : (s.setRing r x).arrivals = s.arrivals := rfl
@[simp] theorem State.setRing_landings (s : State) (r : Nat) (x : Ring) : (s.setRing r x).landings = s.landings := rfl
@[simp] theorem State.setRing_host (s : State) (r : Nat) (x : Ring) : (s.setRing r x).host = s.host := rfl
@[simp] theorem State.setRing_ratio (s : State) (r : Nat) (x : Ring) : (s.setRing r x).ratio = s.ratio := rfl
@[simp] theorem State.setRing_twoDie (s : State) (r : Nat) (x : Ring) : (s.setRing r x).twoDie = s.twoDie := rfl
@[simp] theorem State.setRing_pkg (s : State) (r : Nat) (x : Ring) : (s.setRing r x).pkg = s.pkg := rfl
@[simp] theorem State.setRing_domain (s : State) (r : Nat) (x : Ring) : (s.setRing r x).domain = s.domain := rfl
@[simp] theorem State.setRing_stopped (s : State) (r : Nat) (x : Ring) : (s.setRing r x).stopped = s.stopped := rfl
@[simp] theorem State.setRing_clock (s : State) (r : Nat) (x : Ring) : (s.setRing r x).clock = s.clock := rfl
@[simp] theorem State.setRing_agenda (s : State) (r : Nat) (x : Ring) : (s.setRing r x).agenda = s.agenda := rfl

/-! ### modHost -/

@[simp] theorem State.modHost_h (s : State) (f : HostRegs → HostRegs) : (s.modHost f).h = s.h := rfl
@[simp] theorem State.modHost_others (s : State) (f : HostRegs → HostRegs) : (s.modHost f).others = s.others := rfl
@[simp] theorem State.modHost_cores (s : State) (f : HostRegs → HostRegs) : (s.modHost f).cores = s.cores := rfl
@[simp] theorem State.modHost_mem (s : State) (f : HostRegs → HostRegs) : (s.modHost f).mem = s.mem := rfl
@[simp] theorem State.modHost_turn (s : State) (f : HostRegs → HostRegs) : (s.modHost f).turn = s.turn := rfl
@[simp] theorem State.modHost_full (s : State) (f : HostRegs → HostRegs) : (s.modHost f).full = s.full := rfl
@[simp] theorem State.modHost_poison (s : State) (f : HostRegs → HostRegs) : (s.modHost f).poison = s.poison := rfl
@[simp] theorem State.modHost_held (s : State) (f : HostRegs → HostRegs) : (s.modHost f).held = s.held := rfl
@[simp] theorem State.modHost_copies (s : State) (f : HostRegs → HostRegs) : (s.modHost f).copies = s.copies := rfl
@[simp] theorem State.modHost_flight (s : State) (f : HostRegs → HostRegs) : (s.modHost f).flight = s.flight := rfl
@[simp] theorem State.modHost_waiters (s : State) (f : HostRegs → HostRegs) : (s.modHost f).waiters = s.waiters := rfl
@[simp] theorem State.modHost_cmds (s : State) (f : HostRegs → HostRegs) : (s.modHost f).cmds = s.cmds := rfl
@[simp] theorem State.modHost_arrays (s : State) (f : HostRegs → HostRegs) : (s.modHost f).arrays = s.arrays := rfl
@[simp] theorem State.modHost_nets (s : State) (f : HostRegs → HostRegs) : (s.modHost f).nets = s.nets := rfl
@[simp] theorem State.modHost_queues (s : State) (f : HostRegs → HostRegs) : (s.modHost f).queues = s.queues := rfl
@[simp] theorem State.modHost_starts (s : State) (f : HostRegs → HostRegs) : (s.modHost f).starts = s.starts := rfl
@[simp] theorem State.modHost_rings (s : State) (f : HostRegs → HostRegs) : (s.modHost f).rings = s.rings := rfl
@[simp] theorem State.modHost_posted (s : State) (f : HostRegs → HostRegs) : (s.modHost f).posted = s.posted := rfl
@[simp] theorem State.modHost_regions (s : State) (f : HostRegs → HostRegs) : (s.modHost f).regions = s.regions := rfl
@[simp] theorem State.modHost_refs (s : State) (f : HostRegs → HostRegs) : (s.modHost f).refs = s.refs := rfl
@[simp] theorem State.modHost_stoppedRegions (s : State) (f : HostRegs → HostRegs) : (s.modHost f).stoppedRegions = s.stoppedRegions := rfl
@[simp] theorem State.modHost_ended (s : State) (f : HostRegs → HostRegs) : (s.modHost f).ended = s.ended := rfl
@[simp] theorem State.modHost_replayed (s : State) (f : HostRegs → HostRegs) : (s.modHost f).replayed = s.replayed := rfl
@[simp] theorem State.modHost_unlogged (s : State) (f : HostRegs → HostRegs) : (s.modHost f).unlogged = s.unlogged := rfl
@[simp] theorem State.modHost_tasks (s : State) (f : HostRegs → HostRegs) : (s.modHost f).tasks = s.tasks := rfl
@[simp] theorem State.modHost_promos (s : State) (f : HostRegs → HostRegs) : (s.modHost f).promos = s.promos := rfl
@[simp] theorem State.modHost_evict (s : State) (f : HostRegs → HostRegs) : (s.modHost f).evict = s.evict := rfl
@[simp] theorem State.modHost_fetches (s : State) (f : HostRegs → HostRegs) : (s.modHost f).fetches = s.fetches := rfl
@[simp] theorem State.modHost_nvme (s : State) (f : HostRegs → HostRegs) : (s.modHost f).nvme = s.nvme := rfl
@[simp] theorem State.modHost_pairs (s : State) (f : HostRegs → HostRegs) : (s.modHost f).pairs = s.pairs := rfl
@[simp] theorem State.modHost_resumes (s : State) (f : HostRegs → HostRegs) : (s.modHost f).resumes = s.resumes := rfl
@[simp] theorem State.modHost_namespaces (s : State) (f : HostRegs → HostRegs) : (s.modHost f).namespaces = s.namespaces := rfl
@[simp] theorem State.modHost_flash (s : State) (f : HostRegs → HostRegs) : (s.modHost f).flash = s.flash := rfl
@[simp] theorem State.modHost_charged (s : State) (f : HostRegs → HostRegs) : (s.modHost f).charged = s.charged := rfl
@[simp] theorem State.modHost_saved (s : State) (f : HostRegs → HostRegs) : (s.modHost f).saved = s.saved := rfl
@[simp] theorem State.modHost_loads (s : State) (f : HostRegs → HostRegs) : (s.modHost f).loads = s.loads := rfl
@[simp] theorem State.modHost_stepno (s : State) (f : HostRegs → HostRegs) : (s.modHost f).stepno = s.stepno := rfl
@[simp] theorem State.modHost_arrivals (s : State) (f : HostRegs → HostRegs) : (s.modHost f).arrivals = s.arrivals := rfl
@[simp] theorem State.modHost_landings (s : State) (f : HostRegs → HostRegs) : (s.modHost f).landings = s.landings := rfl
@[simp] theorem State.modHost_ratio (s : State) (f : HostRegs → HostRegs) : (s.modHost f).ratio = s.ratio := rfl
@[simp] theorem State.modHost_twoDie (s : State) (f : HostRegs → HostRegs) : (s.modHost f).twoDie = s.twoDie := rfl
@[simp] theorem State.modHost_pkg (s : State) (f : HostRegs → HostRegs) : (s.modHost f).pkg = s.pkg := rfl
@[simp] theorem State.modHost_domain (s : State) (f : HostRegs → HostRegs) : (s.modHost f).domain = s.domain := rfl
@[simp] theorem State.modHost_stopped (s : State) (f : HostRegs → HostRegs) : (s.modHost f).stopped = s.stopped := rfl
@[simp] theorem State.modHost_clock (s : State) (f : HostRegs → HostRegs) : (s.modHost f).clock = s.clock := rfl
@[simp] theorem State.modHost_agenda (s : State) (f : HostRegs → HostRegs) : (s.modHost f).agenda = s.agenda := rfl

/-! ### putByte -/

@[simp] theorem State.putByte_h (s : State) (l : Nat) (b : Byte) : (s.putByte l b).h = s.h := rfl
@[simp] theorem State.putByte_others (s : State) (l : Nat) (b : Byte) : (s.putByte l b).others = s.others := rfl
@[simp] theorem State.putByte_cores (s : State) (l : Nat) (b : Byte) : (s.putByte l b).cores = s.cores := rfl
@[simp] theorem State.putByte_turn (s : State) (l : Nat) (b : Byte) : (s.putByte l b).turn = s.turn := rfl
@[simp] theorem State.putByte_full (s : State) (l : Nat) (b : Byte) : (s.putByte l b).full = s.full := rfl
@[simp] theorem State.putByte_poison (s : State) (l : Nat) (b : Byte) : (s.putByte l b).poison = s.poison := rfl
@[simp] theorem State.putByte_held (s : State) (l : Nat) (b : Byte) : (s.putByte l b).held = s.held := rfl
@[simp] theorem State.putByte_copies (s : State) (l : Nat) (b : Byte) : (s.putByte l b).copies = s.copies := rfl
@[simp] theorem State.putByte_flight (s : State) (l : Nat) (b : Byte) : (s.putByte l b).flight = s.flight := rfl
@[simp] theorem State.putByte_waiters (s : State) (l : Nat) (b : Byte) : (s.putByte l b).waiters = s.waiters := rfl
@[simp] theorem State.putByte_cmds (s : State) (l : Nat) (b : Byte) : (s.putByte l b).cmds = s.cmds := rfl
@[simp] theorem State.putByte_arrays (s : State) (l : Nat) (b : Byte) : (s.putByte l b).arrays = s.arrays := rfl
@[simp] theorem State.putByte_nets (s : State) (l : Nat) (b : Byte) : (s.putByte l b).nets = s.nets := rfl
@[simp] theorem State.putByte_queues (s : State) (l : Nat) (b : Byte) : (s.putByte l b).queues = s.queues := rfl
@[simp] theorem State.putByte_starts (s : State) (l : Nat) (b : Byte) : (s.putByte l b).starts = s.starts := rfl
@[simp] theorem State.putByte_rings (s : State) (l : Nat) (b : Byte) : (s.putByte l b).rings = s.rings := rfl
@[simp] theorem State.putByte_posted (s : State) (l : Nat) (b : Byte) : (s.putByte l b).posted = s.posted := rfl
@[simp] theorem State.putByte_regions (s : State) (l : Nat) (b : Byte) : (s.putByte l b).regions = s.regions := rfl
@[simp] theorem State.putByte_refs (s : State) (l : Nat) (b : Byte) : (s.putByte l b).refs = s.refs := rfl
@[simp] theorem State.putByte_stoppedRegions (s : State) (l : Nat) (b : Byte) : (s.putByte l b).stoppedRegions = s.stoppedRegions := rfl
@[simp] theorem State.putByte_ended (s : State) (l : Nat) (b : Byte) : (s.putByte l b).ended = s.ended := rfl
@[simp] theorem State.putByte_replayed (s : State) (l : Nat) (b : Byte) : (s.putByte l b).replayed = s.replayed := rfl
@[simp] theorem State.putByte_unlogged (s : State) (l : Nat) (b : Byte) : (s.putByte l b).unlogged = s.unlogged := rfl
@[simp] theorem State.putByte_tasks (s : State) (l : Nat) (b : Byte) : (s.putByte l b).tasks = s.tasks := rfl
@[simp] theorem State.putByte_promos (s : State) (l : Nat) (b : Byte) : (s.putByte l b).promos = s.promos := rfl
@[simp] theorem State.putByte_evict (s : State) (l : Nat) (b : Byte) : (s.putByte l b).evict = s.evict := rfl
@[simp] theorem State.putByte_fetches (s : State) (l : Nat) (b : Byte) : (s.putByte l b).fetches = s.fetches := rfl
@[simp] theorem State.putByte_nvme (s : State) (l : Nat) (b : Byte) : (s.putByte l b).nvme = s.nvme := rfl
@[simp] theorem State.putByte_pairs (s : State) (l : Nat) (b : Byte) : (s.putByte l b).pairs = s.pairs := rfl
@[simp] theorem State.putByte_resumes (s : State) (l : Nat) (b : Byte) : (s.putByte l b).resumes = s.resumes := rfl
@[simp] theorem State.putByte_namespaces (s : State) (l : Nat) (b : Byte) : (s.putByte l b).namespaces = s.namespaces := rfl
@[simp] theorem State.putByte_flash (s : State) (l : Nat) (b : Byte) : (s.putByte l b).flash = s.flash := rfl
@[simp] theorem State.putByte_charged (s : State) (l : Nat) (b : Byte) : (s.putByte l b).charged = s.charged := rfl
@[simp] theorem State.putByte_saved (s : State) (l : Nat) (b : Byte) : (s.putByte l b).saved = s.saved := rfl
@[simp] theorem State.putByte_loads (s : State) (l : Nat) (b : Byte) : (s.putByte l b).loads = s.loads := rfl
@[simp] theorem State.putByte_stepno (s : State) (l : Nat) (b : Byte) : (s.putByte l b).stepno = s.stepno := rfl
@[simp] theorem State.putByte_arrivals (s : State) (l : Nat) (b : Byte) : (s.putByte l b).arrivals = s.arrivals := rfl
@[simp] theorem State.putByte_landings (s : State) (l : Nat) (b : Byte) : (s.putByte l b).landings = s.landings := rfl
@[simp] theorem State.putByte_host (s : State) (l : Nat) (b : Byte) : (s.putByte l b).host = s.host := rfl
@[simp] theorem State.putByte_ratio (s : State) (l : Nat) (b : Byte) : (s.putByte l b).ratio = s.ratio := rfl
@[simp] theorem State.putByte_twoDie (s : State) (l : Nat) (b : Byte) : (s.putByte l b).twoDie = s.twoDie := rfl
@[simp] theorem State.putByte_pkg (s : State) (l : Nat) (b : Byte) : (s.putByte l b).pkg = s.pkg := rfl
@[simp] theorem State.putByte_domain (s : State) (l : Nat) (b : Byte) : (s.putByte l b).domain = s.domain := rfl
@[simp] theorem State.putByte_stopped (s : State) (l : Nat) (b : Byte) : (s.putByte l b).stopped = s.stopped := rfl
@[simp] theorem State.putByte_clock (s : State) (l : Nat) (b : Byte) : (s.putByte l b).clock = s.clock := rfl
@[simp] theorem State.putByte_agenda (s : State) (l : Nat) (b : Byte) : (s.putByte l b).agenda = s.agenda := rfl

/-! ### invalidate -/

@[simp] theorem State.invalidate_h (s : State) (lv : Nat) (c : BitVec 10) (k : Nat) : (s.invalidate lv c k).h = s.h := rfl
@[simp] theorem State.invalidate_others (s : State) (lv : Nat) (c : BitVec 10) (k : Nat) : (s.invalidate lv c k).others = s.others := rfl
@[simp] theorem State.invalidate_cores (s : State) (lv : Nat) (c : BitVec 10) (k : Nat) : (s.invalidate lv c k).cores = s.cores := rfl
@[simp] theorem State.invalidate_mem (s : State) (lv : Nat) (c : BitVec 10) (k : Nat) : (s.invalidate lv c k).mem = s.mem := rfl
@[simp] theorem State.invalidate_turn (s : State) (lv : Nat) (c : BitVec 10) (k : Nat) : (s.invalidate lv c k).turn = s.turn := rfl
@[simp] theorem State.invalidate_full (s : State) (lv : Nat) (c : BitVec 10) (k : Nat) : (s.invalidate lv c k).full = s.full := rfl
@[simp] theorem State.invalidate_poison (s : State) (lv : Nat) (c : BitVec 10) (k : Nat) : (s.invalidate lv c k).poison = s.poison := rfl
@[simp] theorem State.invalidate_held (s : State) (lv : Nat) (c : BitVec 10) (k : Nat) : (s.invalidate lv c k).held = s.held := rfl
@[simp] theorem State.invalidate_flight (s : State) (lv : Nat) (c : BitVec 10) (k : Nat) : (s.invalidate lv c k).flight = s.flight := rfl
@[simp] theorem State.invalidate_waiters (s : State) (lv : Nat) (c : BitVec 10) (k : Nat) : (s.invalidate lv c k).waiters = s.waiters := rfl
@[simp] theorem State.invalidate_cmds (s : State) (lv : Nat) (c : BitVec 10) (k : Nat) : (s.invalidate lv c k).cmds = s.cmds := rfl
@[simp] theorem State.invalidate_arrays (s : State) (lv : Nat) (c : BitVec 10) (k : Nat) : (s.invalidate lv c k).arrays = s.arrays := rfl
@[simp] theorem State.invalidate_nets (s : State) (lv : Nat) (c : BitVec 10) (k : Nat) : (s.invalidate lv c k).nets = s.nets := rfl
@[simp] theorem State.invalidate_queues (s : State) (lv : Nat) (c : BitVec 10) (k : Nat) : (s.invalidate lv c k).queues = s.queues := rfl
@[simp] theorem State.invalidate_starts (s : State) (lv : Nat) (c : BitVec 10) (k : Nat) : (s.invalidate lv c k).starts = s.starts := rfl
@[simp] theorem State.invalidate_rings (s : State) (lv : Nat) (c : BitVec 10) (k : Nat) : (s.invalidate lv c k).rings = s.rings := rfl
@[simp] theorem State.invalidate_posted (s : State) (lv : Nat) (c : BitVec 10) (k : Nat) : (s.invalidate lv c k).posted = s.posted := rfl
@[simp] theorem State.invalidate_regions (s : State) (lv : Nat) (c : BitVec 10) (k : Nat) : (s.invalidate lv c k).regions = s.regions := rfl
@[simp] theorem State.invalidate_refs (s : State) (lv : Nat) (c : BitVec 10) (k : Nat) : (s.invalidate lv c k).refs = s.refs := rfl
@[simp] theorem State.invalidate_stoppedRegions (s : State) (lv : Nat) (c : BitVec 10) (k : Nat) : (s.invalidate lv c k).stoppedRegions = s.stoppedRegions := rfl
@[simp] theorem State.invalidate_ended (s : State) (lv : Nat) (c : BitVec 10) (k : Nat) : (s.invalidate lv c k).ended = s.ended := rfl
@[simp] theorem State.invalidate_replayed (s : State) (lv : Nat) (c : BitVec 10) (k : Nat) : (s.invalidate lv c k).replayed = s.replayed := rfl
@[simp] theorem State.invalidate_unlogged (s : State) (lv : Nat) (c : BitVec 10) (k : Nat) : (s.invalidate lv c k).unlogged = s.unlogged := rfl
@[simp] theorem State.invalidate_tasks (s : State) (lv : Nat) (c : BitVec 10) (k : Nat) : (s.invalidate lv c k).tasks = s.tasks := rfl
@[simp] theorem State.invalidate_promos (s : State) (lv : Nat) (c : BitVec 10) (k : Nat) : (s.invalidate lv c k).promos = s.promos := rfl
@[simp] theorem State.invalidate_evict (s : State) (lv : Nat) (c : BitVec 10) (k : Nat) : (s.invalidate lv c k).evict = s.evict := rfl
@[simp] theorem State.invalidate_fetches (s : State) (lv : Nat) (c : BitVec 10) (k : Nat) : (s.invalidate lv c k).fetches = s.fetches := rfl
@[simp] theorem State.invalidate_nvme (s : State) (lv : Nat) (c : BitVec 10) (k : Nat) : (s.invalidate lv c k).nvme = s.nvme := rfl
@[simp] theorem State.invalidate_pairs (s : State) (lv : Nat) (c : BitVec 10) (k : Nat) : (s.invalidate lv c k).pairs = s.pairs := rfl
@[simp] theorem State.invalidate_resumes (s : State) (lv : Nat) (c : BitVec 10) (k : Nat) : (s.invalidate lv c k).resumes = s.resumes := rfl
@[simp] theorem State.invalidate_namespaces (s : State) (lv : Nat) (c : BitVec 10) (k : Nat) : (s.invalidate lv c k).namespaces = s.namespaces := rfl
@[simp] theorem State.invalidate_flash (s : State) (lv : Nat) (c : BitVec 10) (k : Nat) : (s.invalidate lv c k).flash = s.flash := rfl
@[simp] theorem State.invalidate_charged (s : State) (lv : Nat) (c : BitVec 10) (k : Nat) : (s.invalidate lv c k).charged = s.charged := rfl
@[simp] theorem State.invalidate_saved (s : State) (lv : Nat) (c : BitVec 10) (k : Nat) : (s.invalidate lv c k).saved = s.saved := rfl
@[simp] theorem State.invalidate_loads (s : State) (lv : Nat) (c : BitVec 10) (k : Nat) : (s.invalidate lv c k).loads = s.loads := rfl
@[simp] theorem State.invalidate_stepno (s : State) (lv : Nat) (c : BitVec 10) (k : Nat) : (s.invalidate lv c k).stepno = s.stepno := rfl
@[simp] theorem State.invalidate_arrivals (s : State) (lv : Nat) (c : BitVec 10) (k : Nat) : (s.invalidate lv c k).arrivals = s.arrivals := rfl
@[simp] theorem State.invalidate_landings (s : State) (lv : Nat) (c : BitVec 10) (k : Nat) : (s.invalidate lv c k).landings = s.landings := rfl
@[simp] theorem State.invalidate_host (s : State) (lv : Nat) (c : BitVec 10) (k : Nat) : (s.invalidate lv c k).host = s.host := rfl
@[simp] theorem State.invalidate_ratio (s : State) (lv : Nat) (c : BitVec 10) (k : Nat) : (s.invalidate lv c k).ratio = s.ratio := rfl
@[simp] theorem State.invalidate_twoDie (s : State) (lv : Nat) (c : BitVec 10) (k : Nat) : (s.invalidate lv c k).twoDie = s.twoDie := rfl
@[simp] theorem State.invalidate_pkg (s : State) (lv : Nat) (c : BitVec 10) (k : Nat) : (s.invalidate lv c k).pkg = s.pkg := rfl
@[simp] theorem State.invalidate_domain (s : State) (lv : Nat) (c : BitVec 10) (k : Nat) : (s.invalidate lv c k).domain = s.domain := rfl
@[simp] theorem State.invalidate_stopped (s : State) (lv : Nat) (c : BitVec 10) (k : Nat) : (s.invalidate lv c k).stopped = s.stopped := rfl
@[simp] theorem State.invalidate_clock (s : State) (lv : Nat) (c : BitVec 10) (k : Nat) : (s.invalidate lv c k).clock = s.clock := rfl
@[simp] theorem State.invalidate_agenda (s : State) (lv : Nat) (c : BitVec 10) (k : Nat) : (s.invalidate lv c k).agenda = s.agenda := rfl

/-! ### setTag -/

@[simp] theorem State.setTag_h (s : State) (l : Nat) (b : Bool) : (s.setTag l b).h = s.h := rfl
@[simp] theorem State.setTag_others (s : State) (l : Nat) (b : Bool) : (s.setTag l b).others = s.others := rfl
@[simp] theorem State.setTag_cores (s : State) (l : Nat) (b : Bool) : (s.setTag l b).cores = s.cores := rfl
@[simp] theorem State.setTag_mem (s : State) (l : Nat) (b : Bool) : (s.setTag l b).mem = s.mem := rfl
@[simp] theorem State.setTag_turn (s : State) (l : Nat) (b : Bool) : (s.setTag l b).turn = s.turn := rfl
@[simp] theorem State.setTag_poison (s : State) (l : Nat) (b : Bool) : (s.setTag l b).poison = s.poison := rfl
@[simp] theorem State.setTag_held (s : State) (l : Nat) (b : Bool) : (s.setTag l b).held = s.held := rfl
@[simp] theorem State.setTag_copies (s : State) (l : Nat) (b : Bool) : (s.setTag l b).copies = s.copies := rfl
@[simp] theorem State.setTag_flight (s : State) (l : Nat) (b : Bool) : (s.setTag l b).flight = s.flight := rfl
@[simp] theorem State.setTag_waiters (s : State) (l : Nat) (b : Bool) : (s.setTag l b).waiters = s.waiters := rfl
@[simp] theorem State.setTag_cmds (s : State) (l : Nat) (b : Bool) : (s.setTag l b).cmds = s.cmds := rfl
@[simp] theorem State.setTag_arrays (s : State) (l : Nat) (b : Bool) : (s.setTag l b).arrays = s.arrays := rfl
@[simp] theorem State.setTag_nets (s : State) (l : Nat) (b : Bool) : (s.setTag l b).nets = s.nets := rfl
@[simp] theorem State.setTag_queues (s : State) (l : Nat) (b : Bool) : (s.setTag l b).queues = s.queues := rfl
@[simp] theorem State.setTag_starts (s : State) (l : Nat) (b : Bool) : (s.setTag l b).starts = s.starts := rfl
@[simp] theorem State.setTag_rings (s : State) (l : Nat) (b : Bool) : (s.setTag l b).rings = s.rings := rfl
@[simp] theorem State.setTag_posted (s : State) (l : Nat) (b : Bool) : (s.setTag l b).posted = s.posted := rfl
@[simp] theorem State.setTag_regions (s : State) (l : Nat) (b : Bool) : (s.setTag l b).regions = s.regions := rfl
@[simp] theorem State.setTag_refs (s : State) (l : Nat) (b : Bool) : (s.setTag l b).refs = s.refs := rfl
@[simp] theorem State.setTag_stoppedRegions (s : State) (l : Nat) (b : Bool) : (s.setTag l b).stoppedRegions = s.stoppedRegions := rfl
@[simp] theorem State.setTag_ended (s : State) (l : Nat) (b : Bool) : (s.setTag l b).ended = s.ended := rfl
@[simp] theorem State.setTag_replayed (s : State) (l : Nat) (b : Bool) : (s.setTag l b).replayed = s.replayed := rfl
@[simp] theorem State.setTag_unlogged (s : State) (l : Nat) (b : Bool) : (s.setTag l b).unlogged = s.unlogged := rfl
@[simp] theorem State.setTag_tasks (s : State) (l : Nat) (b : Bool) : (s.setTag l b).tasks = s.tasks := rfl
@[simp] theorem State.setTag_promos (s : State) (l : Nat) (b : Bool) : (s.setTag l b).promos = s.promos := rfl
@[simp] theorem State.setTag_evict (s : State) (l : Nat) (b : Bool) : (s.setTag l b).evict = s.evict := rfl
@[simp] theorem State.setTag_fetches (s : State) (l : Nat) (b : Bool) : (s.setTag l b).fetches = s.fetches := rfl
@[simp] theorem State.setTag_nvme (s : State) (l : Nat) (b : Bool) : (s.setTag l b).nvme = s.nvme := rfl
@[simp] theorem State.setTag_pairs (s : State) (l : Nat) (b : Bool) : (s.setTag l b).pairs = s.pairs := rfl
@[simp] theorem State.setTag_resumes (s : State) (l : Nat) (b : Bool) : (s.setTag l b).resumes = s.resumes := rfl
@[simp] theorem State.setTag_namespaces (s : State) (l : Nat) (b : Bool) : (s.setTag l b).namespaces = s.namespaces := rfl
@[simp] theorem State.setTag_flash (s : State) (l : Nat) (b : Bool) : (s.setTag l b).flash = s.flash := rfl
@[simp] theorem State.setTag_charged (s : State) (l : Nat) (b : Bool) : (s.setTag l b).charged = s.charged := rfl
@[simp] theorem State.setTag_saved (s : State) (l : Nat) (b : Bool) : (s.setTag l b).saved = s.saved := rfl
@[simp] theorem State.setTag_loads (s : State) (l : Nat) (b : Bool) : (s.setTag l b).loads = s.loads := rfl
@[simp] theorem State.setTag_stepno (s : State) (l : Nat) (b : Bool) : (s.setTag l b).stepno = s.stepno := rfl
@[simp] theorem State.setTag_arrivals (s : State) (l : Nat) (b : Bool) : (s.setTag l b).arrivals = s.arrivals := rfl
@[simp] theorem State.setTag_landings (s : State) (l : Nat) (b : Bool) : (s.setTag l b).landings = s.landings := rfl
@[simp] theorem State.setTag_host (s : State) (l : Nat) (b : Bool) : (s.setTag l b).host = s.host := rfl
@[simp] theorem State.setTag_ratio (s : State) (l : Nat) (b : Bool) : (s.setTag l b).ratio = s.ratio := rfl
@[simp] theorem State.setTag_twoDie (s : State) (l : Nat) (b : Bool) : (s.setTag l b).twoDie = s.twoDie := rfl
@[simp] theorem State.setTag_pkg (s : State) (l : Nat) (b : Bool) : (s.setTag l b).pkg = s.pkg := rfl
@[simp] theorem State.setTag_domain (s : State) (l : Nat) (b : Bool) : (s.setTag l b).domain = s.domain := rfl
@[simp] theorem State.setTag_stopped (s : State) (l : Nat) (b : Bool) : (s.setTag l b).stopped = s.stopped := rfl
@[simp] theorem State.setTag_clock (s : State) (l : Nat) (b : Bool) : (s.setTag l b).clock = s.clock := rfl
@[simp] theorem State.setTag_agenda (s : State) (l : Nat) (b : Bool) : (s.setTag l b).agenda = s.agenda := rfl

/-! ### logUse -/

@[simp] theorem State.logUse_h (s : State) (r : BitVec 16) (x : LogRec) : (s.logUse r x).h = s.h := rfl
@[simp] theorem State.logUse_others (s : State) (r : BitVec 16) (x : LogRec) : (s.logUse r x).others = s.others := rfl
@[simp] theorem State.logUse_cores (s : State) (r : BitVec 16) (x : LogRec) : (s.logUse r x).cores = s.cores := rfl
@[simp] theorem State.logUse_mem (s : State) (r : BitVec 16) (x : LogRec) : (s.logUse r x).mem = s.mem := rfl
@[simp] theorem State.logUse_turn (s : State) (r : BitVec 16) (x : LogRec) : (s.logUse r x).turn = s.turn := rfl
@[simp] theorem State.logUse_full (s : State) (r : BitVec 16) (x : LogRec) : (s.logUse r x).full = s.full := rfl
@[simp] theorem State.logUse_poison (s : State) (r : BitVec 16) (x : LogRec) : (s.logUse r x).poison = s.poison := rfl
@[simp] theorem State.logUse_held (s : State) (r : BitVec 16) (x : LogRec) : (s.logUse r x).held = s.held := rfl
@[simp] theorem State.logUse_copies (s : State) (r : BitVec 16) (x : LogRec) : (s.logUse r x).copies = s.copies := rfl
@[simp] theorem State.logUse_flight (s : State) (r : BitVec 16) (x : LogRec) : (s.logUse r x).flight = s.flight := rfl
@[simp] theorem State.logUse_waiters (s : State) (r : BitVec 16) (x : LogRec) : (s.logUse r x).waiters = s.waiters := rfl
@[simp] theorem State.logUse_cmds (s : State) (r : BitVec 16) (x : LogRec) : (s.logUse r x).cmds = s.cmds := rfl
@[simp] theorem State.logUse_arrays (s : State) (r : BitVec 16) (x : LogRec) : (s.logUse r x).arrays = s.arrays := rfl
@[simp] theorem State.logUse_nets (s : State) (r : BitVec 16) (x : LogRec) : (s.logUse r x).nets = s.nets := rfl
@[simp] theorem State.logUse_queues (s : State) (r : BitVec 16) (x : LogRec) : (s.logUse r x).queues = s.queues := rfl
@[simp] theorem State.logUse_starts (s : State) (r : BitVec 16) (x : LogRec) : (s.logUse r x).starts = s.starts := rfl
@[simp] theorem State.logUse_rings (s : State) (r : BitVec 16) (x : LogRec) : (s.logUse r x).rings = s.rings := rfl
@[simp] theorem State.logUse_posted (s : State) (r : BitVec 16) (x : LogRec) : (s.logUse r x).posted = s.posted := rfl
@[simp] theorem State.logUse_regions (s : State) (r : BitVec 16) (x : LogRec) : (s.logUse r x).regions = s.regions := rfl
@[simp] theorem State.logUse_refs (s : State) (r : BitVec 16) (x : LogRec) : (s.logUse r x).refs = s.refs := rfl
@[simp] theorem State.logUse_stoppedRegions (s : State) (r : BitVec 16) (x : LogRec) : (s.logUse r x).stoppedRegions = s.stoppedRegions := rfl
@[simp] theorem State.logUse_ended (s : State) (r : BitVec 16) (x : LogRec) : (s.logUse r x).ended = s.ended := rfl
@[simp] theorem State.logUse_tasks (s : State) (r : BitVec 16) (x : LogRec) : (s.logUse r x).tasks = s.tasks := rfl
@[simp] theorem State.logUse_promos (s : State) (r : BitVec 16) (x : LogRec) : (s.logUse r x).promos = s.promos := rfl
@[simp] theorem State.logUse_evict (s : State) (r : BitVec 16) (x : LogRec) : (s.logUse r x).evict = s.evict := rfl
@[simp] theorem State.logUse_fetches (s : State) (r : BitVec 16) (x : LogRec) : (s.logUse r x).fetches = s.fetches := rfl
@[simp] theorem State.logUse_nvme (s : State) (r : BitVec 16) (x : LogRec) : (s.logUse r x).nvme = s.nvme := rfl
@[simp] theorem State.logUse_pairs (s : State) (r : BitVec 16) (x : LogRec) : (s.logUse r x).pairs = s.pairs := rfl
@[simp] theorem State.logUse_resumes (s : State) (r : BitVec 16) (x : LogRec) : (s.logUse r x).resumes = s.resumes := rfl
@[simp] theorem State.logUse_namespaces (s : State) (r : BitVec 16) (x : LogRec) : (s.logUse r x).namespaces = s.namespaces := rfl
@[simp] theorem State.logUse_flash (s : State) (r : BitVec 16) (x : LogRec) : (s.logUse r x).flash = s.flash := rfl
@[simp] theorem State.logUse_charged (s : State) (r : BitVec 16) (x : LogRec) : (s.logUse r x).charged = s.charged := rfl
@[simp] theorem State.logUse_saved (s : State) (r : BitVec 16) (x : LogRec) : (s.logUse r x).saved = s.saved := rfl
@[simp] theorem State.logUse_loads (s : State) (r : BitVec 16) (x : LogRec) : (s.logUse r x).loads = s.loads := rfl
@[simp] theorem State.logUse_stepno (s : State) (r : BitVec 16) (x : LogRec) : (s.logUse r x).stepno = s.stepno := rfl
@[simp] theorem State.logUse_arrivals (s : State) (r : BitVec 16) (x : LogRec) : (s.logUse r x).arrivals = s.arrivals := rfl
@[simp] theorem State.logUse_landings (s : State) (r : BitVec 16) (x : LogRec) : (s.logUse r x).landings = s.landings := rfl
@[simp] theorem State.logUse_host (s : State) (r : BitVec 16) (x : LogRec) : (s.logUse r x).host = s.host := rfl
@[simp] theorem State.logUse_ratio (s : State) (r : BitVec 16) (x : LogRec) : (s.logUse r x).ratio = s.ratio := rfl
@[simp] theorem State.logUse_twoDie (s : State) (r : BitVec 16) (x : LogRec) : (s.logUse r x).twoDie = s.twoDie := rfl
@[simp] theorem State.logUse_pkg (s : State) (r : BitVec 16) (x : LogRec) : (s.logUse r x).pkg = s.pkg := rfl
@[simp] theorem State.logUse_domain (s : State) (r : BitVec 16) (x : LogRec) : (s.logUse r x).domain = s.domain := rfl
@[simp] theorem State.logUse_stopped (s : State) (r : BitVec 16) (x : LogRec) : (s.logUse r x).stopped = s.stopped := rfl
@[simp] theorem State.logUse_clock (s : State) (r : BitVec 16) (x : LogRec) : (s.logUse r x).clock = s.clock := rfl
@[simp] theorem State.logUse_agenda (s : State) (r : BitVec 16) (x : LogRec) : (s.logUse r x).agenda = s.agenda := rfl

/-! ### ran -/

@[simp] theorem State.ran_others (s : State) (r : Regs) (p : Word) : (s.ran r p).others = s.others := rfl
@[simp] theorem State.ran_cores (s : State) (r : Regs) (p : Word) : (s.ran r p).cores = s.cores := rfl
@[simp] theorem State.ran_mem (s : State) (r : Regs) (p : Word) : (s.ran r p).mem = s.mem := rfl
@[simp] theorem State.ran_turn (s : State) (r : Regs) (p : Word) : (s.ran r p).turn = s.turn := rfl
@[simp] theorem State.ran_full (s : State) (r : Regs) (p : Word) : (s.ran r p).full = s.full := rfl
@[simp] theorem State.ran_poison (s : State) (r : Regs) (p : Word) : (s.ran r p).poison = s.poison := rfl
@[simp] theorem State.ran_held (s : State) (r : Regs) (p : Word) : (s.ran r p).held = s.held := rfl
@[simp] theorem State.ran_copies (s : State) (r : Regs) (p : Word) : (s.ran r p).copies = s.copies := rfl
@[simp] theorem State.ran_flight (s : State) (r : Regs) (p : Word) : (s.ran r p).flight = s.flight := rfl
@[simp] theorem State.ran_waiters (s : State) (r : Regs) (p : Word) : (s.ran r p).waiters = s.waiters := rfl
@[simp] theorem State.ran_cmds (s : State) (r : Regs) (p : Word) : (s.ran r p).cmds = s.cmds := rfl
@[simp] theorem State.ran_arrays (s : State) (r : Regs) (p : Word) : (s.ran r p).arrays = s.arrays := rfl
@[simp] theorem State.ran_nets (s : State) (r : Regs) (p : Word) : (s.ran r p).nets = s.nets := rfl
@[simp] theorem State.ran_queues (s : State) (r : Regs) (p : Word) : (s.ran r p).queues = s.queues := rfl
@[simp] theorem State.ran_starts (s : State) (r : Regs) (p : Word) : (s.ran r p).starts = s.starts := rfl
@[simp] theorem State.ran_rings (s : State) (r : Regs) (p : Word) : (s.ran r p).rings = s.rings := rfl
@[simp] theorem State.ran_posted (s : State) (r : Regs) (p : Word) : (s.ran r p).posted = s.posted := rfl
@[simp] theorem State.ran_regions (s : State) (r : Regs) (p : Word) : (s.ran r p).regions = s.regions := rfl
@[simp] theorem State.ran_refs (s : State) (r : Regs) (p : Word) : (s.ran r p).refs = s.refs := rfl
@[simp] theorem State.ran_stoppedRegions (s : State) (r : Regs) (p : Word) : (s.ran r p).stoppedRegions = s.stoppedRegions := rfl
@[simp] theorem State.ran_ended (s : State) (r : Regs) (p : Word) : (s.ran r p).ended = s.ended := rfl
@[simp] theorem State.ran_replayed (s : State) (r : Regs) (p : Word) : (s.ran r p).replayed = s.replayed := rfl
@[simp] theorem State.ran_unlogged (s : State) (r : Regs) (p : Word) : (s.ran r p).unlogged = s.unlogged := rfl
@[simp] theorem State.ran_tasks (s : State) (r : Regs) (p : Word) : (s.ran r p).tasks = s.tasks := rfl
@[simp] theorem State.ran_promos (s : State) (r : Regs) (p : Word) : (s.ran r p).promos = s.promos := rfl
@[simp] theorem State.ran_evict (s : State) (r : Regs) (p : Word) : (s.ran r p).evict = s.evict := rfl
@[simp] theorem State.ran_fetches (s : State) (r : Regs) (p : Word) : (s.ran r p).fetches = s.fetches := rfl
@[simp] theorem State.ran_nvme (s : State) (r : Regs) (p : Word) : (s.ran r p).nvme = s.nvme := rfl
@[simp] theorem State.ran_pairs (s : State) (r : Regs) (p : Word) : (s.ran r p).pairs = s.pairs := rfl
@[simp] theorem State.ran_resumes (s : State) (r : Regs) (p : Word) : (s.ran r p).resumes = s.resumes := rfl
@[simp] theorem State.ran_namespaces (s : State) (r : Regs) (p : Word) : (s.ran r p).namespaces = s.namespaces := rfl
@[simp] theorem State.ran_flash (s : State) (r : Regs) (p : Word) : (s.ran r p).flash = s.flash := rfl
@[simp] theorem State.ran_charged (s : State) (r : Regs) (p : Word) : (s.ran r p).charged = s.charged := rfl
@[simp] theorem State.ran_saved (s : State) (r : Regs) (p : Word) : (s.ran r p).saved = s.saved := rfl
@[simp] theorem State.ran_loads (s : State) (r : Regs) (p : Word) : (s.ran r p).loads = s.loads := rfl
@[simp] theorem State.ran_stepno (s : State) (r : Regs) (p : Word) : (s.ran r p).stepno = s.stepno := rfl
@[simp] theorem State.ran_arrivals (s : State) (r : Regs) (p : Word) : (s.ran r p).arrivals = s.arrivals := rfl
@[simp] theorem State.ran_landings (s : State) (r : Regs) (p : Word) : (s.ran r p).landings = s.landings := rfl
@[simp] theorem State.ran_host (s : State) (r : Regs) (p : Word) : (s.ran r p).host = s.host := rfl
@[simp] theorem State.ran_ratio (s : State) (r : Regs) (p : Word) : (s.ran r p).ratio = s.ratio := rfl
@[simp] theorem State.ran_twoDie (s : State) (r : Regs) (p : Word) : (s.ran r p).twoDie = s.twoDie := rfl
@[simp] theorem State.ran_pkg (s : State) (r : Regs) (p : Word) : (s.ran r p).pkg = s.pkg := rfl
@[simp] theorem State.ran_domain (s : State) (r : Regs) (p : Word) : (s.ran r p).domain = s.domain := rfl
@[simp] theorem State.ran_stopped (s : State) (r : Regs) (p : Word) : (s.ran r p).stopped = s.stopped := rfl
@[simp] theorem State.ran_clock (s : State) (r : Regs) (p : Word) : (s.ran r p).clock = s.clock := rfl
@[simp] theorem State.ran_agenda (s : State) (r : Regs) (p : Word) : (s.ran r p).agenda = s.agenda := rfl

/-! ### raise -/

@[simp] theorem Hart.raise_id (h : Hart) (f : BitVec 5) : (h.raise f).id = h.id := rfl
@[simp] theorem Hart.raise_st (h : Hart) (f : BitVec 5) : (h.raise f).st = h.st := rfl
@[simp] theorem Hart.raise_pc (h : Hart) (f : BitVec 5) : (h.raise f).pc = h.pc := rfl
@[simp] theorem Hart.raise_eix (h : Hart) (f : BitVec 5) : (h.raise f).eix = h.eix := rfl
@[simp] theorem Hart.raise_ck (h : Hart) (f : BitVec 5) : (h.raise f).ck = h.ck := rfl
@[simp] theorem Hart.raise_ckEix (h : Hart) (f : BitVec 5) : (h.raise f).ckEix = h.ckEix := rfl
@[simp] theorem Hart.raise_ckBlk (h : Hart) (f : BitVec 5) : (h.raise f).ckBlk = h.ckBlk := rfl
@[simp] theorem Hart.raise_blk (h : Hart) (f : BitVec 5) : (h.raise f).blk = h.blk := rfl
@[simp] theorem Hart.raise_stripOpen (h : Hart) (f : BitVec 5) : (h.raise f).stripOpen = h.stripOpen := rfl
@[simp] theorem Hart.raise_byVl (h : Hart) (f : BitVec 5) : (h.raise f).byVl = h.byVl := rfl
@[simp] theorem Hart.raise_rerun (h : Hart) (f : BitVec 5) : (h.raise f).rerun = h.rerun := rfl
@[simp] theorem Hart.raise_buf (h : Hart) (f : BitVec 5) : (h.raise f).buf = h.buf := rfl
@[simp] theorem Hart.raise_stale (h : Hart) (f : BitVec 5) : (h.raise f).stale = h.stale := rfl
@[simp] theorem Hart.raise_early (h : Hart) (f : BitVec 5) : (h.raise f).early = h.early := rfl
@[simp] theorem Hart.raise_fed (h : Hart) (f : BitVec 5) : (h.raise f).fed = h.fed := rfl
@[simp] theorem Hart.raise_perf (h : Hart) (f : BitVec 5) : (h.raise f).perf = h.perf := rfl
@[simp] theorem Hart.raise_queue (h : Hart) (f : BitVec 5) : (h.raise f).queue = h.queue := rfl
@[simp] theorem Hart.raise_amo (h : Hart) (f : BitVec 5) : (h.raise f).amo = h.amo := rfl
@[simp] theorem Hart.raise_building (h : Hart) (f : BitVec 5) : (h.raise f).building = h.building := rfl
@[simp] theorem Hart.raise_listed (h : Hart) (f : BitVec 5) : (h.raise f).listed = h.listed := rfl
@[simp] theorem Hart.raise_instPend (h : Hart) (f : BitVec 5) : (h.raise f).instPend = h.instPend := rfl
@[simp] theorem Hart.raise_instret (h : Hart) (f : BitVec 5) : (h.raise f).instret = h.instret := rfl
@[simp] theorem Hart.raise_stripn (h : Hart) (f : BitVec 5) : (h.raise f).stripn = h.stripn := rfl
@[simp] theorem Hart.raise_strippc (h : Hart) (f : BitVec 5) : (h.raise f).strippc = h.strippc := rfl
@[simp] theorem Hart.raise_stripctl (h : Hart) (f : BitVec 5) : (h.raise f).stripctl = h.stripctl := rfl
@[simp] theorem Hart.raise_budget (h : Hart) (f : BitVec 5) : (h.raise f).budget = h.budget := rfl
@[simp] theorem Hart.raise_faultrec (h : Hart) (f : BitVec 5) : (h.raise f).faultrec = h.faultrec := rfl
@[simp] theorem Hart.raise_turnprog (h : Hart) (f : BitVec 5) : (h.raise f).turnprog = h.turnprog := rfl
@[simp] theorem Hart.raise_freed (h : Hart) (f : BitVec 5) : (h.raise f).freed = h.freed := rfl
@[simp] theorem Hart.raise_tl (h : Hart) (f : BitVec 5) : (h.raise f).tl = h.tl := rfl
@[simp] theorem Hart.raise_issued (h : Hart) (f : BitVec 5) : (h.raise f).issued = h.issued := rfl
@[simp] theorem Hart.raise_region (h : Hart) (f : BitVec 5) : (h.raise f).region = h.region := rfl
@[simp] theorem Hart.raise_gang (h : Hart) (f : BitVec 5) : (h.raise f).gang = h.gang := rfl
@[simp] theorem Hart.raise_vlceil (h : Hart) (f : BitVec 5) : (h.raise f).vlceil = h.vlceil := rfl
@[simp] theorem Hart.raise_pref (h : Hart) (f : BitVec 5) : (h.raise f).pref = h.pref := rfl
@[simp] theorem Hart.raise_min (h : Hart) (f : BitVec 5) : (h.raise f).min = h.min := rfl
@[simp] theorem Hart.raise_leasePref (h : Hart) (f : BitVec 5) : (h.raise f).leasePref = h.leasePref := rfl
@[simp] theorem Hart.raise_leaseMin (h : Hart) (f : BitVec 5) : (h.raise f).leaseMin = h.leaseMin := rfl
@[simp] theorem Hart.raise_granted (h : Hart) (f : BitVec 5) : (h.raise f).granted = h.granted := rfl
@[simp] theorem Hart.raise_cur (h : Hart) (f : BitVec 5) : (h.raise f).cur = h.cur := rfl
@[simp] theorem Hart.raise_prev (h : Hart) (f : BitVec 5) : (h.raise f).prev = h.prev := rfl
@[simp] theorem Hart.raise_expert (h : Hart) (f : BitVec 5) : (h.raise f).expert = h.expert := rfl
@[simp] theorem Hart.raise_epc (h : Hart) (f : BitVec 5) : (h.raise f).epc = h.epc := rfl
@[simp] theorem Hart.raise_eixCsr (h : Hart) (f : BitVec 5) : (h.raise f).eixCsr = h.eixCsr := rfl
@[simp] theorem Hart.raise_epcBlk (h : Hart) (f : BitVec 5) : (h.raise f).epcBlk = h.epcBlk := rfl
@[simp] theorem Hart.raise_ecause (h : Hart) (f : BitVec 5) : (h.raise f).ecause = h.ecause := rfl
@[simp] theorem Hart.raise_eval (h : Hart) (f : BitVec 5) : (h.raise f).eval = h.eval := rfl
@[simp] theorem Hart.raise_trapvec (h : Hart) (f : BitVec 5) : (h.raise f).trapvec = h.trapvec := rfl
@[simp] theorem Hart.raise_savearea (h : Hart) (f : BitVec 5) : (h.raise f).savearea = h.savearea := rfl
@[simp] theorem Hart.raise_tracectl (h : Hart) (f : BitVec 5) : (h.raise f).tracectl = h.tracectl := rfl
@[simp] theorem Hart.raise_samplebuf (h : Hart) (f : BitVec 5) : (h.raise f).samplebuf = h.samplebuf := rfl
@[simp] theorem Hart.raise_header (h : Hart) (f : BitVec 5) : (h.raise f).header = h.header := rfl
@[simp] theorem Hart.raise_strict (h : Hart) (f : BitVec 5) : (h.raise f).strict = h.strict := rfl
@[simp] theorem Hart.raise_replay (h : Hart) (f : BitVec 5) : (h.raise f).replay = h.replay := rfl
@[simp] theorem Hart.raise_trace (h : Hart) (f : BitVec 5) : (h.raise f).trace = h.trace := rfl
@[simp] theorem Hart.raise_prio (h : Hart) (f : BitVec 5) : (h.raise f).prio = h.prio := rfl
@[simp] theorem Hart.raise_origin (h : Hart) (f : BitVec 5) : (h.raise f).origin = h.origin := rfl
@[simp] theorem Hart.raise_writeSet (h : Hart) (f : BitVec 5) : (h.raise f).writeSet = h.writeSet := rfl
@[simp] theorem Hart.raise_wva (h : Hart) (f : BitVec 5) : (h.raise f).wva = h.wva := rfl
@[simp] theorem Hart.raise_turned (h : Hart) (f : BitVec 5) : (h.raise f).turned = h.turned := rfl
@[simp] theorem Hart.raise_reports (h : Hart) (f : BitVec 5) : (h.raise f).reports = h.reports := rfl
@[simp] theorem Hart.raise_delivered (h : Hart) (f : BitVec 5) : (h.raise f).delivered = h.delivered := rfl
@[simp] theorem Hart.raise_watched (h : Hart) (f : BitVec 5) : (h.raise f).watched = h.watched := rfl
@[simp] theorem Hart.raise_watchedAt (h : Hart) (f : BitVec 5) : (h.raise f).watchedAt = h.watchedAt := rfl
@[simp] theorem Hart.raise_place (h : Hart) (f : BitVec 5) : (h.raise f).place = h.place := rfl
@[simp] theorem Hart.raise_ckWatched (h : Hart) (f : BitVec 5) : (h.raise f).ckWatched = h.ckWatched := rfl
@[simp] theorem Hart.raise_epcWatched (h : Hart) (f : BitVec 5) : (h.raise f).epcWatched = h.epcWatched := rfl
@[simp] theorem Hart.raise_trimmed (h : Hart) (f : BitVec 5) : (h.raise f).trimmed = h.trimmed := rfl
@[simp] theorem Hart.raise_overLimit (h : Hart) (f : BitVec 5) : (h.raise f).overLimit = h.overLimit := rfl
@[simp] theorem Hart.raise_openedAt (h : Hart) (f : BitVec 5) : (h.raise f).openedAt = h.openedAt := rfl
@[simp] theorem Hart.raise_preempt (h : Hart) (f : BitVec 5) : (h.raise f).preempt = h.preempt := rfl
@[simp] theorem Hart.raise_wait (h : Hart) (f : BitVec 5) : (h.raise f).wait = h.wait := rfl
@[simp] theorem Hart.raise_owed (h : Hart) (f : BitVec 5) : (h.raise f).owed = h.owed := rfl
@[simp] theorem Hart.raise_slices (h : Hart) (f : BitVec 5) : (h.raise f).slices = h.slices := rfl
@[simp] theorem Hart.raise_tiles (h : Hart) (f : BitVec 5) : (h.raise f).tiles = h.tiles := rfl

end Sys2Proof.Machine
end

