-- ==== Sys2Proof/Laws/Ops.lean ====
section
/-!
SUPPORT. What the shared operations answer: one lemma for each case, which a proof cites instead of unfolding them.
-/

namespace Sys2Proof.Machine

/-! ### Closing a strip -/

/-- With no strip open, closing goes on at once. -/
theorem closeThen_no_strip (s : State) (split : Bool) (k : State → State) (h : s.h.stripOpen = false) : s.closeThen split k = k s := by
  simp [State.closeThen, h]

/-- With a strip open and nothing due at its close, it commits and the action goes on. -/
theorem closeThen_strip (s : State) (split : Bool) (k : State → State) (h : s.h.stripOpen = true) (hd : s.due = []) (ho : s.h.owed = []) :
    s.closeThen split k = k ((s.commit (split || s.h.overLimit)).modH (fun h => { h with
      raised := 0, delivered := 0, watched := none, ckWatched := none, overLimit := false, owed := h.owed.filter (fun o => o.pc ≠ h.pc) })) := by
  simp [State.closeThen, h, hd, ho]

/-- In a quiet state the action behind a split runs on the closed state. -/
theorem splitThen_quiet (s : State) (k : State → State) (h : s.Quiet) : s.splitThen k = k s.closed := by
  unfold State.closed State.splitThen
  by_cases ho : s.h.stripOpen = true
  · rw [closeThen_strip s true _ ho (h.due ho) h.owed, closeThen_strip s true _ ho (h.due ho) h.owed]
    rfl
  · rw [Bool.not_eq_true] at ho
    rw [closeThen_no_strip s true _ ho, closeThen_no_strip s true _ ho]
    rfl

/-- In a quiet state a trap before which the strip closes is delivered on the committed state. -/
theorem splitTrap_quiet (s : State) (t : Trap) (h : s.Quiet) : s.splitTrap t = s.commitSplit.deliver t false := by
  unfold State.commitSplit State.splitTrap
  by_cases ho : s.h.stripOpen = true
  · rw [closeThen_strip s true _ ho (h.due ho) h.owed, closeThen_strip s true _ ho (h.due ho) h.owed]
    rfl
  · rw [Bool.not_eq_true] at ho
    rw [closeThen_no_strip s true _ ho, closeThen_no_strip s true _ ho]
    rfl

/-! ### Going on -/

/-- A scalar instruction that leaves the strip open gives the shape `ranOn`. -/
theorem done_eq_ranOn (s : State) (f : Regs → Regs) : s.done f = s.ranOn (f s.h.r) := rfl

/-- The next strip opens where the hart neither stops nor leaves its core. -/
theorem openNext_eq (s : State) (hs : s.h.stopDue = false) (hp : s.h.preempt = false) : s.openNext = s.openRaw := by
  simp [State.openNext, State.openNextBy, hs, hp]

/-- An irrevocable instruction completes with the shape `completed`. -/
theorem doneSplit_eq_completed (s : State) (f : Regs → Regs) (hs : s.h.stopDue = false) (hp : s.h.preempt = false) :
    s.doneSplit f = s.completed (f s.h.r) :=
  openNext_eq _ hs hp

/-! ### Traps -/

theorem deliver_parks (s : State) (t : Trap) (rolled : Bool) (h : t.code = causePage ∨ t.code = causeKvmiss) :
    s.deliver t rolled = s.parkFault t rolled := by
  have hn : t.code ≠ waitNoPath := by
    rcases h with h | h <;> rw [h] <;> decide
  simp [State.deliver, hn, h]

theorem deliver_vector (s : State) (t : Trap) (rolled : Bool) (h0 : t.code ≠ waitNoPath) (h1 : t.code ≠ causePage) (h2 : t.code ≠ causeKvmiss) :
    s.deliver t rolled = s.vector t.code t.val rolled := by
  simp [State.deliver, h0, h1, h2]

theorem deliver_waits (s : State) (t : Trap) (rolled : Bool) (h : t.code = waitNoPath) : s.deliver t rolled = s.stall (.remote t.val) := by
  simp [State.deliver, h]

/-- Of the harts of a gang, those beside the selected one are changed as other harts: the selected hart stays. -/
theorem setHart_keeps_h (s : State) (x : Hart) (h : x.id ≠ s.h.id) : (s.setHart x).h = s.h := by
  unfold State.setHart
  rw [if_neg (Ne.symm h)]
  split <;> rfl

/-- Delivery through a vector: the registers of R295, and the handler's strip. -/
theorem vector_enters (s : State) (code : BitVec 8) (val : Word) (rolled : Bool) (hv : nbits s.h.trapvec.toNat 2 62 ≠ 0)
    (hs : (s.modH (fun h => h.enter code val rolled)).sameLevel.h.stopDue = false)
    (hp : (s.modH (fun h => h.enter code val rolled)).sameLevel.h.preempt = false) :
    s.vector code val rolled = s.trapped code val rolled := by
  unfold State.vector State.vectorBy State.trapped
  rw [if_neg hv]
  dsimp only
  rw [hs]
  simp [hp]

theorem vector_ends (s : State) (code : BitVec 8) (val : Word) (rolled : Bool) (hv : nbits s.h.trapvec.toNat 2 62 = 0) :
    s.vector code val rolled = s.endByTrap code := by
  unfold State.vector State.vectorBy
  rw [if_pos hv]
  rfl

theorem abortTrap_strip (s : State) (t : Trap) (h : s.h.stripOpen = true) (hn : t.code ≠ waitNoPath) :
    s.abortTrap t = (s.rollback false).deliver t true := by
  simp [State.abortTrap, h, hn]

theorem abortTrap_no_strip (s : State) (t : Trap) (h : s.h.stripOpen = false) (hn : t.code ≠ waitNoPath) : s.abortTrap t = s.deliver t false := by
  simp [State.abortTrap, h, hn]

/-! ### Levels -/

theorem needLevel_ok (s : State) (lv : Nat) (i : Instr) (k : State → State) (h : lv ≤ s.h.cur.toNat) : s.needLevel lv i k = k s := by
  simp [State.needLevel, Nat.not_lt.mpr h]

theorem needLevel_traps (s : State) (lv : Nat) (i : Instr) (k : State → State) (h : s.h.cur.toNat < lv) :
    s.needLevel lv i k = s.splitTrap (trapOf causePriv ((encodeScalar i).setWidth 64)) := by
  simp [State.needLevel, h]

/-! ### Harts in their slots -/

@[simp] theorem modHart_self (s : State) (f : Hart → Hart) (h : s.h.st ≠ .free) (hid : (f s.h).id = s.h.id) :
    s.modHart s.h.id f = s.modH f := by
  simp [State.modHart, State.hart?, h, State.setHart, hid, State.modH]

theorem select_self (s : State) : s.select s.h.id = s := by simp [State.select]

theorem onHart_self (s : State) (f : State → State) (h : s.h.st ≠ .free) : s.onHart s.h.id f = (f s).select s.h.id := by
  simp [State.onHart, State.hart?, h, select_self]

theorem hart?_self (s : State) (h : s.h.st ≠ .free) : s.hart? s.h.id = some s.h := by simp [State.hart?, h]

/-! ### Writes in flight -/

/-- With nothing to arrive nothing changes. -/
theorem arriveIf_none (s : State) (p : Outbound → Bool) (h : ∀ o ∈ s.flight, p o = false) : s.arriveIf p = s := by
  have h1 : s.flight.filter p = [] := by simpa using h
  have h2 : s.flight.filter (fun o => !(p o)) = s.flight := by simpa using h
  simp [State.arriveIf, h1, h2]

/-- Nothing of the hart or its gang on its way to these bytes: a read of its own settles nothing. -/
theorem settle_none (s : State) (i : BitVec 11) (loc n : Nat)
    (h : ∀ o ∈ s.flight, s.isOwn i o = true → ∀ b ∈ o.bytes, b.1 < loc ∨ loc + n ≤ b.1) : s.settle i loc n = s := by
  refine arriveIf_none s _ (fun o ho => ?_)
  by_cases hi : s.isOwn i o = true
  · simp only [hi, Bool.true_and, List.any_eq_false, Bool.and_eq_true, decide_eq_true_eq, not_and]
    intro b hb hl
    rcases h o ho hi b hb with h | h <;> omega
  · simp [hi]

/-! ### Watching -/

theorem watch_untraced (s : State) (mode va n : Nat) (h : s.h.trace = false) : s.watch mode va n = s := by simp [State.watch, h]

theorem watch_h_r (s : State) (mode va n : Nat) : (s.watch mode va n).h.r = s.h.r := by
  simp only [State.watch]
  split <;> rfl

theorem watch_mem (s : State) (mode va n : Nat) : (s.watch mode va n).mem = s.mem := by
  simp only [State.watch]
  split <;> rfl

/-! ### Element words -/

/-- A word whose slices have been read and whose action succeeds: its result, and the block goes on. -/
theorem element_ok (s u t : State) (i : Instr) (k : State → Except Trap State) (hf : s.feed i = .ok u) (hk : k u = .ok t) :
    s.element i k = t.wordDone i (s.olds i) := by
  unfold State.element State.olds
  simp only [hf, hk] <;> rfl

/-- A word whose action fails aborts the strip. -/
theorem element_fails (s u : State) (t : Trap) (i : Instr) (k : State → Except Trap State) (hf : s.feed i = .ok u)
    (hk : k u = .error t) : s.element i k = s.abortTrap t := by
  unfold State.element
  simp only [hf, hk]

/-- Results for the active elements, by index. -/
theorem onActive_eq (s : State) (i : Instr) (e : EWord) {α : Type} (f : Nat → α) :
    s.onActive i e f = (List.range s.vl).map (fun k => if s.maskBit i e k then some (f k) else none) := by
  unfold State.onActive State.actives
  apply List.ext_getElem
  · simp
  · intro n h1 h2
    simp

/-- A word without bound sources reads no slice. -/
theorem feedAll_none (s : State) (since : Nat) : s.feedAll since [] = .ok s := rfl

/-! ### Step -/

/-- The next step is the event at the head of the agenda. -/
theorem step_event (s : State) (i : Instr) (rest : List Agent) (h0 : s.stopped = false) (h1 : s.agenda = .event i :: rest) :
    step s = settled (exec i (({ s with clock := s.clock + 1, agenda := rest } : State).beforeAct (.event i))) := by
  simp [step, h0, h1, State.act, State.turnOf]

/-- The next step is that of the hart at the head of the agenda. -/
theorem step_hart (s : State) (id : BitVec 11) (rest : List Agent) (h0 : s.stopped = false) (h1 : s.agenda = .hart id :: rest) :
    step s = settled ((({ s with clock := s.clock + 1, agenda := rest } : State).beforeAct (.hart id)).hartActs id runHart) := by
  simp [step, h0, h1, State.act, State.turnOf]

/-- The next step is one part of what the hart at the head of the agenda is about to do (R230). -/
theorem step_part (s : State) (id : BitVec 11) (rest : List Agent) (h0 : s.stopped = false) (h1 : s.agenda = .part id :: rest) :
    step s = settled (.next ((({ s with clock := s.clock + 1, agenda := rest } : State).beforeAct (.part id)).onHart id
      (fun s => if s.mayAct s.h && !(s.writesHeld id) then s.partNow else s))) := by
  simp [step, h0, h1, State.act, State.turnOf]

/-- The next step is a load that the hart performs before earlier accesses (R231). -/
theorem step_early (s : State) (id : BitVec 11) (loc n : Nat) (rest : List Agent) (h0 : s.stopped = false)
    (h1 : s.agenda = .early id loc n :: rest) :
    step s = settled (.next ((({ s with clock := s.clock + 1, agenda := rest } : State).beforeAct (.early id loc n)).onHart id
      (fun s => if s.writesHeld id then s else s.loadEarly loc n))) := by
  simp [step, h0, h1, State.act, State.turnOf]

/-- The next step is a word of the queues of the hart at the head of the agenda (R204). -/
theorem step_words (s : State) (id : BitVec 11) (rest : List Agent) (h0 : s.stopped = false) (h1 : s.agenda = .words id :: rest) :
    step s = settled ((({ s with clock := s.clock + 1, agenda := rest } : State).beforeAct (.words id)).hartActs id
      (fun s => (s.modH Hart.tryAgain).runWord)) := by
  simp [step, h0, h1, State.act, State.turnOf]

/-- The next step is the scalar core passing its block (R204). -/
theorem step_ahead (s : State) (id : BitVec 11) (rest : List Agent) (h0 : s.stopped = false) (h1 : s.agenda = .ahead id :: rest) :
    step s = settled (.next ((({ s with clock := s.clock + 1, agenda := rest } : State).beforeAct (.ahead id)).onHart id
      (fun s => if s.mayAct s.h then s.goAhead else s))) := by
  simp [step, h0, h1, State.act, State.turnOf]

/-- No hart in the second pass of a `vamo`: an agent acts on the state as it is. -/
theorem beforeAct_none (s : State) (a : Agent) (h : ∀ x ∈ s.harts, x.amo = none) : s.beforeAct a = s := by
  have h1 : s.harts.filter (fun x => x.amo.isSome) = [] := by
    rw [List.filter_eq_nil_iff]
    intro x hx
    simp [h x hx]
  unfold State.beforeAct
  rw [h1]
  rfl

end Sys2Proof.Machine
end

