-- ==== Sys2Proof/Laws/Strips.lean ====
section
/-!
SUPPORT. What the shared operations change and what they leave: harts in their slots, writes on their way and at the home, and
the opening and the close of a strip.
-/

namespace Sys2Proof.Machine

/-! ### Harts in their slots -/

theorem hart?_of_ne (s : State) (m : BitVec 11) (h : m ≠ s.h.id) : s.hart? m = sfind s.others m.toNat := by
  simp [State.hart?, Ne.symm h]

theorem sfind_mem {α : Type} (m : List (Nat × α)) (k : Nat) (v : α) (h : sfind m k = some v) : (k, v) ∈ m := by
  induction m with
  | nil => simp [sfind] at h
  | cons q t ih =>
    obtain ⟨k', v'⟩ := q
    simp only [sfind] at h
    by_cases hk : k' = k
    · simp only [hk, if_true, Option.some.injEq] at h
      subst h; subst hk
      exact List.mem_cons_self
    · simp only [hk, if_false] at h
      exact List.mem_cons_of_mem _ (ih h)

/-- The hart in another slot bears that slot's number. -/
theorem hart?_id (s : State) (m : BitVec 11) (x : Hart) (hs : s.Slots) (h : s.hart? m = some x) : x.id = m := by
  by_cases hm : s.h.id = m
  · simp only [State.hart?, hm, if_true] at h
    split at h
    · cases h
    · cases h
      exact hm
  · simp only [State.hart?, hm, if_false] at h
    exact BitVec.eq_of_toNat_eq (hs.named _ (sfind_mem _ _ _ h)).1

theorem setHart_of_ne (s : State) (x : Hart) (hs : s.Slots) (h : x.id ≠ s.h.id) :
    ∃ o, s.setHart x = { s with others := o } ∧ (s.setHart x).Slots := by
  unfold State.setHart
  rw [if_neg (Ne.symm h)]
  by_cases h2 : x.st = .free
  · rw [if_pos h2]
    exact ⟨_, rfl, risingFrom_serase _ _ _ hs.rising, fun p hp => hs.named p (mem_serase _ _ _ hp).1,
      fun p hp => hs.selected p (mem_serase _ _ _ hp).1⟩
  · rw [if_neg h2]
    refine ⟨_, rfl, risingFrom_sput _ _ _ _ hs.rising (Nat.zero_le _), fun p hp => ?_, fun p hp => ?_⟩
    · rcases mem_sput _ _ _ _ hp with h | h
      · subst h; exact ⟨rfl, h2⟩
      · exact hs.named p h
    · rcases mem_sput _ _ _ _ hp with h3 | h3
      · subst h3
        exact fun h4 => h (BitVec.eq_of_toNat_eq h4)
      · exact hs.selected p h3

/-- Putting a hart into its own slot keeps every hart in its slot. -/
theorem setHart_slots (s : State) (x : Hart) (hs : s.Slots) : (s.setHart x).Slots := by
  by_cases h : x.id = s.h.id
  · unfold State.setHart
    rw [if_pos h.symm]
    exact ⟨hs.rising, hs.named, fun p hp => h ▸ hs.selected p hp⟩
  · exact (setHart_of_ne s x hs h).elim fun _ e => e.2

/-- Changing another hart changes nothing else. -/
theorem modHart_of_ne (s : State) (m : BitVec 11) (f : Hart → Hart) (hs : s.Slots) (hm : m ≠ s.h.id) (hf : ∀ x, (f x).id = x.id) :
    ∃ o, s.modHart m f = { s with others := o } ∧ (s.modHart m f).Slots := by
  unfold State.modHart
  cases h : s.hart? m with
  | none => exact ⟨s.others, rfl, hs⟩
  | some x => exact setHart_of_ne s _ hs (by rw [hf, hart?_id s m x hs h]; exact hm)

theorem modHart_slots (s : State) (m : BitVec 11) (f : Hart → Hart) (hs : s.Slots) : (s.modHart m f).Slots := by
  unfold State.modHart
  split
  · exact setHart_slots s _ hs
  · exact hs

/-- A walk over other harts, of which each step changes nothing but other harts. -/
theorem walk_others (g : State → BitVec 11 → State) (ms : List (BitVec 11)) (s : State) (hs : s.Slots)
    (hg : ∀ (u : State) (m : BitVec 11), u.Slots → m ≠ u.h.id → ∃ o, g u m = { u with others := o } ∧ (g u m).Slots) (hm : s.h.id ∉ ms) :
    ∃ o, ms.foldl g s = { s with others := o } ∧ (ms.foldl g s).Slots := by
  induction ms generalizing s with
  | nil => exact ⟨s.others, rfl, hs⟩
  | cons m t ih =>
    obtain ⟨o, e, h1⟩ := hg s m hs (fun h => hm (h ▸ List.mem_cons_self))
    rw [List.foldl_cons]
    obtain ⟨o2, e2, h2⟩ := ih (g s m) h1 (by rw [e]; exact fun h => hm (List.mem_cons_of_mem _ h))
    refine ⟨o2, ?_, h2⟩
    rw [e2, e]

/-- Changing several other harts changes nothing else. -/
theorem modHarts (f : Hart → Hart) (hf : ∀ x, (f x).id = x.id) (ms : List (BitVec 11)) (s : State) (hs : s.Slots) (hm : s.h.id ∉ ms) :
    ∃ o, ms.foldl (fun s m => s.modHart m f) s = { s with others := o } ∧ (ms.foldl (fun s m => s.modHart m f) s).Slots :=
  walk_others _ ms s hs (fun u m hu h => modHart_of_ne u m f hu h hf) hm

theorem not_mem_members (h : Hart) : h.id ∉ h.members := by
  unfold Hart.members
  split
  · simp
  · simp

theorem modH_slots (s : State) (f : Hart → Hart) (hs : s.Slots) (hf : (f s.h).id = s.h.id) : (s.modH f).Slots :=
  ⟨hs.rising, hs.named, fun p hp => by show p.1 ≠ (f s.h).id.toNat; rw [hf]; exact hs.selected p hp⟩

/-! ### The opening of a strip -/

/-- The next strip opens: the ordinal, STRIPPC and the checkpoint of the selected hart, and the checkpoints of its gang's members. -/
theorem openRaw_eq (s : State) (hs : s.Slots) : ∃ o, s.openRaw = { s with
    h := { s.h with
      stripn := s.h.stripn + 1, strippc := s.h.pc, ck := s.h.r, ckEix := s.h.posEix, ckBlk := s.h.posBlk, ckWatched := s.h.watched, watchedAt := 0,
      place := 0, turned := [],
      stripOpen := true, byVl := false, rerun := false, trimmed := false, overLimit := false, openedAt := s.clock, leasePref := s.h.pref,
      leaseMin := s.h.min }
    others := o } ∧ s.openRaw.Slots :=
  modHarts (fun x => { x with ck := x.r, leasePref := x.pref, leaseMin := x.min }) (fun _ => rfl) s.h.members
    (s.modH (fun h => { h with
      stripn := h.stripn + 1, strippc := h.pc, ck := h.r, ckEix := h.posEix, ckBlk := h.posBlk, ckWatched := h.watched, watchedAt := 0,
      place := 0, turned := [],
      stripOpen := true, byVl := false, rerun := false, trimmed := false, overLimit := false, openedAt := s.clock, leasePref := h.pref,
      leaseMin := h.min })) (modH_slots s _ hs rfl) (not_mem_members s.h)

theorem openRaw_others (s : State) (hg : s.h.gang = none) : s.openRaw.others = s.others := by
  simp [State.openRaw, Hart.members, hg]

/-- A gang's members take their leader's level, and nothing else changes (R178). -/
theorem sameLevel_eq (s : State) (hs : s.Slots) : ∃ o, s.sameLevel = { s with others := o } ∧ s.sameLevel.Slots :=
  modHarts (fun x => { x with cur := s.h.cur }) (fun _ => rfl) s.h.members s hs (not_mem_members s.h)

theorem sameLevel_alone (s : State) (hg : s.h.gang = none) : s.sameLevel = s := by
  simp [State.sameLevel, Hart.members, hg]

/-- A strip record goes into the core's observation queue and nowhere else. -/
theorem stripRecord_eq (s : State) (a b c : Bool) : ∃ k, s.stripRecord a b c = { s with cores := k } ∧ (s.h.trace = false → k = s.cores) := by
  unfold State.stripRecord State.observe
  dsimp only
  split
  · rename_i h
    simp only [Bool.and_eq_true] at h
    split <;> exact ⟨_, rfl, fun h2 => by simp [h2] at h⟩
  · exact ⟨_, rfl, fun _ => rfl⟩

/-- An abort returns the reverting state of the hart and its members, and changes nothing outside harts but the observation
queue. -/
theorem rollback_eq (s : State) (p : Bool) (hs : s.Slots) : ∃ o k, s.rollback p = { s with
    h := { s.h with
      r := { s.h.ck with fflags := s.h.ck.fflags ||| s.h.delivered.setWidth 13 }, buf := [], stale := [], early := [], queue := [],
      instPend := 0, pc := s.h.strippc,
      eix := s.h.ckEix, blk := none, slices := [], perf := 0, raised := s.h.delivered, watched := s.h.ckWatched, watchedAt := 0, place := 0, trimmed := false,
      overLimit := false, openedAt := s.clock, stripOpen := true, rerun := s.h.byVl }
    others := o, cores := k } ∧ (s.rollback p).Slots ∧ (s.h.trace = false → k = s.cores) ∧ (s.h.gang = none → o = s.others) := by
  obtain ⟨k, e, hk⟩ := stripRecord_eq s false true p
  unfold State.rollback
  dsimp only
  rw [e]
  obtain ⟨o, e2, h2⟩ := modHarts (fun x => { x with
      r := { x.ck with fflags := x.ck.fflags ||| x.delivered.setWidth 13 }, buf := [], stale := [], early := [] }) (fun _ => rfl) s.h.members
    (({ s with cores := k } : State).modH (fun h => { h with
      r := { h.ck with fflags := h.ck.fflags ||| h.delivered.setWidth 13 }, buf := [], stale := [], early := [], queue := [],
      instPend := 0, pc := h.strippc,
      eix := h.ckEix, blk := none, slices := [], perf := 0, raised := h.delivered, watched := h.ckWatched, watchedAt := 0, place := 0, trimmed := false,
      overLimit := false, openedAt := s.clock, stripOpen := true, rerun := h.byVl }))
    (modH_slots { s with cores := k } _ ⟨hs.rising, hs.named, hs.selected⟩ rfl) (not_mem_members s.h)
  refine ⟨o, k, e2, h2, hk, fun hg => ?_⟩
  have h3 : s.h.members = [] := by simp [Hart.members, hg]
  rw [h3] at e2
  exact (congrArg State.others e2).symm

/-! ### Turn-state entries -/

theorem entryState_mkEntry (st : Nat) (pos : BitVec 11) (owner : BitVec 16) : entryState (mkEntry st pos owner) = st % 8 := by
  have h1 := pos.isLt
  have h2 := owner.isLt
  simp only [entryState, mkEntry, nbits, BitVec.toNat_ofNat]
  omega

theorem entryPos_mkEntry (st : Nat) (pos : BitVec 11) (owner : BitVec 16) : entryPos (mkEntry st pos owner) = pos := by
  have h1 := pos.isLt
  have h2 := owner.isLt
  apply BitVec.eq_of_toNat_eq
  simp only [entryPos, mkEntry, BitVec.extractLsb'_toNat, BitVec.toNat_ofNat, Nat.shiftRight_eq_div_pow]
  omega

theorem entryOwner_mkEntry (st : Nat) (pos : BitVec 11) (owner : BitVec 16) : entryOwner (mkEntry st pos owner) = owner := by
  have h1 := pos.isLt
  have h2 := owner.isLt
  apply BitVec.eq_of_toNat_eq
  simp only [entryOwner, mkEntry, BitVec.extractLsb'_toNat, BitVec.toNat_ofNat, Nat.shiftRight_eq_div_pow]
  omega

/-! ### Writes at the home -/

theorem putByte_eq (s : State) (l : Nat) (b : Byte) : ∃ m, s.putByte l b = { s with mem := m } := ⟨_, rfl⟩

theorem putAll_eq (bs : List (Nat × Byte)) (s : State) : ∃ m, bs.foldl (fun s b => s.putByte b.1 b.2) s = { s with mem := m } := by
  induction bs generalizing s with
  | nil => exact ⟨_, rfl⟩
  | cons b t ih =>
    obtain ⟨m, e⟩ := ih (s.putByte b.1 b.2)
    exact ⟨m, e⟩

theorem putBytes_eq (bs : List (Nat × Byte)) (s : State) : ∃ m p, s.putBytes bs = { s with mem := m, poison := p } := by
  obtain ⟨m, e⟩ := putAll_eq bs s
  unfold State.putBytes
  rw [e]
  exact ⟨m, _, rfl⟩

theorem holdHost_eq (bs : List (Nat × Byte)) (s : State) : ∃ k, s.holdHost bs = { s with held := k } := by
  induction bs generalizing s with
  | nil => exact ⟨_, rfl⟩
  | cons b t ih =>
    unfold State.holdHost at ih ⊢
    rw [List.foldl_cons]
    split
    · obtain ⟨k, e⟩ := ih { s with held := sput s.held b.1 (s.homeByte b.1) }
      exact ⟨k, e⟩
    · exact ih s

theorem mem_distinct (l seen : List Nat) (x : Nat) (h : x ∈ l) (hs : x ∉ seen) : x ∈ distinct seen l := by
  induction l generalizing seen with
  | nil => cases h
  | cons y t ih =>
    simp only [distinct]
    by_cases hy : x = y
    · subst hy
      rw [if_neg (by simpa using hs)]
      exact List.mem_cons_self
    · have ht : x ∈ t := (List.mem_cons.mp h).resolve_left hy
      split
      · exact ih seen ht hs
      · exact List.mem_cons_of_mem _ (ih _ ht (by simpa [hy] using hs))

theorem distinct_subset (l seen : List Nat) (x : Nat) (h : x ∈ distinct seen l) : x ∈ l := by
  induction l generalizing seen with
  | nil => cases h
  | cons y t ih =>
    simp only [distinct] at h
    split at h
    · exact List.mem_cons_of_mem _ (ih _ h)
    · rcases List.mem_cons.mp h with h | h
      · exact h ▸ List.mem_cons_self
      · exact List.mem_cons_of_mem _ (ih _ h)

theorem mem_sectorsOf (bs : List (Nat × Byte)) (c : Nat) : c ∈ sectorsOf bs ↔ ∃ b ∈ bs, sectorOf b.1 = c := by
  constructor
  · intro h
    simpa using distinct_subset _ _ _ h
  · intro h
    exact mem_distinct _ _ _ (by simpa using h) (by simp)

theorem arriveSector_eq (s : State) (w : Writer2) (c : Nat) : ∃ q k,
    s.arriveSector w c = { s.setEntry c (mkEntry 6 w.pos (w.owner.getD (entryOwner (s.entry c)))) with posted := q, copies := k } := by
  unfold State.arriveSector State.post
  dsimp only
  split
  · split <;> exact ⟨_, _, rfl⟩
  · exact ⟨_, _, rfl⟩

/-- What the arrival of writes leaves: the bytes that none of them names, and the entries of the sectors that none of them lies in;
every sector one of them lies in is pending. -/
structure Arrived (s t : State) (bs : List (Nat × Byte)) : Prop where
  fields : ∃ m p k u q f c, t = { s with mem := m, poison := p, held := k, turn := u, posted := q, flight := f, copies := c }
  canonical : s.Canonical → t.Canonical
  byte : s.Canonical → ∀ l, (∀ b ∈ bs, b.1 ≠ l) → t.homeByte l = s.homeByte l
  entry : s.Canonical → ∀ c, (∀ b ∈ bs, sectorOf b.1 ≠ c) → t.entry c = s.entry c
  pending : s.Canonical → ∀ b ∈ bs, entryState (t.entry (sectorOf b.1)) = 6

theorem arriveSectors (w : Writer2) (cs : List Nat) (s : State) :
    ∃ u q k, cs.foldl (fun s c => s.arriveSector w c) s = { s with turn := u, posted := q, copies := k } ∧
      (s.Canonical → (cs.foldl (fun s c => s.arriveSector w c) s).Canonical) ∧
      (s.Canonical → ∀ c, c ∉ cs → (cs.foldl (fun s c => s.arriveSector w c) s).entry c = s.entry c) ∧
      (s.Canonical → ∀ c ∈ cs, entryState ((cs.foldl (fun s c => s.arriveSector w c) s).entry c) = 6) := by
  induction cs generalizing s with
  | nil => exact ⟨_, _, _, rfl, id, fun _ _ _ => rfl, fun _ c h => by cases h⟩
  | cons c t ih =>
    obtain ⟨q0, k0, e0⟩ := arriveSector_eq s w c
    obtain ⟨u, q, k, e, h1, h2, h3⟩ := ih (s.arriveSector w c)
    rw [List.foldl_cons]
    have hc : s.Canonical → (s.arriveSector w c).Canonical := fun h => by
      rw [e0]
      have h4 := setEntry_canonical s c (mkEntry 6 w.pos (w.owner.getD (entryOwner (s.entry c)))) h
      exact ⟨h4.mem, h4.turn, h4.flash⟩
    have he : s.Canonical → ∀ d, (s.arriveSector w c).entry d = if d = c then mkEntry 6 w.pos (w.owner.getD (entryOwner (s.entry c)))
        else s.entry d := fun h d => by
      rw [e0]
      exact entry_setEntry s c d _ h
    refine ⟨u, q, k, ?_, fun h => h1 (hc h), fun h d hd => ?_, fun h d hd => ?_⟩
    · rw [e, e0]
      rfl
    · rw [h2 (hc h) d (fun h4 => hd (List.mem_cons_of_mem _ h4)), he h]
      rw [if_neg (fun h4 => hd (by rw [h4]; exact List.mem_cons_self))]
    · by_cases ht : d ∈ t
      · exact h3 (hc h) d ht
      · have hdc : d = c := (List.mem_cons.mp hd).resolve_right ht
        rw [h2 (hc h) d ht, he h, if_pos hdc, entryState_mkEntry]

/-- One write arrives. -/
theorem arrive_arrived (s : State) (o : Outbound) : Arrived s (s.arrive o) o.bytes := by
  obtain ⟨k, e1⟩ := holdHost_eq o.bytes s
  obtain ⟨m, p, e2⟩ := putBytes_eq o.bytes (s.holdHost o.bytes)
  let v : State := { (s.holdHost o.bytes).putBytes o.bytes with poison :=
    (((s.holdHost o.bytes).putBytes o.bytes).poison.map (fun p => p.meet o)).filter (fun p => !p.covered) }
  obtain ⟨u, q, c0, e3, h1, h2, h3⟩ := arriveSectors o.src (sectorsOf o.bytes) v
  have c1 : s.Canonical → (s.holdHost o.bytes).Canonical := fun h => by rw [e1]; exact ⟨h.mem, h.turn, h.flash⟩
  have c2 : s.Canonical → v.Canonical := fun h =>
    have hp := putBytes_canonical _ o.bytes (c1 h)
    ⟨hp.mem, hp.turn, hp.flash⟩
  have n2 : v.entry = s.entry := by
    show ((s.holdHost o.bytes).putBytes o.bytes).entry = s.entry
    rw [e2, e1]
    rfl
  have ev : ∃ m p, v = { s with mem := m, poison := p, held := k } := by
    refine ⟨m, v.poison, ?_⟩
    show { (s.holdHost o.bytes).putBytes o.bytes with poison := v.poison } = _
    rw [e2, e1]
  obtain ⟨m', p', ev⟩ := ev
  refine ⟨⟨m', p', k, u, q, s.flight, c0, ?_⟩, fun h => h1 (c2 h), fun h l hl => ?_, fun h c hc => ?_, fun h b hb => ?_⟩
  · show (sectorsOf o.bytes).foldl (fun s sec => s.arriveSector o.src sec) v = _
    rw [e3, ev]
  · have : (s.arrive o).homeByte l = ((s.holdHost o.bytes).putBytes o.bytes).homeByte l := by
      show ((sectorsOf o.bytes).foldl (fun s sec => s.arriveSector o.src sec) v).homeByte l = _
      rw [e3]
      rfl
    rw [this, homeByte_putBytes_of_not_mem _ _ _ (c1 h) hl, e1]
    rfl
  · have h4 := h2 (c2 h) c (fun h5 => by
      obtain ⟨b, hb, e⟩ := (mem_sectorsOf _ _).mp h5
      exact hc b hb e)
    rw [n2] at h4
    exact h4
  · exact h3 (c2 h) _ ((mem_sectorsOf _ _).mpr ⟨b, hb, rfl⟩)

theorem Arrived.trans {s t u : State} {bs cs : List (Nat × Byte)} (h1 : Arrived s t bs) (h2 : Arrived t u cs) : Arrived s u (bs ++ cs) := by
  obtain ⟨m1, p1, k1, u1, q1, f1, c1, e1⟩ := h1.fields
  obtain ⟨m2, p2, k2, u2, q2, f2, c2, e2⟩ := h2.fields
  refine ⟨⟨m2, p2, k2, u2, q2, f2, c2, by rw [e2, e1]⟩, fun h => h2.canonical (h1.canonical h), fun h l hl => ?_, fun h c hc => ?_,
    fun h b hb => ?_⟩
  · rw [h2.byte (h1.canonical h) l (fun b hb => hl b (List.mem_append_right _ hb)), h1.byte h l (fun b hb => hl b (List.mem_append_left _ hb))]
  · rw [h2.entry (h1.canonical h) c (fun b hb => hc b (List.mem_append_right _ hb)), h1.entry h c (fun b hb => hc b (List.mem_append_left _ hb))]
  · by_cases hc : ∀ b' ∈ cs, sectorOf b'.1 ≠ sectorOf b.1
    · rw [h2.entry (h1.canonical h) _ hc]
      exact h1.pending h b ((List.mem_append.mp hb).resolve_right (fun h3 => hc b h3 rfl))
    · simp only [ne_eq, Classical.not_forall, Decidable.not_not] at hc
      obtain ⟨b', hb', e⟩ := hc
      rw [← e]
      exact h2.pending (h1.canonical h) b' hb'

/-- Several writes arrive, oldest first. -/
theorem arrives (os : List Outbound) (s : State) : Arrived s (os.foldl State.arrive s) (os.flatMap Outbound.bytes) := by
  induction os generalizing s with
  | nil =>
    refine ⟨⟨_, _, _, _, _, _, _, rfl⟩, id, fun _ _ _ => rfl, fun _ _ _ => rfl, fun _ b hb => ?_⟩
    cases hb
  | cons o t ih => exact (arrive_arrived s o).trans (ih _)

theorem arriveOne_flight (s : State) (o : Outbound) : (s.arrive o).flight = s.flight := by
  obtain ⟨k, e1⟩ := holdHost_eq o.bytes s
  obtain ⟨m, p, e2⟩ := putBytes_eq o.bytes (s.holdHost o.bytes)
  let v : State := { (s.holdHost o.bytes).putBytes o.bytes with poison :=
    (((s.holdHost o.bytes).putBytes o.bytes).poison.map (fun p => p.meet o)).filter (fun p => !p.covered) }
  obtain ⟨u, q, c, e3, -⟩ := arriveSectors o.src (sectorsOf o.bytes) v
  show ((sectorsOf o.bytes).foldl (fun s sec => s.arriveSector o.src sec) v).flight = _
  rw [e3]
  show ((s.holdHost o.bytes).putBytes o.bytes).flight = s.flight
  rw [e2, e1]

theorem arrive_flight (os : List Outbound) (s : State) : (os.foldl State.arrive s).flight = s.flight := by
  induction os generalizing s with
  | nil => rfl
  | cons o t ih => rw [List.foldl_cons, ih, arriveOne_flight]

/-- The writes that a test selects arrive, and leave the outbound path. -/
theorem arriveIf_arrived (s : State) (p : Outbound → Bool) :
    Arrived s (s.arriveIf p) ((s.flight.filter p).flatMap Outbound.bytes) ∧ (s.arriveIf p).flight = s.flight.filter (fun o => !(p o)) := by
  unfold State.arriveIf
  dsimp only
  refine ⟨?_, arrive_flight _ _⟩
  have h := arrives (s.flight.filter p) { s with flight := s.flight.filter (fun o => !(p o)) }
  obtain ⟨m, q, k, u, r, f, c, e⟩ := h.fields
  exact ⟨⟨m, q, k, u, r, f, c, e⟩, fun hc => h.canonical ⟨hc.mem, hc.turn, hc.flash⟩, fun hc => h.byte ⟨hc.mem, hc.turn, hc.flash⟩,
    fun hc => h.entry ⟨hc.mem, hc.turn, hc.flash⟩, fun hc => h.pending ⟨hc.mem, hc.turn, hc.flash⟩⟩

theorem arriveIf_slots (s : State) (p : Outbound → Bool) (hs : s.Slots) : (s.arriveIf p).Slots := by
  obtain ⟨m, q, k, u, r, f, c, e⟩ := (arriveIf_arrived s p).1.fields
  rw [e]
  exact ⟨hs.rising, hs.named, hs.selected⟩

/-! ### The close of a strip -/

/-- The selected hart's bytes go outbound and count into its write set. -/
theorem send_self (s : State) (items : List (List (Nat × Byte))) (h : s.h.st ≠ .free) :
    s.send s.h.id items = ({ s with h := s.h.wrote items } : State).outbound s.h.writerAt items := by
  unfold State.send
  rw [hart?_self s h]
  show (s.setHart (s.h.wrote items)).outbound s.h.writerAt items = _
  rw [show s.setHart (s.h.wrote items) = ({ s with h := s.h.wrote items } : State) from if_pos rfl]

/-- A hart put back into another slot is found there, and the others stay. -/
theorem hart?_setHart (s : State) (x : Hart) (j : BitVec 11) (hx : x.id ≠ s.h.id) (hf : x.st ≠ .free) :
    (s.setHart x).hart? j = if j = x.id then some x else s.hart? j := by
  unfold State.setHart
  rw [if_neg (Ne.symm hx), if_neg hf]
  by_cases hj : j = x.id
  · rw [if_pos hj, hj]
    simp only [State.hart?, if_neg (Ne.symm hx), sfind_sput, if_true]
  · rw [if_neg hj]
    have : j.toNat ≠ x.id.toNat := fun h => hj (BitVec.eq_of_toNat_eq h)
    simp only [State.hart?, sfind_sput, if_neg this]

/-- Another hart's bytes go outbound. -/
theorem send_other (s : State) (m : BitVec 11) (x : Hart) (items : List (List (Nat × Byte))) (hs : s.Slots) (hm : m ≠ s.h.id)
    (hx : s.hart? m = some x) : ∃ o, s.send m items = ({ s with others := o } : State).outbound x.writerAt items ∧
      (s.send m items).Slots ∧ ∀ j, (s.send m items).hart? j = if j = m then some (x.wrote items) else s.hart? j := by
  have hid := hart?_id s m x hs hx
  have hfree : x.st ≠ .free := by
    rw [hart?_of_ne s m hm] at hx
    exact (hs.named _ (sfind_mem _ _ _ hx)).2
  have hw : (x.wrote items).id ≠ s.h.id := by
    show x.id ≠ s.h.id
    rw [hid]
    exact hm
  obtain ⟨o, e, h⟩ := setHart_of_ne s _ hs hw
  have hh := fun j => hart?_setHart s _ j hw hfree
  unfold State.send
  rw [hx]
  dsimp only
  rw [e] at h hh ⊢
  refine ⟨o, rfl, ⟨h.rising, h.named, h.selected⟩, fun j => ?_⟩
  refine (hh j).trans ?_
  have hxi : (x.wrote items).id = m := hid
  rw [hxi]

theorem writerAt_hart (h : Hart) (l : Nat) : (h.writerAt l).hart = some h.id := by
  unfold Hart.writerAt
  split <;> rfl

/-- What leaves a buffer at a commit is bytes of it, one by one. -/
theorem mem_leaving (h : Hart) (i : List (Nat × Byte)) (hi : i ∈ h.leaving) : ∃ b ∈ h.buf, i = [b] := by
  obtain ⟨b, hb, rfl⟩ := List.mem_map.mp hi
  exact ⟨b, (List.mem_filter.mp hb).1, rfl⟩

/-- The members' part of a commit: their buffers leave, and nothing but other harts and the outbound path changes. -/
theorem commit_members (s0 : State) (ms : List (BitVec 11)) (s : State) (hs : s.Slots) (hm : s.h.id ∉ ms)
    (h0 : ∀ i y, s.hart? i = some y → ∃ z, s0.hart? i = some z ∧ ∀ b ∈ y.buf, b ∈ z.buf) :
    ∃ o fs, ms.foldl (fun s m =>
      match s.hart? m with
      | some x => (s.setHart { x with buf := [], stale := [] }).send m x.leaving
      | none => s) s = { s with others := o, flight := s.flight ++ fs } ∧
      ({ s with others := o, flight := s.flight ++ fs } : State).Slots ∧
      ∀ x ∈ fs, ∃ i ∈ ms, x.src.hart = some i ∧ ∃ z, s0.hart? i = some z ∧ ∃ b ∈ z.buf, x.bytes = [b] := by
  induction ms generalizing s with
  | nil => exact ⟨s.others, [], by simp, by simpa using hs, fun x hx => by cases hx⟩
  | cons m t ih =>
    have hmt : s.h.id ∉ t := fun h => hm (List.mem_cons_of_mem _ h)
    have hne : m ≠ s.h.id := fun h => hm (h ▸ List.mem_cons_self)
    rw [List.foldl_cons]
    cases hx : s.hart? m with
    | none =>
      obtain ⟨o, fs, e, h1, h2⟩ := ih s hs hmt h0
      refine ⟨o, fs, e, h1, fun x hx => ?_⟩
      obtain ⟨i, hi, h⟩ := h2 x hx
      exact ⟨i, List.mem_cons_of_mem _ hi, h⟩
    | some x =>
      have hid := hart?_id s m x hs hx
      have hfree : x.st ≠ .free := by
        rw [hart?_of_ne s m hne] at hx
        exact (hs.named _ (sfind_mem _ _ _ hx)).2
      have hxid : ({ x with buf := [], stale := [] } : Hart).id ≠ s.h.id := by
        show x.id ≠ s.h.id
        rw [hid]
        exact hne
      obtain ⟨o1, e1, s1⟩ := setHart_of_ne s _ hs hxid
      have hh := fun j => hart?_setHart s ({ x with buf := [], stale := [] } : Hart) j hxid hfree
      rw [e1] at hh s1
      have hm1 : ({ s with others := o1 } : State).hart? m = some { x with buf := [], stale := [] } := by
        rw [hh m, if_pos hid.symm]
      obtain ⟨o2, e2, s2, h2⟩ := send_other { s with others := o1 } m _ x.leaving s1 hne hm1
      dsimp only
      rw [e1]
      have hid2 : (({ s with others := o1 } : State).send m x.leaving).h.id = s.h.id := by rw [e2]; rfl
      obtain ⟨o, fs, e, h3, h4⟩ := ih (({ s with others := o1 } : State).send m x.leaving) s2 (by rw [hid2]; exact hmt)
        (fun i y hy => by
          rw [h2 i] at hy
          by_cases hi : i = m
          · rw [if_pos hi] at hy
            cases hy
            obtain ⟨z, hz, -⟩ := h0 m x hx
            exact ⟨z, hi ▸ hz, fun b hb => by cases hb⟩
          · rw [if_neg hi, hh i, if_neg (by show i ≠ x.id; rw [hid]; exact hi)] at hy
            exact h0 i y hy)
      obtain ⟨z, hz, hb⟩ := h0 m x hx
      refine ⟨o, (x.leaving.filter (fun i => !i.isEmpty)).map (fun i =>
        { src := Hart.writerAt { x with buf := [], stale := [] } ((i.head?.map Prod.fst).getD 0), bytes := i, sent := s.clock }) ++ fs,
        ?_, ?_, fun y hy => ?_⟩
      · rw [e, e2]
        simp only [State.outbound, List.append_assoc]
      · exact ⟨h3.rising, h3.named, by rw [e2] at h3; exact h3.selected⟩
      · rcases List.mem_append.mp hy with h | h
        · obtain ⟨i, hi, rfl⟩ := List.mem_map.mp h
          obtain ⟨b, hb1, rfl⟩ := mem_leaving x i (List.mem_filter.mp hi).1
          refine ⟨m, List.mem_cons_self, ?_, z, hz, b, hb b hb1, rfl⟩
          rw [writerAt_hart]
          exact congrArg some hid
        · obtain ⟨i, hi, h⟩ := h4 y h
          exact ⟨i, List.mem_cons_of_mem _ hi, h⟩

/-- The selected hart as a commit leaves it (R26, R104, R190): the buffer is on its way, its sectors stand in the write set, and INSTRET
has taken what the strip counted. -/
def Hart.committed (h : Hart) : Hart :=
  ({ h with
    buf := [], stale := [], queue := [], instret := h.instret + BitVec.ofNat 64 h.instPend, instPend := 0, stripOpen := false } : Hart).wrote
      h.leaving

/-- A strip commits: the buffers of the hart and its members are on their way, and INSTRET has taken what the strip counted. -/
theorem commit_eq (s : State) (b : Bool) (hs : s.Slots) (hf : s.h.st ≠ .free) : ∃ o k fs, s.commit b = { s with
    h := s.h.committed
    others := o, cores := k
    flight := s.flight ++ ((s.h.leaving.filter (fun i => !i.isEmpty)).map (fun i =>
      { src := s.h.writerAt ((i.head?.map Prod.fst).getD 0), bytes := i, sent := s.clock }) ++ fs) } ∧ (s.commit b).Slots ∧
    (∀ x ∈ fs, ∃ i ∈ s.h.members, x.src.hart = some i ∧ ∃ z, s.hart? i = some z ∧ ∃ c ∈ z.buf, x.bytes = [c]) ∧
    (s.h.trace = false → k = s.cores) ∧ (s.h.gang = none → o = s.others ∧ fs = []) := by
  have hr : ∃ k, (if s.h.stripOpen then s.stripRecord b false s.h.preempt else s) = { s with cores := k } ∧
      (s.h.trace = false → k = s.cores) := by
    split
    · exact stripRecord_eq s b false s.h.preempt
    · exact ⟨_, rfl, fun _ => rfl⟩
  obtain ⟨k, e1, hk⟩ := hr
  unfold State.commit
  dsimp only
  rw [e1]
  have e2 := send_self (({ s with cores := k } : State).modH (fun h => { h with
    buf := [], stale := [], queue := [], instret := h.instret + wd h.instPend, instPend := 0, stripOpen := false })) s.h.leaving hf
  let u : State := { s with
    h := s.h.committed
    cores := k
    flight := s.flight ++ (s.h.leaving.filter (fun i => !i.isEmpty)).map (fun i =>
      { src := s.h.writerAt ((i.head?.map Prod.fst).getD 0), bytes := i, sent := s.clock }) }
  have e2' : (({ s with cores := k } : State).modH (fun h => { h with
      buf := [], stale := [], queue := [], instret := h.instret + wd h.instPend, instPend := 0, stripOpen := false })).send s.h.id
        s.h.leaving = u := e2
  have hu : u.Slots := ⟨hs.rising, hs.named, hs.selected⟩
  have h0 : ∀ i y, u.hart? i = some y → ∃ z, s.hart? i = some z ∧ ∀ b ∈ y.buf, b ∈ z.buf := by
    intro i y hy
    by_cases hi : i = s.h.id
    · rw [hi] at hy
      have h4 := hart?_self u hf
      rw [show u.h.id = s.h.id from rfl] at h4
      rw [h4] at hy
      cases hy
      exact ⟨s.h, hi ▸ hart?_self s hf, fun b hb => by cases hb⟩
    · rw [hart?_of_ne u i hi] at hy
      exact ⟨y, by rw [hart?_of_ne s i hi]; exact hy, fun b hb => hb⟩
  obtain ⟨o, fs, e3, h4, h5⟩ := commit_members s s.h.members u hu (not_mem_members s.h) h0
  have e4 := (congrArg (fun v => s.h.members.foldl (fun s m =>
    match s.hart? m with
    | some x => (s.setHart { x with buf := [], stale := [] }).send m x.leaving
    | none => s) v) e2').trans e3
  refine ⟨o, k, fs, e4.trans ?_, ?_, h5, hk, fun hg => ?_⟩
  · simp only [u, List.append_assoc]
  · exact e4 ▸ h4
  · have h6 : s.h.members = [] := by simp [Hart.members, hg]
    rw [h6] at e3 h5
    refine ⟨(congrArg State.others e3).symm, ?_⟩
    cases fs with
    | nil => rfl
    | cons x t =>
      obtain ⟨i, hi, -⟩ := h5 x List.mem_cons_self
      cases hi

/-- Every write of several harts arrives. -/
theorem arriveHarts (ms : List (BitVec 11)) (s : State) : ∃ bs, Arrived s (ms.foldl State.arriveHart s) bs ∧
    (∀ b, b ∈ bs ↔ ∃ o ∈ s.flight, (∃ i ∈ ms, o.src.hart = some i) ∧ b ∈ o.bytes) ∧
    (∀ o, o ∈ (ms.foldl State.arriveHart s).flight ↔ o ∈ s.flight ∧ ∀ i ∈ ms, o.src.hart ≠ some i) := by
  induction ms generalizing s with
  | nil =>
    refine ⟨[], arrives [] s, fun b => ?_, fun o => ?_⟩
    · simp
    · simp
  | cons m t ih =>
    obtain ⟨h1, h2⟩ := arriveIf_arrived s (fun o => o.src.hart == some m)
    obtain ⟨bs, h3, h4, h5⟩ := ih (s.arriveHart m)
    have hf : ∀ o, o ∈ (s.arriveHart m).flight ↔ o ∈ s.flight ∧ o.src.hart ≠ some m := by
      intro o
      unfold State.arriveHart
      rw [h2]
      simp
    rw [List.foldl_cons]
    refine ⟨_, h1.trans h3, fun b => ?_, fun o => ?_⟩
    · rw [List.mem_append, h4 b]
      constructor
      · rintro (h | ⟨o, ho, ⟨i, hi, h⟩, hb⟩)
        · obtain ⟨o, ho, hb⟩ := List.mem_flatMap.mp h
          rw [List.mem_filter] at ho
          exact ⟨o, ho.1, ⟨m, List.mem_cons_self, by simpa using ho.2⟩, hb⟩
        · exact ⟨o, ((hf o).mp ho).1, ⟨i, List.mem_cons_of_mem _ hi, h⟩, hb⟩
      · rintro ⟨o, ho, ⟨i, hi, h⟩, hb⟩
        by_cases hm : o.src.hart = some m
        · left
          exact List.mem_flatMap.mpr ⟨o, List.mem_filter.mpr ⟨ho, by simpa using hm⟩, hb⟩
        · right
          refine ⟨o, (hf o).mpr ⟨ho, hm⟩, ⟨i, ?_, h⟩, hb⟩
          rcases List.mem_cons.mp hi with h6 | h6
          · exact absurd (h6 ▸ h) hm
          · exact h6
    · rw [h5 o, hf o]
      simp only [List.mem_cons, forall_eq_or_imp, and_assoc]

/-- The selected hart as an undisturbed close leaves it (R26, R28, R199): a strip that was open has committed, and nothing of it is due. -/
def Hart.atClose (h : Hart) : Hart :=
  if h.stripOpen then { h.committed with
    raised := 0, delivered := 0, watched := none, ckWatched := none, overLimit := false, owed := h.owed.filter (fun o => o.pc ≠ h.pc) }
  else h

/-- An undisturbed close (R90, R199, R231): the registers stay, INSTRET has what the strip counted, no strip is open, and every
write of the hart and its gang has reached its home. -/
theorem closed_eq (s : State) (hq : s.Quiet) : ∃ o k m q e u r f c, s.closed = { s with
    h := s.h.atClose
    others := o, cores := k, mem := m, poison := q, held := e, turn := u, posted := r, flight := f, copies := c } ∧
    (s.h.stripOpen = false → o = s.others ∧ k = s.cores) ∧
    s.closed.Slots ∧ (s.Canonical → s.closed.Canonical) ∧ (∀ x ∈ f, ∀ i ∈ s.h.gangIds, x.src.hart ≠ some i) := by
  unfold State.closed State.splitThen Hart.atClose
  have hf : s.h.st ≠ .free := by
    rw [hq.running]
    decide
  by_cases ho : s.h.stripOpen = true
  · rw [closeThen_strip s true _ ho (hq.due ho) hq.owed, if_pos ho]
    obtain ⟨o, k, fs, e1, h1, -⟩ := commit_eq s (true || s.h.overLimit) hq.slots hf
    rw [e1] at h1 ⊢
    let v : State := { s with
      h := { s.h.committed with
        raised := 0, delivered := 0, watched := none, ckWatched := none, overLimit := false, owed := s.h.owed.filter (fun o => o.pc ≠ s.h.pc) }
      others := o, cores := k
      flight := s.flight ++ ((s.h.leaving.filter (fun i => !i.isEmpty)).map (fun i =>
        { src := s.h.writerAt ((i.head?.map Prod.fst).getD 0), bytes := i, sent := s.clock }) ++ fs) }
    obtain ⟨bs, h2, -, h4⟩ := arriveHarts s.h.gangIds v
    obtain ⟨m, q, e, u, r, f, c, e2⟩ := h2.fields
    refine ⟨o, k, m, q, e, u, r, f, c, e2, fun h => absurd ho (by rw [h]; decide), ?_, fun hc => h2.canonical ⟨hc.mem, hc.turn, hc.flash⟩,
      fun x hx i hi => ((h4 x).mp (by rw [e2]; exact hx)).2 i hi⟩
    refine e2 ▸ ?_
    exact ⟨h1.rising, h1.named, h1.selected⟩
  · rw [if_neg ho]
    rw [Bool.not_eq_true] at ho
    rw [closeThen_no_strip s true _ ho]
    obtain ⟨bs, h2, -, h4⟩ := arriveHarts s.h.gangIds s
    obtain ⟨m, q, e, u, r, f, c, e2⟩ := h2.fields
    have e3 : s.h.members.foldl State.arriveHart (s.arriveHart s.h.id) = s.h.gangIds.foldl State.arriveHart s := rfl
    simp only [id, e3]
    rw [e2] at h2 h4 ⊢
    exact ⟨s.others, s.cores, m, q, e, u, r, f, c, rfl, fun _ => ⟨rfl, rfl⟩,
      ⟨hq.slots.rising, hq.slots.named, hq.slots.selected⟩, h2.canonical, fun x hx i hi => ((h4 x).mp hx).2 i hi⟩

theorem closed_slots (s : State) (hq : s.Quiet) : s.closed.Slots := by
  obtain ⟨o, k, m, q, e, u, r, f, c, -, -, h, -⟩ := closed_eq s hq
  exact h

/-- The selected hart behind an undisturbed close. -/
theorem closed_h (s : State) (hq : s.Quiet) : s.closed.h = s.h.atClose := by
  obtain ⟨o, k, m, q, e, u, r, f, c, e1, -⟩ := closed_eq s hq
  rw [e1]

@[simp] theorem atClose_r (h : Hart) : h.atClose.r = h.r := by unfold Hart.atClose; split <;> rfl
@[simp] theorem atClose_id (h : Hart) : h.atClose.id = h.id := by unfold Hart.atClose; split <;> rfl
@[simp] theorem atClose_pc (h : Hart) : h.atClose.pc = h.pc := by unfold Hart.atClose; split <;> rfl
@[simp] theorem atClose_preempt (h : Hart) : h.atClose.preempt = h.preempt := by unfold Hart.atClose; split <;> rfl
@[simp] theorem atClose_stopDue (h : Hart) : h.atClose.stopDue = h.stopDue := by unfold Hart.atClose; split <;> rfl

theorem closed_r (s : State) (hq : s.Quiet) : s.closed.h.r = s.h.r := by rw [closed_h s hq, atClose_r]

theorem closed_id (s : State) (hq : s.Quiet) : s.closed.h.id = s.h.id := by rw [closed_h s hq, atClose_id]

theorem closed_preempt (s : State) (hq : s.Quiet) : s.closed.h.preempt = false := by rw [closed_h s hq, atClose_preempt, hq.preempt]

theorem closed_stop (s : State) (hq : s.Quiet) : s.closed.h.stopDue = false := by rw [closed_h s hq, atClose_stopDue, hq.stop]

end Sys2Proof.Machine
end

