-- ==== Sys2Proof/Laws/Home.lean ====
section
/-!
SUPPORT. What writes at the home, turns, logged inputs and the operations at the home change and what they leave.
-/

namespace Sys2Proof.Machine

/-! ### Watching -/

theorem watch_eq (s : State) (mode va n : Nat) : ∃ w a, s.watch mode va n = { s with h := { s.h with watched := w, watchedAt := a } } := by
  unfold State.watch
  dsimp only
  split
  · exact ⟨_, _, rfl⟩
  · exact ⟨s.h.watched, s.h.watchedAt, rfl⟩

theorem fill_eq (s : State) (rd : Reader) (loc : Nat) : ∃ c, s.fill rd loc = { s with copies := c } := by
  unfold State.fill State.fillAs
  split
  · split
    · exact ⟨_, rfl⟩
    · exact ⟨s.copies, rfl⟩
  · exact ⟨s.copies, rfl⟩

theorem fills_eq (rd : Reader) (ls : List Nat) (s : State) : ∃ c, ls.foldl (fun s l => s.fill rd l) s = { s with copies := c } := by
  induction ls generalizing s with
  | nil => exact ⟨s.copies, rfl⟩
  | cons l t ih =>
    obtain ⟨c0, e0⟩ := fill_eq s rd l
    obtain ⟨c, e⟩ := ih (s.fill rd l)
    exact ⟨c, by rw [List.foldl_cons, e, e0]⟩

/-- Keeping what a translation read changes the inbound copies alone. -/
theorem keepXlat_eq (s : State) (h : Hart) (va : Nat) : ∃ c, s.keepXlat h va = { s with copies := c } := by
  unfold State.keepXlat
  dsimp only
  generalize s.rangeLocs h (s.region h.region) va 32 ++ _ = ls
  obtain ⟨c, e⟩ := fills_eq h.reader ls s
  rw [e]
  exact ⟨_, rfl⟩

/-- An access changes the inbound copies, and may mark the strip watched. -/
theorem accessed_eq (s : State) (mode va n : Nat) : ∃ c w a, s.accessed mode va n =
    { s with copies := c, h := { s.h with watched := w, watchedAt := a } } := by
  obtain ⟨c, e1⟩ := keepXlat_eq s s.h va
  obtain ⟨w, a, e2⟩ := watch_eq (s.keepXlat s.h va) mode va n
  refine ⟨c, w, a, ?_⟩
  unfold State.accessed
  rw [e2, e1]

/-- An access takes what the hart and its gang have loaded early of its bytes, and changes nothing else. -/
theorem dropEarly_eq (s : State) (loc n : Nat) (hs : s.Slots) : ∃ l o,
    s.dropEarly loc n = { s with h := { s.h with early := l }, others := o } ∧ (s.dropEarly loc n).Slots := by
  obtain ⟨o, e, h⟩ := modHarts (fun x => { x with early := x.keptEarly loc n }) (fun _ => rfl) s.h.members
    (s.modH (fun h => { h with early := h.keptEarly loc n })) (modH_slots s _ hs rfl) (not_mem_members s.h)
  exact ⟨s.h.keptEarly loc n, o, e, h⟩

theorem dropEarly_alone (s : State) (loc n : Nat) (hg : s.h.gang = none) :
    s.dropEarly loc n = { s with h := { s.h with early := s.h.keptEarly loc n } } := by
  simp [State.dropEarly, Hart.members, hg, State.modH]

theorem acting_eq (s : State) (va : Word) (n : Nat) (x : Xlat) (hs : s.Slots) : ∃ c w a l o,
    s.acting va n x = { s with copies := c, h := { s.h with early := l, watched := w, watchedAt := a }, others := o } := by
  obtain ⟨l, o, e1, -⟩ := dropEarly_eq s (x.loc / 8 * 8) 8 hs
  obtain ⟨c, w, a, e2⟩ := accessed_eq (s.dropEarly (x.loc / 8 * 8) 8) 2 va.toNat n
  refine ⟨c, w, a, l, o, ?_⟩
  unfold State.acting
  rw [e2, e1]

/-! ### Units write at the home -/

theorem sendHost_eq (s : State) (lv sec : Nat) : ∃ k, s.sendHost lv sec = { s with held := k } := by
  unfold State.sendHost
  split
  · exact ⟨_, rfl⟩
  · exact ⟨s.held, rfl⟩

/-- A unit's mark on each of some sectors changes copies, entries and what the host holds. -/
theorem unitMarks_eq (lv : Nat) (owner : BitVec 16) (cs : List Nat) (s : State) : ∃ c u k,
    cs.foldl (fun s sec => ((s.invalidate 3 0 sec).setEntry sec (mkEntry lv posUnit owner)).sendHost lv sec) s =
      { s with copies := c, turn := u, held := k } := by
  induction cs generalizing s with
  | nil => exact ⟨s.copies, s.turn, s.held, rfl⟩
  | cons a t ih =>
    obtain ⟨k0, e0⟩ := sendHost_eq ((s.invalidate 3 0 a).setEntry a (mkEntry lv posUnit owner)) lv a
    obtain ⟨c, u, k, e⟩ := ih (((s.invalidate 3 0 a).setEntry a (mkEntry lv posUnit owner)).sendHost lv a)
    refine ⟨c, u, k, ?_⟩
    rw [List.foldl_cons, e, e0]
    rfl

/-- A unit's home action changes memory, poison, copies, entries and what the host holds. -/
theorem unitWrite_eq (s : State) (lv : Nat) (owner : BitVec 16) (loc n x : Nat) : ∃ m p c u k,
    s.unitWrite lv owner loc n x = { s with mem := m, poison := p, copies := c, turn := u, held := k } := by
  obtain ⟨k1, e1⟩ := holdHost_eq (spread loc n x) s
  obtain ⟨m, p, e2⟩ := putBytes_eq (spread loc n x) (s.holdHost (spread loc n x))
  obtain ⟨c, u, k, e3⟩ := unitMarks_eq lv owner (sectorsOf (spread loc n x)) ((s.holdHost (spread loc n x)).putBytes (spread loc n x))
  refine ⟨m, p, c, u, k, ?_⟩
  unfold State.unitWrite
  dsimp only
  rw [e3, e2, e1]

/-! ### Logged inputs -/

theorem logPut_eq (s : State) (r : BitVec 16) (id : BitVec 11) (ty : Nat) (sn : Word) (v v2 : Nat) : ∃ m p c u k,
    s.logPut r id ty sn v v2 = { s with mem := m, poison := p, copies := c, turn := u, held := k } := by
  unfold State.logPut State.unitPut
  dsimp only
  generalize s.logBase r + 64 + 32 * (s.logTail r % s.logSize r) = a
  generalize ty + id.toNat * 2^16 + sn.toNat * 2^64 + v % 2^64 * 2^128 + v2 % 2^64 * 2^192 = x
  obtain ⟨m1, p1, c1, u1, k1, e1⟩ := unitWrite_eq s 3 r a 32 x
  obtain ⟨m2, p2, c2, u2, k2, e2⟩ := unitWrite_eq (s.unitWrite 3 r a 32 x) 3 r ((s.unitWrite 3 r a 32 x).logBase r + 8) 8 (s.logTail r + 1)
  refine ⟨m2, p2, c2, u2, k2, ?_⟩
  rw [e2, e1]

/-- A logged record is appended, or waits for room. -/
theorem logged_eq (s : State) (ty v v2 : Nat) : ∃ m p c u k l,
    s.logged ty v v2 = { s with mem := m, poison := p, copies := c, turn := u, held := k, unlogged := l } := by
  unfold State.logged State.logAdd
  split
  · split
    · obtain ⟨m, p, c, u, k, e⟩ := logPut_eq s s.h.region s.h.id ty s.h.stripn v v2
      exact ⟨m, p, c, u, k, s.unlogged, e⟩
    · exact ⟨s.mem, s.poison, s.copies, s.turn, s.held, _, rfl⟩
  · exact ⟨s.mem, s.poison, s.copies, s.turn, s.held, s.unlogged, rfl⟩

/-- Without records that wait, none is appended. -/
theorem writeLogs_none (s : State) (h : s.unlogged = []) : s.writeLogs = s := by
  unfold State.writeLogs
  rw [h]
  show ({ s with unlogged := [] } : State) = s
  rw [← h]

/-! ### Operations at the home -/

theorem homeMark_eq (s : State) (c : BitVec 10) (r : BitVec 16) (lv sec : Nat) : ∃ k u,
    s.homeMark c r lv sec = { s with copies := k, turn := u } := ⟨_, _, rfl⟩

theorem homeWrite_eq (s : State) (x : Xlat) (n v : Nat) : ∃ m p k u,
    s.homeWrite x n v = { s with mem := m, poison := p, copies := k, turn := u } := by
  obtain ⟨m, p, e⟩ := putBytes_eq (spread x.loc n v) s
  refine ⟨m, p, (s.homeWrite x n v).copies, (s.homeWrite x n v).turn, ?_⟩
  unfold State.homeWrite State.homeWriteAs
  rw [e]
  rfl

theorem tagFull_eq (s : State) (loc : Nat) : s.tagFull loc = decide (loc / 8 ∈ s.full) := by simp [State.tagFull]

/-- An operation at the home whose address is aligned, mapped and not in host memory acts on the closed state. -/
theorem homeThen_at (s : State) (va : Word) (al : Nat) (acc : Access) (k : State → Xlat → State) (x : Xlat) (d : State) (hq : s.Quiet)
    (h : s.closed.HomeAt va al acc x d) : s.homeThen va al acc k = k s.closed x := by
  unfold State.homeThen
  rw [splitThen_quiet s _ hq]
  simp [h.aligned, h.mapped, h.notHost]

/-- The home acts where its sector is sound and turned to its level. -/
theorem homeCheck_at (s d : State) (va : Word) (al : Nat) (acc : Access) (k : State → State) (x : Xlat) (h : s.HomeAt va al acc x d) :
    d.homeCheck va x k = k (d.dropEarly (x.loc / 8 * 8) 8) := by
  simp [State.homeCheck, h.sound, h.turned]

/-- The chain of a region's parents is read from memory, not from the hart or its copies. -/
theorem chain_at (s : State) (y : Hart) (c : List Copy) (o : List (Nat × Hart)) (r : BitVec 16) :
    ({ s with h := y, copies := c, others := o } : State).chain r = s.chain r := rfl

/-- So is what the hardware goes by of a region. -/
theorem refsOf_at (s : State) (y : Hart) (c : List Copy) (o : List (Nat × Hart)) (r : BitVec 16) :
    ({ s with h := y, copies := c, others := o } : State).refsOf r = s.refsOf r := rfl

/-- So is the room in a log. -/
theorem logRoom_at (s : State) (y : Hart) (c : List Copy) (o : List (Nat × Hart)) (r : BitVec 16) (k : Nat) :
    ({ s with h := y, copies := c, others := o } : State).logRoom r k = s.logRoom r k := by
  have h : ∀ r, ({ s with h := y, copies := c, others := o } : State).logBase r = s.logBase r :=
    fun r => congrArg RegionRefs.logbase (refsOf_at s y c o r)
  unfold State.logRoom State.logTail State.logHead State.logSize
  simp only [h]
  rfl

/-- An operation that a recording region has room for, or that is not recorded, acts. -/
theorem homeInput_at (s d : State) (va : Word) (al : Nat) (acc : Access) (x : Xlat) (n : Nat) (f : State → State) (g : State → Nat → State)
    (h : s.HomeAt va al acc x d) (hd : d.Slots) : (d.acting va n x).homeInput x.loc f g = f (d.acting va n x) := by
  obtain ⟨c, w, a, l, o, e⟩ := acting_eq d va n x hd
  have h3 : (d.acting va n x).logRoom d.h.region 1 = d.logRoom d.h.region 1 := by rw [e, logRoom_at]
  have h1 : (d.acting va n x).h.replay = d.h.replay := by rw [e]
  have h2 : (d.acting va n x).h.region = d.h.region := by rw [e]
  generalize d.acting va n x = w at h1 h2 h3
  unfold State.homeInput
  rcases h.free with h0 | ⟨h0, h4⟩
  · rw [h0] at h1
    rw [h1, if_neg (by decide), if_neg (by simp)]
  · rw [h0] at h1
    rw [h1, if_neg (by decide), h2, h3, h4, if_neg (by simp)]

/-- The whole of an operation at the home that is not held up. -/
theorem homeOp_at (s : State) (va : Word) (al : Nat) (acc : Access) (x : Xlat) (pre f : State → State) (g : State → Nat → State)
    (hq : s.Quiet) (h : s.closed.HomeAt va al acc x (pre s.closed)) (hd : (pre s.closed).Slots) (n : Nat) :
    s.homeThen va al acc (fun c y => (pre c).homeCheck va y (fun d => (d.accessed 2 va.toNat n).homeInput y.loc f g)) =
      f ((pre s.closed).acting va n x) := by
  rw [homeThen_at s va al acc _ x _ hq h, homeCheck_at _ _ va al acc _ x h]
  exact homeInput_at _ _ va al acc x n f g h hd

end Sys2Proof.Machine
end

