-- ==== Sys2Proof/Machine/Placement.lean ====
section
/-!
DEFINITION. Where things lie on a die: memory slices (R3, R226), scratchpad banks (R212, R225), element groups (R210) and the routers of
a counting network (R332). Only time depends on these places, so no instruction's meaning reads them (log entry 6).
-/

namespace Sys2Proof.Machine

/-! ### Memory slices -/

/-- Granules of 2 KiB in the half of package memory that one die homes (R226). -/
def halfGranules : Nat := halfBytes / 2048

/-- H(q) before it is reduced: the exclusive or of the four low bytes (R226). -/
def foldBytes (q : Nat) : Nat := nbits q 0 8 ^^^ nbits q 8 8 ^^^ nbits q 16 8 ^^^ nbits q 24 8

/-- The slice of a granule on a die with `n` working slices (R226). -/
def sliceOf (n g : Nat) : Nat :=
  let q := g / n
  let p := g % n
  if q < halfGranules / n then (p + foldBytes q % n) % n else p

/-- The working slices of a die: 24 but for at most two that the part has harvested (R3). -/
def workingSlices (d : BitVec 1) : List Nat :=
  (List.range 24).filter (fun i => !(((Config.harvested d).take 2).contains i))

/-- The die and the slice of a location of package memory (R3, R226). -/
def sliceAt (loc : Nat) : BitVec 1 × Nat :=
  (homeDie loc, sliceOf (workingSlices (homeDie loc)).length (loc % halfBytes / 2048))

/-- The router, by row and column, of a working slice: 12 routers with two slices each, harvested ones skipped (R3, R226). -/
def sliceRouter (d : BitVec 1) (slice : Nat) : Option (Nat × Nat) :=
  ((workingSlices d)[slice]?).map (fun i => if i < 16 then (4, i / 2) else (5, i / 2 - 8))

/-! ### Scratchpad banks and element groups -/

/-- E: the elements of width `w` that a core with `g` lane sets processes in one cycle (R210). -/
def groupSize (w g : Nat) : Nat := if w = 64 then 8 * g else 16 * g * (32 / w)

/-- The bank of an offset in a core's scratchpad (R212). -/
def bankOf (off : Nat) : Nat := off / 8 % 64

/-- The core and the offset there of an offset in the cluster window (R225). -/
def windowPlace (a : Nat) : Nat × Nat := (a / 128 % 4, a / 512 * 128 + a % 128)

/-- Cycles that a vector access takes to these scratchpads and offsets, in element order, at most `e` elements in each (R212, R225). -/
def bankCycles (e : Nat) (xs : List (Nat × Nat)) : Nat := go xs [] 0 0
where
  /-- the bank words used in this cycle, the elements it has taken, and the cycles begun -/
  go : List (Nat × Nat) → List (Nat × Nat) → Nat → Nat → Nat
    | [], _, _, n => n
    | (c, off) :: t, used, k, n =>
      let word := (c, off / 8)
      if n = 0 ∨ e ≤ k ∨ used.any (fun u => u.1 == c && bankOf (8 * u.2) == bankOf off && u.2 != off / 8) then go t [word] 1 (n + 1)
      else go t (word :: used) (k + 1) n

/-! ### Counting networks -/

/-- The router, by die, row and column, of a network's layers 1 to 5 (R332). -/
def netEntryRouter (n : BitVec 4) : BitVec 1 × Nat × Nat := (0, n.toNat / 4, n.toNat % 4)

/-- The router of its layers 6 to 10, its counters, BASE and HWM (R332). -/
def netExitRouter (twoDie : Bool) (n : BitVec 4) : BitVec 1 × Nat × Nat :=
  if twoDie then (1, n.toNat / 4, 4 + n.toNat % 4) else netEntryRouter n

end Sys2Proof.Machine
end

