-- ==== Sys2Proof/Tests/Slice0.lean ====
section
/-!
SUPPORT. Tests: words printed in the manual, ill-formed terms that WellFormed refuses, results worked out in the manual's tables, and for
every statement that has hypotheses a state and operands that meet them.
-/

open Sys2Proof Sys2Proof.Machine

/-! ### Decoding: the manual's worked encodings -/

/-- Table scalar.9, Table scalar.10: loads, stores, compares, jumps, the tag forms and atomics. -/
theorem test_decode_scalar :
    (decodeScalar 0x4090E008).toOption = some (.ld 9 1 6 8) ∧ (decodeScalar 0x44E5A000).toOption = some (.st 14 11 2 0) ∧
    (decodeScalar 0x4632140A).toOption = some (.ldxP 3 4 5 2) ∧ (decodeScalar 0x06219010).toOption = some (.cmp 2 3 4 2) ∧
    (decodeScalar 0x307FFFFD).toOption = some (.bt 1 0x1FFFFD) ∧ (decodeScalar 0x360F8000).toOption = some (.jalr 0 31 0) ∧
    (decodeScalar 0x1E920000).toOption = some (.lui 9 0x20000) ∧ (decodeScalar 0x50E5801A).toOption = some (.stf 14 11 3) ∧
    (decodeScalar 0x52531C10).toOption = some (.amo 5 6 7 0 0 0 1 0) ∧ (decodeScalar 0x52531CE8).toOption = some (.amo 5 6 7 0 3 1 0 8) ∧
    (decodeScalar 0x56C00003).toOption = some (.takenum 12 3) ∧ (decodeScalar 0x02D4A804).toOption = some (.mulhn 13 9 10) ∧
    (decodeScalar 0x05450000).toOption = some (.clz 20 10) ∧ (decodeScalar 0x55184810).toOption = some (.cas 17 16 18 0 0 0 1) ∧
    (decodeScalar 0x07590085).toOption = some (.csel 21 18 0 2) ∧ (decodeScalar 0x4325E000).toOption = some (.ldP 18 11 6 0) ∧
    (decodeScalar 0x11000004).toOption = some (.addi 16 0 4) := by decide

/-- Table order.2: tag forms and atomics. -/
theorem test_decode_home :
    (decodeScalar 0x50650000).toOption = some (.ldf 6 10) ∧ (decodeScalar 0x5055001A).toOption = some (.stf 5 10 3) ∧
    (decodeScalar 0x520514E8).toOption = some (.amo 0 10 5 0 3 1 0 8) ∧
      (decodeScalar 0x52650012).toOption = some (.amo 6 10 0 0 0 0 1 2) := by decide

/-- Table ctrl.11, Table attn.8: vector control, blocks, engines and turns. -/
theorem test_decode_control :
    (decodeScalar 0x60D60000).toOption = some (.setvl 13 12) ∧ (decodeScalar 0x62000004).toOption = some (.vfetch 0 0 4) ∧
    (decodeScalar 0x63B00008).toOption = some (.vfetch 27 0 8) ∧ (decodeScalar 0x64348000).toOption = some (.sbind 3 9) ∧
    (decodeScalar 0x665A0010).toOption = some (.mma 5 20 1) ∧ (decodeScalar 0x67C00002).toOption = some (.mzero 28 0) ∧
    (decodeScalar 0x67CC0004).toOption = some (.mdrain 28 24 0 0) ∧ (decodeScalar 0x6A04A8C0).toOption = some (.turn 9 10 3) ∧
    (decodeScalar 0x6A54A890).toOption = some (.turnA 5 9 10 2) ∧ (decodeScalar 0x6A000160).toOption = some (.turnAll 5) ∧
    (decodeScalar 0x6A038002).toOption = some (.twait 7 0) := by decide

/-- Table ctrl.11, Table lath.4, Table region.9, Table strips.6: sessions, tasks, traps, networks and CSRs. -/
theorem test_decode_system :
    (decodeScalar 0x6C729801).toOption = some (.stepbuild 7 5 6) ∧ (decodeScalar 0x6E000051).toOption = some (.tdone 5) ∧
    (decodeScalar 0x6F900007).toOption = some (.lquery 25) ∧ (decodeScalar 0x70000050).toOption = some (.trap 5) ∧
    (decodeScalar 0x70000037).toOption = some (.cnclose 3) ∧ (decodeScalar 0x70048035).toOption = some (.cnsave 9 3) ∧
    (decodeScalar 0x70048036).toOption = some (.cnload 9 3) ∧ (decodeScalar 0x70000038).toOption = some (.cnopen 3) ∧
    (decodeScalar 0x72531012).toOption = some (.csrw 5 6 0x012) ∧ (decodeScalar 0x7207A012).toOption = some (.csrs 0 15 0x012) := by decide

/-- Table arith.10: arithmetic element words. -/
theorem test_decode_elements :
    (decodeElement 0x0486111A83800000).toOption = some (.vadc ⟨3, 1, 2, 6, 5, 0, 0, 7, 0, 0, 0⟩) ∧
    (decodeElement 0x0A04400001240000).toOption = some (.vcmp ⟨2, 4, 0, 0, 0, 0, 0, 2, 2, 4, 0⟩) ∧
    (decodeElement 0x0CC8101800090005).toOption = some (.vfma ⟨4, 1, 0, 6, 0, 0, 0, 0, 0, 9, 5⟩) ∧
    (decodeElement 0x10062000000000B8).toOption = some (.vcvt ⟨3, 2, 0, 0, 0, 0, 0, 0, 0, 0, 0xB8⟩) ∧
    (decodeElement 0x1386300000100000).toOption = some (.kshup ⟨3, 3, 0, 0, 0, 0, 0, 0, 1, 0, 0⟩) ∧
    (decodeElement 0x144E200000000000).toOption = some (.kpopc ⟨7, 2, 0, 0, 0, 0, 0, 0, 0, 0, 0⟩) ∧
    (decodeElement 0x160A40000C050000).toOption = some (.vredsum ⟨5, 4, 0, 0, 0, 0, 3, 0, 0, 5, 0⟩) ∧
    (decodeElement 0x1A0E600000000000).toOption = some (.vosm ⟨7, 6, 0, 0, 0, 0, 0, 0, 0, 0, 0⟩) := by decide

/-- Table mem.10, Table attn.8: element words of memory and movement, `vnop` and `stop`. -/
theorem test_decode_element_memory :
    (decodeElement 0x4002000001000009).toOption = some (.vld ⟨1, 0, 0, 0, 0, 0, 0, 2, 0, 0, 9⟩) ∧
    (decodeElement 0x420A00000100000B).toOption = some (.vst ⟨5, 0, 0, 0, 0, 0, 0, 2, 0, 0, 11⟩) ∧
    (decodeElement 0x428802800180000B).toOption = some (.vstx ⟨4, 0, 5, 0, 0, 0, 0, 3, 0, 0, 11⟩) ∧
    (decodeElement 0x4408310001900009).toOption = some (.vamo ⟨4, 3, 2, 0, 0, 0, 0, 3, 1, 0, 9⟩) ∧
    (decodeElement 0x445090100182000C).toOption = some (.vwait ⟨8, 9, 0, 4, 0, 0, 0, 3, 0, 2, 12⟩) ∧
    (decodeElement 0x460C500C01900014).toOption = some (.vxlate ⟨6, 5, 0, 3, 0, 0, 0, 3, 1, 0, 20⟩) ∧
    (decodeElement 0x4800110000000014).toOption = some (.kvput ⟨0, 1, 2, 0, 0, 0, 0, 0, 0, 0, 20⟩) ∧
    (decodeElement 0x4A52000401800000).toOption = some (.viota ⟨9, 0, 0, 1, 0, 0, 0, 3, 0, 0, 0⟩) ∧
    (decodeElement 0x4BDC500011040000).toOption = some (.vextract ⟨14, 5, 0, 0, 0, 0, 4, 2, 0, 4, 0⟩) ∧
    (decodeElement 0xFF80000000000000).toOption = some (.vnop ⟨0, 0, 0, 0, 0, 0, 0, 0, 0, 0, 0⟩) ∧
    (decodeElement 0xFFC0000000000000).toOption = some (.stop ⟨0, 0, 0, 0, 0, 0, 0, 0, 0, 0, 0⟩) := by decide

/-- Unassigned words are refused: an all-zero word (R71), a level of 6 in `turn`, a `csel` with bit 9 set. -/
theorem test_decode_refuses :
    (decodeScalar 0x00000000).toOption = none ∧ (decodeScalar (0x6A04A8C0 + 3 * 64)).toOption = none ∧
    (decodeScalar (0x07590085 + 0x200)).toOption = none ∧ (decodeElement 0xFFC0000000000001).toOption = none := by decide

/-- The encoder gives the printed words back. -/
theorem test_encode :
    encodeScalar (.ld 9 1 6 8) = 0x4090E008 ∧ encodeScalar (.bt 1 0x1FFFFD) = 0x307FFFFD ∧
      encodeScalar (.cas 17 16 18 0 0 0 1) = 0x55184810 ∧
    encodeElement (.vadc ⟨3, 1, 2, 6, 5, 0, 0, 7, 0, 0, 0⟩) = 0x0486111A83800000 := by decide

/-! ### One ill-formed term for each check of WellFormed -/

theorem test_ill_compare_condition : (Instr.cmp 1 2 3 6).wf = false := by decide
theorem test_ill_load_size : (Instr.ld 1 2 7 0).wf = false ∧ (Instr.ldP 1 2 7 0).wf = false := by decide
theorem test_ill_indexed_size : (Instr.ldx 1 2 3 7).wf = false ∧ (Instr.ldxP 1 2 3 7).wf = false := by decide
theorem test_ill_turn_level : (Instr.turnAll 6).wf = false ∧ (Instr.stf 1 2 7).wf = false ∧ (Instr.tdone 6).wf = false := by decide
theorem test_ill_operand_group : (Instr.mma 1 26 0).wf = false ∧ (Instr.dmovMx 1 22 0).wf = false ∧ (Instr.mconst 1 28 0 0).wf = false ∧
    (Instr.evread 31).wf = false := by decide
theorem test_ill_atomic : (Instr.amo 1 2 3 0 0 0 0 9).wf = false ∧ (Instr.amo 1 2 3 0 3 0 0 0).wf = false ∧
    (Instr.cas 1 2 3 0 6 1 0).wf = false := by decide
theorem test_ill_unassigned_word : (Instr.illegal 0).wf = false := by decide
theorem test_ill_vtest_condition : (Instr.vtest 1 2 3).wf = false := by decide
theorem test_ill_vget_register : (Instr.vget 1 3).wf = false := by decide
theorem test_ill_gang_width : (Instr.gang 0).wf = false ∧ (Instr.gang 3).wf = false := by decide
theorem test_ill_mconst_kind : (Instr.mconst 1 2 3 0).wf = false := by decide
theorem test_ill_cursor : (Instr.curset 1 2 3).wf = false ∧ (Instr.cursetW 1 2 3).wf = false := by decide
/-- Two-operand integer words: OPSEL 11, a vb beside an immediate, a scalar number beyond 31, a saturation bit on `vmulh`. -/
theorem test_ill_integer_element : (Instr.vadd ⟨1, 2, 3, 0, 0, 0, 0, 0, 0, 12, 0⟩).wf = false ∧
    (Instr.vadd ⟨1, 2, 3, 0, 0, 0, 0, 0, 0, 4, 7⟩).wf = false ∧ (Instr.vadd ⟨1, 2, 0, 0, 0, 0, 0, 0, 0, 8, 32⟩).wf = false ∧
    (Instr.vmulh ⟨1, 2, 3, 0, 0, 0, 0, 0, 1, 0, 0⟩).wf = false ∧ (Instr.vmac ⟨1, 2, 3, 4, 0, 0, 0, 0, 2, 0, 0⟩).wf = false := by decide
theorem test_ill_carry_mask : (Instr.vadc ⟨1, 2, 3, 8, 0, 0, 0, 0, 0, 0, 0⟩).wf = false := by decide
theorem test_ill_one_operand : (Instr.vabs ⟨1, 2, 3, 0, 0, 0, 0, 0, 0, 0, 0⟩).wf = false := by decide
/-- `vcmp`: a destination beyond k7, condition 110 in class I, condition 111, a floating class bit with an integer type. -/
theorem test_ill_compare_element : (Instr.vcmp ⟨8, 2, 3, 0, 0, 0, 0, 0, 0, 0, 0⟩).wf = false ∧
    (Instr.vcmp ⟨1, 2, 3, 0, 0, 0, 0, 0, 6, 0, 0⟩).wf = false ∧ (Instr.vcmp ⟨1, 2, 3, 0, 0, 0, 0, 0, 7, 1, 0⟩).wf = false ∧
    (Instr.vcmp ⟨1, 2, 3, 0, 0, 0, 0, 5, 0, 1, 0⟩).wf = false := by decide
theorem test_ill_classify : (Instr.vclass ⟨1, 2, 0, 0, 0, 0, 0, 0, 1, 0, 0⟩).wf = false := by decide
theorem test_ill_floating_element : (Instr.vfadd ⟨1, 2, 3, 0, 0, 0, 0, 5, 0, 0, 0⟩).wf = false ∧
    (Instr.vfadd ⟨1, 2, 3, 0, 0, 0, 0, 0, 5, 0, 0⟩).wf = false ∧ (Instr.vfma ⟨1, 2, 3, 4, 0, 0, 0, 6, 0, 0, 0⟩).wf = false ∧
    (Instr.vfsqrt ⟨1, 2, 3, 0, 0, 0, 0, 0, 0, 0, 0⟩).wf = false := by decide
theorem test_ill_exponential_type : (Instr.vfexp2 ⟨1, 2, 0, 0, 0, 0, 0, 1, 0, 0, 0⟩).wf = false := by decide
theorem test_ill_convert_type : (Instr.vcvt ⟨1, 2, 0, 0, 0, 0, 0, 0, 0, 0, 0x0D⟩).wf = false ∧
    (Instr.vcvt ⟨1, 2, 0, 0, 0, 0, 0, 0, 0, 0, 0xD0⟩).wf = false := by decide
theorem test_ill_mask_words : (Instr.kand ⟨1, 8, 2, 0, 0, 0, 0, 0, 0, 0, 0⟩).wf = false ∧
  (Instr.knot ⟨1, 2, 3, 0, 0, 0, 0, 0, 0, 0, 0⟩).wf = false ∧
    (Instr.kshdn ⟨1, 2, 0, 0, 0, 0, 0, 0, 1, 0, 0⟩).wf = false ∧ (Instr.kset ⟨1, 0, 0, 0, 0, 0, 0, 0, 0, 0, 0⟩).wf = false ∧
    (Instr.kpopc ⟨1, 9, 0, 0, 0, 0, 0, 0, 0, 0, 0⟩).wf = false := by decide
theorem test_ill_reduction : (Instr.vredsum ⟨1, 2, 3, 0, 0, 0, 0, 0, 1, 0, 0⟩).wf = false := by decide
theorem test_ill_merge_width : (Instr.vmerge ⟨1, 2, 3, 0, 0, 0, 0, 4, 0, 0, 0⟩).wf = false := by decide
theorem test_ill_soft_maximum : (Instr.vosm ⟨1, 2, 0, 0, 0, 0, 0, 1, 0, 0, 0⟩).wf = false := by decide
theorem test_ill_element_memory : (Instr.vld ⟨1, 0, 3, 0, 0, 0, 0, 2, 0, 0, 9⟩).wf = false ∧
  (Instr.vld ⟨1, 0, 0, 0, 0, 0, 0, 2, 0, 0, 32⟩).wf = false ∧
    (Instr.vlds ⟨1, 0, 0, 0, 0, 0, 0, 2, 0, 0, 1024⟩).wf = false := by decide
/-- `vamo`: an 8-bit word, operation 9, a level without `.rel`. -/
theorem test_ill_vector_atomic : (Instr.vamo ⟨1, 2, 3, 0, 0, 0, 0, 0, 0, 0, 0⟩).wf = false ∧
    (Instr.vamo ⟨1, 2, 3, 0, 0, 0, 0, 3, 0, 9, 0⟩).wf = false ∧ (Instr.vamo ⟨1, 2, 3, 0, 0, 0, 0, 3, 0, 0, 0x400⟩).wf = false := by decide
theorem test_ill_vwait : (Instr.vwait ⟨1, 2, 0, 8, 0, 0, 0, 3, 0, 0, 0⟩).wf = false := by decide
theorem test_ill_vxlate_group : (Instr.vxlate ⟨1, 2, 0, 0, 0, 0, 0, 3, 0, 0, 29⟩).wf = false := by decide
theorem test_ill_kvput_group : (Instr.kvput ⟨0, 1, 2, 0, 0, 0, 0, 0, 0, 0, 26⟩).wf = false := by decide
theorem test_ill_moves : (Instr.vbcast ⟨1, 2, 3, 0, 0, 0, 0, 0, 0, 0, 0⟩).wf = false ∧
  (Instr.viota ⟨1, 0, 0, 0, 0, 0, 0, 0, 1, 0, 0⟩).wf = false ∧
    (Instr.vperm ⟨1, 2, 3, 1, 0, 0, 0, 0, 0, 0, 0⟩).wf = false ∧ (Instr.vcompress ⟨1, 2, 3, 0, 0, 0, 0, 0, 0, 0, 0⟩).wf = false := by decide
theorem test_ill_bare_words : (Instr.vnop ⟨0, 0, 0, 0, 1, 0, 0, 0, 0, 0, 0⟩).wf = false ∧
  (Instr.stop ⟨0, 0, 0, 0, 0, 0, 1, 0, 0, 0, 0⟩).wf = false ∧
    (Instr.kvflush ⟨0, 1, 0, 0, 0, 0, 0, 0, 0, 0, 0⟩).wf = false := by decide
theorem test_ill_link : (Instr.linkFault 19 none).wf = false ∧ (Instr.spanLinkUp 18).wf = false := by decide
theorem test_ill_host_register : (Instr.hostRegisterWrite 0x200 1).wf = false := by decide
theorem test_ill_hint_opcode : (Instr.elementHint 12 0).wf = false := by decide

/-! ### Small states -/

namespace Sys2Proof.Tests

set_option Elab.async false

theorem ok_of {ε α : Type} {e : Except ε α} {x : α} (h : e.toOption = some x) : e = .ok x := by
  cases e <;> simp_all [Except.toOption]

/-- The state after reset with some scalar registers set. -/
def with_ (l : List (BitVec 5 × Word)) : State := State.reset.modR (fun r => l.foldl (fun r p => r.writeS p.1 p.2) r)
/-- A state whose selected hart has been changed. -/
def hart (f : Hart → Hart) (s : State) : State := s.modH f
/-- With a trap vector at 0x1000. -/
def vectored (s : State) : State := s.modH (fun h => { h with trapvec := 0x1000 })
/-- At user level. -/
def atUser (s : State) : State := s.modH (fun h => { h with cur := 0 })
/-- One block of words, the selected hart at its first. -/
def inBlock (ws : List (BitVec 64)) (s : State) : State :=
  s.modH (fun h => { h with blk := some { Block.one with words := ws, snapS := h.r.s, snapC1 := h.r.readC 1, snapVt := h.r.vtype } })

/-- With no other hart, the slots are in order. -/
theorem slots_alone (s : State) (h : s.others = []) : s.Slots := ⟨by rw [h]; rfl, by simp [h], by simp [h]⟩

/-- A state with no other hart, whose hart runs and has nothing due, is quiet. -/
theorem quiet_alone (s : State) (h0 : s.others = []) (h1 : s.h.st = .running) (h2 : s.due = []) (h3 : s.h.owed = [])
    (h4 : s.h.preempt = false) (h5 : s.h.stopDue = false) : s.Quiet :=
  ⟨slots_alone s h0, h1, fun _ => h2, h3, h4, h5⟩

/-- A hart of another core, stalled at `gang`. -/
def partner : Hart := { Hart.blank 8 with st := .running, wait := .gang 2, cur := 2 }

theorem slots_one (s : State) (i : Nat) (x : Hart) (h : s.others = [(i, x)]) (hi : x.id.toNat = i) (hf : x.st ≠ .free) (hn : i ≠ s.h.id.toNat) :
    s.Slots := by
  refine ⟨by rw [h]; simp [risingFrom], ?_, ?_⟩ <;> intro p hp <;> rw [h] at hp <;> simp at hp <;> subst hp
  · exact ⟨hi, hf⟩
  · exact hn

/-- The leader of a gang of two, and its member. -/
def leading : State :=
  { hart (fun h => { h with gang := some { width := 2, member := 0, ids := [0, 8], started := false } }) State.reset with others := [(8, partner)] }

/-! ### Witnesses: states and operands that meet each statement's hypotheses -/

theorem witness_quiet : State.reset.Quiet := quiet_alone _ rfl rfl rfl rfl rfl rfl

theorem witness_canonical_kept : ∃ s t : State, s.Canonical ∧ step s = .next t :=
  ⟨{ State.reset with agenda := [.event (.regiontab 0x1000)] }, _, ⟨rfl, rfl, rfl⟩, rfl⟩

theorem witness_slots_kept : ∃ s t : State, s.Slots ∧ step s = .next t :=
  ⟨{ State.reset with agenda := [.event (.regiontab 0x1000)] }, _, slots_alone _ rfl, rfl⟩

/-- The hart of the agenda runs a decoded word, and a word that decodes to nothing. -/
theorem witness_step_scalar (w : Nat) (hw : w = 0x11000004 ∨ w = 0) : ∃ (s : State) (x : Xlat), s.stopped = false ∧ s.agenda = [.hart 0] ∧
    let u := s.begun (.hart 0) []
    let v := u.asActor 0
    u.Acts 0 ∧ v.h.isEnding = false ∧ v.drains = false ∧ v.h.blk = none ∧ v.h.eix = 0 ∧ v.h.pc.toNat % 4 = 0 ∧
    v.translate v.h v.h.pc .fetch = .ok x ∧ (v.settle v.h.id x.loc 4).loadBytes v.h.unbuffered x.loc 4 = .ok w := by
  refine ⟨State.reset.withFetchWord 32 w, ⟨0, 3, 0⟩, ?_⟩
  rcases hw with h | h <;> rw [h] <;> exact ⟨rfl, rfl, ⟨rfl, rfl⟩, rfl, rfl, rfl, rfl, rfl, rfl, rfl⟩

/-- A resumed long instruction, and another instruction with a progress index. -/
theorem witness_step_resumed (w : Nat) (i : Instr) (hw : w = 0x6A04A8C0 ∧ i = .turn 9 10 3 ∨ w = 0x11000004 ∧ i = .addi 16 0 4) :
    ∃ s : State, s.stopped = false ∧ s.agenda = [.hart 0] ∧
    let u := s.begun (.hart 0) []
    let v := u.asActor 0
    u.Acts 0 ∧ v.h.isEnding = false ∧ v.drains = false ∧ v.h.blk = none ∧ v.fetchScalar = .ok i ∧ v.h.eix ≠ 0 ∧
    isLong i = decide (i = .turn 9 10 3) := by
  refine ⟨hart (fun h => { h with eix := 1 }) (State.reset.withFetchWord 32 w), ?_⟩
  rcases hw with ⟨h, g⟩ | ⟨h, g⟩ <;> rw [h, g] <;> exact ⟨rfl, rfl, ⟨rfl, rfl⟩, rfl, rfl, rfl, rfl, by decide, by decide⟩

/-- A word of a block; with the block in the queues and an instruction behind it that waits (an element word's turn of its own the same),
where the block has a word left and where it has none; a hart that only ends, and one that stands still. -/
theorem witness_step_words :
    (let s := State.reset.withFetchWord 64 0xFF80000000000000
     let u := s.begun (.hart 0) []
     let v := u.asActor 0
     s.stopped = false ∧ s.agenda = [.hart 0] ∧ u.Acts 0 ∧ v.h.isEnding = false ∧ v.h.queue = [] ∧
       ∃ b, v.h.blk = some b ∧ b.words[b.word]? = some 0xFF80000000000000 ∧
         decodeElement 0xFF80000000000000 = .ok (.vnop ⟨0, 0, 0, 0, 0, 0, 0, 0, 0, 0, 0⟩)) ∧
    (let b : Block := { Block.one with words := [0xFF80000000000000, stopWord] }
     let s := fun (a : Agent) (k : Nat) => ({ hart (fun h => { h with queue := [{ b with word := k }] }) (State.reset.withFetchWord 32 0x6A04A8C0) with
       agenda := [a] } : State)
     let u := fun (a : Agent) (k : Nat) => (s a k).begun a []
     (u (.hart 0) 0).Acts 0 ∧ ((u (.hart 0) 0).asActor 0).drains = true ∧ ((u (.hart 0) 0).asActor 0).h.isEnding = false ∧
       ((u (.hart 0) 0).asActor 0).h.queue = [{ b with word := 0 }] ∧ ({ b with word := 0 } : Block).atStop = false ∧
       ({ b with word := 0 } : Block).words[0]? = some 0xFF80000000000000 ∧
     (u (.words 0) 1).Acts 0 ∧ ((u (.words 0) 1).asActor 0).h.queue = [{ b with word := 1 }] ∧
       ({ b with word := 1 } : Block).atStop = true) ∧
    (let u := (hart (fun h => { h with origin := .ending 0 0 }) State.reset).begun (.hart 0) []
     u.Acts 0 ∧ (u.asActor 0).h.origin = .ending 0 0) ∧
    ¬ ((hart (fun h => { h with st := .ready }) { State.reset with others := [(1, { Hart.blank 1 with st := .running })] }).begun (.hart 0) []).Acts 0 :=
  ⟨⟨rfl, rfl, ⟨rfl, rfl⟩, rfl, rfl, _, rfl, rfl, rfl⟩, ⟨⟨rfl, rfl⟩, rfl, rfl, rfl, rfl, rfl, ⟨rfl, rfl⟩, rfl, rfl⟩, ⟨⟨rfl, rfl⟩, rfl⟩,
    fun h => absurd h.runs (by decide)⟩

/-- An event, an empty agenda on which something can act, a stopped package, also one that is powered on, and no `vamo` in pass 2. -/
theorem witness_step_others :
    (({ State.reset with agenda := [.event .powerOn] } : State).agenda = .event .powerOn :: []) ∧
    (State.reset.agenda = [] ∧ ({ State.reset with clock := 1 } : State).pending = some (.hart 0)) ∧
    (({ State.reset with stopped := true } : State).stopped = true ∧
      ({ State.reset with stopped := true } : State).agenda.head? ≠ some (.event .powerOn)) ∧
    (∀ h ∈ State.reset.harts, h.amo = none) :=
  ⟨rfl, ⟨rfl, rfl⟩, ⟨rfl, by intro h; cases h⟩, by decide⟩

/-- A `vamo` under k0 at the address of s9. -/
def anAmo : EWord := ⟨4, 3, 2, 0, 0, 0, 0, 3, 1, 0, 9⟩

/-- Parts: an instruction that closes the open strip first and one that does not; with the strip closed a release turn, a `vamo` and a
`tspawn`; a FREE slot. A load ahead of earlier accesses, a block passed, a sector of Trowel's, one of a doorbell's and one of a promotion. -/
theorem witness_step_parts :
    (let u := fun (w : Nat) => ({ State.reset.withFetchWord 32 w with agenda := [.part 0] } : State).begun (.part 0) []
     (u 0x6A04A8C0).hart? 0 = some (u 0x6A04A8C0).h ∧ ((u 0x6A04A8C0).select 0).mayAct ((u 0x6A04A8C0).select 0).h = true ∧
     ((u 0x6A04A8C0).select 0).writesHeld 0 = false ∧
     ((u 0x6A04A8C0).select 0).nextWord = some (.turn 9 10 3) ∧ closesFirst (.turn 9 10 3) = true ∧ (u 0x6A04A8C0).h.stripOpen = true ∧
     ((u 0x11000004).select 0).nextWord = some (.addi 16 0 4) ∧ closesFirst (.addi 16 0 4) = false) ∧
    (let u := fun (n w : Nat) => (hart (fun h => { h with stripOpen := false })
       { State.reset.withFetchWord n w with agenda := [.part 0] }).begun (.part 0) []
     ((u 32 0x6E000051).select 0).mayAct ((u 32 0x6E000051).select 0).h = true ∧ ((u 32 0x6E000051).select 0).nextWord = some (.tdone 5) ∧ (u 32 0x6E000051).h.stripOpen = false ∧
       ((u 32 0x6E000051).select 0).releaseLevel (.tdone 5) = some 5 ∧
     ((u 32 (encodeScalar (.tspawn 9)).toNat).select 0).nextWord = some (.tspawn 9) ∧
     ((u 64 (encodeElement (.vamo anAmo)).toNat).select 0).nextWord = some (.vamo anAmo)) ∧
    (State.reset.begun (.part 1) []).hart? 1 = none ∧
    (let s := fun (a : Agent) => ({ State.reset with agenda := [a] } : State)
     let u := (s (.early 0 0x40 8)).begun (.early 0 0x40 8) []
     (s (.part 0)).agenda = [.part 0] ∧ (s (.early 0 0x40 8)).agenda = [.early 0 0x40 8] ∧ (u.hart? 0).isSome = true ∧
     (u.select 0).writesHeld 0 = false ∧ (s (.sector 0)).agenda = [.sector 0] ∧ (s (.bell 0 0)).agenda = [.bell 0 0] ∧
     (s (.promo 1)).agenda = [.promo 1] ∧
     (let v := (s (.ahead 0)).begun (.ahead 0) []
      (v.hart? 0).isSome = true ∧ (v.select 0).mayAct (v.select 0).h = true)) :=
  ⟨⟨rfl, rfl, rfl, rfl, rfl, rfl, rfl, rfl⟩, ⟨rfl, rfl, rfl, rfl, rfl, rfl⟩, rfl, rfl, rfl, rfl, rfl, rfl, rfl, rfl, rfl, rfl⟩

theorem witness_round_trip :
    ((Instr.dmovMx 31 21 5).wf = true ∧ (scalarNumber (.dmovMx 31 21 5)).isSome = true) ∧
    ((Instr.vlds ⟨31, 0, 0, 0, 7, 1, 7, 3, 0, 0, 1023⟩).wf = true ∧
      (elementNumber (.vlds ⟨31, 0, 0, 0, 7, 1, 7, 3, 0, 0, 1023⟩)).isSome = true) := by
  decide

theorem witness_decode_injective :
    (decodeScalar 0x11000004).toOption = some (.addi 16 0 4) ∧
    (decodeElement 0xFFC0000000000000).toOption = some (.stop ⟨0, 0, 0, 0, 0, 0, 0, 0, 0, 0, 0⟩) := by decide

/-- Divisors: zero, the overflowing pair, and two others. -/
theorem witness_scalar_arithmetic :
    ((with_ [(1, 7)]).h.r.readS 2 = 0) ∧
    ((with_ [(1, 0x8000000000000000), (2, 0xFFFFFFFFFFFFFFFF)]).h.r.readS 1 = 0x8000000000000000 ∧
      (with_ [(1, 0x8000000000000000), (2, 0xFFFFFFFFFFFFFFFF)]).h.r.readS 2 = 0xFFFFFFFFFFFFFFFF) ∧
    ((with_ [(1, 0x8000000000000000), (2, 1)]).h.r.readS 2 ≠ 0 ∧ (with_ [(1, 7), (2, 0xFFFFFFFFFFFFFFFE)]).h.r.readS 2 ≠ 0) := by decide

/-- A condition bit that is true, and one that is false. -/
theorem witness_conditions : State.reset.h.r.readC 0 = true ∧ State.reset.h.r.readC 1 = false ∧ (5 : BitVec 3).toNat < 6 := by decide

/-- A jump to a multiple of 4, and to another address. -/
theorem witness_branches :
    (BitVec.ofInt 64 (((with_ [(1, 0x1004)]).h.r.readS 1).toInt + (0x7FFC : BitVec 15).toInt)).toNat % 4 = 0 ∧
    (BitVec.ofInt 64 (((with_ [(1, 0x1004)]).h.r.readS 1).toInt + (1 : BitVec 15).toInt)).toNat % 4 ≠ 0 := by decide

/-! #### Loads, stores and traps -/

/-- A pending sector at 0x40, and a poisoned one at 0x60. -/
def rough (l : List (BitVec 5 × Word)) : State := { with_ l with turn := [(2, mkEntry 6 0 0)], poison := [{ sector := 3, parts := [] }] }
/-- Nothing maps until a range entry can be read, and the sector of the first is pending. -/
def blind (l : List (BitVec 5 × Word)) : State :=
  { with_ l with regions := [(0, { RegionCtx.boot with locked := [] })], turn := [(0, mkEntry 6 0 0)] }

/-- The page tables are in host memory, and no port's link is up. -/
def farTables (l : List (BitVec 5 × Word)) : State :=
  { with_ l with regions := [(0, { RegionCtx.boot with ptroot := 0x8000000000000 })],
                 host := { HostRegs.reset with linkUp := Vector.replicate 2 false } }
/-- The page-table entry of 2^52 there. -/
def farEntry : Missing := { entry := 0x8000000010000, loc := 0x8000000010000, page := true }

/-- A load at size 0 and at size 6, forwarded from the buffer and performed early; a probe that reads, finds an unturned sector, a poisoned
one, a misaligned address, no mapping, or a mapping it cannot read. -/
theorem witness_loads :
    (let s := with_ [(1, 0x3C), (2, 4)]
     let u := fun (va n : Nat) => (s.accessed 0 va n).settle s.h.id va n
     (Instr.ld 5 1 0 0xFFF).wf = true ∧ (0x3B : Word) = s.h.r.readS 1 + (0xFFF : BitVec 12).signExtend 64 ∧
     s.translate s.h 0x3B .read = .ok ⟨0x3B, 3, 0x3B⟩ ∧ (u 0x3B 1).loadValue (u 0x3B 1).h 0x3B 1 0 = .ok 0 ∧
     (Instr.ldx 5 1 2 6).wf = true ∧ (0x40 : Word) = s.h.r.readS 1 + s.h.r.readS 2 ∧ (0x40 : Word).toNat % 4 = 0 ∧
     s.translate s.h 0x40 .read = .ok ⟨0x40, 3, 0x40⟩ ∧ (u 0x40 4).loadValue (u 0x40 4).h 0x40 4 0 = .ok 0 ∧
     s.h.early.find? (fun e => e.loc == 0x40 && e.n == 4) = none ∧ s.flight = [] ∧ s.h.gang = none) ∧
    (let s := hart (fun h => { h with buf := [(0x43, 1)] }) State.reset
     s.buffers s.h 0x40 4 = true ∧ s.loadValue s.h 0x40 4 0 = .ok 0x1000000) ∧
    (let s := hart (fun h => { h with early := [⟨0x40, 4, some 9, 0⟩] }) State.reset
     s.buffers s.h 0x40 4 = false ∧
     s.h.early.find? (fun e => e.loc == 0x40 && e.n == 4) = some ⟨0x40, 4, some 9, 0⟩ ∧ s.loadValue s.h 0x40 4 0 = .ok 9) ∧
    (let s := rough [(1, 0x40), (2, 0x60)]
     let u := fun (va n : Nat) => (s.accessed 0 va n).settle s.h.id va n
     (Instr.ldP 5 1 3 0).wf = true ∧ s.translate s.h 0x40 .read = .ok ⟨0x40, 3, 0x40⟩ ∧
     (u 0x40 8).loadValue (u 0x40 8).h 0x40 8 0 = .error causeUnturned ∧ s.translate s.h 0x60 .read = .ok ⟨0x60, 3, 0x60⟩ ∧
     (u 0x60 8).loadValue (u 0x60 8).h 0x60 8 0 = .error causeProt ∧ causeProt ≠ causeUnturned ∧
     (s.h.r.readS 1 + (4 : BitVec 12).signExtend 64).toNat % 8 ≠ 0 ∧
     s.translate s.h 0x10000000000000 .read = .error (causeProt, []) ∧ (causeProt, ([] : List Missing)).1 ≠ causeUnturned) ∧
    (let s := blind [(1, 0x40)]
     s.translate s.h (s.h.r.readS 1) .read = .error (causeUnturned, [])) :=
  ⟨⟨rfl, rfl, rfl, rfl, rfl, rfl, rfl, rfl, rfl, rfl, rfl, rfl⟩, ⟨rfl, rfl⟩, ⟨rfl, rfl, rfl⟩,
    ⟨rfl, rfl, rfl, rfl, rfl, by decide, by decide, rfl, by decide⟩, rfl⟩

/-- A store into an empty buffer, into a word the buffer holds, and within the budget; a gang's slots. -/
theorem witness_stores :
    (let s := with_ [(1, 0x40)]
     (s.h.r.readS 1 + (0 : BitVec 12).signExtend 64).toNat % 8 = 0 ∧ s.translate s.h 0x40 .write = .ok ⟨0x40, 3, 0x40⟩ ∧ s.h.buf = []) ∧
    (let s := hart (fun h => { h with buf := [(0x47, 1)] }) (with_ [(1, 0x40)])
     (∀ k < 8, (bufWords s.h.buf).contains ((0x40 + k) / 8) = true) ∧ s.h.used + 8 * newWords s.h.buf (spread 0x48 8 0) ≤ s.h.limit) ∧
    (let s := hart (fun h => { h with gang := some { width := 2, member := 0, ids := [0, 8], started := false } }) State.reset
     s.h.gang ≠ none ∧ s.Slots) := by
  refine ⟨⟨rfl, rfl, rfl⟩, ⟨by decide, by decide⟩, by decide, slots_alone _ rfl⟩

/-- Misaligned, unmapped, unreadable and poisoned accesses by offset and by index, a host read whose port is down, of data and of a
page-table entry, and a store beyond an expert budget. -/
theorem witness_access_traps :
    (let s := rough [(1, 0x41), (2, 0x10000000000000), (3, 0x40), (4, 0x60)]
     (s.h.r.readS 1 + (0 : BitVec 12).signExtend 64).toNat % 8 ≠ 0 ∧ (s.h.r.readS 1 + s.h.r.readS 3).toNat % 8 ≠ 0 ∧
     s.translate s.h (s.h.r.readS 2) .read = .error (causeProt, []) ∧
     s.translate s.h (s.h.r.readS 2 + s.h.r.readS 3) .read = .error (causeProt, []) ∧
     s.translate s.h (s.h.r.readS 2) .write = .error (causeProt, []) ∧
     s.translate s.h (s.h.r.readS 3) .read = .ok ⟨0x40, 3, 0x40⟩ ∧
     ((s.accessed 0 0x40 8).settle s.h.id 0x40 8).loadValue ((s.accessed 0 0x40 8).settle s.h.id 0x40 8).h 0x40 8 0 =
       .error causeUnturned ∧ isHost 0x40 = false) ∧
    (let s : State := { State.reset with host := { HostRegs.reset with linkUp := Vector.replicate 2 false } }
     s.translate s.h 0x8000000000000 .read = .ok ⟨0x8000000000000, 5, 0x8000000000000⟩ ∧
     s.loadValue s.h 0x8000000000000 8 0 = .error causeProt ∧ isHost 0x8000000000000 = true) ∧
    (let s := farTables [(1, 0x10000000000000)]
     s.translate s.h (s.h.r.readS 1) .read = .error (causeProt, [farEntry]) ∧
     s.translate s.h (s.h.r.readS 1) .write = .error (causeProt, [farEntry])) ∧
    (let s := hart (fun h => { h with buf := [(0x47, 1)], expert := true, budget := 8 }) (with_ [(1, 0x48)])
     s.translate s.h 0x48 .write = .ok ⟨0x48, 3, 0x48⟩ ∧ s.h.buf ≠ [] ∧
     (∀ k < 8, (bufWords s.h.buf).contains ((0x48 + k) / 8) = false) ∧
     s.h.limit < s.h.used + 8 * newWords s.h.buf (spread 0x48 8 0)) := by
  refine ⟨⟨by decide, by decide, rfl, rfl, rfl, rfl, rfl, rfl⟩, ⟨rfl, rfl, rfl⟩, ⟨rfl, rfl⟩, rfl, by decide, by decide, by decide⟩

/-- The same for operations at the home. -/
theorem witness_home_traps :
    (let s := rough [(1, 0x41), (2, 0x10000000000000), (3, 0x40), (4, 0x60), (5, 0x8000000000000)]
     let c := s.closed
     s.Quiet ∧ (s.h.r.readS 1).toNat % 8 ≠ 0 ∧ (s.h.r.readS 1).toNat % 4 ≠ 0 ∧
     c.translate c.h (s.h.r.readS 2) .feRead = .error (causeProt, []) ∧
     c.translate c.h (s.h.r.readS 3) .feRead = .ok ⟨0x40, 3, 0x40⟩ ∧ c.poisoned (sectorOf 0x40) = false ∧
       entryState (c.entry (sectorOf 0x40)) = 6 ∧
     c.translate c.h (s.h.r.readS 4) .atomic = .ok ⟨0x60, 3, 0x60⟩ ∧ c.poisoned (sectorOf 0x60) = true ∧
     (c.turnAllNow 5).poisoned (sectorOf 0x60) = true ∧ entryState ((c.turnAllNow 5).entry (sectorOf 0x40)) = 6 ∧
     c.translate c.h (s.h.r.readS 5) .feRead = .ok ⟨0x8000000000000, 5, 0x8000000000000⟩) ∧
    (let s := farTables [(1, 0x10000000000000)]
     s.Quiet ∧ s.closed.translate s.closed.h (s.h.r.readS 1) .feRead = .error (causeProt, [farEntry]) ∧
     s.closed.translate s.closed.h (s.h.r.readS 1) .atomic = .error (causeProt, [farEntry])) ∧
    (let s : State := { with_ [(3, 0x40)] with turn := [(2, mkEntry 2 0 0)] }
     s.closed.translate s.closed.h (s.h.r.readS 3) .feRead = .ok ⟨0x40, 3, 0x40⟩ ∧ entryState (s.closed.entry (sectorOf 0x40)) < 3) := by
  refine ⟨⟨quiet_alone _ rfl rfl rfl rfl rfl rfl, by decide, by decide, rfl, rfl, rfl, rfl, rfl, rfl, rfl, rfl, rfl⟩,
    ⟨quiet_alone _ rfl rfl rfl rfl rfl rfl, rfl, rfl⟩, rfl, by decide⟩

/-- A vector that is set on a hart that stays, and none. -/
theorem witness_trap_entry :
    ((vectored State.reset).Slots ∧ (vectored State.reset).h.Steady) ∧
    (State.reset.Slots ∧ nbits State.reset.h.trapvec.toNat 2 62 = 0 ∧ State.reset.h.origin = .none ∧ State.reset.h.gang = none ∧
      State.reset.h.tracectl = 0 ∧ State.reset.others = []) :=
  ⟨⟨slots_alone _ rfl, by decide, rfl, rfl⟩, slots_alone _ rfl, rfl, rfl, rfl, rfl, rfl⟩

/-- An open strip, alone and of a gang with a member; causes that go to the vector, and the two that park. -/
theorem witness_abort :
    State.reset.h.stripOpen = true ∧ State.reset.Slots ∧ State.reset.h.trace = false ∧ State.reset.h.gang = none ∧
    (leading.h.stripOpen = true ∧ leading.Slots ∧ 8 ∈ leading.h.members ∧ leading.hart? 8 = some partner) ∧
    (trapOf causeMisalign 1).code ≠ waitNoPath ∧ (trapOf causeMisalign 1).code ≠ causePage ∧ (trapOf causeMisalign 1).code ≠ causeKvmiss ∧
    (trapOf causePage 1).code ≠ waitNoPath :=
  ⟨rfl, slots_alone _ rfl, rfl, rfl, ⟨rfl, slots_one _ _ _ rfl rfl (by decide) (by decide), by decide, rfl⟩, by decide, by decide, by decide, by decide⟩

/-- A strip with a buffered byte that nothing else sends, closing. -/
theorem witness_strip_boundaries :
    let s := hart (fun h => { h with buf := [(0x40, 7)] }) State.reset
    s.Quiet ∧ s.Canonical ∧ s.h.stripOpen = true ∧ risingFrom 0 s.h.buf = true ∧ (0x40, 7) ∈ s.h.buf ∧ 0x40 ∉ s.h.stale ∧
      s.h.members = [] ∧ s.Slots :=
  ⟨quiet_alone _ rfl rfl rfl rfl rfl rfl, ⟨rfl, rfl, rfl⟩, rfl, rfl, by decide, by decide, rfl, slots_alone _ rfl⟩

/-- A single run and the repeats of a block at its `stop`. -/
theorem witness_stop (rep reps : Nat) (h : rep = 0 ∧ reps = 1 ∨ rep = 0 ∧ reps = 2 ∨ rep = 1 ∧ reps = 2) : ∃ (s : State) (b : Block),
    s.h.blk = some b ∧ s.h.slices = [] ∧ b.atStop = true ∧ b.rep = rep ∧ b.reps = reps ∧ s.Quiet ∧ s.h.stripOpen = true ∧
      (b.rep + 1 < b.reps ∨ b.rep + 1 = b.reps) := by
  refine ⟨hart (fun h => { h with blk := some { Block.one with words := [stopWord], rep := rep, reps := reps } }) State.reset, _, rfl, ?_⟩
  rcases h with ⟨a, b⟩ | ⟨a, b⟩ | ⟨a, b⟩ <;> subst a <;> subst b <;>
    exact ⟨rfl, by decide, rfl, rfl, quiet_alone _ rfl rfl rfl rfl rfl rfl, rfl, by decide⟩

/-- A block that the scalar core may pass, with room in the queues and with none. -/
theorem witness_ahead (n : Nat) (h : n = 7 ∨ n = 8) : ∃ (s : State) (b : Block), s.h.blk = some b ∧ s.h.slices = [] ∧ b.ahead = true ∧
    s.storesFit b.left = true ∧ s.h.queue.length = n := by
  refine ⟨hart (fun h => { h with queue := List.replicate n Block.one, blk := some { Block.one with words := [0xFF80000000000000, stopWord] } })
    State.reset, _, rfl, ?_⟩
  rcases h with h | h <;> subst h <;> exact ⟨rfl, by decide, by decide, rfl⟩

/-- A block with a `vwait`, one with a store that the budget does not hold, and a load and an addition behind a queued block. -/
theorem witness_passing :
    ({ Block.one with words := [encodeElement (.vwait ⟨8, 9, 0, 4, 0, 0, 0, 3, 0, 2, 12⟩), stopWord] } : Block).ahead = false ∧
    (hart (fun h => { h with expert := true, budget := 8, r := { h.r with vl := 2 } }) State.reset).storesFit
      ({ Block.one with words := [encodeElement (.vst ⟨5, 0, 0, 0, 0, 0, 0, 2, 0, 0, 11⟩), stopWord] } : Block).left = false ∧
    (∀ w : Nat, (w = 0x4090E008 ∨ w = 0x11000004) →
      let s := hart (fun h => { h with queue := [{ Block.one with words := [0xFF80000000000000, stopWord] }] }) (State.reset.withFetchWord 32 w)
      s.h.queue ≠ [] ∧ s.h.blk = none ∧ s.fetchScalar = .ok (if w = 0x4090E008 then .ld 9 1 6 8 else .addi 16 0 4)) := by
  refine ⟨by decide, by decide, ?_⟩
  intro w h
  rcases h with h | h <;> subst h <;> exact ⟨by decide, rfl, rfl⟩

/-! #### Operations at the home -/

/-- The last word of the first sector beyond 0x40, full. -/
def word (l : List (BitVec 5 × Word)) : State := { with_ l with full := [11] }

/-- A full word, for each access, and after a turn. -/
theorem witness_home (acc : Access) (h : acc = .feRead ∨ acc = .feWrite ∨ acc = .feBoth ∨ acc = .atomic) :
    let s := word [(1, 0x58)]
    s.Quiet ∧ s.closed.HomeAt (s.h.r.readS 1) 8 acc ⟨0x58, 3, 0x58⟩ s.closed ∧
    s.closed.HomeAt (s.h.r.readS 1) 8 acc ⟨0x58, 3, 0x58⟩ (s.closed.turnAllNow 5) ∧
    decide (0x58 / 8 ∈ s.closed.full) = true ∧ s.closed.waiters = [] := by
  refine ⟨quiet_alone _ rfl rfl rfl rfl rfl rfl, ?_, ?_, rfl, rfl⟩ <;> rcases h with h | h | h | h <;> subst h <;>
    exact ⟨rfl, rfl, by decide, rfl, rfl, .inl rfl⟩

/-- Room in the logs of the harts that a `stf` releases, and none in that of a recording one. -/
theorem witness_home_room :
    (let a := (((word [(1, 0x58)]).closed.turnAllNow 5).acting 0x58 8 ⟨0x58, 3, 0x58⟩)
     a.logsRoom (a.h :: (a.freedBy 0x58).filterMap a.hart?) = true) ∧
    (let o : Hart := { partner with st := .parked, wait := .word 0x58 3 false 0, replay := 1 }
     let s : State := { with_ [(1, 0x58)] with mem := [(8, 1)], others := [(8, o)], waiters := [(0x58, 8)] }
     let d := s.closed.turnAllNow 5
     let a := d.acting 0x58 8 ⟨0x58, 3, 0x58⟩
     s.Quiet ∧ s.closed.HomeAt (s.h.r.readS 1) 8 .feWrite ⟨0x58, 3, 0x58⟩ d ∧
       a.logsRoom (a.h :: (a.freedBy 0x58).filterMap a.hart?) = false) := by
  refine ⟨by decide +kernel, ⟨slots_one _ _ _ rfl rfl (by decide) (by decide), rfl, fun _ => rfl, rfl, rfl, rfl⟩,
    ⟨rfl, rfl, by decide, rfl, rfl, .inl rfl⟩, by decide +kernel⟩

/-- An empty word on a core whose other slot is FREE. -/
theorem witness_empty_word :
    let s := word [(1, 0x60)]
    s.Quiet ∧ (∀ m ∈ s.h.gangIds, ∀ o, s.hart? (otherSlot m) = some o → o.st ≠ .ready) ∧ 0x60 / 8 ∉ s.closed.full ∧
    s.closed.HomeAt (s.h.r.readS 1) 8 .feRead ⟨0x60, 3, 0x60⟩ s.closed ∧
      s.closed.HomeAt (s.h.r.readS 1) 8 .feBoth ⟨0x60, 3, 0x60⟩ s.closed :=
  ⟨quiet_alone _ rfl rfl rfl rfl rfl rfl, by decide, by decide, ⟨rfl, rfl, by decide, rfl, rfl, .inl rfl⟩,
    ⟨rfl, rfl, by decide, rfl, rfl, .inl rfl⟩⟩

theorem witness_home_actions : State.reset.Canonical ∧ (⟨0x58, 0, 0x58⟩ : Xlat).level ≤ 4 ∧ (⟨0x58, 4, 0x58⟩ : Xlat).level ≤ 4 :=
  ⟨⟨rfl, rfl, rfl⟩, by decide, by decide⟩

/-- A 32-bit atomic with a release turn, and a 64-bit one without; an expected value that is met and one that is not. -/
theorem witness_atomics :
    let s := with_ [(1, 0x5C), (2, 1), (3, 0x58)]
    s.Quiet ∧ (Instr.amo 2 1 4 1 5 1 1 8).wf = true ∧ (Instr.amo 2 3 4 0 0 0 0 0).wf = true ∧
    s.closed.HomeAt (s.h.r.readS 1) 4 .atomic ⟨0x5C, 3, 0x5C⟩ (s.closed.turnAllNow 5) ∧
    s.closed.HomeAt (s.h.r.readS 3) 8 .atomic ⟨0x58, 3, 0x58⟩ s.closed ∧
    (BitVec.ofNat 64 (s.closed.homeNat 0x58 8) = (s.h.r.readS 0).setWidth 64) ∧
      (BitVec.ofNat 64 (s.closed.homeNat 0x58 8) ≠ (s.h.r.readS 2).setWidth 64) :=
  ⟨quiet_alone _ rfl rfl rfl rfl rfl rfl, rfl, rfl, ⟨rfl, rfl, by decide, rfl, rfl, .inl rfl⟩, ⟨rfl, rfl, by decide, rfl, rfl, .inl rfl⟩, rfl,
    by decide⟩

/-- An open and a closed network, a recording region with room, a token that stands at an exit and one that does not, and a counter
at its last value. -/
theorem witness_network_draw :
    (State.reset.Quiet ∧ State.reset.closed.h.replay = 0 ∧ (State.reset.closed.net 0).closed = true ∧
      (({ State.reset with nets := State.reset.nets.set 0 { Net.reset with closed := false } } : State).closed.net 0).closed = false) ∧
    (let s := hart (fun h => { h with replay := 1 }) State.reset
     s.Quiet ∧ s.closed.h.replay = 1 ∧ s.closed.logRoom s.h.region 1 = true) ∧
    (let n : Net := { Net.reset with closed := false, tokens := [{ hart := 0, rd := 5, entry := 15, wire := 15, layer := 0 }] }
     let s := { State.reset with nets := State.reset.nets.set 3 n }
     s.Slots ∧ (((s.net 3).travel 0 10).2.map (fun p => p.1.hart)) = some s.h.id ∧ ((s.net 3).travel 0 9).2 = none ∧ s.h.st ≠ .free ∧
       s.h.preempt = false ∧ s.h.stopDue = false ∧ s.h.replay ≠ 1) ∧
    ({ hart := 0, rd := 5, entry := 15, wire := 15, layer := 0 } : Token).wire < 16 ∧
    ({ Net.reset with cnt := Vector.replicate 16 (BitVec.allOnes 48) } : Net).cnt[15] = BitVec.allOnes 48 ∧
    Net.reset.cnt[0] ≠ BitVec.allOnes 48 :=
  ⟨⟨quiet_alone _ rfl rfl rfl rfl rfl rfl, rfl, rfl, rfl⟩, ⟨quiet_alone _ rfl rfl rfl rfl rfl rfl, rfl, by decide +kernel⟩,
    ⟨slots_alone _ rfl, by decide +kernel, by decide +kernel, by decide, rfl, rfl, by decide⟩, by decide, by decide, by decide⟩

/-! #### Vector control, streams, blocks and gangs -/

/-- A hart before its `setvl`, and one whose strip rolled back to it. -/
theorem witness_vector_control :
    (State.reset.Quiet ∧ State.reset.h.rerun = false ∧ State.reset.h.stripOpen = true) ∧
    ((hart (fun h => { h with rerun := true }) State.reset).Quiet ∧
      (hart (fun h => { h with rerun := true }) State.reset).h.rerun = true) :=
  ⟨⟨quiet_alone _ rfl rfl rfl rfl rfl rfl, rfl, rfl⟩, quiet_alone _ rfl rfl rfl rfl rfl rfl, rfl⟩

/-- A stream record of the third kind in memory, and a record of no kind. -/
theorem witness_stream_records :
    (let s : State := { with_ [(1, 0x40)] with mem := [(0x40, 3)] }
     let u := ((s.accessed 0 0x40 64).dropEarly 0x40 64).settle s.h.id 0x40 64
     (s.h.r.readS 1).toNat % 64 = 0 ∧ s.translate s.h (s.h.r.readS 1) .read = .ok ⟨0x40, 3, 0x40⟩ ∧
     (u.loadBytes u.h 0x40 64).toOption = some 3 ∧
     ({ record := BitVec.ofNat 512 3, addr := 0x40, pos := 0, slice := 0 } : Binding).recordOk = true) ∧
    (let s := with_ [(1, 0x40), (2, 0x20)]
     let u := ((s.accessed 0 0x40 64).dropEarly 0x40 64).settle s.h.id 0x40 64
     (u.loadBytes u.h 0x40 64).toOption = some 0 ∧
     ({ record := BitVec.ofNat 512 0, addr := 0x40, pos := 0, slice := 0 } : Binding).recordOk = false ∧
     (s.h.r.readS 2).toNat % 64 ≠ 0 ∧ s.h.r.bind 1 = none) := by
  refine ⟨⟨rfl, rfl, ?_, ?_⟩, ?_, ?_, by decide, rfl⟩ <;> decide +kernel

/-- A stream of kind 3 over 32-bit elements at 0x40, of COUNT 1, at a position. -/
def stream (pos : Word) : Binding := { record := BitVec.ofNat 512 0x40_00000001_00000203, addr := 0x80, pos := pos, slice := 0 }
/-- `vadd` of v1 and v2 into v3 at 32 bits. -/
def sum : EWord := ⟨3, 1, 2, 0, 0, 0, 0, 2, 0, 0, 0⟩
/-- It is bound to v1, and a `vadd` of v1 and v2 at VL 1 comes next. -/
def streaming (pos : Word) : State :=
  hart (fun h => { h with r := ({ h.r with vl := 1 } : Regs).setBind 1 (some (stream pos)) })
    (inBlock [encodeElement (.vadd sum), stopWord] { State.reset with mem := [(0x40, 7)] })

/-- A slice within the stream, and one beyond its end; the block at the PC, and in the queues. -/
theorem witness_stream_read (pos : Word) (v : Nat) (ahead : Bool) (h : pos = 0 ∧ v = 7 ∨ pos = 1 ∧ v = 0) : ∃ (s : State) (b : Block),
    (s = if ahead then (streaming pos).goAhead else streaming pos) ∧
    s.Slots ∧ s.enterOldest.h.blk = some b ∧ b.next = .ok (.vadd sum) ∧
    (s.enterOldest.streamReads (.vadd sum)).find? (fun x => x.1 == 1) = some (1, [0]) ∧
    s.h.r.bind 1 = some (stream pos) ∧ s.h.slices = [] ∧ s.h.queue = (if ahead then [b] else []) ∧
    (s.enterOldest.slice (some (s.enterOldest.selectedAt (.vadd sum))) (stream pos) [0]).toOption.map Prod.fst = some v ∧
    (stream pos).ended = decide (pos = 1) := by
  cases ahead <;> rcases h with ⟨a, b⟩ | ⟨a, b⟩ <;> subst a <;> subst b <;>
    refine ⟨_, _, rfl, slots_alone _ rfl, rfl, rfl, ?_, rfl, rfl, rfl, ?_, ?_⟩ <;> decide +kernel

/-- A block of a `stop` at 0x100, run once, 65,535 times and not at all; a misaligned block; a count too high. -/
theorem witness_vfetch (n : Word) (h : n = 0 ∨ n = 65535) :
    let s : State := { with_ [(1, 0x100), (2, n), (3, 0x104), (4, 65536)] with mem := [(0x106, 0xC0), (0x107, 0xFF)] }
    s.h.eix = 0 ∧ ((s.h.r.readS 1) + (0 : BitVec 15).signExtend 64 * 8).toNat % 8 = 0 ∧ (s.h.r.readS 2).toNat ≤ 65535 ∧
    (∃ ts, s.predecode (s.h.r.readS 1) (s.h.stripctl.getLsbD 0) Block.one [] [] 0 65 = .ok [stopWord] ts) ∧
    ((s.h.r.readS 3) + (0 : BitVec 15).signExtend 64 * 8).toNat % 8 ≠ 0 ∧ 65535 < (s.h.r.readS 4).toNat := by
  rcases h with h | h <;> subst h <;> exact ⟨rfl, rfl, by decide, ⟨_, rfl⟩, by decide, by decide⟩

/-- A block that cannot be read, and one with a word that predecoding refuses. -/
theorem witness_vfetch_refused :
    (let s : State := { with_ [(1, 0x100)] with turn := [(8, mkEntry 6 0 0)] }
     s.predecode (s.h.r.readS 1) (s.h.stripctl.getLsbD 0) Block.one [] [] 0 65 = .abort (trapOf causeUnturned 0x100)) ∧
    (let s : State := { with_ [(1, 0x100)] with mem := [(0x100, 1), (0x106, 0xC0), (0x107, 0xFF)] }
     ∃ ts t, s.predecode (s.h.r.readS 1) (s.h.stripctl.getLsbD 0) Block.one [] [] 0 65 = .split ts t) :=
  ⟨rfl, _, _, rfl⟩

/-- A kept copy at its second word, resumed, run once and as often as s2 says. -/
theorem witness_vfetch_resumed (i m : Word) (h : i = 0x10000 ∧ m = 1 ∨ i = 0x10001 ∧ m = 2) :
    let b : Block := { Block.one with words := [0xFF80000000000000, 0xFF80000000000000, stopWord] }
    let s := hart (fun h => { h with eix := i, ckBlk := some b }) (with_ [(2, m)])
    s.h.ckBlk = some b ∧ s.h.eix ≠ 0 ∧ b.pc = s.h.pc ∧ s.h.eix.toNat < 2^23 ∧ s.h.eix.toNat % 2^16 < (s.h.r.readS 2).toNat ∧
      (i = 0x10000 → s.h.eix.toNat % 2^16 < 1) ∧ s.h.eix.toNat / 2^16 % 2^7 + 1 < b.words.length := by
  rcases h with ⟨a, b⟩ | ⟨a, b⟩ <;> subst a <;> subst b <;>
    exact ⟨rfl, by decide, rfl, by decide, by decide, by decide, by decide⟩

/-- A hart alone at `gang`, one whose partner waits, a leader and a member. -/
theorem witness_gangs :
    (State.reset.Quiet ∧ State.reset.h.gang = none ∧ State.reset.closed.gangWaiting (gangSlots State.reset.h.id 4) = []) ∧
    (let s : State := { State.reset with others := [(8, partner)] }
     s.Quiet ∧ s.h.gang = none ∧ s.closed.gangWaiting (gangSlots s.h.id 4) = [partner] ∧ partner.gangWait = some 2 ∧
     (s.closed.gangWaiting (gangSlots s.h.id 2)).filter (fun h => h.gangWait == some 2) = [partner] ∧ partner.region = s.h.region ∧
     partner.cur = s.h.cur ∧ (gangSlots s.h.id 2).head? = some s.h.id ∧ (∀ p ∈ (gangSlots s.h.id 2).zipIdx, p.1 = s.h.id → p.2 = 0)) ∧
    (∀ m, m = 0 ∨ m = 1 → ∃ s : State, s.Quiet ∧ ∃ q, s.h.gang = some q ∧ q.member = m) := by
  refine ⟨⟨quiet_alone _ rfl rfl rfl rfl rfl rfl, rfl, rfl⟩, ⟨⟨slots_one _ _ _ rfl rfl (by decide) (by decide), rfl, fun _ => rfl, rfl, rfl, rfl⟩,
    rfl, by decide +kernel, rfl, by decide +kernel, rfl, rfl, rfl, by decide⟩, ?_⟩
  intro m hm
  rcases hm with hm | hm <;> subst hm <;>
  exact ⟨hart (fun h => { h with gang := some { width := 2, member := _, ids := [0, 8], started := false } }) State.reset,
    quiet_alone _ rfl rfl rfl rfl rfl rfl, _, rfl, rfl⟩

/-! #### Engine commands and turns -/

/-- A group at s8 within every limit of the matrix commands and copies. -/
def group (g2 g3 : Word) : State := with_ [(10, g2), (11, g3), (15, 0x100010001)]

/-- A command of the reset hart. -/
def command (tl : Timeline) (kind : CmdKind) : Cmd :=
  { hart := 0, tl := tl, ticket := 1, kind := kind, vtype := 8, seq := 0, region := 0, cur := 2, strict := false, orphan := false, done := 0
    flags := 0, reads := [], writes := [], out := [], fwd := [] }

/-- The largest product, fill, drain and constant, a group whose register 3 breaks a limit, eight commands waiting, and a hart at user
level. -/
theorem witness_matrix_issue :
    (let s := group 0x10000800000 0x101000080
     let g := fun (n : Nat) => (List.range n).map (fun i => s.h.r.readS (8 + BitVec.ofNat 5 i))
     s.Quiet ∧ (mmaBad (g 7) false).all (fun b => !b) = true ∧ (mmaBad (g 7) true).all (fun b => !b) = true ∧
     (fillBad (g 3) false).all (fun b => !b) = true ∧ s.closed.mxPending s.closed.myCore < 8 ∧ s.closed.mxAllow = true ∧ s.h.cur ≠ 0) ∧
    (let s := group 0x10000800008 0
     let g := fun (n : Nat) => (List.range n).map (fun i => s.h.r.readS (8 + BitVec.ofNat 5 i))
     (fillBad (g 3) true).all (fun b => !b) = true ∧ (mmaBad (g 7) false).findIdx? id = some 3) ∧
    (let s := group 0x10001000080 0
     let g := fun (n : Nat) => (List.range n).map (fun i => s.h.r.readS (8 + BitVec.ofNat 5 i))
     (constBad (g 5)).all (fun b => !b) = true) ∧
    (let s : State := { State.reset with cmds := List.replicate 8 (command .mx (.mzero 0)) }
     s.Quiet ∧ 8 ≤ s.closed.mxPending s.closed.myCore) ∧
    ((atUser State.reset).Quiet ∧ (atUser State.reset).h.cur = 0) := by
  refine ⟨⟨quiet_alone _ rfl rfl rfl rfl rfl rfl, by decide, by decide, by decide, by decide, by decide +kernel, by decide⟩,
    ⟨by decide, by decide⟩, by decide, ⟨quiet_alone _ rfl rfl rfl rfl rfl rfl, by decide⟩, quiet_alone _ rfl rfl rfl rfl rfl rfl, rfl⟩

/-- Copies, conversions and a copy with its product. -/
theorem witness_copy_issue :
    let s := group 0x100000001 0
    let g := fun (n : Nat) => (List.range n).map (fun i => s.h.r.readS (8 + BitVec.ofNat 5 i))
    s.Quiet ∧ (copyBad (g 4) false).all (fun b => !b) = true ∧ (copyBad (g 5) true).all (fun b => !b) = true ∧
    (copyMxBad (g 11)).all (fun b => !b) = true ∧ s.closed.mxPending s.closed.myCore < 8 ∧ s.closed.mxAllow = true := by
  refine ⟨quiet_alone _ rfl rfl rfl rfl rfl rfl, by decide, by decide, by decide, by decide, by decide +kernel⟩

/-- An empty range and write set, the last sector of a range and an unmapped one, and a write set of one sector; a sector that a turn
raises, and one it leaves. -/
theorem witness_turns :
    ((State.reset).Quiet ∧ (State.reset.h.r.readS 2).toNat = 0 ∧ State.reset.h.eix.toNat = 0 ∧
      (State.reset.closed.groutFirst (fun _ => true)).writeSets = []) ∧
    (let s := hart (fun h => { h with eix := 1, writeSet := [2] }) (with_ [(1, 0x5F), (2, 2)])
     s.Quiet ∧ s.h.eix.toNat < (0x5F + 2 - 1) / 32 - 0x5F / 32 + 1 ∧ (s.closed.rangeSector 0x5F 1).toOption = some 3) ∧
    ((State.reset.rangeSector 0x10000000000000 0) = .error (causeProt, []) ∧ (causeProt, ([] : List Missing)).1 ≠ waitNoPath) ∧
    (let s := hart (fun h => { h with writeSet := [2] }) State.reset
     s.Quiet ∧ (s.closed.groutFirst (fun _ => true)).writeSets[0]? = some 2 ∧ s.h.eix.toNat ≤ s.writeSets.length) ∧
    (({ State.reset with turn := [(2, mkEntry 6 0 0)] } : State).Canonical ∧
      entryState ((({ State.reset with turn := [(2, mkEntry 6 0 0)] } : State).drainSector 2).entry 2) = 6 ∧
      entryState ((State.reset.drainSector 2).entry 2) ≠ 6 ∧ 5 ≤ entryState ((State.reset.drainSector 2).entry 2)) ∧
    (State.reset.stillMapped 2 = true ∧ (hart (fun h => { h with wva := [(2, (0x10000000000000, 0))] }) State.reset).stillMapped 2 = false) := by
  refine ⟨⟨quiet_alone _ rfl rfl rfl rfl rfl rfl, rfl, rfl, rfl⟩, ⟨quiet_alone _ rfl rfl rfl rfl rfl rfl, by decide, by decide +kernel⟩,
    ⟨rfl, by decide⟩, ⟨quiet_alone _ rfl rfl rfl rfl rfl rfl, rfl, by decide⟩, ⟨⟨rfl, rfl, rfl⟩, rfl, by decide, by decide⟩, rfl, rfl⟩

/-- A ticket not issued, one reached, one not reached yet, and a held report; an address that is mapped, one that is not, one whose entry
is on a failed device, and one whose entry is not turned. -/
theorem witness_waiting :
    (let s := hart (fun h => { h with issued := Vector.replicate 4 2, tl := Vector.replicate 4 1 }) (with_ [(1, 3), (2, 1), (3, 2), (4, 0x10000000000000)])
     s.h.reports = [] ∧ (s.h.issued.get (timelineOf 0).idx).toNat < (s.h.r.readS 1).toNat ∧
     (s.h.r.readS 2).toNat ≤ (s.h.tl.get (timelineOf 0).idx).toNat ∧ (s.h.r.readS 3).toNat ≤ (s.h.issued.get (timelineOf 0).idx).toNat ∧
     (s.h.tl.get (timelineOf 0).idx).toNat < (s.h.r.readS 3).toNat ∧ s.translate s.h (s.h.r.readS 1) .read = .ok ⟨3, 3, 3⟩ ∧
     s.translateHome (s.h.r.readS 1) = .ok ⟨3, 3, 3⟩ ∧ s.translateHome (s.h.r.readS 4) = .error (causeProt, [])) ∧
    (farTables [(1, 0x10000000000000)]).translateHome 0x10000000000000 = .error (causeProt, [farEntry]) ∧
    ((blind []).translate (blind []).h 0x40 .read = .error (causeUnturned, []) ∧ (blind []).translateHome 0x40 = .error (causeProt, [])) ∧
    (let s := rough [(1, 0x60)]
     s.translateHome (s.h.r.readS 1) = .ok ⟨0x60, 3, 0x60⟩ ∧ (s.settle s.h.id 0x60 1).poisoned (sectorOf 0x60) = true ∧
     (s.settle s.h.id 3 1).poisoned (sectorOf 3) = false) ∧
    (let s := hart (fun h => { h with reports := [(0, causeProt, 0x40)] }) State.reset
     s.Quiet ∧ s.h.reports = [(0, causeProt, 0x40)]) :=
  ⟨⟨rfl, by decide, by decide, by decide, by decide, rfl, rfl, rfl⟩, rfl, ⟨rfl, rfl⟩, ⟨rfl, rfl, rfl⟩,
    quiet_alone _ rfl rfl rfl rfl rfl rfl, rfl⟩

/-- A command that may complete, one behind another, and a product whose copy is done. -/
theorem witness_engine_completion :
    (let s : State := { State.reset with cmds := [command .mx (.mzero 1), command .mx (.mzero 0)] }
     s.cmds[0]? = some (command .mx (.mzero 1)) ∧ s.mayComplete 0 (command .mx (.mzero 1)) = true ∧
       (s.runCmd (command .mx (.mzero 1))).stop = none ∧
     s.writesHeld (command .mx (.mzero 1)).hart = false ∧
     s.cmds[1]? = some (command .mx (.mzero 0)) ∧ s.mayComplete 1 (command .mx (.mzero 0)) = false ∧
       (command .mx (.mzero 1)).hart = s.h.id ∧
     s.h.st = .running ∧ s.h.wait = .none) ∧
    (let s : State := { State.reset with cmds := [command .mx (.follow [] 0 false)] }
     s.cmds[0]? = some (command .mx (.follow [] 0 false)) ∧ (s.cmds.take 0).any (fun x => coreOf x.hart == 0 && x.tl == .dm) = false) :=
  ⟨⟨rfl, rfl, rfl, rfl, rfl, rfl, rfl, rfl, rfl⟩, rfl, rfl⟩

/-- A copy that stops on a report, on a missing page and on a lost path, and how a command stands before and after one. -/
theorem witness_engine_stops :
    (let c := command .dm (.dmov [0x10000000000000, 0, 0x100000001, 0] 0)
     let s : State := { State.reset with cmds := [c] }
     s.mayComplete 0 c = true ∧ s.writesHeld c.hart = false ∧ ∃ t, (s.runCmd c).stop = some t ∧ t.code ≠ causePage ∧ t.code ≠ waitNoPath) ∧
    (let c := command .dm (.dmov [0, 0, 0x100000001, 0] 0)
     let s : State := { blind [] with turn := [], mem := [(7, 0x80)], cmds := [c] }
     s.mayComplete 0 c = true ∧ s.writesHeld c.hart = false ∧ ∃ t, (s.runCmd c).stop = some t ∧ t.code = causePage) ∧
    (let c := command .dm (.dmov [0x4010000000000, 0, 0x100000001, 0] 0)
     let s : State := { State.reset with cmds := [c], domain := 2 }
     s.mayComplete 0 c = true ∧ s.writesHeld c.hart = false ∧ ∃ t, (s.runCmd c).stop = some t ∧ t.code = waitNoPath) ∧
    (let r : EngRun := { s := State.reset, tile := [], flags := 0, reads := [], writes := [(2, 0x40)], out := [], done := 0, stop := some (trapOf causeProt 1) }
     r.s.h.id = (command .mx (.mzero 0)).hart ∧ r.s.h.st = .running ∧ r.s.h.wait = .none ∧ r.s.Canonical ∧ (2, 0x40) ∈ r.writes ∧
     (CmdKind.mzero 0).tile = some 0 ∧ (command .mx (.mzero 0)).kind.level ≤ 5 ∧ r.stop = some (trapOf causeProt 1) ∧
       ({ r with stop := none } : EngRun).stop = none) := by
  refine ⟨⟨by decide, rfl, ?_⟩, ⟨by decide, rfl, ?_⟩, ⟨by decide, rfl, ?_⟩, rfl, rfl, rfl, ⟨rfl, rfl, rfl⟩, by decide, rfl, by decide, rfl, rfl⟩
  · exact ⟨_, rfl, by decide, by decide⟩
  · exact ⟨_, rfl, by decide⟩
  · exact ⟨_, rfl, by decide⟩

/-- Operands of every command: elements of one byte and of four that are read, a scale and none, a place of a permutation within K and
beyond, and a row of two bytes that is read and written. -/
theorem witness_engine_operands :
    let g : List Word := [0x40, 0x60, 0, 0x100010001, 0, 0x80, 0]
    let h := (command .mx (.mma g 0)).asHart
    let s : State := { State.reset with mem := [(0x40, 3), (0x60, 5)] }
    s.Canonical ∧ (∀ o, s.heldUp o = false) ∧ canonical 0 ((s.core 0).tile 0) = true ∧ (command .mx (.mma g 0)).done = 0 ∧
    (g.getD 3 0).toNat / 2^16 % 2^9 ≤ 256 ∧ (g.getD 3 0).toNat / 2^32 % 2^32 = 1 ∧
    s.engElt h 0x40 1 = .ok (3, [2]) ∧ s.engElt h 0x60 1 = .ok (5, [3]) ∧ s.engElt h 0x40 4 = .ok (3, [2]) ∧
      s.engElt h 0x80 4 = .ok (0, [4]) ∧
    ((3, [2]) : Nat × List Nat).1 ≠ 1 ∧ 0 < (1 : Nat) ∧
    s.engBytes h 0x40 2 1 = .ok ([3, 0], [2]) ∧
    (∀ j < 2, (0x60 + BitVec.ofNat 64 (j * 1)).toNat % 1 = 0 ∧ ∀ b < 1, ∃ y,
      s.translate h (0x60 + BitVec.ofNat 64 (j * 1) + BitVec.ofNat 64 b) .write = .ok y ∧ y.loc = 0x60 + j + b) := by
  refine ⟨⟨by decide, rfl, rfl⟩, fun o => by simp [State.heldUp, State.holdsRecord, State.reset], rfl, rfl, by decide, by decide, rfl, rfl, rfl,
    rfl, by decide, by decide, rfl, ?_⟩
  intro j hj
  refine ⟨Nat.mod_one _, ?_⟩
  intro b hb
  obtain rfl : b = 0 := by omega
  rcases (show j = 0 ∨ j = 1 by omega) with h | h <;> subst h <;> exact ⟨_, rfl, rfl⟩

/-- Chunks: finite products, a NaN, an infinity times zero, infinities of both signs and of one. -/
theorem witness_chunks :
    let one : FVal := .fin false 1 0
    let minus : FVal := .fin true 1 0
    ((FVal.inf false).isNan = false ∧ (FVal.nan false).isNan = true ∧ (FVal.fin false 0 0).isZero = true) ∧
    ((fprod (.inf false) one).1 = .inf false ∧ (fprod (.inf false) minus).1 = .inf true ∧ (fprod one one).1.isNan = false ∧
      (fprod one one).1 ≠ .inf true) := by decide

/-! #### Sessions -/

/-- A cursor that may be set and one that may not, a session outside the hart's regions, and the widest cursor and pointer. -/
theorem witness_session_cursors :
    (let s := with_ [(1, 0), (2, 0), (3, 1), (4, 0x1000000)]
     let y := (s.closed.sess 0).setCursor 0 (s.h.r.readS 2).toNat
     let z := (s.closed.sess 0).setCursor 1 (s.h.r.readS 3).toNat
     s.Quiet ∧ s.h.cur ≠ 0 ∧ s.sessOk (s.h.r.readS 1) = true ∧ s.closed.sessOk (s.h.r.readS 1) = true ∧
     s.sessOk (s.h.r.readS 4) = false ∧ s.closed.sessOk (s.h.r.readS 4) = false ∧ (y.f ≤ y.p ∧ y.p ≤ y.g ∧ (s.h.r.readS 2).toNat < 2^48) ∧
     ¬(z.f ≤ z.p ∧ z.p ≤ z.g ∧ (s.h.r.readS 3).toNat < 2^48)) ∧
    (atUser State.reset).h.cur = 0 ∧ State.reset.Canonical ∧ 0xFFFFFFFFFFFF < 2^48 ∧ 0xFFFFFFFFFFFFFFFF < 2^64 := by
  refine ⟨⟨quiet_alone _ rfl rfl rfl rfl rfl rfl, ?_, ?_, ?_, ?_, ?_, ?_, ?_⟩, rfl, ⟨rfl, rfl, rfl⟩, by decide, by decide⟩ <;> decide +kernel

/-- A session of 17 positions: a cut at the end, a cut at 1 before and after its one block, and an empty build. -/
theorem witness_session_work (i : Word) (h : i = 0 ∨ i = 1) :
    let s := hart (fun h => { h with eix := i }) { with_ [(2, 17), (3, 1), (4, 0x40)] with mem := [(8, 17)] }
    let x := s.closed.sess 0
    s.Quiet ∧ s.closed.sessOk 0 = true ∧ x.g ≤ (s.h.r.readS 2).toNat ∧ x.f ≤ (s.h.r.readS 3).toNat ∧
    (s.h.r.readS 3).toNat < x.g ∧ (x.g + 15) / 16 - ((s.h.r.readS 3).toNat + 15) / 16 = 1 ∧ s.h.eix.toNat ≤ 1 ∧
    blockState (s.closed.btEntry x 1) ≠ 9 ∧ blockState (s.closed.btEntry x 0) ≠ 8 ∧ blockState (s.closed.btEntry x 0) ≠ 9 := by
  rcases h with h | h <;> subst h <;> refine ⟨quiet_alone _ rfl rfl rfl rfl rfl rfl, ?_⟩ <;> decide +kernel

/-- A build that may begin, one that waits for another hart's, and one under way: with a frame left, with none, and behind a record. -/
theorem witness_stepbuild :
    let s := with_ [(1, 0x100000), (2, 0x40), (3, 0)]
    let w : Building := { step := 1, ids := [0], left := [(0, 1)], changed := [], cuts := [], pages := [] }
    let o : Hart := { Hart.blank 8 with st := .running, building := some w }
    let b := fun (w : Building) => hart (fun h => { h with building := some w }) s
    (s.Quiet ∧ s.h.building = none ∧ (s.h.r.readS 1).toNat ≤ 2^20 ∧ (s.h.r.readS 2).toNat % 32 = 0 ∧
      s.closed.manifestProbe (s.h.r.readS 2) 0 = none ∧ s.closed.sequencing = false ∧ s.closed.buildSessions.flatMap s.closed.buildNeeds = [] ∧
      s.h.replay ≠ 2) ∧
    (({ s with others := [(8, o)] } : State).Quiet ∧ ({ s with others := [(8, o)] } : State).closed.sequencing = true) ∧
    ((b w).Quiet ∧ (b w).h.building = some w ∧ w.left = [(0, 1)] ∧ (b w).closed.holdsRecord (0x07, 0) = false ∧
      ({ w with left := [] } : Building).left = [] ∧
      ({ b w with posted := [{ target := 0, record := mkEvent 0x07 0 0 0 0, region := 0 }] } : State).closed.holdsRecord (0x07, 0) = true) := by
  refine ⟨⟨quiet_alone _ rfl rfl rfl rfl rfl rfl, ?_⟩, ⟨⟨slots_one _ _ _ rfl rfl (by decide) (by decide), rfl, fun _ => rfl, rfl, rfl, rfl⟩, rfl⟩,
    ⟨quiet_alone _ rfl rfl rfl rfl rfl rfl, rfl, rfl, rfl, rfl, rfl⟩⟩
  decide +kernel

/-! #### Tasks, events and the end of a hart -/

/-- A registered task at 0x80. -/
def task : Task :=
  { tcb := 0x80, entry := 0, arg := 0, region := 0, prio := 0, pref := 1, min := 1, notify := true, mx := false, opws := [], succs := [],
    init := 0, target := 0, pool := none
    reg := true, st := 0, count := 0 }

/-- A TCB in each of its states, as the hardware holds it or as its bytes say, of the hart's own region, sound or not. -/
theorem witness_task_instructions (held ok : Bool) (n : Nat) (h : n = 0 ∨ n = 1 ∨ n = 2 ∨ n = 3 ∨ n = 4 ∨ n = 5 ∨ n = 6) :
    let s : State := { with_ [(1, 0x80)] with
      mem := (if held || n == 0 then [] else [(0x93, BitVec.ofNat 8 n)]) ++ if ok then [(0x9C, 0x11)] else []
      tasks := if held then [{ task with st := n }] else [] }
    let secs := [sectorOf 0x80, sectorOf 0x80 + 1, sectorOf 0x80 + 2, sectorOf 0x80 + 3]
    let u := (secs.filter (fun y => !(s.h.turned.contains y))).foldl (fun s sec => s.turnOne 3 sec) (s.closed.groutFirst (fun y => secs.contains y))
    s.Quiet ∧ s.closed.TcbAt (s.h.r.readS 1) ⟨0x80, 3, 0x80⟩ ∧ u.taskSt 0x80 = n ∧ s.closed.taskSt 0x80 = n ∧
    u.operandPage 0x80 = none ∧ s.closed.operandPage 0x80 = none ∧ u.refusalHeld 0x80 = false ∧ s.closed.refusalHeld 0x80 = false ∧
    (u.readTask 0x80).isSome = ok ∧ (s.closed.readTask 0x80).isSome = ok ∧
    s.h.cur ≠ 0 ∧ s.closed.under (s.closed.tcbRegion 0x80) s.h.region = true := by
  cases held <;> cases ok <;> rcases h with h | h | h | h | h | h | h <;> subst h <;>
    refine ⟨quiet_alone _ rfl rfl rfl rfl rfl rfl, ⟨by decide, rfl, rfl, by decide +kernel⟩, ?_⟩ <;> decide +kernel

/-- A TCB of a region that has no chain to region 0; one of a region that is not below the hart's. -/
theorem witness_task_foreign :
    (let s : State := { with_ [(1, 0x80)] with mem := [(0x90, 5), (0x282, 5)] }
     s.Quiet ∧ s.closed.TcbAt (s.h.r.readS 1) ⟨0x80, 3, 0x80⟩ ∧ s.closed.under (s.closed.tcbRegion 0x80) s.h.region = false ∧
     s.closed.regionValid (s.closed.tcbRegion 0x80) = false) ∧
    (let s := hart (fun h => { h with region := 5 }) { with_ [(1, 0x80)] with regions := [(0, RegionCtx.boot), (5, { RegionCtx.boot with id := 5 })] }
     s.Quiet ∧ s.closed.TcbAt (s.h.r.readS 1) ⟨0x80, 3, 0x80⟩ ∧ s.closed.under (s.closed.tcbRegion 0x80) s.h.region = false ∧
     s.closed.regionValid (s.closed.tcbRegion 0x80) = true ∧ s.h.cur ≠ 0) ∧
    (atUser State.reset).h.cur = 0 := by
  refine ⟨⟨quiet_alone _ rfl rfl rfl rfl rfl rfl, ⟨by decide, rfl, rfl, by decide +kernel⟩, ?_⟩,
    ⟨quiet_alone _ rfl rfl rfl rfl rfl rfl, ⟨by decide, rfl, rfl, by decide +kernel⟩, ?_⟩, rfl⟩ <;> decide +kernel

/-- Addresses that are no TCB's: misaligned, unmapped, with a failed device behind the mapping, poisoned. A TCB whose operand word is in a
page on flash, fresh and DONE; one that is not valid while the unit that reports it holds a record, fresh and DONE. -/
theorem witness_task_stops (n : Nat) (h : n = 0 ∨ n = 4) :
    (let s := rough [(1, 0x40), (2, 0x10000000000000), (3, 0)]
     let c := s.closed
     s.Quiet ∧ (s.h.r.readS 1).toNat % 128 ≠ 0 ∧ c.translate c.h (s.h.r.readS 2) .write = .error (causeProt, []) ∧
     c.translate c.h (s.h.r.readS 3) .write = .ok ⟨0, 3, 0⟩ ∧ c.poisoned (sectorOf 0 + 3) = true) ∧
    (farTables []).closed.translate (farTables []).closed.h 0x10000000000000 .write = .error (causeProt, [farEntry]) ∧
    (let s : State := { with_ [(1, 0x80)] with
       mem := (if n = 0 then [] else [(0x93, BitVec.ofNat 8 n)]) ++ [(0xA6, 0x10), (0x10007, 0x80)] }
     let secs := [sectorOf 0x80, sectorOf 0x80 + 1, sectorOf 0x80 + 2, sectorOf 0x80 + 3]
     let u := (secs.filter (fun y => !(s.h.turned.contains y))).foldl (fun s sec => s.turnOne 3 sec) (s.closed.groutFirst (fun y => secs.contains y))
     s.closed.TcbAt (s.h.r.readS 1) ⟨0x80, 3, 0x80⟩ ∧ u.taskSt 0x80 = n ∧ s.closed.taskSt 0x80 = n ∧ (u.operandPage 0x80).isSome = true ∧
     (s.closed.operandPage 0x80).isSome = true ∧ u.refusalHeld 0x80 = false ∧ s.closed.refusalHeld 0x80 = false) ∧
    (let s : State := { with_ [(1, 0x80)] with
       mem := if n = 0 then [] else [(0x93, BitVec.ofNat 8 n)], posted := [{ target := 0, record := mkEvent 0x03 0 0 1 0x80, region := 0 }] }
     let secs := [sectorOf 0x80, sectorOf 0x80 + 1, sectorOf 0x80 + 2, sectorOf 0x80 + 3]
     let u := (secs.filter (fun y => !(s.h.turned.contains y))).foldl (fun s sec => s.turnOne 3 sec) (s.closed.groutFirst (fun y => secs.contains y))
     s.closed.TcbAt (s.h.r.readS 1) ⟨0x80, 3, 0x80⟩ ∧ u.taskSt 0x80 = n ∧ s.closed.taskSt 0x80 = n ∧ u.refusalHeld 0x80 = true ∧
     s.closed.refusalHeld 0x80 = true) := by
  rcases h with h | h <;> subst h <;>
    refine ⟨⟨quiet_alone _ rfl rfl rfl rfl rfl rfl, by decide, rfl, rfl, rfl⟩, rfl, ⟨⟨by decide, rfl, rfl, by decide +kernel⟩, ?_⟩,
      ⟨by decide, rfl, rfl, by decide +kernel⟩, ?_⟩ <;> decide +kernel

/-- A hart that nothing started, one with a command outstanding, one from a start record, and tasks that notify or not. -/
theorem witness_hart_end :
    (State.reset.Quiet ∧ State.reset.h.isEnding = false ∧ State.reset.closed.hasCommands State.reset.h.id = false ∧
      State.reset.h.reports = [] ∧ State.reset.h.origin = .none ∧ State.reset.h.gang = none ∧ State.reset.h.intrusive = false) ∧
    (let s : State := { State.reset with cmds := [command .dm (.dmov [] 0)] }
     s.Quiet ∧ s.closed.hasCommands s.h.id = true) ∧
    (∀ o : Origin, (o = .start 1 2 3 ∨ o = .task 0x80) → ∃ s : State, s.Quiet ∧ s.h.origin = o ∧ s.h.isEnding = false ∧
      s.closed.hasCommands s.h.id = false ∧ s.h.reports = [] ∧ s.closed.tasks = [task] ∧
        [task].find? (fun t => t.tcb == 0x80 && t.notify) = some task ∧
      [task].find? (fun t => t.tcb == 0x90 && t.notify) = none) := by
  refine ⟨⟨quiet_alone _ rfl rfl rfl rfl rfl rfl, rfl, rfl, rfl, rfl, rfl, rfl⟩, ⟨quiet_alone _ rfl rfl rfl rfl rfl rfl, rfl⟩, ?_⟩
  intro o ho
  refine ⟨hart (fun h => { h with origin := o }) { State.reset with tasks := [task] }, ?_⟩
  rcases ho with h | h <;> subst h <;> exact ⟨quiet_alone _ rfl rfl rfl rfl rfl rfl, rfl, rfl, rfl, rfl, rfl, rfl, rfl⟩

/-- A record in the queue, an empty queue, an empty other slot, and a READY hart in it; a hart under intrusive profiling. -/
theorem witness_events :
    (let s : State := { State.reset with cores := [(0, { Core.reset with evq := 0x1000, evTail := 1 })] }
     s.Quiet ∧ (s.closed.core s.closed.myCore).evHead ≠ (s.closed.core s.closed.myCore).evTail ∧
     s.closed.evqLoc s.closed.myCore (s.closed.core s.closed.myCore).evHead = some 0x1000 ∧ s.closed.poisoned (sectorOf 0x1000) = false) ∧
    (State.reset.Quiet ∧ (State.reset.closed.core State.reset.closed.myCore).evHead = (State.reset.closed.core State.reset.closed.myCore).evTail ∧
      State.reset.closed.hart? (otherSlot State.reset.h.id) = none) ∧
    (let o : Hart := { Hart.blank 1 with st := .ready }
     let s : State := { State.reset with others := [(1, o)] }
     s.Quiet ∧ s.closed.hart? (otherSlot s.h.id) = some o ∧ s.closed.mayRun o = true ∧ s.closed.gangProfiled s.closed.h = false) ∧
    (let s := hart (fun h => { h with expert := true, tracectl := 0x10000 }) State.reset
     s.Quiet ∧ s.closed.gangProfiled s.closed.h = true) := by
  refine ⟨⟨quiet_alone _ rfl rfl rfl rfl rfl rfl, ?_, ?_, rfl⟩, ⟨quiet_alone _ rfl rfl rfl rfl rfl rfl, rfl, rfl⟩,
    ⟨⟨slots_one _ _ _ rfl rfl (by decide) (by decide), rfl, fun _ => rfl, rfl, rfl, rfl⟩, rfl, ?_, rfl⟩,
    quiet_alone _ rfl rfl rfl rfl rfl rfl, rfl⟩ <;> decide +kernel

/-! #### Traps by instruction, CSRs, contexts, networks and region stops -/

theorem witness_trap_and_return :
    ((vectored State.reset).Quiet ∧ (vectored State.reset).h.Steady ∧ (vectored State.reset).h.cur ≠ 0 ∧
      (vectored State.reset).h.trace = false) ∧
    ((atUser State.reset).Quiet ∧ (atUser State.reset).h.cur = 0) :=
  ⟨⟨quiet_alone _ rfl rfl rfl rfl rfl rfl, ⟨by decide, rfl, rfl⟩, by decide, rfl⟩, quiet_alone _ rfl rfl rfl rfl rfl rfl, rfl⟩

/-- A register any level reads, one that supervisor level writes, a read-only one, an unassigned number, CYCLE and EVQ. -/
theorem witness_csr_access :
    (csrLevels 0x000 = some (0, none) ∧ csrLevels 0x004 = some (0, some 1) ∧ 1 ≤ State.reset.h.cur.toNat ∧
      (0x004 ≠ 0x040 ∧ 0x004 ≠ 0x181 ∧ (State.reset.h.putCsr 0x004 5).intrusive = State.reset.h.intrusive) ∧ csrLevels 0xFFF = none) ∧
    (csrLevels 0x182 = some (0, none) ∧ (0x182 : BitVec 12).toNat = 0x182 ∧ (0x040 : BitVec 12).toNat = 0x040 ∧
      (State.reset.core State.reset.myCore).evHead = (State.reset.core State.reset.myCore).evTail) ∧
    (csrLevels 0x101 = some (1, some 1) ∧ (atUser State.reset).h.cur.toNat < 1) := by
  decide

theorem witness_csr_writes :
    (0xFFFFFFFFFFFFFFFF < 2^64) ∧ (Hart.boot.expert = false) ∧ (Hart.blank 0).cur = 0 ∧
    (1 ≤ (Hart.blank 0).min.toNat ∧ (Hart.blank 0).min.toNat ≤ (Hart.blank 0).pref.toNat ∧ (Hart.blank 0).pref.toNat ≤ 8) ∧
    (Hart.boot.min.toNat ≤ Hart.boot.pref.toNat ∧ Hart.boot.pref.toNat = 8) := by decide

/-- A hart to save in the other slot, at the first unit, the last one and behind it; an empty slot; a full slot. -/
theorem witness_context_save (i : Word) (h : i = 0 ∨ i = 82 ∨ i = 83) :
    let o : Hart := { Hart.blank 1 with st := .ready }
    let s : State := hart (fun h => { h with eix := i }) { with_ [(1, 1), (2, 0)] with others := [(1, o)] }
    let r := if i = 0 then s.closed.readyToSave 1 else s.closed
    s.Quiet ∧ s.h.cur ≠ 0 ∧ s.closed.hart? 1 = some o ∧ (1 : BitVec 11) ≠ s.h.id ∧ o.st ≠ .running ∧ o.gang = none ∧
      s.closed.hasCommands 1 = false ∧
    s.closed.holdsRecord (0x06, (1 : BitVec 11).toNat) = false ∧ o.reports = [] ∧ r.groutMeets o (fun _ => true) = false ∧
      o.intrusive = false ∧ (∃ y, r.hart? 1 = some y ∧ ∃ x, r.saveXlat y s.h.eix.toNat = .ok x ∧
        let z := r.send s.h.id [(List.range 32).flatMap (fun k =>
          spread (r.imageLoc x.pa (128 * k)) 128 (nbits (r.imageUnit y i.toNat) (1024 * k) 1024))]
        let sent := (List.range 32).foldl (fun z k =>
          z.modH (fun h => h.storedOver y.region (z.imageLoc x.pa (128 * k)) (4096 * i.toNat + 128 * k) 128)) z
        ∃ z, sent.saveXlat y 0 = .ok z) ∧
    State.reset.closed.hart? 1 = none ∧ (s.closed.hart? 0).isSome = true := by
  rcases h with h | h | h <;> subst h <;>
    exact ⟨⟨slots_one _ _ _ rfl rfl (by decide) (by decide), rfl, fun _ => rfl, rfl, rfl, rfl⟩, by decide, rfl, by decide, by decide, rfl, rfl, rfl, rfl,
      rfl, rfl, ⟨_, rfl, _, rfl, _, rfl⟩, rfl, rfl⟩

/-- A save area that nothing maps, and a hart with INTRUSIVE whose record has no room. -/
theorem witness_save_stops (i : Word) (h : i = 0 ∨ i = 83) :
    (let o : Hart := { Hart.blank 1 with st := .ready, savearea := 0x10000000000000 }
     let s : State := hart (fun h => { h with eix := i }) { with_ [(1, 1), (2, 0)] with others := [(1, o)] }
     s.Quiet ∧ s.closed.saveXlat o (if i = 83 then 0 else i.toNat) = .error (causeProt, []) ∧ causeProt ≠ waitNoPath) ∧
    (let o : Hart := { Hart.blank 1 with st := .ready, region := 5, expert := true, tracectl := 0x10000 }
     let s : State := hart (fun h => { h with eix := i }) { with_ [(1, 1), (2, 0)] with
       others := [(1, o)], refs := [(0, { RegionRefs.unread with evtgt := 2 })], posted := [{ target := 2, record := 7, region := 0 }] }
     s.Quiet ∧ s.closed.holdsRecord (0x06, (1 : BitVec 11).toNat) = false ∧ (s.closed.select 1).unprofile = none) := by
  rcases h with h | h <;> subst h <;>
    exact ⟨⟨⟨slots_one _ _ _ rfl rfl (by decide) (by decide), rfl, fun _ => rfl, rfl, rfl, rfl⟩, rfl, by decide⟩,
      ⟨slots_one _ _ _ rfl rfl (by decide) (by decide), rfl, fun _ => rfl, rfl, rfl, rfl⟩, rfl, by decide +kernel⟩

/-- A token on the last wire. -/
def token : Token := { hart := 0, rd := 5, entry := 15, wire := 15, layer := 0 }

/-- Networks: drained and not, closed and open, TORN; addresses for an image, and an image to load. -/
theorem witness_networks :
    (let s := with_ [(1, 0x100), (2, 0x108)]
     s.Quiet ∧ s.h.cur ≠ 0 ∧ (s.closed.net 0).tokens = [] ∧ (s.closed.net 0).torn = false ∧ (s.closed.net 0).closed = true ∧
     (s.h.r.readS 1).toNat % 256 = 0 ∧ (s.h.r.readS 2).toNat % 256 ≠ 0 ∧
     s.closed.translate s.closed.h (s.h.r.readS 1 + BitVec.ofNat 64 (8 * 31)) .write = .ok ⟨0x1F8, 3, 0x1F8⟩) ∧
    (let s : State := { State.reset with nets := State.reset.nets.set 0 { Net.reset with closed := false, torn := true, tokens := [token] } }
     s.Quiet ∧ (s.closed.net 0).tokens ≠ [] ∧ (s.closed.net 0).torn = true ∧ (s.closed.net 0).closed = false) ∧
    (let s := { with_ [(1, 0x100)] with mem := (State.reset.putBytes (spread 0x100 256 (Net.reset.image 0))).mem }
     let ws := (List.range 32).map (fun k => s.closed.loadOne s.closed.h (s.h.r.readS 1 + BitVec.ofNat 64 (8 * k)) 8)
     s.Quiet ∧ fails ws = [] ∧ netImageOk (pack 64 ((goods ws).map Prod.fst)) = true) := by
  refine ⟨⟨quiet_alone _ rfl rfl rfl rfl rfl rfl, by decide, rfl, rfl, rfl, by decide, by decide, rfl⟩,
    ⟨quiet_alone _ rfl rfl rfl rfl rfl rfl, by decide, rfl, rfl⟩, quiet_alone _ rfl rfl rfl rfl rfl rfl, ?_⟩
  decide +kernel

/-- The hart's own region, one below it that is quiet, one that is not, and user level. -/
theorem witness_region_stop :
    (let s := with_ [(1, 5), (2, 1)]
     let r : BitVec 16 := (s.h.r.readS 1).setWidth 16
     s.Quiet ∧ s.h.cur ≠ 0 ∧ (s.h.r.readS 0).setWidth 16 = s.h.region ∧ r ≠ s.h.region ∧ s.closed.under r s.h.region = true ∧
     (s.h.r.readS 2).getLsbD 0 = true ∧ (s.h.r.readS 0).getLsbD 0 = false ∧ (s.closed.stopRegion r).quiet r = true ∧
       (s.closed.releaseRegion r).ended = []) ∧
    (let s : State := { State.reset with cmds := [{ command .dm (.dmov [] 0) with region := 5 }] }
     s.Quiet ∧ (s.closed.stopRegion 5).quiet 5 = false) ∧
    (atUser State.reset).h.cur = 0 := by
  refine ⟨⟨quiet_alone _ rfl rfl rfl rfl rfl rfl, ?_⟩, ⟨quiet_alone _ rfl rfl rfl rfl rfl rfl, ?_⟩, rfl⟩ <;> decide +kernel

/-! #### Element instructions -/

/-- Without bound registers no word reads a slice. -/
theorem feed_unbound (s : State) (h : ∀ r, s.h.r.bind r = none) (i : Instr) : s.feed i = .ok s := by
  have hn : s.streamReads i = [] := by
    unfold State.streamReads
    split
    · simp [h]
    · rfl
  unfold State.feed
  rw [hn]
  rfl

/-- A result that is there. -/
theorem ok_some {ε α : Type} {e : Except ε α} (h : e.toOption.isSome = true) : ∃ x, e = .ok x := by
  cases e
  · simp [Except.toOption] at h
  · exact ⟨_, rfl⟩

theorem unbound_replicate (r : BitVec 5) : (Vector.replicate 32 (none : Option Binding)).get r.toFin = none := by
  simp [Vector.get]

/-- A hart alone, and a gang of two, whose registers hold a given number of elements and bits. -/
theorem witness_register_elements :
    (State.reset.Slots ∧ State.reset.GangOk ∧ 8 ∈ [8, 16, 32, 64] ∧ 64 ∈ [8, 16, 32, 64] ∧
      8 * (List.replicate 2048 (some 0)).length ≤ 16384 * State.reset.gangHarts.length ∧
      (List.replicate 2048 (some true)).length ≤ 2048 * State.reset.gangHarts.length) ∧
    (let s : State := hart (fun h => { h with gang := some { width := 2, member := 0, ids := [0, 8], started := false } })
      { State.reset with others := [(8, partner)] }
     s.Slots ∧ s.GangOk) ∧
    (let s := hart (fun h => { h with slices := [(1, 7)] }) State.reset
     s.h.slices.find? (fun p => p.1 == 1) = some (1, 7)) ∧
    (let p : Writer := { ref := .v 1, at_ := 0, latency := 3, old := 7 }
     let b : Block := { Block.one with words := [encodeElement (.vadd sum), stopWord], writers := [p] }
     let s := hart (fun h => { h with blk := some b }) State.reset
     s.h.slices = [] ∧ s.h.blk = some b ∧ (∃ y, wordInfo (.vadd sum) = some y ∧ y.queue = .aq) ∧
     b.writers.find? (fun p => p.ref == .v 1) = some p ∧ b.writers.find? (fun p => p.ref == .v 2) = none ∧
       s.h.stripctl.getLsbD 0 = false) := by
  refine ⟨⟨slots_alone _ rfl, ⟨by decide, by simp [State.reset, Hart.boot, Hart.blank]⟩, by decide, by decide, ?_, ?_⟩,
    ⟨slots_one _ _ _ rfl rfl (by decide) (by decide), ⟨by decide, ?_⟩⟩, rfl, rfl, rfl, ⟨_, rfl, rfl⟩, by decide, by decide, by decide⟩
  · rw [List.length_replicate]
    decide
  · rw [List.length_replicate]
    decide
  · intro g hg
    have hg' : g = { width := 2, member := 0, ids := [0, 8], started := false } := by
      simpa [hart, State.modH] using hg.symm
    subst hg'
    decide

/-- Words on a hart without streams: every class of integer type, and a floating class. -/
theorem witness_element_words :
    (∀ i, State.reset.feed i = .ok State.reset) ∧
    sum.tI = .int 32 true ∧ (⟨3, 1, 2, 0, 0, 0, 0, 4, 0, 0, 0⟩ : EWord).tI = .int 8 false ∧ sum.isF = false ∧ (5 : BitVec 3).toNat ≤ 5 ∧
    (⟨3, 1, 2, 0, 0, 0, 0, 0, 0, 1, 0⟩ : EWord).isF = true :=
  ⟨fun i => feed_unbound State.reset (fun r => unbound_replicate r) i, rfl, rfl, rfl, by decide, rfl⟩

/-- Finite numbers of a format, a divisor that is not zero and a number above zero. -/
theorem witness_float_arithmetic :
    Fmt.f32 ∈ [Fmt.f32, Fmt.bf16, Fmt.f16, Fmt.e4m3, Fmt.e5m2] ∧ Fmt.f32.finite 0x3F800000 = true ∧ Fmt.f32.finite 0 = true ∧
    Fmt.f32.num 0x3F800000 ≠ 0 ∧ 0 < Fmt.f32.num 0x3F800000 := by
  refine ⟨by decide, by decide, by decide, ?_, ?_⟩ <;> decide +kernel

/-- A mask of two bits with one set, and no active element. -/
theorem witness_mask_words :
    let e : EWord := ⟨1, 1, 0, 0, 0, 0, 0, 0, 0, 0, 0⟩
    let s := hart (fun h => { h with r := { h.r.writeK 1 2 with vl := 2 } }) State.reset
    let p := fun (s : State) (i : Instr) (k : Nat) => decide (k < s.vl) && (s.maskBit i e k && nbit (s.srcK i (kOf e.va)) k)
    p s (.kfirst e) 1 = true ∧ (∀ j < 1, p s (.kfirst e) j = false) ∧ p s (.klast e) 1 = true ∧ (∀ k, 1 < k → p s (.klast e) k = false) ∧
    (∀ k, p State.reset (.kfirst e) k = false) ∧ (∀ k, p State.reset (.klast e) k = false) := by
  refine ⟨by decide +kernel, by decide +kernel, by decide +kernel, ?_, ?_, ?_⟩
  · intro k hk
    have hv : (hart (fun h => { h with r := { h.r.writeK 1 2 with vl := 2 } }) State.reset).vl = 2 := rfl
    simp only [hv]
    simp [Nat.not_lt.mpr (show 2 ≤ k from hk)]
  · intro k
    have hv : State.reset.vl = 0 := rfl
    simp only [hv]
    simp
  · intro k
    have hv : State.reset.vl = 0 := rfl
    simp only [hv]
    simp

/-- One active element under k0. -/
def one (l : List (BitVec 5 × Word)) : State := hart (fun h => { h with r := { h.r with vl := 1 } }) (with_ l)

theorem one_unbound (a : Word) (i : Instr) : (one [(1, a)]).feed i = .ok (one [(1, a)]) :=
  feed_unbound (one [(1, a)]) (fun r => unbound_replicate r) i

/-- No active element, and one. -/
theorem witness_reductions :
    (List.range State.reset.vl).filter (State.reset.maskBit (.vosm sum) sum) = [] ∧
    (List.range (one []).vl).filter ((one []).maskBit (.vosm sum) sum) ≠ [] := by decide +kernel

/-- A 32-bit element at s1. -/
def elem : EWord := ⟨3, 0, 0, 0, 0, 0, 0, 2, 0, 0, 1⟩

/-- One element that a load reads, one that fails, and one that a store buffers. -/
theorem witness_element_memory :
    (let s := one [(1, 0x40)]
     (List.range s.vl).filter (s.maskBit (.vld elem) elem) = [0] ∧
     (∃ r, s.loadOneAs (some (s.fedSince (.vld elem))) (s.lane 32 0) (s.snapS elem.sreg) 4 = .ok r) ∧
       (∃ x, s.storeOne (s.lane 32 0) (s.snapS elem.sreg) 4 = .ok x) ∧
     s.Slots ∧ s.GangOk ∧ (∀ h ∈ s.gangHarts, h.used = 0)) ∧
    (let s := one [(1, 0x41)]
     (List.range s.vl).filter (s.maskBit (.vld elem) elem) = [0] ∧
     s.loadOneAs (some (s.fedSince (.vld elem))) (s.lane 32 0) (s.snapS elem.sreg) 4 = .error (trapOf causeMisalign 0x41)) ∧
    (let s := hart (fun h => { h with r := { (h.r.writeS 1 0x40) with vl := 1 } }) leading
     (List.range s.vl).filter (s.maskBit (.vst elem) elem) = [0] ∧ (∃ x, s.storeOne (s.lane 32 0) (s.snapS elem.sreg) 4 = .ok x) ∧
     s.Slots ∧ s.GangOk ∧ (∀ h ∈ s.gangHarts, h.used = 0) ∧ 8 ∈ s.h.members ∧
     s.h.gang = some { width := 2, member := 0, ids := [0, 8], started := false }) := by
  refine ⟨⟨by decide +kernel, ok_some (by decide +kernel), ok_some (by decide +kernel), slots_alone _ rfl,
    ⟨by decide, by simp [one, hart, with_, State.modH, State.modR, State.reset, Hart.boot, Hart.blank]⟩, ?_⟩, ⟨by decide +kernel, rfl⟩, by decide +kernel,
    ok_some (by decide +kernel), slots_one _ _ _ rfl rfl (by decide) (by decide), ⟨by decide, ?_⟩, by decide +kernel, by decide, rfl⟩
  rotate_left
  · intro g hg
    have hg' : g = { width := 2, member := 0, ids := [0, 8], started := false } := by
      simpa [hart, leading, State.modH] using hg.symm
    subst hg'
    decide
  intro h hh
  have hg : (one [(1, 0x40)]).gangHarts = [(one [(1, 0x40)]).h] := rfl
  rw [hg, List.mem_singleton] at hh
  subst hh
  rfl

/-- A 64-bit `vamo` and `vwait` on the word at s1, a `vxlate` and a `kvput` with their scalars from s4 on. -/
def atomicWord (rel : BitVec 3) : EWord := ⟨3, 2, 5, 0, 0, 0, 0, 3, rel, 0, 1⟩
def waitWord (cond : BitVec 4) (t : BitVec 16) : EWord := ⟨1, 2, 0, 1, 0, 0, 0, 3, 0, cond, t⟩
def xlateWord : EWord := ⟨3, 1, 0, 1, 0, 0, 0, 3, 0, 0, 4⟩
def putWord : EWord := ⟨0, 1, 2, 0, 0, 0, 0, 0, 0, 0, 4⟩

/-- One active element, the word's address in s1 and in v1, a block stride in s7. -/
def homes : State := hart (fun h => { h with r := { (h.r.writeV 1 0x40) with vl := 1 } }) (with_ [(1, 0x40), (7, 0x1000)])

/-- One whose `vamo` stands in pass 2 with nothing left. -/
def amoDone : Amo := { width := 64, op := 0, rest := [], olds := [(0, 7)] }
def homesAmo : State := hart (fun h => { h with amo := some amoDone }) homes

/-- An atomic with and without a release turn; a condition met and not met, without a wait and with one; a position and a row with their
blocks resident; and no active element. -/
theorem witness_home_words :
    (homes.Quiet ∧ homes.h.replay = 0 ∧ homes.closed.h.amo = none ∧ (homes.closed.turnAllNow 0).h.replay = 0 ∧
      (∀ i, homes.closed.feed i = .ok homes.closed) ∧ (∀ i, homes.feed i = .ok homes)) ∧
    (homesAmo.Quiet ∧ homesAmo.closed.feed (.vamo (atomicWord 0)) = .ok homesAmo.closed ∧ homesAmo.closed.h.amo = some amoDone) ∧
    (∀ r, (r = 0 ∨ r = 2) → ∃ es, allOrTrap (([0] : List Nat).map (fun k => homes.closed.homeProbe k (homes.closed.lane 64 k)
      (homes.closed.addrX (.vamo (atomicWord r)) (atomicWord r) k) 8 .atomic true)) = .ok es) ∧
    homes.closed.activeIdx (.vamo (atomicWord 0)) (atomicWord 0) = [0] ∧ homes.Canonical ∧
    (let e := waitWord 0 0
     let u := homes.closed
     u.homeProbe 0 (u.lane 64 0) 0x40 8 .read false = .ok { k := 0, hart := u.lane 64 0, va := 0x40, x := ⟨0x40, 3, 0x40⟩ } ∧
     elt 64 (u.src (.vwait e) 1) 0 = 0x40 ∧ u.h.trace = false ∧ (u.homeReady 3 (sectorOf 0x40) &&
       waitCond 0 (u.homeNat 0x40 8) (elt 64 (u.src (.vwait e) 2) 0)) = true ∧
     (u.homeReady 3 (sectorOf 0x40) && waitCond 1 (u.homeNat 0x40 8) (elt 64 (u.src (.vwait e) 2) 0)) = false ∧
     u.snapS e.sreg = 0 ∧ u.snapS (waitWord 1 7).sreg ≠ 0) ∧
    (∃ a t, homes.xlateOne (.vxlate xlateWord) xlateWord (homes.lane 64 0) 0 = (.ok a, some t)) ∧
    (∃ v, homes.closed.kvProbe (.kvput putWord) putWord (BitVec.ofNat 64 (nbits (homes.closed.group putWord 4).toNat 0 48)) = .ok v) ∧
    (let g : Grout := { pa := 0x1000, va := 0x1000, owner := 0, mask := 1, tile := 0, live := true, region := 0, strict := false, shift := 4, wbytes := 1 }
     let s := homes.closed.setCore 0 { Core.reset with grout := some g }
     (s.core s.myCore).grout = some g ∧ g.mask ≠ 0) ∧
    homes.closed.activeIdx (.kvput putWord) putWord = [0] ∧ (State.reset.closed.activeIdx (.kvput putWord) putWord) = [] := by
  refine ⟨⟨quiet_alone _ rfl rfl rfl rfl rfl rfl, rfl, rfl, rfl, fun i => feed_unbound homes.closed (fun r => unbound_replicate r) i,
    fun i => feed_unbound homes (fun r => unbound_replicate r) i⟩,
    ⟨quiet_alone _ rfl rfl rfl rfl rfl rfl, feed_unbound homesAmo.closed (fun r => unbound_replicate r) _, rfl⟩,
    ?_, by decide +kernel, ⟨rfl, rfl, rfl⟩,
    ⟨rfl, by decide +kernel, rfl, by decide +kernel, by decide +kernel, rfl, by decide +kernel⟩, ⟨_, _, rfl⟩,
    ok_some (by decide +kernel), ⟨rfl, by decide⟩, by decide +kernel, by decide +kernel⟩
  intro r hr
  rcases hr with h | h <;> subst h <;> exact ok_some (by decide +kernel)

/-! #### What happens to the package -/

/-- The state after reset with the host registers changed. -/
def hosted (f : HostRegs → HostRegs) : State := { State.reset with host := f State.reset.host }

/-- A port that is up and one that is down; a semaphore that is free, held, and another's; queues that are empty and not. -/
theorem witness_host_registers :
    (State.reset.portUp 0 = true ∧ State.reset.portUp 1 = true ∧
      (hosted (fun h => { h with linkUp := Vector.replicate 2 false })).portUp 1 = false) ∧
    ((State.reset.host.semOf 15).toNat % 4 = 0 ∧ ((hosted (fun h => { h with sem := Vector.replicate 16 2 })).host.semOf 15).toNat % 4 ≠ 0 ∧
      (hosted (fun h => { h with sem := Vector.replicate 16 2 })).host.semOf 15 = BitVec.ofNat 64 ((1 : BitVec 1).toNat + 1) ∧
      State.reset.host.semOf 15 ≠ BitVec.ofNat 64 ((1 : BitVec 1).toNat + 1)) ∧
    ((State.reset.queue 4095).head = (State.reset.queue 4095).tail ∧
      (({ State.reset with queues := [(7, { WorkQueue.reset with tail := 1 })] } : State).queue 7).head ≠
        (({ State.reset with queues := [(7, { WorkQueue.reset with tail := 1 })] } : State).queue 7).tail) ∧
    ((0x4FFE0 : BitVec 20).toNat = 0x10000 + 64 * (4095 : BitVec 12).toNat + 32 ∧
      (0x9FFE0 : BitVec 20).toNat = 0x80000 + 32 * (4095 : BitVec 12).toNat ∧
      0x400 ≤ (0x5F8 : BitVec 20).toNat ∧ (0x5F8 : BitVec 20).toNat < 0x600 ∧
      0x10000 ≤ (0x4FFD8 : BitVec 20).toNat ∧ (0x4FFD8 : BitVec 20).toNat < 0x50000 ∧ (0x4FFD8 : BitVec 20).toNat % 64 = 24 ∧
      0x80000 ≤ (0x80010 : BitVec 20).toNat ∧ (0x80010 : BitVec 20).toNat < 0xA0000 ∧ (0x80010 : BitVec 20).toNat % 32 = 16) := by
  decide

/-- A write within memory and one beyond; a session in each state that FRAMEDB tells apart; tails within the ring, beyond it and behind
TAIL; readable and unreadable bytes. -/
theorem witness_host_traffic :
    (State.reset.memBytes < (0x9502F90000 : BitVec 40).toNat + 1 ∧ (0x9502F8FFFF : BitVec 40).toNat + 1 ≤ State.reset.memBytes) ∧
    (((State.reset.doorbell 0 0).sess 0).state = 0 ∧ (State.reset.doorbell 0 0).holdsRecord (0x07, 0) = false ∧
      (({ State.reset with posted := [{ target := 0, record := mkEvent 0x07 0 0 0 0, region := 0 }] } : State).doorbell 0 0).holdsRecord (0x07, 0) =
        true) ∧
    (((({ State.reset with mem := [(0, 5)] } : State).doorbell 0 0).sess 0).state = 5) ∧
    (((({ State.reset with mem := [(0, 6)] } : State).doorbell 0 0).sess 0).state = 6) ∧
    (let x := ({ State.reset with queues := [(7, { WorkQueue.reset with tail := 2 })] } : State).queue 7
     let ahead := fun (a : Nat) => (a + 2 ^ x.log2n.toNat - x.head.toNat) % 2 ^ x.log2n.toNat
     15 < 2 ^ x.log2n.toNat ∧ ahead x.tail.toNat < ahead 15 ∧ 2 ^ x.log2n.toNat ≤ 16 ∧ ahead 1 < ahead x.tail.toNat) ∧
    (State.reset.host.warmBusy = false ∧ (hosted (fun h => { h with warmBusy := true })).host.warmBusy = true) ∧
    (State.reset.flight = [] ∧ State.reset.poisoned 2 = false ∧ entryState (State.reset.entry 2) = 5) ∧
    ((rough []).poisoned 3 = true ∧ entryState ((rough []).entry 2) = 6) ∧ State.reset.Canonical := by
  refine ⟨by decide, by decide, by decide, by decide, by decide, ⟨rfl, rfl⟩, ⟨rfl, rfl, rfl⟩, ⟨rfl, rfl⟩, ⟨rfl, rfl, rfl⟩⟩

/-- Reads: the port's writes behind it, a register of each kind, the last byte of memory and one beyond, sectors that answer and that do not. -/
theorem witness_host_reads :
    (State.reset.portUp 0 = true ∧ (∀ o ∈ State.reset.flight, (o.src.host.map Prod.fst) ≠ some (0 : BitVec 1))) ∧
    ((0x100178 : BitVec 40).toNat % 2^20 = 0x100 + 8 * (15 : BitVec 4).toNat ∧ (0x230 : BitVec 40).toNat % 2^20 = 0x230) ∧
    ((0x9502F8FFFF : BitVec 40).toNat + (1 : BitVec 12).toNat ≤ State.reset.memBytes ∧
      State.reset.memBytes < (0x9502F8FFFF : BitVec 40).toNat + (2 : BitVec 12).toNat) ∧
    (∀ c, (0x40 : BitVec 40).toNat / 32 ≤ c ∧ c ≤ ((0x40 : BitVec 40).toNat + (32 : BitVec 12).toNat - 1) / 32 →
      State.reset.poisoned c = false ∧ entryState (State.reset.entry c) = 5) ∧
    (∃ c, (0x40 : BitVec 40).toNat / 32 ≤ c ∧ c ≤ ((0x40 : BitVec 40).toNat + (33 : BitVec 12).toNat - 1) / 32 ∧
      (rough []).poisoned c = true) := by
  refine ⟨⟨rfl, by intro o ho; simp [State.reset] at ho⟩, by decide, by decide, ?_, ⟨3, by decide, by decide, rfl⟩⟩
  intro c _
  have h : State.reset.entry c = 5 := rfl
  exact ⟨rfl, by rw [h]; decide⟩

/-- A write of the host on its way; a second one of that writer to the same byte behind it, and one of another requester. -/
theorem witness_store_arrival :
    let o := fun (req : BitVec 16) => ({
      src := { pos := posUnit, owner := none, strict := false, hart := none, lead := none, host := some (0, req) }, bytes := [(0x40, 1)]
      sent := 0 } : Outbound)
    let s : State := { State.reset with flight := [o 0, o 0, o 1] }
    s.Canonical ∧ s.flight[0]? = some (o 0) ∧ s.flight[1]? = some (o 0) ∧ s.flight[2]? = some (o 1) ∧ s.flight.take 0 = [] ∧
    (∃ p ∈ s.flight.take 1, p.src.same (o 0).src = true ∧ ∃ b ∈ p.bytes, ∃ c ∈ (o 0).bytes, b.1 = c.1) ∧
    (∀ p ∈ s.flight.take 2, p.src.same (o 1).src = false) ∧ s.heldUp (o 0) = false ∧
    (let x : Outbound := { o 0 with src := { (o 0).src with strict := true } }
     let z : State := { rough [] with flight := [x], posted := [{ target := 0, record := mkEvent 0x04 0 0 0 0x40, region := 0 }] }
     z.flight[0]? = some x ∧ z.heldUp x = true) := by
  refine ⟨⟨rfl, rfl, rfl⟩, rfl, rfl, rfl, rfl, by decide, by decide, rfl, rfl, by decide⟩

/-- An event for a core and for a ring: with room, without it, behind an earlier one to its target, and behind one of its producer. -/
theorem witness_event_record (t : BitVec 32) (h : t = 0 ∨ t = 0x80000000) :
    let p : Posted := { target := t, record := 7, region := 0 }
    let q : Posted := { p with target := 2 }
    let s : State := { State.reset with posted := [p, p], cores := [(0, { Core.reset with evq := 0x1000 })], rings := [(0, { Ring.reset with enable := true })] }
    let full : State := { s with cores := [(0, { Core.reset with evq := 0x1000, evTail := 256 })], rings := [] }
    let behind := fun (s : State) (k : Nat) => (s.posted.take k).any (fun x => x.target == p.target || producer x.record == producer p.record)
    s.Canonical ∧ s.Slots ∧ s.posted[0]? = some p ∧ behind s 0 = false ∧ s.posted[1]? = some p ∧ behind s 1 = true ∧
    behind { s with posted := [q, p] } 1 = true ∧ (s.core 0).evTail - (s.core 0).evHead < 2 ^ ((s.core 0).evq.toNat / 256 % 16 + 8) ∧
    s.evqLoc 0 (s.core 0).evTail = some 0x1000 ∧ 2 ^ ((full.core 0).evq.toNat / 256 % 16 + 8) ≤ (full.core 0).evTail - (full.core 0).evHead ∧
    (sget Ring.reset s.rings 0).enable = true ∧ ((sget Ring.reset s.rings 0).tail - (sget Ring.reset s.rings 0).head).toNat < 2 ^ (sget Ring.reset s.rings 0).log2n.toNat ∧
    (sget Ring.reset full.rings 0).enable = false := by
  rcases h with h | h <;> subst h <;> exact ⟨⟨rfl, rfl, rfl⟩, slots_alone _ rfl, rfl, rfl, rfl, by decide, by decide, by decide, by decide, by decide,
    rfl, by decide, rfl⟩

/-- A queue with a record at 0x400, which asks for one lane set in slot 8. -/
def queued (rec : List Host.Cell) : State :=
  { State.reset with mem := rec, queues := [(7, { WorkQueue.reset with base := 0x400, enable := true, tail := 1 })] }

/-- A record that is held, one that is rejected, one that cannot be read, and an idle queue. -/
theorem witness_work_queue :
    (let s := queued [(0x412, 0x11), (0x41C, 8), (0x41D, 0x80)]
     s.Canonical ∧ s.Slots ∧ s.host.warmBusy = false ∧ (s.queue 7).enable = true ∧ (s.queue 7).head ≠ (s.queue 7).tail ∧
       (s.starts.any (fun h => h.queue == 7) || s.holdsRecord (0x01, 7)) = false ∧
     s.unitReadable 0x400 64 = true ∧ s.startReason (s.queue 7).root (BitVec.ofNat 512 (s.homeNat 0x400 64)) = 0) ∧
    (let s := queued []
     s.startReason (s.queue 7).root (BitVec.ofNat 512 (s.homeNat 0x400 64)) ≠ 0) ∧
    (let s : State := { queued [] with turn := [(0x20, mkEntry 6 0 0)] }
     s.unitReadable 0x400 64 = false) ∧ (State.reset.queue 7).enable = false ∧
    ({ State.reset with posted := [{ target := 0, record := mkEvent 0x01 2 0 7 0, region := 0 }] } : State).holdsRecord (0x01, 7) = true ∧
    ({ State.reset with posted := [{ target := 0, record := mkEvent 0x01 0 0 7 0, region := 0 }] } : State).holdsRecord (0x01, 7) = false := by
  refine ⟨⟨⟨by decide, rfl, rfl⟩, slots_alone _ rfl, rfl, rfl, by decide, rfl, by decide +kernel, ?_⟩, ?_, ?_, rfl, ?_, ?_⟩ <;> decide +kernel

/-- A held record that starts, and a task that is dispatched; either with its region's control block turned far enough, and pending. -/
theorem witness_start (ok : Bool) :
    (let h : HeldStart := { queue := 7, record := BitVec.ofNat 512 (0x11 * 2^144 + 0x8008 * 2^224), time := 0 }
     let s : State := { queued [] with starts := [h], turn := if ok then [] else [(2, mkEntry 6 0 0)] }
     s.Canonical ∧ s.Slots ∧ s.starts[0]? = some h ∧ s.replayOf h.region = 0 ∧
     firstBy s.startBefore (s.starts.filter s.startNow) = some h ∧ s.startSlot h = some 8 ∧ startGang h.record = 1 ∧
     s.starts[1]? = none ∧ s.regionValid h.region = ok) ∧
    (let t : Task := { task with pool := some (0, 0) }
     let s : State := { State.reset with tasks := [t], turn := if ok then [] else [(2, mkEntry 6 0 0)] }
     s.Canonical ∧ s.Slots ∧ s.host.warmBusy = false ∧ s.poolHead 0 = some t ∧ (∀ x ∈ s.poolTasks 0, s.replayOf x.region ≠ 2) ∧ s.taskSlot 0 t = some 8 ∧
       s.poolTasks 1 = [] ∧
     s.regionValid t.region = ok ∧ s.holdsRecord (0x03, (homeDie t.tcb).toNat) = false ∧
     ({ s with posted := [{ target := 0, record := mkEvent 0x03 0 0 1 t.tcb, region := 0 }] } : State).holdsRecord (0x03, (homeDie t.tcb).toNat) =
       true) := by
  cases ok <;> refine ⟨⟨⟨rfl, rfl, rfl⟩, slots_alone _ rfl, rfl, ?_⟩, ⟨rfl, rfl, rfl⟩, slots_alone _ rfl, ?_⟩ <;> decide +kernel

/-- A swap control block at 0x1000 with one request, one slot and 512-byte blocks, a page table at 0x10000 that maps address 0 to 0x20000,
and session 0 of `g` positions. -/
def swapping (kind etype g : Byte) (more : List Host.Cell) : State :=
  { hosted (fun h => { h with swapcb := 0x1001 }) with
    pairs := 1
    mem := (if g = 0 then [] else [(8, g)]) ++ [(0x4A, 1), (0x1001, 0x20), (0x1008, 1), (0x1010, 4), (0x1011, 4), (0x1012, 4),
      (0x1013, 9)] ++ more ++ [(0x1050, 1), (0x1059, 0x30), (0x2000, kind)] ++
      (if etype = 0 then [] else [(0x2001, etype)]) ++ [(0x10000, 1), (0x10001, 0x10), (0x10002, 1), (0x11000, 1), (0x11001, 0x20), (0x11002, 1),
        (0x12000, 1), (0x12001, 0x30), (0x12002, 1), (0x13000, 1), (0x13002, 2)] }

/-- A request in hand. -/
def request (kind : BitVec 8) : SwapRequest := { kind := kind, etype := 0, region := 0, target := 0, object := 0, user := 0 }

/-- Requests of every kind and of none, one with a field that breaks the table, and no request. -/
theorem witness_swap_requests :
    (State.reset.nextRequest = none ∧ State.reset.toResume = none ∧
      (let s : State := { swapping 1 0 0 [] with mem := (swapping 1 0 0 []).mem.filter (fun c => c.1 ≠ 0x1008), resumes := [0] }
       s.nextRequest = none ∧ s.toResume = some 0)) ∧
    (∀ kind etype : Byte, (kind = 1 ∧ etype = 10 ∨ kind = 2 ∧ etype = 0 ∨ kind = 3 ∧
      etype = 0) → ∃ q, (swapping kind etype 0 []).nextRequest = some q ∧
      q.kind = kind ∧ (swapping kind etype 0 []).requestOk q = true) ∧
    (∀ kind etype : Byte, (kind = 1 ∧ etype = 0 ∨ kind = 2 ∧ etype = 10 ∨ kind = 3 ∧ etype = 10 ∨ kind = 4 ∧ etype = 0) → ∃ q,
      (swapping kind etype 0 []).nextRequest = some q ∧ q.kind = kind ∧ (swapping kind etype 0 []).requestOk q = false) := by
  refine ⟨by decide +kernel, ?_, ?_⟩
  · intro kind etype h
    rcases h with ⟨a, b⟩ | ⟨a, b⟩ | ⟨a, b⟩ <;> subst a <;> subst b <;> refine ⟨_, rfl, ?_, ?_⟩ <;> decide +kernel
  · intro kind etype h
    rcases h with ⟨a, b⟩ | ⟨a, b⟩ | ⟨a, b⟩ | ⟨a, b⟩ <;> subst a <;> subst b <;> refine ⟨_, rfl, ?_, ?_⟩ <;> decide +kernel

/-- An eviction that copies nothing, one that finds no slot; a slot map apart from the control
block; a page that is there; a session that is not on flash, and one that is, with a supply and without. -/
theorem witness_evictions :
    (let s := swapping 1 10 0 []
     let q : SwapRequest := { request 1 with etype := 10 }
     s.nextRequest = some q ∧ s.requestOk q = true ∧ s.Canonical ∧ s.cbLoc + 128 ≤ s.cb 88 8 ∧
     ((s.takeRequest q).copyBlocks (s.sess 0) 10 0 (s.sess 0).blocks []).2.2 = 0) ∧
    (let s := swapping 1 10 1 []
     let t : State := { s with mem := s.mem.filter (fun c => c.1 ≠ 0x1050) }
     let q : SwapRequest := { request 1 with etype := 10 }
     t.nextRequest = some q ∧ t.requestOk q = true ∧
     ((t.takeRequest q).copyBlocks (t.sess 0) 10 0 (t.sess 0).blocks []).2.2 ≠ 0) ∧
    (let s := swapping 3 0 0 []
     let q := request 3
     let u := s.takeRequest q
     s.nextRequest = some q ∧ s.requestOk q = true ∧ q.object.toNat < 2^57 ∧
     u.pageEntry (u.resolved 0 8 72 8) 0 4 = some (0x13000, 0x20001) ∧ pteBad 0x20001 = false ∧ nbit 0x20001 0 = true ∧
       nbit 0x20001 8 = false ∧
     ((u.takeSlot q.region).map (fun p => (p.2, p.1.unitReadable (u.unitLoc (nbits 0x20001 12 40 * 4096)) 4096))) = some (0, true)) ∧
    (let s := swapping 2 0 0 []
     s.nextRequest = some (request 2) ∧ s.requestOk (request 2) = true ∧ ((s.takeRequest (request 2)).sess 0).state ≠ 6) ∧
    (let s : State := { swapping 2 0 0 [] with mem := (0, 6) :: (swapping 2 0 1 []).mem }
     let u := s.takeRequest (request 2)
     s.nextRequest = some (request 2) ∧ s.requestOk (request 2) = true ∧ (u.sess 0).state = 6 ∧ u.supplyEmpty = true ∧ (u.sess 0).g ≠ 0) ∧
    (let s : State := { swapping 2 0 0 [] with mem := (0, 6) :: (swapping 2 0 1 [(0x1030, 1)]).mem }
     (s.takeRequest (request 2)).supplyEmpty = false) := by
  refine ⟨?_, ?_, ?_, ?_, ?_, ?_⟩
  · refine ⟨?_, ?_, ⟨?_, rfl, rfl⟩, ?_, ?_⟩ <;> decide +kernel
  all_goals decide +kernel

/-- An eviction with a copy under way; one whose session is IDLE, or is not; a page's entry as copied, or changed; a release with room in
the return ring, and without. -/
theorem witness_releases :
    (let v : Eviction := { req := request 1, copied := [(0x40, 0, 0)], committed := false }
     let s : State := { State.reset with evict := some v, nvme := [{ object := 0x40, op := .write, retried := false }] }
     s.evict = some v ∧ v.req.kind ≠ 2 ∧ s.nvme.any (fun n => n.op == .write && v.copied.any (fun d => d.1 == n.object)) = true) ∧
    (let s : State := { State.reset with mem := [(0, 1), (8, 1)] }
     (s.sess 0).state = 1 ∧ s.fhead (s.sess 0).fq = s.ftail (s.sess 0).fq ∧ (State.reset.sess 0).state ≠ 1 ∧
     ((({ State.reset with mem := [(0, 5)] } : State).endRequest (request 1) 0).sess 0).state = 5 ∧
     (State.reset.endRequest (request 1) 0).swapOn = false ∧
     (let s : State := { swapping 1 10 0 [] with mem := (0, 5) :: (swapping 1 10 1 []).mem }
      (s.endRequest (request 1) 0).swapOn = true ∧ (s.endRequest (request 1) 0).lbaOk = true ∧
        ((s.endRequest (request 1) 0).sess 0).state = 5)) ∧
    (State.reset.homeNat 0x40 8 = 0 ∧ State.reset.homeNat 0x40 8 ≠ 1 ∧ State.reset.Canonical) ∧
    (State.reset.evict = none ∧ State.reset.returnRoom = true ∧ ({ State.reset with mem := [(64, 1)] } : State).returnRoom = false ∧
      (request 3).kind = 3) ∧
    (let v : Eviction := { req := request 1, copied := [(0x100, 5, 0)], committed := true }
     let z := fun (s : State) => ({ s with evict := some { v with copied := [] } } : State).unitPut (s.sess 0).region 0x100 4 (5 + 8 * 2^28)
     v.pbn = none ∧ v.req.kind ≠ 3 ∧ State.reset.homeNat 0x100 4 = 0 ∧ ({ State.reset with mem := [(0x100, 1)] } : State).homeNat 0x100 4 ≠ 0 ∧
     (z State.reset).returnRoom = true ∧ (z { State.reset with mem := [(64, 1)] }).returnRoom = false) := by
  refine ⟨⟨rfl, by decide, rfl⟩, ?_, ⟨rfl, by decide, ⟨rfl, rfl, rfl⟩⟩, ⟨rfl, ?_, ?_, rfl⟩, rfl, ?_⟩ <;> decide +kernel

/-- A fetch of the page whose entry stands at 0x13000. -/
def pageFetch (started : Option (Nat × Nat)) (landed : Bool) : Fetch :=
  { entry := 0x13000, page := true, origin := 0, started := started, tickets := [], region := 0, session := none, cls := 1, landed := landed }

/-- That page away, with a PBN in the ring or without. -/
def away (more : List Host.Cell) (f : Fetch) : State :=
  let s := swapping 1 10 0 more
  { s with mem := s.mem.filter (fun c => c.1 < 0x13000) ++ [(0x13007, 0x80)], fetches := [f] }

/-- A fetch whose entry is not away, with room for the records of the harts it wakes and without; one that may start, of a page, of a block
and of a resume in a stopped engine, with a PBN and without, and one that a stopped engine does not start; one that has not landed, and one
whose slot holds nothing, while the engine holds a record and not. -/
theorem witness_fetches :
    (let s : State := { State.reset with fetches := [pageFetch none false] }
     s.entryAway 0x13000 true = false ∧ s.overRoom (pageFetch none false) = true) ∧
    (let s := hart (fun h => { h with wait := .fault [0x13000], replay := 1 }) { State.reset with mem := [(8, 1)], fetches := [pageFetch none false] }
     s.entryAway 0x13000 true = false ∧ s.overRoom (pageFetch none false) = false) ∧
    (let s := away [(0x1030, 1)] (pageFetch none false)
     let m := s.markInFlight (pageFetch none false)
     s.Canonical ∧ s.entryAway 0x13000 true = true ∧ s.swapOn = true ∧ s.lbaOk = true ∧
       (firstBy fetchBefore s.startable).map Prod.fst = some 0 ∧
     s.entryRegion (pageFetch none false) = 0 ∧ m.cb 48 4 ≠ m.cb 52 4 ∧ ({ s with pairs := 0 } : State).swapOn = false ∧
     s.fetchBegun (pageFetch none false) = false ∧
     (let w : Building := { step := 1, ids := [], left := [], changed := [], cuts := [0x13000], pages := [] }
      (hart (fun h => { h with building := some w }) s).buildCut 0x13000 = true)) ∧
    (let f : Fetch := { pageFetch none false with entry := 0x40, page := false }
     let s : State := { away [(0x1030, 1)] f with mem := (0x43, 0x80) :: (away [(0x1030, 1)] f).mem }
     let m := s.markInFlight f
     s.Canonical ∧ s.entryAway 0x40 false = true ∧ s.swapOn = true ∧ s.lbaOk = true ∧
       (firstBy fetchBefore s.startable).map Prod.fst = some 0 ∧
     m.cb 48 4 ≠ m.cb 52 4) ∧
    (let f : Fetch := { pageFetch none false with entry := 0x40, page := false, session := some 0 }
     let v : Eviction := { req := request 2, copied := [], committed := true }
     let s : State := { away [] f with mem := (0x43, 0x80) :: (away [] f).mem, pairs := 0, evict := some v }
     let m := s.markInFlight f
     s.entryAway 0x40 false = true ∧ s.fetchBegun f = true ∧ s.lbaOk = true ∧ (firstBy fetchBefore s.startable).map Prod.fst = some 0 ∧
     m.cb 48 4 = m.cb 52 4) ∧
    (let f := pageFetch (some (0, 0)) true
     let s := away [] f
     s.fetches[0]? = some f ∧ s.overRoom f = true ∧ s.entryAway 0x13000 true = true ∧ s.slotData true 0 = none ∧
       s.holdsRecord (0x05, 0) = false ∧
     ({ s with posted := [{ target := 0, record := mkEvent 0x05 0 0 0 0, region := 0 }] } : State).holdsRecord (0x05, 0) = true) := by
  refine ⟨?_, ?_, ⟨⟨?_, rfl, rfl⟩, ?_⟩, ⟨⟨?_, rfl, rfl⟩, ?_⟩, ?_, ?_⟩ <;> decide +kernel

/-- A slot that holds a stream of no block, its header's check as CRC-32C gives it, and the two block sizes. -/
theorem witness_slot :
    let f : Fetch := { pageFetch (some (0, 0)) true with entry := 0x40, page := false }
    let s : State := { hosted (fun h => { h with swapcb := 0x1001 }) with
      mem := [(0x43, 0x80), (0x1013, 7)], fetches := [f]
      flash := [(0, 1), (1, 6), (2, 66), (3, 83), (4, 10), (5, 1), (12, 96), (13, 33), (14, 53), (15, 39)] }
    s.entryAway 0x40 false = true ∧ (s.slotData false 0).isSome = true ∧ canonical 0 s.flash = true ∧
    (List.replicate 4096 (0 : Byte)).length = 4096 ∧ (away [] f).cb 19 1 = 9 := by
  refine ⟨?_, ?_, rfl, List.length_replicate, ?_⟩ <;> decide +kernel

/-- Commands of each kind, tried for the first time and again, in the device's queues and before them; a copy whose entry stands as it was
read; an engine that holds a record and one that does not. -/
theorem witness_nvme :
    let n : Nvme := { object := 0x40, op := .read, retried := false }
    let w : Nvme := { object := 0x40, op := .write, retried := true }
    let a := fun (op : NvmeOp) => ({ object := 0, op := op, retried := true } : Nvme)
    let f : Fetch := { pageFetch none false with entry := 0x40, page := false }
    let v : Eviction := { req := request 1, copied := [(0x40, 2^28 - 1, 7)], committed := false }
    let s : State := { State.reset with nvme := [n, w, { n with retried := true }], fetches := [f], evict := some v, mem := [(0x40, 7)], pairs := 1 }
    s.Canonical ∧ s.nvme[0]? = some n ∧ s.nvme[1]? = some w ∧ s.submitted 0 n = true ∧ s.submitted 1 w = true ∧
      State.reset.submitted 0 n = false ∧
    n.op = .read ∧ n.retried = false ∧ w.op = .write ∧ w.retried = true ∧ w.op.isAdmin = false ∧
    (∀ op ∈ [NvmeOp.identify, .createCq, .createSq, .getLogPage], State.reset.submitted 0 (a op) = true ∧ (a op).retried = true) ∧
    s.fetches.find? (fun f => f.entry == n.object) = some f ∧ s.evict = some v ∧ s.holdsRecord (0x05, 0) = false ∧
    ({ s with posted := [{ target := 0, record := mkEvent 0x05 0 0 0 0, region := 0 }] } : State).holdsRecord (0x05, 0) = true ∧
    v.copied.find? (fun d => d.1 == 0x40) = some (0x40, 2^28 - 1, 7) ∧ v.req.kind ≠ 3 ∧ s.homeNat 0x40 4 = 7 := by
  refine ⟨⟨rfl, rfl, rfl⟩, ?_⟩
  decide

/-- Data in the arrays and elsewhere, homed here, in the host and nowhere; an access by a hart of another region, in a strip and not; a copy of the sector and none; parts of
one die and two; links at the ends of the range, a token in flight, an access and a command without a path; profiling and none. -/
theorem witness_errors :
    (State.reset.arrayLoc 0 0x40 = some 0x40 ∧ State.reset.arrayLoc 0 0x8000000000000 = none ∧ State.reset.twoDie = true ∧
      ({ State.reset with twoDie := false } : State).twoDie = false ∧ State.reset.hart? 0 = some State.reset.h ∧
      State.reset.locate 0 0x40 = some (0x40, 3) ∧ isHost 0x40 = false ∧ State.reset.locate 0 0x8000000000000 = some (0x8000000000000, 5) ∧
      isHost 0x8000000000000 = true ∧ State.reset.under 0 0 = true ∧ State.reset.locate 0 0xA000000000 = none) ∧
    (let s : State := { State.reset with turn := [(2, mkEntry 5 0 5)], mem := [(0x282, 5)] }
     s.h.st ≠ .free ∧ s.h.gang = none ∧ s.h.stripOpen = true ∧ s.under s.h.region (entryOwner (s.entry (sectorOf 0x40))) = false ∧
     s.under s.h.region (entryOwner (s.entry (sectorOf 0x60))) = true) ∧
    (let x : Copy := { place := .core 0, sector := 2, data := 0, filled := 0, strict := false, bars := [], early := none, xlat := [] }
     (∃ y ∈ ({ State.reset with copies := [x] } : State).copies, y.sector = sectorOf 0x40) ∧ (∀ y ∈ State.reset.copies, y.sector ≠ 2)) ∧
    ((0 : BitVec 5).toNat < 19 ∧ (18 : BitVec 5).toNat < 19 ∧ (17 : BitVec 5).toNat < 18 ∧
      (({ State.reset with nets := State.reset.nets.set 0 { Net.reset with tokens := [token] } } : State).net 0).tokens[0]? = some token ∧
      token.hart = State.reset.h.id ∧ State.reset.h.st ≠ .free ∧ State.reset.h.preempt = false) ∧
    ((hart (fun h => { h with wait := .remote 5 }) State.reset).h.wait = .remote 5 ∧ State.reset.linksDown = true ∧
      (hosted (fun h => { h with linkst := 1 })).linksDown = false) ∧
    (let s := hart (fun h => { h with wait := .saving 0 1 5 }) { State.reset with others := [(1, { Hart.blank 1 with st := .ready })] }
     s.h.wait = .saving 0 1 5 ∧ s.h.st ≠ .free ∧ s.linksDown = true ∧ (s.hart? 1).isSome = true) ∧
    (State.reset.holdsRecord (0x05, 0) = false ∧
      ({ State.reset with posted := [{ target := 0, record := mkEvent 0x05 0 0 0 0, region := 0 }] } : State).holdsRecord (0x05, 0) = true) ∧
    (let c := command .dm (.dmov [0x4010000000000, 0, 0x100000001, 0] 0)
     let s : State := { State.reset with cmds := [c], domain := 2 }
     s.linksDown = true ∧ (s.pathless s.h.id).isSome = true) ∧
    (State.reset.profiled = false ∧ (hart (fun h => { h with expert := true, tracectl := 0x10000 }) State.reset).profiled = true) := by
  refine ⟨⟨by decide, by decide, rfl, rfl, rfl, by decide⟩, ⟨by decide, rfl, rfl, by decide +kernel, by decide +kernel⟩, by decide, by decide,
    by decide, by decide, by decide, ⟨rfl, by decide⟩, by decide⟩

/-- A record to write, with room and without, with its slot unmapped, and none. -/
theorem witness_observation :
    let r : ObsRecord := { hart := 0, buffer := 0x400C, region := 0, record := 7, lost := 0 }
    let s : State := { State.reset with cores := [(0, { Core.reset with obs := [r] })] }
    let t : State := { s with mem := [(0x4000, 126)] }
    (State.reset.core 0).obs = [] ∧ (s.core 0).obs = [r] ∧ s.bufferLoc r 0 = some 0x4000 ∧ (s.core 0).gap = 0 ∧ r.lost = 0 ∧
      s.Canonical ∧ t.Canonical ∧
    t.bufferLoc r 0 = some 0x4000 ∧ r.slots ≤ t.homeNat 0x4000 8 - t.homeNat 0x4008 8 ∧ s.homeNat 0x4000 8 - s.homeNat 0x4008 8 < r.slots ∧
    s.bufferLoc r (64 + 32 * (s.homeNat 0x4000 8 % r.slots)) = some 0x4040 ∧ 0x4000 + 8 ≤ 0x4040 ∧ s.slotMapped r 0 = true ∧
    State.reset.bufferLoc { r with buffer := 0x9502F8F00D } 0 = some 0x9502F8F000 ∧
      State.reset.slotMapped { r with buffer := 0x9502F8F00D } 126 = false :=
  ⟨rfl, rfl, rfl, rfl, rfl, ⟨rfl, rfl, rfl⟩, ⟨rfl, rfl, rfl⟩, rfl, by decide, by decide, by decide, by decide, by decide, rfl, by decide⟩

/-- A sampled hart, a strip with a limit and without, a request pending and not, and a `vwait` that is met, or not, with a limit and without. -/
theorem witness_waits :
    (let s := hart (fun h => { h with trace := true, tracectl := 2 }) State.reset
     s.h.st ≠ .free ∧ s.h.trace = true ∧ s.h.tracectl.getLsbD 1 = true ∧ s.hart? (otherSlot s.h.id) = none ∧
       (s.core (coreOf s.h.id)).obs.length < 8) ∧
    (let s := hart (fun h => { h with expert := true, stripctl := 0x100 }) State.reset
     s.h.expert = true ∧ s.h.stripctl.toNat / 2^8 % 2^32 ≠ 0 ∧ s.h.stripOpen = true ∧ State.reset.h.expert = false) ∧
    (State.reset.h.st = .running ∧ State.reset.h.gang = none ∧ State.reset.h.wait = .none ∧ State.reset.h.isEnding = false ∧
      State.reset.h.amo = none ∧ State.reset.h.preempt = false ∧ (hart (fun h => { h with preempt := true }) State.reset).h.preempt = true ∧
        State.reset.others = [] ∧ State.reset.h.stripOpen = true) ∧
    (let s := hart (fun h => { h with expert := true, tracectl := 0x10000 }) State.reset
     s.h.intrusive = true ∧ s.regionStopped s.h.region = false ∧
       ({ s with stoppedRegions := [(0, true)] } : State).regionStopped s.h.region = true ∧
       State.reset.h.intrusive = false) ∧
    (let cells := fun (b : Nat) (lim : Bool) => hart (fun h => { h with st := .parked, wait := .cells 64 0 1 lim [(0, 0x40, 3, b, false)] }) State.reset
     let met := fun (s : State) (x : Nat × Nat × Nat × Nat × Bool) => x.2.2.2.2 || (s.homeReady x.2.2.1 (sectorOf x.2.1) && waitCond 0 (s.homeNat x.2.1 8) x.2.2.2.1)
     (cells 0 true).h.st = .parked ∧ (cells 0 true).h.replay = 0 ∧ (cells 0 true).h.wait = .cells 64 0 1 true [(0, 0x40, 3, 0, false)] ∧
     [(0, 0x40, 3, 0, false)].all (met (cells 0 true)) = true ∧ [(0, 0x40, 3, 1, false)].all (met (cells 1 true)) = false ∧
     (cells 1 false).h.wait = .cells 64 0 1 false [(0, 0x40, 3, 1, false)]) :=
  ⟨⟨by decide, rfl, rfl, rfl, by decide⟩, ⟨rfl, by decide, rfl, rfl⟩, ⟨rfl, rfl, rfl, rfl, rfl, rfl, rfl, rfl, rfl⟩,
    ⟨rfl, rfl, rfl, rfl⟩, rfl, rfl, rfl, by decide, by decide, rfl⟩

/-- Which way Primer goes is the boot image's, which the model leaves free: one of the two clauses holds. Reset bit and none; a port that is
up with a responder in each state. -/
theorem witness_package :
    ((primer Config.bootImage none (Config.clearFails 0)).fail = 0 ∨ (primer Config.bootImage none (Config.clearFails 0)).fail ≠ 0) ∧
    ((0 : BitVec 64).getLsbD 0 = false ∧ (1 : BitVec 64).getLsbD 0 = true ∧ State.reset.host.warmBusy = false) ∧
    (let s := hosted (fun h => { h with warmBusy := true })
     s.host.warmBusy = true ∧ s.Slots ∧ (∀ h ∈ s.harts, s.warmKeeps h = false) ∧ s.warmStop.harts = [] ∧ s.warmStop.cmds = [] ∧
     s.warmStop.evict = none ∧ s.warmStop.fetches = [] ∧
     ({ s with evict := some { req := request 1, copied := [], committed := false } } : State).warmStop.evict ≠ none) ∧
    (State.reset.portUp 0 = true ∧ (State.reset.spdmOf 0).version = false ∧ (State.reset.spdmOf 0).algs = false) ∧
    (let s := hosted (fun h => { h with spdm := Vector.replicate 2 { version := true, caps := true, algs := true } })
     (s.spdmOf 0).version = true ∧ (s.spdmOf 0).caps = true ∧ (s.spdmOf 0).algs = true) ∧
    ((0x100 : BitVec 32).getLsbD 8 = true ∧ (4 : BitVec 32).getLsbD 2 = true ∧ (0 : BitVec 32).getLsbD 8 = false ∧
      (0 : BitVec 32).getLsbD 2 = false) ∧
    (1 ≤ (1 : BitVec 8).toNat ∧ (8 : BitVec 8).toNat ≤ 8) ∧
    (State.reset.Canonical ∧ (∀ c ∈ State.reset.held, isHost c.1 = true) ∧ isRemote (32 * 2) = false ∧ isRemote 0x4010000000000 = true ∧
      State.reset.evict = none) :=
  ⟨Decidable.em _, ⟨by decide, by decide, rfl⟩, ⟨rfl, slots_alone _ rfl, by decide, rfl, rfl, rfl, rfl, by decide⟩, ⟨rfl, rfl, rfl⟩, ⟨rfl, rfl, rfl⟩, by decide, by decide,
    ⟨⟨rfl, rfl, rfl⟩, by intro c hc; simp [State.reset] at hc, by decide, by decide, rfl⟩⟩

/-! #### `ctxload` -/

/-- An image of the system region at 0x100000, with one lane set at least, and a FREE slot beside the loading hart. -/
def imaged : State := { State.reset.modR (fun r => (r.writeS 1 0x100000).writeS 2 1) with mem := [(0x100000, 1), (0x100001, 6), (0x100002, 0x58), (0x100003, 0x43)] }

/-- The first unit read; the last one behind 82 that the slot holds, with TLSW; a wrong MAGIC, a region that is no descendant, a unit that
cannot be read; a full slot. -/
theorem witness_context_load :
    (let s := imaged
     let c := s.closed
     let x := 0x43580601
     s.Quiet ∧ s.h.cur ≠ 0 ∧ c.hart? 1 = none ∧ s.h.eix.toNat ≤ imageUnits ∧ (s.h.r.readS 1).toNat % 4096 = 0 ∧
     ((((sfind c.loads 1).getD []).take s.h.eix.toNat).take 82) = [] ∧ (c.loadUnit (s.h.r.readS 1)).toOption = some x ∧
     headField x 0 4 = imageMagic ∧ c.under (BitVec.ofNat 16 (headField x 4 2)) s.h.region = true ∧
     c.regionEvq (BitVec.ofNat 16 (headField x 4 2)) = c.regionEvq s.h.region ∧
     nbits (imageCsr x 19).toNat 8 4 ≤ c.freeLanes (clusterOf s.myCore)) ∧
    (let us := 0x43580601 :: List.replicate 81 0
     let s := hart (fun h => { h with eix := 82 }) { imaged with loads := [(1, us)] }
     let c := s.closed
     s.Quiet ∧ ((((sfind c.loads 1).getD []).take s.h.eix.toNat).take 82) = us ∧ us.length + 1 = imageUnits ∧
     (c.loadUnit (s.h.r.readS 1 + BitVec.ofNat 64 (4096 * 82))).toOption = some 0 ∧
     (c.loadOne c.h (s.h.r.readS 1 + BitVec.ofNat 64 tlswOff) 8).toOption.map Prod.fst = some 0) ∧
    ((State.reset.closed.loadUnit 0x100000).toOption = some 0 ∧ headField 0 0 4 ≠ imageMagic) ∧
    (let s : State := { imaged with mem := (0x282, 5) :: imaged.mem ++ [(0x100004, 5)] }
     let c := s.closed
     let x := 0x543580601
     (c.loadUnit (s.h.r.readS 1)).toOption = some x ∧ headField x 0 4 = imageMagic ∧
       c.under (BitVec.ofNat 16 (headField x 4 2)) s.h.region = false) ∧
    ((blind []).closed.loadUnit 0x100000).toOption = none ∧
    (({ imaged with others := [(1, { Hart.blank 1 with st := .ready })] } : State).closed.hart? 1).isSome = true ∧
    ((atUser imaged).Quiet ∧ (atUser imaged).h.cur = 0) := by
  refine ⟨⟨⟨slots_alone _ rfl, rfl, fun _ => rfl, rfl, rfl, rfl⟩, by decide, rfl, by decide, by decide, rfl, ?_, ?_, ?_, ?_, ?_⟩,
    ⟨⟨slots_alone _ rfl, rfl, fun _ => rfl, rfl, rfl, rfl⟩, ?_, ?_, ?_, ?_⟩, ⟨?_, ?_⟩, ⟨?_, ?_, ?_⟩, ?_, rfl,
    ⟨slots_alone _ rfl, rfl, fun _ => rfl, rfl, rfl, rfl⟩, rfl⟩ <;> decide +kernel

/-- Table host.1 on a two-die package at reset: IDENT read through port 1, WQCTL and CRCTL of queue and ring 3. -/
theorem test_host_read : State.reset.hostRead 1 0 = 0xB602000000000001 ∧ State.reset.hostRead 0 0x100C8 = 0x40000 ∧
    State.reset.hostRead 0 0x80068 = 0x40000 := by decide

/-- Tables turn.8 and turn.9. -/
theorem test_slices : sliceOf 24 1000 = 9 ∧ sliceOf 24 200000 = 13 ∧ sliceOf 24 156249990 = 6 ∧ sliceOf 23 1000 = 8 ∧
    halfGranules / 22 = 7102272 := by decide

/-- Tables strips.5 and turn.7. -/
theorem test_bank_cycles :
    bankCycles 128 ((List.range 512).map (fun i => (0, 520 * i))) = 8 ∧
    bankCycles 128 ((List.range 512).map (fun i => (0, 4 * i))) = 4 ∧
    bankCycles 128 ((List.range 64).map (fun i => windowPlace (512 * i))) = 16 ∧
    bankCycles 128 ((List.range 64).map (fun i => windowPlace (640 * i))) = 4 := by decide +kernel

/-- R51's worked example: 128 products of 64 and 128, both scales 2^-80, onto +0; and a chunk with a NaN and infinities of both signs. -/
theorem test_chunk :
    chunkStep 0 0x17800000 0x17800000 (List.replicate 128 (.ofBits Fmt.e4m3 0x68, .ofBits Fmt.e4m3 0x70)) = (0x200, 0) ∧
    chunkSum [(.nan false, .fin false 1 0), (.inf false, .fin false 1 0), (.inf true, .fin false 1 0)] = (.nan false, flagNV) := by
  decide +kernel

/-- R182: an FP8 A with a BF16 B breaks the limit of register 6, and of no other, whatever its address and N. -/
theorem test_mma_pair : (mmaBad [1, 0, 0, (2^32 : Word) + 200 * 2^16 + 1, 2, 2, 8] false).findIdx? id = some 6 := by decide

end Sys2Proof.Tests
end

section
/-!
SUPPORT. The scalar forms that compute from two registers or from condition bits (R92, R93, R96, R97): what each of their values is
over the integers, how their words decode, and the statements that this settles.
-/

namespace Sys2Proof.Machine

/-! ### Shapes: what an arithmetic form, a comparison and a condition form leave -/

/-- A form of two registers writes its value to rd and goes on at PC + 4, whatever closed form `x` its value has. -/
theorem next_alu2 {s : State} {f : Word → Word → Word} {rd ra rb : BitVec 5} {x : Word}
    (hx : f (s.h.r.readS ra) (s.h.r.readS rb) = x) :
    (.next (s.alu2 f rd ra rb) : Res) = .next (s.ranOn (s.h.r.writeS rd x)) := by
  rw [State.alu2, done_eq_ranOn, hx]

/-- A comparison writes to cd whether the relation `p` that its condition names holds. -/
theorem next_cmpTo {s : State} {cd : BitVec 3} {cond : Nat} {a b : Word} {p : Prop} [Decidable p]
    (hp : compareW cond a b = decide p) :
    (.next (s.cmpTo cd cond a b) : Res) = .next (s.ranOn (s.h.r.writeC cd (decide p))) := by
  rw [State.cmpTo, done_eq_ranOn, hp]

/-! ### Sums, shifts and selections over the integers (R92) -/

theorem add_eq_ofNat (a b : Word) : a + b = BitVec.ofNat 64 (a.toNat + b.toNat) := by
  rw [BitVec.ofNat_add, BitVec.ofNat_toNat, BitVec.ofNat_toNat, BitVec.setWidth_eq, BitVec.setWidth_eq]

theorem sub_eq_ofInt (a b : Word) : a - b = BitVec.ofInt 64 (a.toInt - b.toInt) :=
  BitVec.eq_of_toInt_eq (by rw [BitVec.toInt_sub, BitVec.toInt_ofInt])

theorem getLsbD_and_not (a b : Word) {i : Nat} (hi : i < 64) : (a &&& ~~~b).getLsbD i = (a.getLsbD i && !b.getLsbD i) := by
  simp [hi]

theorem shiftLeft_eq_ofNat (a : Word) (n : Nat) : a <<< n = BitVec.ofNat 64 (a.toNat * 2 ^ n) :=
  BitVec.eq_of_toNat_eq (by rw [BitVec.toNat_shiftLeft, Nat.shiftLeft_eq, BitVec.toNat_ofNat])

theorem ushiftRight_eq_ofNat (a : Word) (n : Nat) : a >>> n = BitVec.ofNat 64 (a.toNat / 2 ^ n) := by
  rw [← Nat.shiftRight_eq_div_pow, ← BitVec.toNat_ushiftRight, BitVec.ofNat_toNat, BitVec.setWidth_eq]

theorem sshiftRight_eq_ofInt (a : Word) (n : Nat) : a.sshiftRight n = BitVec.ofInt 64 (a.toInt / 2 ^ n) := by
  rw [BitVec.sshiftRight_eq, Int.shiftRight_eq_div_pow]
  norm_cast

theorem minSigned_eq_ofInt (a b : Word) : (if a.toInt ≤ b.toInt then a else b) = BitVec.ofInt 64 (min a.toInt b.toInt) := by
  rw [Int.min_def, apply_ite (BitVec.ofInt 64), BitVec.ofInt_toInt, BitVec.ofInt_toInt]

theorem maxSigned_eq_ofInt (a b : Word) : (if a.toInt ≤ b.toInt then b else a) = BitVec.ofInt 64 (max a.toInt b.toInt) := by
  rw [Int.max_def, apply_ite (BitVec.ofInt 64), BitVec.ofInt_toInt, BitVec.ofInt_toInt]

theorem minUnsigned_eq_ofNat (a b : Word) : (if a.toNat ≤ b.toNat then a else b) = BitVec.ofNat 64 (min a.toNat b.toNat) := by
  rw [Nat.min_def, apply_ite (BitVec.ofNat 64), BitVec.ofNat_toNat, BitVec.ofNat_toNat, BitVec.setWidth_eq, BitVec.setWidth_eq]

theorem maxUnsigned_eq_ofNat (a b : Word) : (if a.toNat ≤ b.toNat then b else a) = BitVec.ofNat 64 (max a.toNat b.toNat) := by
  rw [Nat.max_def, apply_ite (BitVec.ofNat 64), BitVec.ofNat_toNat, BitVec.ofNat_toNat, BitVec.setWidth_eq, BitVec.setWidth_eq]

/-! ### The two halves of a product (R92) -/

/-- The low half is the product modulo 2^64, signed or not. -/
theorem toNat_mul_eq_emod (a b : Word) : ((a * b).toNat : Int) = a.toInt * b.toInt % 2 ^ 64 := by
  have h : a * b = BitVec.ofInt 64 (a.toInt * b.toInt) := by
    rw [BitVec.ofInt_mul, BitVec.ofInt_toInt, BitVec.ofInt_toInt]
  rw [h, BitVec.toNat_ofInt]
  omega

/-- A product of two signed words is small enough for its high half to be a signed word. -/
theorem toInt_mulHigh (a b : Word) : (wdI (a.toInt * b.toInt / 2 ^ 64)).toInt = a.toInt * b.toInt / 2 ^ 64 := by
  have hlo : -(2 ^ 126) ≤ a.toInt * b.toInt := BitVec.le_toInt_mul_toInt
  have hhi : a.toInt * b.toInt ≤ 2 ^ 126 := BitVec.toInt_mul_toInt_le
  exact BitVec.toInt_ofInt_eq_self (by decide) (by omega) (by omega)

theorem mulHigh_low_eq_mul (a b : Word) :
    (wdI (a.toInt * b.toInt / 2 ^ 64)).toInt * 2 ^ 64 + (a * b).toNat = a.toInt * b.toInt := by
  rw [toInt_mulHigh, toNat_mul_eq_emod]
  exact Int.ediv_mul_add_emod _ _

theorem toNat_mulHighUnsigned (a b : Word) : (wd (a.toNat * b.toNat / 2 ^ 64)).toNat = a.toNat * b.toNat / 2 ^ 64 := by
  have h : a.toNat * b.toNat < 2 ^ 64 * 2 ^ 64 := Nat.mul_lt_mul'' a.isLt b.isLt
  exact (BitVec.toNat_ofNat _ _).trans (Nat.mod_eq_of_lt (Nat.div_lt_of_lt_mul h))

theorem mulHighUnsigned_low_eq_mul (a b : Word) :
    (wd (a.toNat * b.toNat / 2 ^ 64)).toNat * 2 ^ 64 + (a * b).toNat = a.toNat * b.toNat := by
  rw [toNat_mulHighUnsigned, BitVec.toNat_mul]
  exact Nat.div_add_mod' _ _

/-! ### Division (R93) -/

theorem divide_by_zero (a : Word) :
    divS a 0 = 0xFFFFFFFFFFFFFFFF ∧ divU a 0 = 0xFFFFFFFFFFFFFFFF ∧ remS a 0 = a ∧ remU a 0 = a :=
  ⟨rfl, rfl, rfl, rfl⟩

theorem divide_overflow :
    divS 0x8000000000000000 0xFFFFFFFFFFFFFFFF = 0x8000000000000000 ∧ remS 0x8000000000000000 0xFFFFFFFFFFFFFFFF = 0 := by
  decide

theorem toNat_divU {a b : Word} (hb : b ≠ 0) : (divU a b).toNat = a.toNat / b.toNat := by
  rw [divU, if_neg hb, wd, ← BitVec.toNat_udiv, BitVec.ofNat_toNat, BitVec.setWidth_eq]

theorem toNat_remU {a b : Word} (hb : b ≠ 0) : (remU a b).toNat = a.toNat % b.toNat := by
  rw [remU, if_neg hb, wd, ← BitVec.toNat_umod, BitVec.ofNat_toNat, BitVec.setWidth_eq]

theorem divU_remU_spec {a b : Word} (hb : b ≠ 0) :
    (divU a b).toNat * b.toNat + (remU a b).toNat = a.toNat ∧ (remU a b).toNat < b.toNat := by
  rw [toNat_divU hb, toNat_remU hb]
  exact ⟨Nat.div_add_mod' _ _, Nat.mod_lt _ (Nat.pos_of_ne_zero fun h => hb (BitVec.eq_of_toNat_eq h))⟩

/-- The signed quotient is exact but for the one pair that overflows. -/
theorem toInt_divS {a b : Word} (hb : b ≠ 0) (ho : ¬(a = 0x8000000000000000 ∧ b = 0xFFFFFFFFFFFFFFFF)) :
    (divS a b).toInt = a.toInt.tdiv b.toInt := by
  rw [divS, if_neg hb, wdI, BitVec.toInt_ofInt, ← BitVec.toInt_sdiv]
  exact BitVec.toInt_sdiv_of_ne_or_ne a b (Decidable.not_and_iff_or_not.1 ho)

theorem toInt_remS {a b : Word} (hb : b ≠ 0) : (remS a b).toInt = a.toInt.tmod b.toInt := by
  rw [remS, if_neg hb, wdI, ← BitVec.toInt_srem, BitVec.ofInt_toInt]

theorem divS_mul_add_remS {a b : Word} (hb : b ≠ 0) (ho : ¬(a = 0x8000000000000000 ∧ b = 0xFFFFFFFFFFFFFFFF)) :
    (divS a b).toInt * b.toInt + (remS a b).toInt = a.toInt := by
  rw [toInt_divS hb ho, toInt_remS hb]
  exact Int.tdiv_mul_add_tmod _ _

theorem natAbs_remS_lt {a b : Word} (hb : b ≠ 0) : (remS a b).toInt.natAbs < b.toInt.natAbs := by
  rw [toInt_remS hb, Int.natAbs_tmod]
  exact Nat.mod_lt _ (Int.natAbs_pos.2 fun h => hb (BitVec.eq_of_toInt_eq h))

/-- A remainder other than zero has the sign of the dividend. -/
theorem remS_eq_zero_or_sign {a b : Word} (hb : b ≠ 0) : remS a b = 0 ∨ ((remS a b).toInt < 0 ↔ a.toInt < 0) := by
  have hs := Int.sign_tmod a.toInt b.toInt
  rw [← toInt_remS hb] at hs
  by_cases hd : b.toInt ∣ a.toInt
  · rw [if_pos hd, Int.sign_eq_zero_iff_zero] at hs
    exact .inl (BitVec.eq_of_toInt_eq hs)
  · rw [if_neg hd] at hs
    exact .inr (by rw [← Int.sign_eq_neg_one_iff_neg, hs, Int.sign_eq_neg_one_iff_neg])

/-- Settles O9: each form has the shape of a two-register form, and its value is the one named above. -/
theorem scalarArithmetic : Obligations.ScalarArithmetic := by
  unfold Obligations.ScalarArithmetic
  refine ⟨fun s rd ra rb => ?_, fun s rd ra rb => ?_, fun s rd ra rb => ?_⟩
  · exact ⟨next_alu2 (add_eq_ofNat _ _), next_alu2 (sub_eq_ofInt _ _),
      ⟨_, next_alu2 rfl, fun _ _ => BitVec.getLsbD_and⟩, ⟨_, next_alu2 rfl, fun _ _ => BitVec.getLsbD_or⟩,
      ⟨_, next_alu2 rfl, fun _ _ => BitVec.getLsbD_xor⟩, ⟨_, next_alu2 rfl, fun _ hi => getLsbD_and_not _ _ hi⟩,
      next_alu2 (shiftLeft_eq_ofNat _ _), next_alu2 (ushiftRight_eq_ofNat _ _), next_alu2 (sshiftRight_eq_ofInt _ _),
      next_alu2 (minSigned_eq_ofInt _ _), next_alu2 (maxSigned_eq_ofInt _ _),
      next_alu2 (minUnsigned_eq_ofNat _ _), next_alu2 (maxUnsigned_eq_ofNat _ _)⟩
  · exact ⟨_, _, _, mulHigh_low_eq_mul _ _, mulHighUnsigned_low_eq_mul _ _, next_alu2 rfl, next_alu2 rfl, next_alu2 rfl⟩
  · intro a b
    refine ⟨divS a b, remS a b, divU a b, remU a b, next_alu2 rfl, next_alu2 rfl, next_alu2 rfl, next_alu2 rfl,
      fun hb => ?_, fun ha hb => ?_, divU_remU_spec, fun hb ho => ?_⟩
    · rw [hb]
      exact divide_by_zero a
    · rw [ha, hb]
      exact divide_overflow
    · exact ⟨divS_mul_add_remS hb ho, natAbs_remS_lt hb, remS_eq_zero_or_sign hb⟩

end Sys2Proof.Machine
end

section
/-!
SUPPORT. Comparisons and condition bits (R96, R97): the relation that each condition names, the words of these forms field by field, and
the statement that this settles.
-/

namespace Sys2Proof.Machine

/-! ### Conditions (R96) -/

/-- What a condition's code compares, the operands read signed (2, 3) or unsigned (4, 5). -/
theorem compareW_eq (a b : Word) :
    compareW 0 a b = decide (a = b) ∧ compareW 1 a b = decide (a ≠ b) ∧
    compareW 2 a b = decide (a.toInt < b.toInt) ∧ compareW 3 a b = decide (a.toInt ≥ b.toInt) ∧
    compareW 4 a b = decide (a.toNat < b.toNat) ∧ compareW 5 a b = decide (a.toNat ≥ b.toNat) := by
  refine ⟨Bool.beq_eq_decide_eq a b, ?_, rfl, rfl, rfl, rfl⟩
  rw [compareW, Bool.beq_eq_decide_eq, decide_not]

theorem toInt_signExtend_imm (imm : BitVec 15) : (imm.signExtend 64).toInt = imm.toInt :=
  BitVec.toInt_signExtend_of_le (by decide)

/-- A form that leaves the strip open has the shape `ranOn`. -/
theorem next_done {s : State} {f : Regs → Regs} : (.next (s.done f) : Res) = .next (s.ranOn (f s.h.r)) := by
  rw [done_eq_ranOn]

/-- `csel` writes one of two registers to rd (R97). -/
theorem exec_csel (s : State) (rd ra rb : BitVec 5) (c : BitVec 3) :
    exec (.csel rd ra rb c) s = .next (s.ranOn (s.h.r.writeS rd (if s.h.r.readC c then s.h.r.readS ra else s.h.r.readS rb))) :=
  next_done

/-! ### Operand fields as numbers -/

theorem toNat_append_eq_add {n m : Nat} (x : BitVec n) (y : BitVec m) : (x ++ y).toNat = x.toNat * 2 ^ m + y.toNat := by
  rw [BitVec.toNat_append, ← Nat.shiftLeft_add_eq_or_of_lt y.isLt, Nat.shiftLeft_eq]

/-- A condition register in a register field (R60). -/
def condField (c : BitVec 3) : BitVec 5 := (0 : BitVec 2) ++ c

theorem toNat_condField (c : BitVec 3) : (condField c).toNat = c.toNat := by
  rw [condField, toNat_append_eq_add]
  exact Nat.zero_add _

@[simp] theorem condField_high_bits (c : BitVec 3) : (condField c).toNat / 8 = 0 := by
  rw [toNat_condField, Nat.div_eq_of_lt c.isLt]

@[simp] theorem setWidth_condField (c : BitVec 3) : (condField c).setWidth 3 = c :=
  BitVec.eq_of_toNat_eq (by rw [BitVec.toNat_setWidth, toNat_condField, Nat.mod_eq_of_lt c.isLt])

/-- The function bits of `cmp`: the condition in [5:3] (R96). -/
def cmpFunction (m : BitVec 3) : BitVec 10 := (0 : BitVec 4) ++ m ++ (0 : BitVec 3)

theorem toNat_cmpFunction (m : BitVec 3) : (cmpFunction m).toNat = 8 * m.toNat := by
  simp only [cmpFunction, toNat_append_eq_add, BitVec.ofNat_eq_ofNat, BitVec.toNat_ofNat]
  omega

/-- The function bits of `csel`: the condition register in [8:6] (R97). -/
def cselFunction (c : BitVec 3) : BitVec 10 := (0 : BitVec 1) ++ c ++ (5 : BitVec 6)

theorem toNat_cselFunction (c : BitVec 3) : (cselFunction c).toNat = 64 * c.toNat + 5 := by
  simp only [cselFunction, toNat_append_eq_add, BitVec.ofNat_eq_ofNat, BitVec.toNat_ofNat]
  omega

/-! ### The two shapes of words (R59) -/

/-- A major opcode, three register fields and ten function bits. -/
def formWord (major : BitVec 7) (d x y : BitVec 5) (f : BitVec 10) : BitVec 32 := major ++ d ++ x ++ y ++ f

theorem toNat_formWord (major : BitVec 7) (d x y : BitVec 5) (f : BitVec 10) :
    (formWord major d x y f).toNat = major.toNat * 2 ^ 25 + d.toNat * 2 ^ 20 + x.toNat * 2 ^ 15 + y.toNat * 2 ^ 10 + f.toNat := by
  simp only [formWord, toNat_append_eq_add]
  omega

/-- What the decoder of major 0x03 tests in such a word. -/
theorem fld_formWord (major : BitVec 7) (d x y : BitVec 5) (f : BitVec 10) :
    let w := formWord major d x y f
    fld w 25 7 = major.toNat ∧ fld w 23 2 = d.toNat / 8 ∧ fld w 18 2 = x.toNat / 8 ∧ fld w 13 2 = y.toNat / 8 ∧
    fld w 9 1 = f.toNat / 512 ∧ fld w 6 4 = f.toNat / 64 ∧ fld w 0 15 = y.toNat * 1024 + f.toNat ∧ fld w 0 10 = f.toNat ∧
    fld w 0 6 = f.toNat % 64 ∧ fld w 0 3 = f.toNat % 8 := by
  simp only [fld, toNat_formWord]
  omega

/-- What it takes as operands: registers, condition registers, and condition codes of the function bits. -/
theorem bits_formWord (major : BitVec 7) (d x y : BitVec 5) (f : BitVec 10) :
    let w := formWord major d x y f
    bits w 20 5 = d ∧ bits w 15 5 = x ∧ bits w 10 5 = y ∧ bits w 20 3 = d.setWidth 3 ∧ bits w 15 3 = x.setWidth 3 ∧
    bits w 10 3 = y.setWidth 3 ∧ bits w 6 3 = BitVec.ofNat 3 (f.toNat / 64) ∧ bits w 3 3 = BitVec.ofNat 3 (f.toNat / 8) := by
  simp only [bits, fld, toNat_formWord, ← BitVec.toNat_inj, BitVec.toNat_ofNat, BitVec.toNat_setWidth]
  omega

/-- A major opcode, a condition register, a register and an immediate of 15 bits. -/
def cmpiWord (major : BitVec 7) (cd : BitVec 3) (ra : BitVec 5) (imm : BitVec 15) : BitVec 32 :=
  major ++ (0 : BitVec 2) ++ cd ++ ra ++ imm

theorem toNat_cmpiWord (major : BitVec 7) (cd : BitVec 3) (ra : BitVec 5) (imm : BitVec 15) :
    (cmpiWord major cd ra imm).toNat = major.toNat * 2 ^ 25 + cd.toNat * 2 ^ 20 + ra.toNat * 2 ^ 15 + imm.toNat := by
  simp only [cmpiWord, toNat_append_eq_add, BitVec.ofNat_eq_ofNat, BitVec.toNat_ofNat]
  omega

/-- What the decoders of majors 0x11 to 0x16 test in such a word, and what they take as operands. -/
theorem fields_cmpiWord (major : BitVec 7) (cd : BitVec 3) (ra : BitVec 5) (imm : BitVec 15) :
    let w := cmpiWord major cd ra imm
    fld w 25 7 = major.toNat ∧ fld w 23 2 = 0 ∧ bits w 20 3 = cd ∧ bits w 15 5 = ra ∧ bits w 0 15 = imm := by
  simp only [bits, fld, toNat_cmpiWord, ← BitVec.toNat_inj, BitVec.toNat_ofNat]
  omega

/-! ### Decoding -/

/-- A word whose raw instruction keeps the operand rules decodes to it. -/
theorem decodeScalar_of_raw {w : BitVec 32} {i : Instr} (hr : rawScalar w = some i) (hi : i.wf = true) :
    decodeScalar w = .ok i := by
  rw [decodeScalar, hr]
  exact if_pos hi

/-- Major 0x03 holds the forms that compare or work on condition bits. -/
theorem decodeScalar_of_dec03 {d x y : BitVec 5} {f : BitVec 10} {i : Instr} (hr : dec03 (formWord 0x03 d x y f) = some i)
    (hi : i.wf = true) : decodeScalar (formWord 0x03 d x y f) = .ok i := by
  obtain ⟨hmajor, -⟩ := fld_formWord 0x03 d x y f
  refine decodeScalar_of_raw ?_ hi
  rw [rawScalar, hmajor]
  exact hr

theorem decode_cmp (cd : BitVec 3) (ra rb : BitVec 5) {m : BitVec 3} (hm : m.toNat < 6) :
    decodeScalar (formWord 0x03 (condField cd) ra rb (cmpFunction m)) = .ok (.cmp cd ra rb m) := by
  have hlow : 8 * m.toNat / 64 = 0 := Nat.div_eq_of_lt (by omega)
  refine decodeScalar_of_dec03 ?_ (decide_eq_true (Nat.le_of_lt_succ hm))
  simp [dec03, fld_formWord, bits_formWord, toNat_cmpFunction, hlow]

theorem decode_cand (cd ca cb : BitVec 3) :
    decodeScalar (formWord 0x03 (condField cd) (condField ca) (condField cb) 1) = .ok (.cand cd ca cb) :=
  decodeScalar_of_dec03 (by simp [dec03, fld_formWord, bits_formWord]) rfl

theorem decode_cor (cd ca cb : BitVec 3) :
    decodeScalar (formWord 0x03 (condField cd) (condField ca) (condField cb) 2) = .ok (.cor cd ca cb) :=
  decodeScalar_of_dec03 (by simp [dec03, fld_formWord, bits_formWord]) rfl

theorem decode_cxor (cd ca cb : BitVec 3) :
    decodeScalar (formWord 0x03 (condField cd) (condField ca) (condField cb) 3) = .ok (.cxor cd ca cb) :=
  decodeScalar_of_dec03 (by simp [dec03, fld_formWord, bits_formWord]) rfl

theorem decode_cnot (cd ca : BitVec 3) :
    decodeScalar (formWord 0x03 (condField cd) (condField ca) 0 4) = .ok (.cnot cd ca) :=
  decodeScalar_of_dec03 (by simp [dec03, fld_formWord, bits_formWord]) rfl

theorem decode_csel (rd ra rb : BitVec 5) (ca : BitVec 3) :
    decodeScalar (formWord 0x03 rd ra rb (cselFunction ca)) = .ok (.csel rd ra rb ca) := by
  have hcmp : (64 * ca.toNat + 5) % 8 = 5 := by omega
  have hfun : (64 * ca.toNat + 5) % 64 = 5 := by omega
  have hhigh : (64 * ca.toNat + 5) / 512 = 0 := Nat.div_eq_of_lt (by omega)
  have hcond : (64 * ca.toNat + 5) / 64 = ca.toNat := by omega
  have hcnot : rb.toNat * 1024 + (64 * ca.toNat + 5) ≠ 4 := by omega
  refine decodeScalar_of_dec03 ?_ rfl
  simp [dec03, fld_formWord, bits_formWord, toNat_cselFunction, hcmp, hfun, hhigh, hcond, hcnot]

/-- The immediate forms, each with a major opcode of its own (R96). -/
theorem decode_cmpi (cd : BitVec 3) (ra : BitVec 5) (imm : BitVec 15) :
    decodeScalar (cmpiWord 0x11 cd ra imm) = .ok (.cmpiEq cd ra imm) ∧ decodeScalar (cmpiWord 0x12 cd ra imm) = .ok (.cmpiNe cd ra imm) ∧
    decodeScalar (cmpiWord 0x13 cd ra imm) = .ok (.cmpiLt cd ra imm) ∧ decodeScalar (cmpiWord 0x14 cd ra imm) = .ok (.cmpiGe cd ra imm) ∧
    decodeScalar (cmpiWord 0x15 cd ra imm) = .ok (.cmpiLtn cd ra imm) ∧ decodeScalar (cmpiWord 0x16 cd ra imm) = .ok (.cmpiGen cd ra imm) := by
  refine ⟨decodeScalar_of_raw ?_ rfl, decodeScalar_of_raw ?_ rfl, decodeScalar_of_raw ?_ rfl, decodeScalar_of_raw ?_ rfl,
    decodeScalar_of_raw ?_ rfl, decodeScalar_of_raw ?_ rfl⟩
  · simp [rawScalar, dec11, fields_cmpiWord]
  · simp [rawScalar, dec12, fields_cmpiWord]
  · simp [rawScalar, dec13, fields_cmpiWord]
  · simp [rawScalar, dec14, fields_cmpiWord]
  · simp [rawScalar, dec15, fields_cmpiWord]
  · simp [rawScalar, dec16, fields_cmpiWord]

/-- The word of `cmp`, its fields written out one by one. -/
theorem cmpWord_eq_formWord (cd : BitVec 3) (ra rb : BitVec 5) (m : BitVec 3) :
    (0x03 : BitVec 7) ++ (0 : BitVec 2) ++ cd ++ ra ++ rb ++ (0 : BitVec 4) ++ m ++ (0 : BitVec 3) =
      formWord 0x03 (condField cd) ra rb (cmpFunction m) := by
  refine BitVec.eq_of_toNat_eq ?_
  simp only [toNat_formWord, toNat_condField, toNat_cmpFunction, toNat_append_eq_add, BitVec.ofNat_eq_ofNat, BitVec.toNat_ofNat]
  omega

/-- Settles O11: the shapes of the forms with what their conditions compare, and their words decoded field by field. -/
theorem comparesAndConditions : Obligations.ComparesAndConditions := by
  unfold Obligations.ComparesAndConditions
  refine ⟨fun s cd ra rb imm => ?_, fun s cd ca cb rd ra rb => ?_⟩
  · obtain ⟨heq, hne, hlt, hge, hltn, hgen⟩ := compareW_eq (s.h.r.readS ra) (s.h.r.readS rb)
    obtain ⟨ieq, ine, ilt, ige, iltn, igen⟩ := compareW_eq (s.h.r.readS ra) (imm.signExtend 64)
    rw [toInt_signExtend_imm] at ilt ige
    refine ⟨next_cmpTo heq, next_cmpTo hne, next_cmpTo hlt, next_cmpTo hge, next_cmpTo hltn, next_cmpTo hgen,
      next_cmpTo ieq, next_cmpTo ine, next_cmpTo ilt, next_cmpTo ige, next_cmpTo iltn, next_cmpTo igen,
      fun m hm => ?_, decode_cmpi cd ra imm⟩
    rw [cmpWord_eq_formWord]
    exact decode_cmp cd ra rb hm
  · refine ⟨next_done, next_done, next_done, next_done, fun hx => ?_, fun hx => ?_,
      decode_cand cd ca cb, decode_cor cd ca cb, decode_cxor cd ca cb, decode_cnot cd ca, decode_csel rd ra rb ca⟩
    · rw [exec_csel, if_pos hx]
    · rw [exec_csel, if_neg (Bool.eq_false_iff.1 hx)]

end Sys2Proof.Machine
end
